-- ==== Sys2Proof/Word.lean ====
section
/-! DEFINITION. The word types of the machine. A register is 64 bits wide (spec/10_state.md R30), a 32-bit operation
works on 32 bits (R31), memory is addressed by the byte (spec/20_memory.md R60). -/

namespace Sys2Proof

/-- One byte of memory or of an instruction slot. -/
abbrev Byte := BitVec 8

/-- The 32-bit operand of class ALU and JMP32 (spec/10_state.md R31). -/
abbrev W32 := BitVec 32

/-- The 64-bit content of a register, and an address (spec/10_state.md R30, spec/20_memory.md R60). -/
abbrev W64 := BitVec 64

end Sys2Proof
end

