-- ==== Sys2Proof/Syntax.lean ====
section
/-! DEFINITION. The instructions, one constructor for each row of spec/opcode_table.json, and the shapes a decoder
works on: the slot of eight bytes and the fields of a slot (spec/30_encoding.md R101 to R109). -/

namespace Sys2Proof

/-- The number of a general register, R0 to R10 (spec/10_state.md R30). Numbers 11 to 15 fit a field and name no
register (spec/30_encoding.md R119): the decoder refuses them. -/
abbrev Reg := Fin 11

/-- The byte order of the host, the parameter HOST_ENDIAN (spec/00_scope.md R11). -/
inductive Endian where
  | little
  | big
  deriving DecidableEq, Repr

/-- One slot of program text: eight bytes in the order they are stored (spec/30_encoding.md R101). -/
structure Slot where
  b0 : Byte
  b1 : Byte
  b2 : Byte
  b3 : Byte
  b4 : Byte
  b5 : Byte
  b6 : Byte
  b7 : Byte
  deriving DecidableEq, Repr

/-- The five fields of a slot (spec/30_encoding.md R101 to R106). -/
structure Fields where
  opcode : BitVec 8
  dst : BitVec 4
  src : BitVec 4
  offset : BitVec 16
  imm : W32
  deriving DecidableEq, Repr

/-- Why a slot, or pair of slots, is not the encoding of an instruction (spec/30_encoding.md R119 to R121). -/
inductive Reject where
  /-- There is no slot to decode. -/
  | noSlot
  /-- The opcode byte is not assigned (R121). -/
  | unassignedOpcode
  /-- A field the instruction does not use is not zero (R108). -/
  | unusedField
  /-- A register field holds 11 to 15 (R119). -/
  | noSuchRegister
  /-- The offset selects no operation: DIV, MOD, MOV opcodes (R116, R121). -/
  | offsetSelector
  /-- The imm selects no operation: END width, ATOMIC operation (R121). -/
  | immSelector
  /-- The src_reg selects no subtype: CALL, opcode 0x18 (R119). -/
  | srcSelector
  /-- A wide instruction has no second slot (R120 item 4). -/
  | missingSecondSlot
  /-- The second slot of a wide instruction has a reserved word that is not zero (R109). -/
  | reservedWord
  /-- next_imm breaks the condition of its subtype (spec/48_imm64.md R479). -/
  | nextImm
  deriving DecidableEq, Repr

/-- The instructions. `dst`, `src` are register numbers, `imm`, `off`, `nextImm` the fields imm, offset, next_imm. -/
inductive Instr where
  /-- ADD32_IMM, spec/40_arithmetic_a.md R210. -/
  | add32Imm (dst : Reg) (imm : W32)
  /-- ADD32_REG, spec/40_arithmetic_a.md R211. -/
  | add32Reg (dst : Reg) (src : Reg)
  /-- ADD64_IMM, spec/40_arithmetic_a.md R212. -/
  | add64Imm (dst : Reg) (imm : W32)
  /-- ADD64_REG, spec/40_arithmetic_a.md R213. -/
  | add64Reg (dst : Reg) (src : Reg)
  /-- SUB32_IMM, spec/40_arithmetic_a.md R214. -/
  | sub32Imm (dst : Reg) (imm : W32)
  /-- SUB32_REG, spec/40_arithmetic_a.md R215. -/
  | sub32Reg (dst : Reg) (src : Reg)
  /-- SUB64_IMM, spec/40_arithmetic_a.md R216. -/
  | sub64Imm (dst : Reg) (imm : W32)
  /-- SUB64_REG, spec/40_arithmetic_a.md R217. -/
  | sub64Reg (dst : Reg) (src : Reg)
  /-- MUL32_IMM, spec/40_arithmetic_a.md R218. -/
  | mul32Imm (dst : Reg) (imm : W32)
  /-- MUL32_REG, spec/40_arithmetic_a.md R219. -/
  | mul32Reg (dst : Reg) (src : Reg)
  /-- MUL64_IMM, spec/40_arithmetic_a.md R220. -/
  | mul64Imm (dst : Reg) (imm : W32)
  /-- MUL64_REG, spec/40_arithmetic_a.md R221. -/
  | mul64Reg (dst : Reg) (src : Reg)
  /-- DIV32_IMM, spec/40_arithmetic_a.md R222. -/
  | div32Imm (dst : Reg) (imm : W32)
  /-- DIV32_REG, spec/40_arithmetic_a.md R223. -/
  | div32Reg (dst : Reg) (src : Reg)
  /-- DIV64_IMM, spec/40_arithmetic_a.md R224. -/
  | div64Imm (dst : Reg) (imm : W32)
  /-- DIV64_REG, spec/40_arithmetic_a.md R225. -/
  | div64Reg (dst : Reg) (src : Reg)
  /-- SDIV32_IMM, spec/40_arithmetic_a.md R226. -/
  | sdiv32Imm (dst : Reg) (imm : W32)
  /-- SDIV32_REG, spec/40_arithmetic_a.md R227. -/
  | sdiv32Reg (dst : Reg) (src : Reg)
  /-- SDIV64_IMM, spec/40_arithmetic_a.md R228. -/
  | sdiv64Imm (dst : Reg) (imm : W32)
  /-- SDIV64_REG, spec/40_arithmetic_a.md R229. -/
  | sdiv64Reg (dst : Reg) (src : Reg)
  /-- OR32_IMM, spec/41_arithmetic_b.md R230. -/
  | or32Imm (dst : Reg) (imm : W32)
  /-- OR32_REG, spec/41_arithmetic_b.md R231. -/
  | or32Reg (dst : Reg) (src : Reg)
  /-- OR64_IMM, spec/41_arithmetic_b.md R232. -/
  | or64Imm (dst : Reg) (imm : W32)
  /-- OR64_REG, spec/41_arithmetic_b.md R233. -/
  | or64Reg (dst : Reg) (src : Reg)
  /-- AND32_IMM, spec/41_arithmetic_b.md R234. -/
  | and32Imm (dst : Reg) (imm : W32)
  /-- AND32_REG, spec/41_arithmetic_b.md R235. -/
  | and32Reg (dst : Reg) (src : Reg)
  /-- AND64_IMM, spec/41_arithmetic_b.md R236. -/
  | and64Imm (dst : Reg) (imm : W32)
  /-- AND64_REG, spec/41_arithmetic_b.md R237. -/
  | and64Reg (dst : Reg) (src : Reg)
  /-- LSH32_IMM, spec/41_arithmetic_b.md R238. -/
  | lsh32Imm (dst : Reg) (imm : W32)
  /-- LSH32_REG, spec/41_arithmetic_b.md R239. -/
  | lsh32Reg (dst : Reg) (src : Reg)
  /-- LSH64_IMM, spec/41_arithmetic_b.md R240. -/
  | lsh64Imm (dst : Reg) (imm : W32)
  /-- LSH64_REG, spec/41_arithmetic_b.md R241. -/
  | lsh64Reg (dst : Reg) (src : Reg)
  /-- RSH32_IMM, spec/41_arithmetic_b.md R242. -/
  | rsh32Imm (dst : Reg) (imm : W32)
  /-- RSH32_REG, spec/41_arithmetic_b.md R243. -/
  | rsh32Reg (dst : Reg) (src : Reg)
  /-- RSH64_IMM, spec/41_arithmetic_b.md R244. -/
  | rsh64Imm (dst : Reg) (imm : W32)
  /-- RSH64_REG, spec/41_arithmetic_b.md R245. -/
  | rsh64Reg (dst : Reg) (src : Reg)
  /-- NEG32, spec/41_arithmetic_b.md R264. -/
  | neg32 (dst : Reg)
  /-- NEG64, spec/41_arithmetic_b.md R265. -/
  | neg64 (dst : Reg)
  /-- MOD32_IMM, spec/41_arithmetic_b.md R266. -/
  | mod32Imm (dst : Reg) (imm : W32)
  /-- MOD32_REG, spec/41_arithmetic_b.md R267. -/
  | mod32Reg (dst : Reg) (src : Reg)
  /-- MOD64_IMM, spec/41_arithmetic_b.md R268. -/
  | mod64Imm (dst : Reg) (imm : W32)
  /-- MOD64_REG, spec/41_arithmetic_b.md R269. -/
  | mod64Reg (dst : Reg) (src : Reg)
  /-- SMOD32_IMM, spec/41_arithmetic_b.md R270. -/
  | smod32Imm (dst : Reg) (imm : W32)
  /-- SMOD32_REG, spec/41_arithmetic_b.md R271. -/
  | smod32Reg (dst : Reg) (src : Reg)
  /-- SMOD64_IMM, spec/41_arithmetic_b.md R272. -/
  | smod64Imm (dst : Reg) (imm : W32)
  /-- SMOD64_REG, spec/41_arithmetic_b.md R273. -/
  | smod64Reg (dst : Reg) (src : Reg)
  /-- XOR32_IMM, spec/42_arithmetic_c.md R274. -/
  | xor32Imm (dst : Reg) (imm : W32)
  /-- XOR32_REG, spec/42_arithmetic_c.md R275. -/
  | xor32Reg (dst : Reg) (src : Reg)
  /-- XOR64_IMM, spec/42_arithmetic_c.md R276. -/
  | xor64Imm (dst : Reg) (imm : W32)
  /-- XOR64_REG, spec/42_arithmetic_c.md R277. -/
  | xor64Reg (dst : Reg) (src : Reg)
  /-- MOV32_IMM, spec/42_arithmetic_c.md R278. -/
  | mov32Imm (dst : Reg) (imm : W32)
  /-- MOV32_REG, spec/42_arithmetic_c.md R279. -/
  | mov32Reg (dst : Reg) (src : Reg)
  /-- MOV64_IMM, spec/42_arithmetic_c.md R280. -/
  | mov64Imm (dst : Reg) (imm : W32)
  /-- MOV64_REG, spec/42_arithmetic_c.md R281. -/
  | mov64Reg (dst : Reg) (src : Reg)
  /-- MOVSX32_8, spec/42_arithmetic_c.md R282. -/
  | movsx32x8 (dst : Reg) (src : Reg)
  /-- MOVSX32_16, spec/42_arithmetic_c.md R283. -/
  | movsx32x16 (dst : Reg) (src : Reg)
  /-- MOVSX64_8, spec/42_arithmetic_c.md R284. -/
  | movsx64x8 (dst : Reg) (src : Reg)
  /-- MOVSX64_16, spec/42_arithmetic_c.md R285. -/
  | movsx64x16 (dst : Reg) (src : Reg)
  /-- MOVSX64_32, spec/42_arithmetic_c.md R286. -/
  | movsx64x32 (dst : Reg) (src : Reg)
  /-- ARSH32_IMM, spec/42_arithmetic_c.md R287. -/
  | arsh32Imm (dst : Reg) (imm : W32)
  /-- ARSH32_REG, spec/42_arithmetic_c.md R288. -/
  | arsh32Reg (dst : Reg) (src : Reg)
  /-- ARSH64_IMM, spec/42_arithmetic_c.md R289. -/
  | arsh64Imm (dst : Reg) (imm : W32)
  /-- ARSH64_REG, spec/42_arithmetic_c.md R290. -/
  | arsh64Reg (dst : Reg) (src : Reg)
  /-- LE16, spec/43_byteswap.md R314. -/
  | le16 (dst : Reg)
  /-- LE32, spec/43_byteswap.md R315. -/
  | le32 (dst : Reg)
  /-- LE64, spec/43_byteswap.md R316. -/
  | le64 (dst : Reg)
  /-- BE16, spec/43_byteswap.md R317. -/
  | be16 (dst : Reg)
  /-- BE32, spec/43_byteswap.md R318. -/
  | be32 (dst : Reg)
  /-- BE64, spec/43_byteswap.md R319. -/
  | be64 (dst : Reg)
  /-- BSWAP16, spec/43_byteswap.md R320. -/
  | bswap16 (dst : Reg)
  /-- BSWAP32, spec/43_byteswap.md R321. -/
  | bswap32 (dst : Reg)
  /-- BSWAP64, spec/43_byteswap.md R322. -/
  | bswap64 (dst : Reg)
  /-- JA, spec/44_jump_a.md R330. -/
  | ja (off : BitVec 16)
  /-- JA32, spec/44_jump_a.md R331. -/
  | ja32 (imm : W32)
  /-- JEQ64_IMM, spec/44_jump_a.md R340. -/
  | jeq64Imm (dst : Reg) (off : BitVec 16) (imm : W32)
  /-- JEQ64_REG, spec/44_jump_a.md R341. -/
  | jeq64Reg (dst : Reg) (src : Reg) (off : BitVec 16)
  /-- JEQ32_IMM, spec/44_jump_a.md R342. -/
  | jeq32Imm (dst : Reg) (off : BitVec 16) (imm : W32)
  /-- JEQ32_REG, spec/44_jump_a.md R343. -/
  | jeq32Reg (dst : Reg) (src : Reg) (off : BitVec 16)
  /-- JGT64_IMM, spec/44_jump_a.md R344. -/
  | jgt64Imm (dst : Reg) (off : BitVec 16) (imm : W32)
  /-- JGT64_REG, spec/44_jump_a.md R345. -/
  | jgt64Reg (dst : Reg) (src : Reg) (off : BitVec 16)
  /-- JGT32_IMM, spec/44_jump_a.md R346. -/
  | jgt32Imm (dst : Reg) (off : BitVec 16) (imm : W32)
  /-- JGT32_REG, spec/44_jump_a.md R347. -/
  | jgt32Reg (dst : Reg) (src : Reg) (off : BitVec 16)
  /-- JGE64_IMM, spec/44_jump_a.md R348. -/
  | jge64Imm (dst : Reg) (off : BitVec 16) (imm : W32)
  /-- JGE64_REG, spec/44_jump_a.md R349. -/
  | jge64Reg (dst : Reg) (src : Reg) (off : BitVec 16)
  /-- JGE32_IMM, spec/44_jump_a.md R350. -/
  | jge32Imm (dst : Reg) (off : BitVec 16) (imm : W32)
  /-- JGE32_REG, spec/44_jump_a.md R351. -/
  | jge32Reg (dst : Reg) (src : Reg) (off : BitVec 16)
  /-- JSET64_IMM, spec/44_jump_a.md R352. -/
  | jset64Imm (dst : Reg) (off : BitVec 16) (imm : W32)
  /-- JSET64_REG, spec/44_jump_a.md R353. -/
  | jset64Reg (dst : Reg) (src : Reg) (off : BitVec 16)
  /-- JSET32_IMM, spec/44_jump_a.md R354. -/
  | jset32Imm (dst : Reg) (off : BitVec 16) (imm : W32)
  /-- JSET32_REG, spec/44_jump_a.md R355. -/
  | jset32Reg (dst : Reg) (src : Reg) (off : BitVec 16)
  /-- JNE64_IMM, spec/44_jump_a.md R356. -/
  | jne64Imm (dst : Reg) (off : BitVec 16) (imm : W32)
  /-- JNE64_REG, spec/44_jump_a.md R357. -/
  | jne64Reg (dst : Reg) (src : Reg) (off : BitVec 16)
  /-- JNE32_IMM, spec/44_jump_a.md R358. -/
  | jne32Imm (dst : Reg) (off : BitVec 16) (imm : W32)
  /-- JNE32_REG, spec/44_jump_a.md R359. -/
  | jne32Reg (dst : Reg) (src : Reg) (off : BitVec 16)
  /-- JSGT64_IMM, spec/44_jump_a.md R360. -/
  | jsgt64Imm (dst : Reg) (off : BitVec 16) (imm : W32)
  /-- JSGT64_REG, spec/44_jump_a.md R361. -/
  | jsgt64Reg (dst : Reg) (src : Reg) (off : BitVec 16)
  /-- JSGT32_IMM, spec/44_jump_a.md R362. -/
  | jsgt32Imm (dst : Reg) (off : BitVec 16) (imm : W32)
  /-- JSGT32_REG, spec/44_jump_a.md R363. -/
  | jsgt32Reg (dst : Reg) (src : Reg) (off : BitVec 16)
  /-- JSGE64_IMM, spec/44_jump_a.md R364. -/
  | jsge64Imm (dst : Reg) (off : BitVec 16) (imm : W32)
  /-- JSGE64_REG, spec/44_jump_a.md R365. -/
  | jsge64Reg (dst : Reg) (src : Reg) (off : BitVec 16)
  /-- JSGE32_IMM, spec/44_jump_a.md R366. -/
  | jsge32Imm (dst : Reg) (off : BitVec 16) (imm : W32)
  /-- JSGE32_REG, spec/44_jump_a.md R367. -/
  | jsge32Reg (dst : Reg) (src : Reg) (off : BitVec 16)
  /-- JLT64_IMM, spec/45_jump_b.md R368. -/
  | jlt64Imm (dst : Reg) (off : BitVec 16) (imm : W32)
  /-- JLT64_REG, spec/45_jump_b.md R369. -/
  | jlt64Reg (dst : Reg) (src : Reg) (off : BitVec 16)
  /-- JLT32_IMM, spec/45_jump_b.md R370. -/
  | jlt32Imm (dst : Reg) (off : BitVec 16) (imm : W32)
  /-- JLT32_REG, spec/45_jump_b.md R371. -/
  | jlt32Reg (dst : Reg) (src : Reg) (off : BitVec 16)
  /-- JLE64_IMM, spec/45_jump_b.md R372. -/
  | jle64Imm (dst : Reg) (off : BitVec 16) (imm : W32)
  /-- JLE64_REG, spec/45_jump_b.md R373. -/
  | jle64Reg (dst : Reg) (src : Reg) (off : BitVec 16)
  /-- JLE32_IMM, spec/45_jump_b.md R374. -/
  | jle32Imm (dst : Reg) (off : BitVec 16) (imm : W32)
  /-- JLE32_REG, spec/45_jump_b.md R375. -/
  | jle32Reg (dst : Reg) (src : Reg) (off : BitVec 16)
  /-- JSLT64_IMM, spec/45_jump_b.md R376. -/
  | jslt64Imm (dst : Reg) (off : BitVec 16) (imm : W32)
  /-- JSLT64_REG, spec/45_jump_b.md R377. -/
  | jslt64Reg (dst : Reg) (src : Reg) (off : BitVec 16)
  /-- JSLT32_IMM, spec/45_jump_b.md R378. -/
  | jslt32Imm (dst : Reg) (off : BitVec 16) (imm : W32)
  /-- JSLT32_REG, spec/45_jump_b.md R379. -/
  | jslt32Reg (dst : Reg) (src : Reg) (off : BitVec 16)
  /-- JSLE64_IMM, spec/45_jump_b.md R380. -/
  | jsle64Imm (dst : Reg) (off : BitVec 16) (imm : W32)
  /-- JSLE64_REG, spec/45_jump_b.md R381. -/
  | jsle64Reg (dst : Reg) (src : Reg) (off : BitVec 16)
  /-- JSLE32_IMM, spec/45_jump_b.md R382. -/
  | jsle32Imm (dst : Reg) (off : BitVec 16) (imm : W32)
  /-- JSLE32_REG, spec/45_jump_b.md R383. -/
  | jsle32Reg (dst : Reg) (src : Reg) (off : BitVec 16)
  /-- CALL_HELPER, spec/45_jump_b.md R386. -/
  | callHelper (imm : W32)
  /-- CALL_LOCAL, spec/45_jump_b.md R387. -/
  | callLocal (imm : W32)
  /-- CALL_BTF, spec/45_jump_b.md R388. -/
  | callBtf (imm : W32)
  /-- EXIT, spec/45_jump_b.md R389. -/
  | exit
  /-- LDXW, spec/46_load_store.md R402. -/
  | ldxw (dst : Reg) (src : Reg) (off : BitVec 16)
  /-- LDXH, spec/46_load_store.md R403. -/
  | ldxh (dst : Reg) (src : Reg) (off : BitVec 16)
  /-- LDXB, spec/46_load_store.md R404. -/
  | ldxb (dst : Reg) (src : Reg) (off : BitVec 16)
  /-- LDXDW, spec/46_load_store.md R405. -/
  | ldxdw (dst : Reg) (src : Reg) (off : BitVec 16)
  /-- STW, spec/46_load_store.md R406. -/
  | stw (dst : Reg) (off : BitVec 16) (imm : W32)
  /-- STH, spec/46_load_store.md R407. -/
  | sth (dst : Reg) (off : BitVec 16) (imm : W32)
  /-- STB, spec/46_load_store.md R408. -/
  | stb (dst : Reg) (off : BitVec 16) (imm : W32)
  /-- STDW, spec/46_load_store.md R409. -/
  | stdw (dst : Reg) (off : BitVec 16) (imm : W32)
  /-- STXW, spec/46_load_store.md R410. -/
  | stxw (dst : Reg) (src : Reg) (off : BitVec 16)
  /-- STXH, spec/46_load_store.md R411. -/
  | stxh (dst : Reg) (src : Reg) (off : BitVec 16)
  /-- STXB, spec/46_load_store.md R412. -/
  | stxb (dst : Reg) (src : Reg) (off : BitVec 16)
  /-- STXDW, spec/46_load_store.md R413. -/
  | stxdw (dst : Reg) (src : Reg) (off : BitVec 16)
  /-- LDXSW, spec/46_load_store.md R414. -/
  | ldxsw (dst : Reg) (src : Reg) (off : BitVec 16)
  /-- LDXSH, spec/46_load_store.md R415. -/
  | ldxsh (dst : Reg) (src : Reg) (off : BitVec 16)
  /-- LDXSB, spec/46_load_store.md R416. -/
  | ldxsb (dst : Reg) (src : Reg) (off : BitVec 16)
  /-- ATOMIC_ADD32, spec/47_atomic.md R440. -/
  | atomicAdd32 (dst : Reg) (src : Reg) (off : BitVec 16)
  /-- ATOMIC_FETCH_ADD32, spec/47_atomic.md R441. -/
  | atomicFetchAdd32 (dst : Reg) (src : Reg) (off : BitVec 16)
  /-- ATOMIC_OR32, spec/47_atomic.md R442. -/
  | atomicOr32 (dst : Reg) (src : Reg) (off : BitVec 16)
  /-- ATOMIC_FETCH_OR32, spec/47_atomic.md R443. -/
  | atomicFetchOr32 (dst : Reg) (src : Reg) (off : BitVec 16)
  /-- ATOMIC_AND32, spec/47_atomic.md R444. -/
  | atomicAnd32 (dst : Reg) (src : Reg) (off : BitVec 16)
  /-- ATOMIC_FETCH_AND32, spec/47_atomic.md R445. -/
  | atomicFetchAnd32 (dst : Reg) (src : Reg) (off : BitVec 16)
  /-- ATOMIC_XOR32, spec/47_atomic.md R446. -/
  | atomicXor32 (dst : Reg) (src : Reg) (off : BitVec 16)
  /-- ATOMIC_FETCH_XOR32, spec/47_atomic.md R447. -/
  | atomicFetchXor32 (dst : Reg) (src : Reg) (off : BitVec 16)
  /-- ATOMIC_XCHG32, spec/47_atomic.md R448. -/
  | atomicXchg32 (dst : Reg) (src : Reg) (off : BitVec 16)
  /-- ATOMIC_CMPXCHG32, spec/47_atomic.md R449. -/
  | atomicCmpxchg32 (dst : Reg) (src : Reg) (off : BitVec 16)
  /-- ATOMIC_ADD64, spec/47_atomic.md R450. -/
  | atomicAdd64 (dst : Reg) (src : Reg) (off : BitVec 16)
  /-- ATOMIC_FETCH_ADD64, spec/47_atomic.md R451. -/
  | atomicFetchAdd64 (dst : Reg) (src : Reg) (off : BitVec 16)
  /-- ATOMIC_OR64, spec/47_atomic.md R452. -/
  | atomicOr64 (dst : Reg) (src : Reg) (off : BitVec 16)
  /-- ATOMIC_FETCH_OR64, spec/47_atomic.md R453. -/
  | atomicFetchOr64 (dst : Reg) (src : Reg) (off : BitVec 16)
  /-- ATOMIC_AND64, spec/47_atomic.md R454. -/
  | atomicAnd64 (dst : Reg) (src : Reg) (off : BitVec 16)
  /-- ATOMIC_FETCH_AND64, spec/47_atomic.md R455. -/
  | atomicFetchAnd64 (dst : Reg) (src : Reg) (off : BitVec 16)
  /-- ATOMIC_XOR64, spec/47_atomic.md R456. -/
  | atomicXor64 (dst : Reg) (src : Reg) (off : BitVec 16)
  /-- ATOMIC_FETCH_XOR64, spec/47_atomic.md R457. -/
  | atomicFetchXor64 (dst : Reg) (src : Reg) (off : BitVec 16)
  /-- ATOMIC_XCHG64, spec/47_atomic.md R458. -/
  | atomicXchg64 (dst : Reg) (src : Reg) (off : BitVec 16)
  /-- ATOMIC_CMPXCHG64, spec/47_atomic.md R459. -/
  | atomicCmpxchg64 (dst : Reg) (src : Reg) (off : BitVec 16)
  /-- LDDW, spec/48_imm64.md R472. -/
  | lddw (dst : Reg) (imm : W32) (nextImm : W32)
  /-- LD_MAP_FD, spec/48_imm64.md R473. -/
  | ldMapFd (dst : Reg) (imm : W32)
  /-- LD_MAP_VAL_FD, spec/48_imm64.md R474. -/
  | ldMapValFd (dst : Reg) (imm : W32) (nextImm : W32)
  /-- LD_VAR_ADDR, spec/48_imm64.md R475. -/
  | ldVarAddr (dst : Reg) (imm : W32)
  /-- LD_CODE_ADDR, spec/48_imm64.md R476. -/
  | ldCodeAddr (dst : Reg) (imm : W32)
  /-- LD_MAP_IDX, spec/48_imm64.md R477. -/
  | ldMapIdx (dst : Reg) (imm : W32)
  /-- LD_MAP_VAL_IDX, spec/48_imm64.md R478. -/
  | ldMapValIdx (dst : Reg) (imm : W32) (nextImm : W32)
  /-- LD_ABS_W, spec/49_packet.md R491. -/
  | ldAbsW (imm : W32)
  /-- LD_ABS_H, spec/49_packet.md R492. -/
  | ldAbsH (imm : W32)
  /-- LD_ABS_B, spec/49_packet.md R493. -/
  | ldAbsB (imm : W32)
  /-- LD_IND_W, spec/49_packet.md R494. -/
  | ldIndW (src : Reg) (imm : W32)
  /-- LD_IND_H, spec/49_packet.md R495. -/
  | ldIndH (src : Reg) (imm : W32)
  /-- LD_IND_B, spec/49_packet.md R496. -/
  | ldIndB (src : Reg) (imm : W32)
  /-- IMM64_HI, spec/48_imm64.md R479. -/
  | imm64Hi (nextImm : W32)
  deriving DecidableEq, Repr

end Sys2Proof
end

