-- ==== Sys2Proof/Config.lean ====
section
/-! DEFINITION. What an implementation fixes: the parameters of spec/00_scope.md R11 as plain data, and the values the
spec leaves open, as constants with no body. -/

namespace Sys2Proof.Machine

/-- The eleven registers, each a 64-bit value or NoValue (spec/10_state.md R42, R46): `none` is the spec's NoValue. -/
abbrev Regs := Vector (Option W64) 11

/-- What a frame policy saves in a frame: registers with their content (spec/45_jump_b.md R387). -/
abbrev Saved := List (Reg × Option W64)

/-- The conformance groups (spec/00_scope.md R3). -/
inductive Group where
  | base32
  | base64
  | atomic32
  | atomic64
  | divmul32
  | divmul64
  | packet
  deriving DecidableEq, Repr

/-- The group each group brings with it, the includes column of spec/00_scope.md R3. -/
def Group.includes (g : Group) : Option Group :=
  match g with
  | .base64 => some .base32
  | .atomic64 => some .atomic32
  | .divmul64 => some .divmul32
  | .base32 | .atomic32 | .divmul32 | .packet => none

/-- What an access needs of a region, and the kind a MemFault records (spec/60_exceptions.md R505). -/
inductive Access where
  | read
  | write
  | rmw
  deriving DecidableEq, Repr

/-- One region of MEM_REGIONS (spec/20_memory.md R69). -/
structure Region where
  base : Nat
  len : Nat
  readable : Bool
  writable : Bool
  shared : Bool
  deriving DecidableEq, Repr

/-- What a misaligned LDX, ST or STX does, the parameter MISALIGNED (spec/20_memory.md R68). -/
inductive Misaligned where
  | fault
  | bytewise
  deriving DecidableEq, Repr

/-- How a convention gives a callee a register at a local call (log 12). -/
inductive CalleeValue where
  /-- The register holds this value. -/
  | value (v : W64)
  /-- The register holds the caller's value plus this, and none if the caller's register holds none. -/
  | plus (v : W64)
  deriving DecidableEq, Repr

/-- FRAME_POLICY as plain data (spec/45_jump_b.md R387, log 12). -/
inductive FramePolicy where
  /-- The default: nothing is saved, nothing changes. -/
  | identity
  /-- At a call the registers in `saved` go into the frame and those in `callee` are set for the callee.
  At the return the saved ones come back and those in `cleared` lose their value. -/
  | convention (saved : List Reg) (callee : List (Reg × CalleeValue)) (cleared : List Reg)
  /-- Any other pair of transformers: the platform's own, about which nothing is known. -/
  | platform (id : Nat)
  deriving DecidableEq, Repr

/-- The operations of a described helper's values: on 64 bits, a comparison is 1 or 0. -/
inductive HelperOp where
  | add
  | sub
  | mul
  | and
  | or
  | xor
  | shl
  | shr
  | eq
  | ult
  | slt
  deriving DecidableEq, Repr

/-- A value a described helper computes from the registers and memory it finds (log 11). -/
inductive HelperValue where
  /-- This value. -/
  | const (v : W64)
  /-- The content of a register. -/
  | reg (r : Reg)
  /-- The low 64 bits of the `n` bytes at an address in the host's order, zero-extended; in no region: log 23. -/
  | bytes (addr : HelperValue) (n : Nat)
  /-- Any value, one for each `k` and each call. -/
  | any (k : Nat)
  | op (f : HelperOp) (a b : HelperValue)
  deriving DecidableEq, Repr

/-- One way a described helper can go: possible when every value of `when` is nonzero. It sets the registers of `regs`
(none: left without a value) and stores values of so many bytes at addresses, in this order; nothing else changes. -/
structure HelperOutcome where
  when : List HelperValue
  regs : List (Reg × Option HelperValue)
  stores : List (HelperValue × Nat × HelperValue)
  deriving DecidableEq, Repr

/-- A helper relation (spec/45_jump_b.md R386, R388; log 11): what a helper makes of the registers and memory it finds. -/
inductive Helper where
  /-- Nothing is known of it: the weakest contract of R386. -/
  | unknown
  /-- Any of the outcomes that are possible; no result where none is. -/
  | described (outcomes : List HelperOutcome)
  /-- Any other relation: the platform's own. -/
  | platform (id : Nat)
  deriving DecidableEq, Repr

/-- What a helper leaves: every register and the bytes it wrote (spec/45_jump_b.md R386). -/
structure HelperEffect where
  regs : Regs
  writes : List Host.Cell
  deriving DecidableEq, Repr, Inhabited

/-- What a helper relation gives for one input: the registers it reads, and its result or none where it has no outcome
(spec/45_jump_b.md R386, spec/60_exceptions.md R508, R510). -/
structure HelperAnswer where
  reads : List Reg
  effect : Option HelperEffect
  deriving DecidableEq, Repr, Inhabited

/-- The parameters of a run (spec/00_scope.md R11), fixed at launch. Tables are lists of pairs; the first pair with a
key counts. Map handles are numbers (log 18). -/
structure Params where
  /-- HOST_ENDIAN -/
  hostEndian : Endian
  /-- SUPPORTED_GROUPS -/
  supportedGroups : List Group
  /-- PROGRAM -/
  program : List Slot
  /-- READONLY_REGS -/
  readonlyRegs : List Reg
  /-- MEM_REGIONS -/
  regions : List Region
  /-- MISALIGNED -/
  misaligned : Misaligned
  /-- HELPERS_BY_ADDR -/
  helpersByAddr : List (Int × Helper)
  /-- HELPERS_BY_BTF -/
  helpersByBtf : List (Int × Helper)
  /-- MAP_BY_FD -/
  mapByFd : List (Int × Nat)
  /-- MAP_BY_IDX -/
  mapByIdx : List (Int × Nat)
  /-- MAP_ADDR -/
  mapAddr : List (Nat × W64)
  /-- MAP_VAL -/
  mapVal : List (Nat × W64)
  /-- VAR_ADDR -/
  varAddr : List (Int × W64)
  /-- CODE_ADDR, keyed by the slot index of the load and s(imm) -/
  codeAddr : List ((Int × Int) × W64)
  /-- FRAME_POLICY -/
  framePolicy : FramePolicy
  /-- MAX_CALL_DEPTH; none is unbounded. -/
  maxCallDepth : Option Nat
  deriving DecidableEq, Repr

/-- The parameters at State.reset: the defaults of spec/00_scope.md R11; HOST_ENDIAN little (log 3), all groups (log 4)
and an empty program (log 5), for which R11 gives no default. DESIGN CHOICE, unsafe. -/
def Params.default : Params where
  hostEndian := .little
  supportedGroups := [.base32, .base64, .atomic32, .atomic64, .divmul32, .divmul64, .packet]
  program := []
  readonlyRegs := []
  regions := []
  misaligned := .fault
  helpersByAddr := []
  helpersByBtf := []
  mapByFd := []
  mapByIdx := []
  mapAddr := []
  mapVal := []
  varAddr := []
  codeAddr := []
  framePolicy := .identity
  maxCallDepth := none

/-- A byte of a region that neither the environment nor the run has written (spec/20_memory.md R69): any value. It is
read at a draw number and an address. No value can be proved of it (log 9). -/
opaque Config.uninitByte : Nat → Nat → Byte

/-- on_call of a platform's own frame policy: the callee's registers and what the frame saves (log 12). -/
opaque Config.onCall : Nat → Regs → Regs × Saved

/-- on_return of a platform's own frame policy (log 12). -/
opaque Config.onReturn : Nat → Regs → Saved → Regs

/-- A platform's own helper relation (log 11): what the relation of that number makes of the registers and the written
bytes, for the choice number and the draw number of the state (one input may have several results). -/
opaque Config.helper : (id choices draws : Nat) → Regs → List Host.Cell → HelperAnswer

/-- Which of the possible outcomes a described helper takes, read at a choice number (log 11). -/
opaque Config.helperChoice : Nat → Nat

/-- The value `any k` of a described helper, read at a choice number and `k` (log 11). -/
opaque Config.helperAny : Nat → Nat → W64

/-- What the environment writes to shared regions before a step of which nothing is recorded, read at a moment number
(spec/20_memory.md R76, log 10). -/
opaque Config.agentWrites : Nat → List Host.Cell

end Sys2Proof.Machine
end

