-- ==== Sys2Proof/Machine/State.lean ====
section
/-! DEFINITION. The state of a run (spec/10_state.md R46), the faults (spec/60_exceptions.md R509) and the launch that
stands for reset (spec/10_state.md R43, R47). -/

namespace Sys2Proof.Machine

/-- The seven faults of spec/60_exceptions.md R509, with what each records. A fault is taken as an entry into the state
`out = faulted f` (R501, R513); the step function reports it from there (log 1). All are safe: the spec raises them. -/
inductive Fault where
  /-- Code 1, raised at decode or by a lookup that is undefined (R502). Safe: the spec's own fault. -/
  | illegalInstruction (pc : Int)
  /-- Code 2, raised at fetch (R503). Safe: the spec's own fault. -/
  | badPC (target : Int)
  /-- Code 3, raised by a read of a register with NoValue (R504). Safe: the spec's own fault. -/
  | uninitRegister (r : Reg)
  /-- Code 4, raised by LDX, ST, STX, ATOMIC (R505). Safe: the spec's own fault. -/
  | memFault (addr : W64) (n : Nat) (kind : Access)
  /-- Code 5, raised by LDX, ST, STX, ATOMIC (R506). Safe: the spec's own fault. -/
  | misaligned (addr : W64) (n : Nat)
  /-- Code 6, raised by CALL_LOCAL (R507). Safe: the spec's own fault. -/
  | callDepthExceeded (pc : Int)
  /-- Code 7, raised by CALL_HELPER and CALL_BTF (R508). Safe: the spec's own fault. -/
  | helperFault (id : Int)
  deriving DecidableEq, Repr

/-- Why the step function has no answer. -/
inductive Refusal where
  /-- Raised by an arm of exec that has no meaning yet. Safe: nothing runs. No arm raises it. -/
  | notModelled (mnemonic : String)
  /-- Raised by step after the run has ended by EXIT: no further step exists (spec/10_state.md R44). Safe. -/
  | runEnded
  deriving DecidableEq, Repr

/-- The field out of the state record: how the run stands (spec/10_state.md R44, R46). -/
inductive RunStatus where
  | running
  | exited (v : W64)
  | faulted (f : Fault)
  deriving DecidableEq, Repr

/-- A frame of the call stack (spec/10_state.md R40, spec/45_jump_b.md R387). -/
structure Frame where
  ret : Int
  saved : Saved
  deriving DecidableEq, Repr

/-- Data memory: the bytes the environment or the run has written, addresses strictly rising. An address not listed
holds no written byte (spec/10_state.md R45, spec/20_memory.md R69). -/
abbrev Memory := List Host.Cell

/-- The state of a run. The first five fields are the record of spec/10_state.md R46; the others are the launch
parameters (log 6), the recorded part of what the environment will do (log 10) and the counters free values are read at
(log 9, 10, 11). -/
structure State where
  /-- x: R0 to R10 (R30, R42). -/
  regs : Regs
  /-- pc: the slot index of the next instruction (R34); negative only as a jump target not yet fetched (R336, log 7). -/
  pc : Int
  /-- cs: the call stack, the newest frame first (R40). -/
  cs : List Frame
  /-- mem: data memory (R45). -/
  mem : Memory
  /-- out: how the run stands (R44). -/
  out : RunStatus
  /-- The parameters of the launch, never changed by a step (R11, R38). -/
  params : Params
  /-- What is recorded of the environment's changes to shared regions, an entry for each coming step (R76); the changes
  before later steps are free. -/
  agentWrites : List (List Host.Cell)
  /-- The moment number of the environment's free changes (R76). -/
  agentTime : Nat
  /-- The choice number of helper calls (R386, R388). -/
  choices : Nat
  /-- The draw number of free bytes (R69). -/
  draws : Nat
  deriving DecidableEq, Repr

/-- The registers a launch gives values, the parameter ENTRY_REGS (spec/10_state.md R43): NoValue elsewhere. -/
def entryRegs (given : List (Reg × W64)) : Regs :=
  #v[given.lookup 0, given.lookup 1, given.lookup 2, given.lookup 3, given.lookup 4, given.lookup 5, given.lookup 6,
    given.lookup 7, given.lookup 8, given.lookup 9, given.lookup 10]

/-- The first state of a run (spec/10_state.md R43, R47). `recorded` is what is known beforehand of the environment's
changes to shared regions; with none of it known every change is free (log 10). -/
def State.launch (p : Params) (entryPc : Nat) (given : List (Reg × W64)) (mem : Memory)
    (recorded : List (List Host.Cell)) : State where
  regs := entryRegs given
  pc := entryPc
  cs := []
  mem := mem
  out := .running
  params := p
  agentWrites := recorded
  agentTime := 0
  choices := 0
  draws := 0

/-- ENTRY_REGS at State.reset: every register holds 0. DESIGN CHOICE, unsafe: the spec gives a register no value that
ENTRY_REGS does not give it (R42, log 2). -/
def entryZeros : List (Reg × W64) :=
  [(0, 0), (1, 0), (2, 0), (3, 0), (4, 0), (5, 0), (6, 0), (7, 0), (8, 0), (9, 0), (10, 0)]

/-- The machine right after reset: the launch (spec/70_reset_and_hazards.md R550) with the default parameters, the
default entry slot 0, every register 0 (log 2), no byte of memory supplied and nothing recorded of the environment. -/
def State.reset : State := State.launch Params.default 0 entryZeros [] []

end Sys2Proof.Machine
end

