-- ==== Sys2Proof/Machine/Ops.lean ====
section
/-! DEFINITION. The named operations every meaning is built from: raising a fault, registers and pc, memory
(spec/20_memory.md), the call stack and the frame policy, helper calls, and what the environment does between steps. -/

namespace Sys2Proof.Machine

/-- What an instruction answers. -/
abbrev Result := Host.Outcome State Fault Refusal

/-! ## Faults -/

/-- Taking a fault: `out` becomes Faulted(f) and nothing else changes; no handler, nothing saved, the pc stays
(spec/60_exceptions.md R501, R513). There is no return from one (R514). -/
def raise (f : Fault) (s : State) : Result := .next { s with out := .faulted f }

/-- The code of a fault in the table of spec/60_exceptions.md R509. -/
def Fault.code (f : Fault) : Nat :=
  match f with
  | .illegalInstruction _ => 1
  | .badPC _ => 2
  | .uninitRegister _ => 3
  | .memFault _ _ _ => 4
  | .misaligned _ _ => 5
  | .callDepthExceeded _ => 6
  | .helperFault _ => 7

/-! ## Registers and pc -/

/-- The content of a register, `none` for NoValue (spec/10_state.md R42). -/
def State.reg (s : State) (r : Reg) : Option W64 := s.regs[r.val]

/-- `x[r] <- v`: all 64 bits are written (spec/00_scope.md R16, spec/10_state.md R31). -/
def State.setReg (s : State) (r : Reg) (v : W64) : State := { s with regs := s.regs.set r.val (some v) }

/-- `pc <- t`. -/
def State.setPc (s : State) (t : Int) : State := { s with pc := t }

/-- `npc` of a basic instruction (spec/10_state.md R35). -/
def State.npc (s : State) : Int := s.pc + 1

/-- `npc` of a wide instruction (spec/10_state.md R35). -/
def State.wideNpc (s : State) : Int := s.pc + 2

/-- `x[r]` as a read: UninitRegister(r) when the register holds no value (spec/60_exceptions.md R504). -/
def withReg (r : Reg) (s : State) (k : W64 → Result) : Result :=
  match s.reg r with
  | some v => k v
  | none => raise (.uninitRegister r) s

/-- Writes a result register and goes to the next slot: the end of a basic instruction (spec/10_state.md R35). -/
def finish (dst : Reg) (v : W64) (s : State) : Result := .next ((s.setReg dst v).setPc s.npc)

/-- Writes a result register and skips the second slot: the end of a wide instruction (spec/48_imm64.md R470). -/
def finishWide (dst : Reg) (v : W64) (s : State) : Result := .next ((s.setReg dst v).setPc s.wideNpc)

/-- Goes to the next slot, nothing else. -/
def advance (s : State) : Result := .next (s.setPc s.npc)

/-- A jump taken: `pc <- npc + d`; the target is checked at the next fetch (spec/44_jump_a.md R336). -/
def jumpBy (d : Int) (s : State) : Result := .next (s.setPc (s.npc + d))

/-! ## The written bytes -/

/-- The written byte at an address, if there is one. -/
def Memory.read (m : Memory) (a : Nat) : Option Byte :=
  match m with
  | [] => none
  | (k, b) :: rest => if k = a then some b else Memory.read rest a

/-- Writes one byte and keeps the addresses rising. -/
def Memory.write (m : Memory) (a : Nat) (b : Byte) : Memory :=
  match m with
  | [] => [(a, b)]
  | (k, c) :: rest =>
    if a < k then (a, b) :: (k, c) :: rest
    else if a = k then (a, b) :: rest
    else (k, c) :: Memory.write rest a b

/-- Writes bytes at rising addresses from `a`. -/
def Memory.writeBytes (m : Memory) (a : Nat) (bs : List Byte) : Memory :=
  match bs with
  | [] => m
  | b :: rest => Memory.writeBytes (m.write a b) (a + 1) rest

/-- Writes the cells of a list in its order. -/
def Memory.writeCells (m : Memory) (cells : List Host.Cell) : Memory :=
  match cells with
  | [] => m
  | (a, b) :: rest => Memory.writeCells (m.write a b) rest

/-- Every address of the list is above `lo` and they rise. -/
def Memory.risingAbove (lo : Nat) (m : Memory) : Bool :=
  match m with
  | [] => true
  | (k, _) :: rest => decide (lo < k) && Memory.risingAbove k rest

/-- The canonical form: addresses strictly rising. An unlisted address has no written byte, so no entry can equal what
an unlisted address reads as. -/
def Memory.wf (m : Memory) : Bool :=
  match m with
  | [] => true
  | (k, _) :: rest => Memory.risingAbove k rest

/-! ## Regions (spec/20_memory.md R69) -/

/-- The bytes `a` to `a + n - 1` lie in the region. -/
def Region.holds (r : Region) (a n : Nat) : Bool := decide (r.base ≤ a) && decide (a + n ≤ r.base + r.len)

/-- The region has the permission an access needs (spec/60_exceptions.md R505). -/
def Region.permits (r : Region) (k : Access) : Bool :=
  match k with
  | .read => r.readable
  | .write => r.writable
  | .rmw => r.readable && r.writable

/-- The access is valid: all its bytes in one region with the permission, none past 2^64 (spec/20_memory.md R69, log 15). -/
def Params.allows (p : Params) (k : Access) (a n : Nat) : Bool :=
  decide (a + n ≤ 2 ^ 64) && p.regions.any fun r => r.permits k && r.holds a n

/-- The byte lies in a shared region (spec/20_memory.md R76). -/
def Params.sharedByte (p : Params) (a : Nat) : Bool :=
  decide (a < 2 ^ 64) && p.regions.any fun r => r.shared && r.holds a 1

/-- The byte lies in a writable region: what a helper may write (spec/45_jump_b.md R386). -/
def Params.writableByte (p : Params) (a : Nat) : Bool := p.allows .write a 1

/-! ## Reading and writing memory -/

/-- A byte nothing has written: any value, one for each address and draw number (spec/20_memory.md R69, log 9). Bytes no
helper can write stay with draw 0. -/
def State.freeByte (s : State) (a : Nat) : Byte :=
  Config.uninitByte (if s.params.writableByte a then s.draws else 0) a

/-- The byte at an address. -/
def State.byteAt (s : State) (a : Nat) : Byte :=
  match s.mem.read a with
  | some b => b
  | none => s.freeByte a

/-- The `n` bytes from an address up. -/
def State.bytesAt (s : State) (a n : Nat) : List Byte :=
  match n with
  | 0 => []
  | k + 1 => s.byteAt a :: s.bytesAt (a + 1) k

/-- The low `n` bytes of a value, the least significant first. -/
def lowBytes (n : Nat) (v : W64) : List Byte :=
  match n with
  | 0 => []
  | k + 1 => v.extractLsb' 0 8 :: lowBytes k (v >>> 8)

/-- The value of bytes given the least significant first, zero-extended. -/
def ofLowBytes (bs : List Byte) : W64 :=
  match bs with
  | [] => 0
  | b :: rest => (ofLowBytes rest <<< 8) ||| b.setWidth 64

/-- The `n` bytes of a value in the order the host stores them (spec/20_memory.md R63). -/
def dataBytes (e : Endian) (n : Nat) (v : W64) : List Byte :=
  match e with
  | .little => lowBytes n v
  | .big => (lowBytes n v).reverse

/-- The value of bytes as the host stores them (spec/20_memory.md R63). -/
def dataValue (e : Endian) (bs : List Byte) : W64 :=
  match e with
  | .little => ofLowBytes bs
  | .big => ofLowBytes bs.reverse

/-- The `n`-byte value at an address, zero-extended. -/
def State.load (s : State) (a n : Nat) : W64 := dataValue s.params.hostEndian (s.bytesAt a n)

/-- The low `n` bytes of a value written at an address. -/
def State.store (s : State) (a n : Nat) (v : W64) : State :=
  { s with mem := s.mem.writeBytes a (dataBytes s.params.hostEndian n v) }

/-- `u(addr) mod n != 0` (spec/20_memory.md R68). -/
def unaligned (addr : W64) (n : Nat) : Bool := addr.toNat % n != 0

/-- A regular access at this address raises Misaligned: only when MISALIGNED is fault (spec/20_memory.md R68). A
bytewise access is one step here (log 13). -/
def Params.refusesUnaligned (p : Params) (addr : W64) (n : Nat) : Bool := p.misaligned == .fault && unaligned addr n

/-- MemRead (spec/20_memory.md R64): alignment, region, then the value. -/
def memRead (addr : W64) (n : Nat) (s : State) (k : W64 → Result) : Result :=
  if s.params.refusesUnaligned addr n then raise (.misaligned addr n) s
  else if s.params.allows .read addr.toNat n then k (s.load addr.toNat n)
  else raise (.memFault addr n .read) s

/-- MemWrite (spec/20_memory.md R65): alignment, region, then the bytes. -/
def memWrite (addr : W64) (n : Nat) (v : W64) (s : State) (k : State → Result) : Result :=
  if s.params.refusesUnaligned addr n then raise (.misaligned addr n) s
  else if s.params.allows .write addr.toNat n then k (s.store addr.toNat n v)
  else raise (.memFault addr n .write) s

/-- AtomicRMW (spec/20_memory.md R75): alignment always, region readable and writable, then read and write as one. -/
def atomicRMW (addr : W64) (n : Nat) (f : W64 → W64) (s : State) (k : W64 → State → Result) : Result :=
  if unaligned addr n then raise (.misaligned addr n) s
  else if s.params.allows .rmw addr.toNat n then
    k (s.load addr.toNat n) (s.store addr.toNat n (f (s.load addr.toNat n)))
  else raise (.memFault addr n .rmw) s

/-! ## Program-local calls, returns and the end of the run (spec/45_jump_b.md R387, R389) -/

/-- The content a convention gives a callee's register. -/
def CalleeValue.eval (v : CalleeValue) (caller : Option W64) : Option W64 :=
  match v with
  | .value w => some w
  | .plus w => caller.map (· + w)

/-- Sets the callee's registers from the caller's. -/
def setCallee (caller : Regs) (sets : List (Reg × CalleeValue)) (x : Regs) : Regs :=
  match sets with
  | [] => x
  | (r, v) :: rest => setCallee caller rest (x.set r.val (v.eval caller[r.val]))

/-- Puts saved registers back. -/
def restoreRegs (saved : Saved) (x : Regs) : Regs :=
  match saved with
  | [] => x
  | (r, v) :: rest => restoreRegs rest (x.set r.val v)

/-- Leaves registers without a value. -/
def clearRegs (rs : List Reg) (x : Regs) : Regs :=
  match rs with
  | [] => x
  | r :: rest => clearRegs rest (x.set r.val none)

/-- FRAME_POLICY.on_call: the callee's registers and what the frame saves. -/
def FramePolicy.onCall (p : FramePolicy) (x : Regs) : Regs × Saved :=
  match p with
  | .identity => (x, [])
  | .convention saved callee _ => (setCallee x callee x, saved.map fun r => (r, x[r.val]))
  | .platform id => Config.onCall id x

/-- FRAME_POLICY.on_return: the registers the caller goes on with. -/
def FramePolicy.onReturn (p : FramePolicy) (x : Regs) (saved : Saved) : Regs :=
  match p with
  | .identity => x
  | .convention _ _ cleared => restoreRegs saved (clearRegs cleared x)
  | .platform id => Config.onReturn id x saved

/-- The call stack already holds MAX_CALL_DEPTH frames. -/
def State.callStackFull (s : State) : Bool :=
  match s.params.maxCallDepth with
  | none => false
  | some d => decide (d ≤ s.cs.length)

/-- The state in which a callee starts, its first slot `target`. -/
def State.enterCallee (s : State) (target : Int) : State :=
  { s with
    regs := (s.params.framePolicy.onCall s.regs).1
    cs := { ret := s.npc, saved := (s.params.framePolicy.onCall s.regs).2 } :: s.cs
    pc := target }

/-- A program-local call (spec/45_jump_b.md R387). -/
def localCall (d : Int) (s : State) : Result :=
  if s.callStackFull then raise (.callDepthExceeded s.pc) s else .next (s.enterCallee (s.npc + d))

/-- The state after a return through the frame `fr`, with `rest` below it. -/
def State.leaveCallee (s : State) (fr : Frame) (rest : List Frame) : State :=
  { s with
    regs := s.params.framePolicy.onReturn s.regs fr.saved
    cs := rest
    pc := fr.ret }

/-- EXIT: the end of the run, or a return to the caller (spec/45_jump_b.md R389). -/
def returnOrEnd (s : State) : Result :=
  match s.cs with
  | [] => withReg 0 s fun v => .next { s with out := .exited v }
  | fr :: rest => .next (s.leaveCallee fr rest)

/-! ## Helper calls (spec/45_jump_b.md R386, R388; log 11) -/

/-- The operation on two values. -/
def HelperOp.eval (f : HelperOp) (a b : W64) : W64 :=
  match f with
  | .add => a + b
  | .sub => a - b
  | .mul => a * b
  | .and => a &&& b
  | .or => a ||| b
  | .xor => a ^^^ b
  | .shl => a <<< (b.toNat % 64)
  | .shr => a >>> (b.toNat % 64)
  | .eq => if a = b then 1 else 0
  | .ult => if a.toNat < b.toNat then 1 else 0
  | .slt => if a.toInt < b.toInt then 1 else 0

/-- The value in the state a helper finds. A register without a value faults before its value here counts. What `bytes`
reads at an address in no region, or past 2^64, the spec leaves open (spec/10_state.md R45, spec/45_jump_b.md R386).
DESIGN CHOICE, unsafe: a listed cell or else the free byte of draw 0, the addresses not wrapping, and no fault (log 23). -/
def HelperValue.eval (v : HelperValue) (s : State) : W64 :=
  match v with
  | .const c => c
  | .reg r => (s.reg r).getD 0
  | .bytes addr n => s.load (addr.eval s).toNat n
  | .any k => Config.helperAny s.choices k
  | .op f a b => f.eval (a.eval s) (b.eval s)

/-- The registers a value is computed from, from left to right. -/
def HelperValue.reads (v : HelperValue) : List Reg :=
  match v with
  | .const _ => []
  | .reg r => [r]
  | .bytes addr _ => addr.reads
  | .any _ => []
  | .op _ a b => a.reads ++ b.reads

/-- The outcome is possible in the state a helper finds. -/
def HelperOutcome.possible (o : HelperOutcome) (s : State) : Bool := o.when.all fun v => v.eval s != 0

/-- The registers an outcome's results are computed from. -/
def HelperOutcome.reads (o : HelperOutcome) : List Reg :=
  (o.regs.flatMap fun x => (x.2.map HelperValue.reads).getD []) ++
    o.stores.flatMap fun x => x.1.reads ++ x.2.2.reads

/-- The registers `x` with those of the list set, as their values are in the state a helper finds. -/
def setHelperRegs (s : State) (sets : List (Reg × Option HelperValue)) (x : Regs) : Regs :=
  match sets with
  | [] => x
  | (r, v) :: rest => setHelperRegs s rest (x.set r.val (v.map fun w => w.eval s))

/-- Bytes with their addresses, from `a` up. -/
def cellsFrom (a : Nat) (bs : List Byte) : List Host.Cell :=
  match bs with
  | [] => []
  | b :: rest => (a, b) :: cellsFrom (a + 1) rest

/-- What an outcome leaves of the state a helper finds. -/
def HelperOutcome.effect (o : HelperOutcome) (s : State) : HelperEffect where
  regs := setHelperRegs s o.regs s.regs
  writes := o.stores.flatMap fun x =>
    cellsFrom (x.1.eval s).toNat (dataBytes s.params.hostEndian x.2.1 (x.2.2.eval s))

/-- One of the possible outcomes: the only one, or the one the choice number names. -/
def chooseOutcome (choice : Nat) (os : List HelperOutcome) : Option HelperOutcome :=
  match os with
  | [] => none
  | [o] => some o
  | o :: p :: rest => (o :: p :: rest)[Config.helperChoice choice % (rest.length + 2)]?

/-- The answer of a described helper: it reads the registers its outcomes' conditions name, then those the outcome taken
is computed from. -/
def describedAnswer (os : List HelperOutcome) (s : State) : HelperAnswer :=
  let taken := chooseOutcome s.choices (os.filter fun o => o.possible s)
  { reads := (os.flatMap fun o => o.when.flatMap HelperValue.reads) ++ (taken.map HelperOutcome.reads).getD []
    effect := taken.map fun o => o.effect s }

/-- What a helper relation gives for the registers and memory it finds; none where nothing is known of it. -/
def Helper.answer (h : Helper) (s : State) : Option HelperAnswer :=
  match h with
  | .unknown => none
  | .described os => some (describedAnswer os s)
  | .platform id => some (Config.helper id s.choices s.draws s.regs s.mem)

/-- The first register of a list that holds no value. -/
def firstNoValue (x : Regs) (rs : List Reg) : Option Reg :=
  match rs with
  | [] => none
  | r :: rest => if x[r.val] = none then some r else firstNoValue x rest

/-- The weakest contract: every register without a value, every writable byte arbitrary. -/
def State.weakestHelper (s : State) : State :=
  { s with
    regs := clearRegs [0, 1, 2, 3, 4, 5, 6, 7, 8, 9, 10] s.regs
    mem := s.mem.filter fun c => !s.params.writableByte c.1
    draws := s.draws + 1 }

/-- The effect of a helper: its registers, and its bytes so far as they lie in writable regions. -/
def State.applyHelper (s : State) (h : HelperEffect) : State :=
  { s with
    regs := h.regs
    mem := s.mem.writeCells (h.writes.filter fun c => s.params.writableByte c.1)
    choices := s.choices + 1 }

/-- A call of the helper `id` through its entry `h` of a helper table: the relation is applied to the registers and
memory of the state, the pc goes to the next slot. -/
def helperCall (h : Option Helper) (id : Int) (s : State) : Result :=
  match h with
  | none => raise (.illegalInstruction s.pc) s
  | some h =>
    match h.answer s with
    | none => advance s.weakestHelper
    | some a =>
      match firstNoValue s.regs a.reads with
      | some r => raise (.uninitRegister r) s
      | none =>
        match a.effect with
        | none => raise (.helperFault id) s
        | some e => advance (s.applyHelper e)

/-! ## Environment lookups (spec/48_imm64.md R471) -/

/-- Writes the address a table lookup gives, or raises IllegalInstruction(pc) when the lookup is undefined. -/
def finishLookup (dst : Reg) (v : Option W64) (s : State) : Result :=
  match v with
  | some a => finishWide dst a s
  | none => raise (.illegalInstruction s.pc) s

/-- `map_by_fd(imm)`: the address of the map. -/
def Params.mapAddrByFd (p : Params) (imm : W32) : Option W64 :=
  (p.mapByFd.lookup imm.toInt).bind fun m => p.mapAddr.lookup m

/-- `map_val(map_by_fd(imm))`: the address of the first value. -/
def Params.mapValByFd (p : Params) (imm : W32) : Option W64 :=
  (p.mapByFd.lookup imm.toInt).bind fun m => p.mapVal.lookup m

/-- `map_by_idx(imm)`: the address of the map. -/
def Params.mapAddrByIdx (p : Params) (imm : W32) : Option W64 :=
  (p.mapByIdx.lookup imm.toInt).bind fun m => p.mapAddr.lookup m

/-- `map_val(map_by_idx(imm))`: the address of the first value. -/
def Params.mapValByIdx (p : Params) (imm : W32) : Option W64 :=
  (p.mapByIdx.lookup imm.toInt).bind fun m => p.mapVal.lookup m

/-- `var_addr(imm)`. -/
def Params.varAddrOf (p : Params) (imm : W32) : Option W64 := p.varAddr.lookup imm.toInt

/-- `code_addr(imm)` of the load at slot `pc`. -/
def Params.codeAddrOf (p : Params) (pc : Int) (imm : W32) : Option W64 := p.codeAddr.lookup (pc, imm.toInt)

/-! ## Between two steps (spec/20_memory.md R76) -/

/-- Some region is shared. -/
def Params.anyShared (p : Params) : Bool := p.regions.any fun r => r.shared

/-- Cells written by the environment, so far as they lie in shared regions. -/
def State.agentChange (s : State) (ws : List Host.Cell) : Memory :=
  s.mem.writeCells (ws.filter fun c => s.params.sharedByte c.1)

/-- What the environment does to shared regions before a step: the recorded change if there is one, else any change; with
no shared region there is nothing it could change (log 10). -/
def State.agentStep (s : State) : State :=
  match s.agentWrites with
  | ws :: rest => { s with mem := s.agentChange ws, agentWrites := rest }
  | [] =>
    if s.params.anyShared then
      { s with mem := s.agentChange (Config.agentWrites s.agentTime), agentTime := s.agentTime + 1 }
    else s

end Sys2Proof.Machine
end

