-- ==== Sys2Proof/Machine/Arith.lean ====
section
/-! DEFINITION. The arithmetic of classes ALU and ALU64 and the byte swaps, as functions on values
(spec/40_arithmetic_a.md R200 to R205, spec/41_arithmetic_b.md R260 to R263, spec/42_arithmetic_c.md R261,
spec/43_byteswap.md R313). Each is written once for both widths. -/

namespace Sys2Proof.Machine

/-- ADD: wraps (R200). -/
def aluAdd {n : Nat} (a b : BitVec n) : BitVec n := a + b

/-- SUB: wraps (R200). -/
def aluSub {n : Nat} (a b : BitVec n) : BitVec n := a - b

/-- MUL: wraps (R200). -/
def aluMul {n : Nat} (a b : BitVec n) : BitVec n := a * b

/-- DIV: unsigned, 0 for a zero divisor (R202). -/
def aluDiv {n : Nat} (a b : BitVec n) : BitVec n := if b = 0 then 0 else BitVec.ofNat n (a.toNat / b.toNat)

/-- SDIV: signed, rounded toward zero, the quotient wraps, 0 for a zero divisor (R202, R204). -/
def aluSdiv {n : Nat} (a b : BitVec n) : BitVec n := if b = 0 then 0 else BitVec.ofInt n (a.toInt.tdiv b.toInt)

/-- MOD: unsigned, the dividend for a zero divisor (R262). -/
def aluMod {n : Nat} (a b : BitVec n) : BitVec n := if b = 0 then a else BitVec.ofNat n (a.toNat % b.toNat)

/-- SMOD: `a - b * trunc(a / b)`, the dividend for a zero divisor (R262, R263). -/
def aluSmod {n : Nat} (a b : BitVec n) : BitVec n :=
  if b = 0 then a else BitVec.ofInt n (a.toInt - b.toInt * a.toInt.tdiv b.toInt)

/-- OR. -/
def aluOr {n : Nat} (a b : BitVec n) : BitVec n := a ||| b

/-- AND. -/
def aluAnd {n : Nat} (a b : BitVec n) : BitVec n := a &&& b

/-- XOR. -/
def aluXor {n : Nat} (a b : BitVec n) : BitVec n := a ^^^ b

/-- MOV: the second operand. -/
def aluMov {n : Nat} (b : BitVec n) : BitVec n := b

/-- MOVSX: the low `k` bits, sign-extended (spec/42_arithmetic_c.md R261). -/
def aluMovsx (k : Nat) {n : Nat} (b : BitVec n) : BitVec n := (b.setWidth k).signExtend n

/-- NEG: two's complement (R260). -/
def aluNeg {n : Nat} (a : BitVec n) : BitVec n := 0 - a

/-- A shift count: the operand under the mask 0x1F or 0x3F, the width less one (R205). -/
def shiftCount {n : Nat} (b : BitVec n) : Nat := (b &&& BitVec.ofNat n (n - 1)).toNat

/-- LSH: fills with zeros (R205). -/
def aluLsh {n : Nat} (a b : BitVec n) : BitVec n := a <<< shiftCount b

/-- RSH: fills with zeros (R205). -/
def aluRsh {n : Nat} (a b : BitVec n) : BitVec n := a >>> shiftCount b

/-- ARSH: fills with the operand's top bit (R205). -/
def aluArsh {n : Nat} (a b : BitVec n) : BitVec n := a.sshiftRight (shiftCount b)

/-! ## Byte swaps -/

/-- The low `n` bytes of a value, zero-extended (spec/43_byteswap.md R312). -/
def keepBytes (n : Nat) (v : W64) : W64 := ofLowBytes (lowBytes n v)

/-- `bswapN` for N = 8n: the low `n` bytes in reverse order, zero-extended (spec/00_scope.md R13, spec/43_byteswap.md R312). -/
def swapBytes (n : Nat) (v : W64) : W64 := ofLowBytes (lowBytes n v).reverse

/-- `htoleN` (spec/43_byteswap.md R313). -/
def hostToLittle (e : Endian) (n : Nat) (v : W64) : W64 :=
  match e with
  | .little => keepBytes n v
  | .big => swapBytes n v

/-- `htobeN` (spec/43_byteswap.md R313). -/
def hostToBig (e : Endian) (n : Nat) (v : W64) : W64 :=
  match e with
  | .little => swapBytes n v
  | .big => keepBytes n v

end Sys2Proof.Machine
end

