-- ==== Sys2Proof/Machine/Operands.lean ====
section
/-! DEFINITION. The operand forms (spec/30_encoding.md R124 to R126, spec/20_memory.md R61): how each shape of
instruction reads its operands, in the order dst_reg, src_reg, R0 (spec/60_exceptions.md R511), and where its result
goes. A meaning is one of these forms with one function on values. -/

namespace Sys2Proof.Machine

/-! ## Values of operands -/

/-- Bits 31:0 of a register (spec/10_state.md R31). -/
def low32 (v : W64) : W32 := v.setWidth 32

/-- `zext_64` of a 32-bit value (spec/00_scope.md R16). -/
def zext64 (v : W32) : W64 := v.setWidth 64

/-- `sext_64(imm)`, the imm operand of a 64-bit class (spec/30_encoding.md R125). -/
def immOperand64 (imm : W32) : W64 := imm.signExtend 64

/-- The effective address `base + sext_64(offset)`, wrapping at 2^64 (spec/20_memory.md R61). -/
def effAddr (base : W64) (off : BitVec 16) : W64 := base + off.signExtend 64

/-- A value of `n` bytes sign-extended to 64 bits (spec/20_memory.md R66). -/
def signExtendBytes (n : Nat) (v : W64) : W64 := (v.setWidth (8 * n)).signExtend 64

/-! ## Arithmetic -/

/-- Class ALU with K: dst and imm (spec/40_arithmetic_a.md R201). -/
def alu32Imm (f : W32 → W32 → W32) (dst : Reg) (imm : W32) (s : State) : Result :=
  withReg dst s fun a => finish dst (zext64 (f (low32 a) imm)) s

/-- Class ALU with X: dst and src (spec/40_arithmetic_a.md R201). -/
def alu32Reg (f : W32 → W32 → W32) (dst src : Reg) (s : State) : Result :=
  withReg dst s fun a => withReg src s fun b => finish dst (zext64 (f (low32 a) (low32 b))) s

/-- Class ALU64 with K: dst and the sign-extended imm (spec/30_encoding.md R125). -/
def alu64Imm (f : W64 → W64 → W64) (dst : Reg) (imm : W32) (s : State) : Result :=
  withReg dst s fun a => finish dst (f a (immOperand64 imm)) s

/-- Class ALU64 with X: dst and src. -/
def alu64Reg (f : W64 → W64 → W64) (dst src : Reg) (s : State) : Result :=
  withReg dst s fun a => withReg src s fun b => finish dst (f a b) s

/-- Class ALU, dst alone (NEG, spec/41_arithmetic_b.md R260). -/
def alu32Dst (f : W32 → W32) (dst : Reg) (s : State) : Result :=
  withReg dst s fun a => finish dst (zext64 (f (low32 a))) s

/-- 64 bits of dst alone (NEG, byte swaps: spec/43_byteswap.md R312). -/
def alu64Dst (f : W64 → W64) (dst : Reg) (s : State) : Result :=
  withReg dst s fun a => finish dst (f a) s

/-- Class ALU, imm alone: dst is not read (MOV, spec/42_arithmetic_c.md R278). -/
def move32Imm (f : W32 → W32) (dst : Reg) (imm : W32) (s : State) : Result := finish dst (zext64 (f imm)) s

/-- Class ALU, src alone: dst is not read (MOV, MOVSX, spec/42_arithmetic_c.md R261, R279). -/
def move32Reg (f : W32 → W32) (dst src : Reg) (s : State) : Result :=
  withReg src s fun b => finish dst (zext64 (f (low32 b))) s

/-- Class ALU64, the sign-extended imm alone (MOV, spec/42_arithmetic_c.md R280). -/
def move64Imm (f : W64 → W64) (dst : Reg) (imm : W32) (s : State) : Result := finish dst (f (immOperand64 imm)) s

/-- Class ALU64, src alone (MOV, MOVSX, spec/42_arithmetic_c.md R261, R281). -/
def move64Reg (f : W64 → W64) (dst src : Reg) (s : State) : Result :=
  withReg src s fun b => finish dst (f b) s

/-! ## Conditional jumps (spec/44_jump_a.md R333, R334) -/

/-- Jumps by the offset when the condition holds, else goes on. -/
def branch (taken : Bool) (off : BitVec 16) (s : State) : Result :=
  if taken then jumpBy off.toInt s else advance s

/-- Class JMP32 with K. -/
def jump32Imm (c : W32 → W32 → Bool) (dst : Reg) (off : BitVec 16) (imm : W32) (s : State) : Result :=
  withReg dst s fun a => branch (c (low32 a) imm) off s

/-- Class JMP32 with X. -/
def jump32Reg (c : W32 → W32 → Bool) (dst src : Reg) (off : BitVec 16) (s : State) : Result :=
  withReg dst s fun a => withReg src s fun b => branch (c (low32 a) (low32 b)) off s

/-- Class JMP with K: imm sign-extended, also for an unsigned comparison. -/
def jump64Imm (c : W64 → W64 → Bool) (dst : Reg) (off : BitVec 16) (imm : W32) (s : State) : Result :=
  withReg dst s fun a => branch (c a (immOperand64 imm)) off s

/-- Class JMP with X. -/
def jump64Reg (c : W64 → W64 → Bool) (dst src : Reg) (off : BitVec 16) (s : State) : Result :=
  withReg dst s fun a => withReg src s fun b => branch (c a b) off s

/-! ## Loads and stores (spec/46_load_store.md R400, R401) -/

/-- LDX of `n` bytes; `f` widens the zero-extended value (spec/20_memory.md R66). -/
def loadForm (n : Nat) (f : W64 → W64) (dst src : Reg) (off : BitVec 16) (s : State) : Result :=
  withReg src s fun base => memRead (effAddr base off) n s fun v => finish dst (f v) s

/-- ST of `n` bytes: the low bytes of the sign-extended imm (spec/20_memory.md R67). -/
def storeImmForm (n : Nat) (dst : Reg) (off : BitVec 16) (imm : W32) (s : State) : Result :=
  withReg dst s fun base => memWrite (effAddr base off) n (immOperand64 imm) s advance

/-- STX of `n` bytes: the low bytes of the source register (spec/20_memory.md R67). -/
def storeRegForm (n : Nat) (dst src : Reg) (off : BitVec 16) (s : State) : Result :=
  withReg dst s fun base => withReg src s fun v => memWrite (effAddr base off) n v s advance

/-! ## Atomic operations (spec/47_atomic.md R430 to R435) -/

/-- A 32-bit operation on a memory value and an operand register, as a function on 64-bit values (R434). -/
def onLow32 (f : W32 → W32 → W32) (old operand : W64) : W64 := zext64 (f (low32 old) (low32 operand))

/-- Without FETCH: no register is written (R432). -/
def atomicForm (n : Nat) (f : W64 → W64 → W64) (dst src : Reg) (off : BitVec 16) (s : State) : Result :=
  withReg dst s fun base => withReg src s fun v =>
    atomicRMW (effAddr base off) n (fun old => f old v) s fun _ t => advance t

/-- With FETCH: src receives the old memory value, zero-extended (R432, R434). -/
def atomicFetchForm (n : Nat) (f : W64 → W64 → W64) (dst src : Reg) (off : BitVec 16) (s : State) : Result :=
  withReg dst s fun base => withReg src s fun v =>
    atomicRMW (effAddr base off) n (fun old => f old v) s fun old t => finish src old t

/-- Compare and exchange: memory against the low `n` bytes of R0; R0 receives the old value, zero-extended
(R433, R434, R449). `f` takes the old value, the new one and R0. -/
def cmpxchgForm (n : Nat) (f : W64 → W64 → W64 → W64) (dst src : Reg) (off : BitVec 16) (s : State) : Result :=
  withReg dst s fun base => withReg src s fun v => withReg 0 s fun expected =>
    atomicRMW (effAddr base off) n (fun old => f old v expected) s fun old t => finish 0 old t

/-- Memory takes the operand (XCHG). -/
def takeNew (_ new : W64) : W64 := new

/-- What a 32-bit compare and exchange leaves in memory. -/
def exchange32 (old new expected : W64) : W64 := if low32 old = low32 expected then new else old

/-- What a 64-bit compare and exchange leaves in memory. -/
def exchange64 (old new expected : W64) : W64 := if old = expected then new else old

end Sys2Proof.Machine
end

