-- ==== Sys2Proof/Machine/Alu32.lean ====
section
/-! DEFINITION. Class ALU arithmetic, 32 bits (spec/40_arithmetic_a.md, 41, 42). One meaning for each instruction over the shared operations. -/

namespace Sys2Proof.Machine

/-- ADD32_IMM (spec/40_arithmetic_a.md R210). -/
def execAdd32Imm (dst : Reg) (imm : W32) (s : State) : Result :=
  alu32Imm aluAdd dst imm s

/-- ADD32_REG (spec/40_arithmetic_a.md R211). -/
def execAdd32Reg (dst : Reg) (src : Reg) (s : State) : Result :=
  alu32Reg aluAdd dst src s

/-- SUB32_IMM (spec/40_arithmetic_a.md R214). -/
def execSub32Imm (dst : Reg) (imm : W32) (s : State) : Result :=
  alu32Imm aluSub dst imm s

/-- SUB32_REG (spec/40_arithmetic_a.md R215). -/
def execSub32Reg (dst : Reg) (src : Reg) (s : State) : Result :=
  alu32Reg aluSub dst src s

/-- MUL32_IMM (spec/40_arithmetic_a.md R218). -/
def execMul32Imm (dst : Reg) (imm : W32) (s : State) : Result :=
  alu32Imm aluMul dst imm s

/-- MUL32_REG (spec/40_arithmetic_a.md R219). -/
def execMul32Reg (dst : Reg) (src : Reg) (s : State) : Result :=
  alu32Reg aluMul dst src s

/-- DIV32_IMM (spec/40_arithmetic_a.md R222). -/
def execDiv32Imm (dst : Reg) (imm : W32) (s : State) : Result :=
  alu32Imm aluDiv dst imm s

/-- DIV32_REG (spec/40_arithmetic_a.md R223). -/
def execDiv32Reg (dst : Reg) (src : Reg) (s : State) : Result :=
  alu32Reg aluDiv dst src s

/-- SDIV32_IMM (spec/40_arithmetic_a.md R226). -/
def execSdiv32Imm (dst : Reg) (imm : W32) (s : State) : Result :=
  alu32Imm aluSdiv dst imm s

/-- SDIV32_REG (spec/40_arithmetic_a.md R227). -/
def execSdiv32Reg (dst : Reg) (src : Reg) (s : State) : Result :=
  alu32Reg aluSdiv dst src s

/-- OR32_IMM (spec/41_arithmetic_b.md R230). -/
def execOr32Imm (dst : Reg) (imm : W32) (s : State) : Result :=
  alu32Imm aluOr dst imm s

/-- OR32_REG (spec/41_arithmetic_b.md R231). -/
def execOr32Reg (dst : Reg) (src : Reg) (s : State) : Result :=
  alu32Reg aluOr dst src s

/-- AND32_IMM (spec/41_arithmetic_b.md R234). -/
def execAnd32Imm (dst : Reg) (imm : W32) (s : State) : Result :=
  alu32Imm aluAnd dst imm s

/-- AND32_REG (spec/41_arithmetic_b.md R235). -/
def execAnd32Reg (dst : Reg) (src : Reg) (s : State) : Result :=
  alu32Reg aluAnd dst src s

/-- LSH32_IMM (spec/41_arithmetic_b.md R238). -/
def execLsh32Imm (dst : Reg) (imm : W32) (s : State) : Result :=
  alu32Imm aluLsh dst imm s

/-- LSH32_REG (spec/41_arithmetic_b.md R239). -/
def execLsh32Reg (dst : Reg) (src : Reg) (s : State) : Result :=
  alu32Reg aluLsh dst src s

/-- RSH32_IMM (spec/41_arithmetic_b.md R242). -/
def execRsh32Imm (dst : Reg) (imm : W32) (s : State) : Result :=
  alu32Imm aluRsh dst imm s

/-- RSH32_REG (spec/41_arithmetic_b.md R243). -/
def execRsh32Reg (dst : Reg) (src : Reg) (s : State) : Result :=
  alu32Reg aluRsh dst src s

/-- NEG32 (spec/41_arithmetic_b.md R264). -/
def execNeg32 (dst : Reg) (s : State) : Result :=
  alu32Dst aluNeg dst s

/-- MOD32_IMM (spec/41_arithmetic_b.md R266). -/
def execMod32Imm (dst : Reg) (imm : W32) (s : State) : Result :=
  alu32Imm aluMod dst imm s

/-- MOD32_REG (spec/41_arithmetic_b.md R267). -/
def execMod32Reg (dst : Reg) (src : Reg) (s : State) : Result :=
  alu32Reg aluMod dst src s

/-- SMOD32_IMM (spec/41_arithmetic_b.md R270). -/
def execSmod32Imm (dst : Reg) (imm : W32) (s : State) : Result :=
  alu32Imm aluSmod dst imm s

/-- SMOD32_REG (spec/41_arithmetic_b.md R271). -/
def execSmod32Reg (dst : Reg) (src : Reg) (s : State) : Result :=
  alu32Reg aluSmod dst src s

/-- XOR32_IMM (spec/42_arithmetic_c.md R274). -/
def execXor32Imm (dst : Reg) (imm : W32) (s : State) : Result :=
  alu32Imm aluXor dst imm s

/-- XOR32_REG (spec/42_arithmetic_c.md R275). -/
def execXor32Reg (dst : Reg) (src : Reg) (s : State) : Result :=
  alu32Reg aluXor dst src s

/-- MOV32_IMM (spec/42_arithmetic_c.md R278). -/
def execMov32Imm (dst : Reg) (imm : W32) (s : State) : Result :=
  move32Imm aluMov dst imm s

/-- MOV32_REG (spec/42_arithmetic_c.md R279). -/
def execMov32Reg (dst : Reg) (src : Reg) (s : State) : Result :=
  move32Reg aluMov dst src s

/-- MOVSX32_8 (spec/42_arithmetic_c.md R282). -/
def execMovsx32x8 (dst : Reg) (src : Reg) (s : State) : Result :=
  move32Reg (aluMovsx 8) dst src s

/-- MOVSX32_16 (spec/42_arithmetic_c.md R283). -/
def execMovsx32x16 (dst : Reg) (src : Reg) (s : State) : Result :=
  move32Reg (aluMovsx 16) dst src s

/-- ARSH32_IMM (spec/42_arithmetic_c.md R287). -/
def execArsh32Imm (dst : Reg) (imm : W32) (s : State) : Result :=
  alu32Imm aluArsh dst imm s

/-- ARSH32_REG (spec/42_arithmetic_c.md R288). -/
def execArsh32Reg (dst : Reg) (src : Reg) (s : State) : Result :=
  alu32Reg aluArsh dst src s

end Sys2Proof.Machine
end

