-- ==== Sys2Proof/Machine/Alu64.lean ====
section
/-! DEFINITION. Class ALU64 arithmetic, 64 bits (spec/40_arithmetic_a.md, 41, 42). One meaning for each instruction over the shared operations. -/

namespace Sys2Proof.Machine

/-- ADD64_IMM (spec/40_arithmetic_a.md R212). -/
def execAdd64Imm (dst : Reg) (imm : W32) (s : State) : Result :=
  alu64Imm aluAdd dst imm s

/-- ADD64_REG (spec/40_arithmetic_a.md R213). -/
def execAdd64Reg (dst : Reg) (src : Reg) (s : State) : Result :=
  alu64Reg aluAdd dst src s

/-- SUB64_IMM (spec/40_arithmetic_a.md R216). -/
def execSub64Imm (dst : Reg) (imm : W32) (s : State) : Result :=
  alu64Imm aluSub dst imm s

/-- SUB64_REG (spec/40_arithmetic_a.md R217). -/
def execSub64Reg (dst : Reg) (src : Reg) (s : State) : Result :=
  alu64Reg aluSub dst src s

/-- MUL64_IMM (spec/40_arithmetic_a.md R220). -/
def execMul64Imm (dst : Reg) (imm : W32) (s : State) : Result :=
  alu64Imm aluMul dst imm s

/-- MUL64_REG (spec/40_arithmetic_a.md R221). -/
def execMul64Reg (dst : Reg) (src : Reg) (s : State) : Result :=
  alu64Reg aluMul dst src s

/-- DIV64_IMM (spec/40_arithmetic_a.md R224). -/
def execDiv64Imm (dst : Reg) (imm : W32) (s : State) : Result :=
  alu64Imm aluDiv dst imm s

/-- DIV64_REG (spec/40_arithmetic_a.md R225). -/
def execDiv64Reg (dst : Reg) (src : Reg) (s : State) : Result :=
  alu64Reg aluDiv dst src s

/-- SDIV64_IMM (spec/40_arithmetic_a.md R228). -/
def execSdiv64Imm (dst : Reg) (imm : W32) (s : State) : Result :=
  alu64Imm aluSdiv dst imm s

/-- SDIV64_REG (spec/40_arithmetic_a.md R229). -/
def execSdiv64Reg (dst : Reg) (src : Reg) (s : State) : Result :=
  alu64Reg aluSdiv dst src s

/-- OR64_IMM (spec/41_arithmetic_b.md R232). -/
def execOr64Imm (dst : Reg) (imm : W32) (s : State) : Result :=
  alu64Imm aluOr dst imm s

/-- OR64_REG (spec/41_arithmetic_b.md R233). -/
def execOr64Reg (dst : Reg) (src : Reg) (s : State) : Result :=
  alu64Reg aluOr dst src s

/-- AND64_IMM (spec/41_arithmetic_b.md R236). -/
def execAnd64Imm (dst : Reg) (imm : W32) (s : State) : Result :=
  alu64Imm aluAnd dst imm s

/-- AND64_REG (spec/41_arithmetic_b.md R237). -/
def execAnd64Reg (dst : Reg) (src : Reg) (s : State) : Result :=
  alu64Reg aluAnd dst src s

/-- LSH64_IMM (spec/41_arithmetic_b.md R240). -/
def execLsh64Imm (dst : Reg) (imm : W32) (s : State) : Result :=
  alu64Imm aluLsh dst imm s

/-- LSH64_REG (spec/41_arithmetic_b.md R241). -/
def execLsh64Reg (dst : Reg) (src : Reg) (s : State) : Result :=
  alu64Reg aluLsh dst src s

/-- RSH64_IMM (spec/41_arithmetic_b.md R244). -/
def execRsh64Imm (dst : Reg) (imm : W32) (s : State) : Result :=
  alu64Imm aluRsh dst imm s

/-- RSH64_REG (spec/41_arithmetic_b.md R245). -/
def execRsh64Reg (dst : Reg) (src : Reg) (s : State) : Result :=
  alu64Reg aluRsh dst src s

/-- NEG64 (spec/41_arithmetic_b.md R265). -/
def execNeg64 (dst : Reg) (s : State) : Result :=
  alu64Dst aluNeg dst s

/-- MOD64_IMM (spec/41_arithmetic_b.md R268). -/
def execMod64Imm (dst : Reg) (imm : W32) (s : State) : Result :=
  alu64Imm aluMod dst imm s

/-- MOD64_REG (spec/41_arithmetic_b.md R269). -/
def execMod64Reg (dst : Reg) (src : Reg) (s : State) : Result :=
  alu64Reg aluMod dst src s

/-- SMOD64_IMM (spec/41_arithmetic_b.md R272). -/
def execSmod64Imm (dst : Reg) (imm : W32) (s : State) : Result :=
  alu64Imm aluSmod dst imm s

/-- SMOD64_REG (spec/41_arithmetic_b.md R273). -/
def execSmod64Reg (dst : Reg) (src : Reg) (s : State) : Result :=
  alu64Reg aluSmod dst src s

/-- XOR64_IMM (spec/42_arithmetic_c.md R276). -/
def execXor64Imm (dst : Reg) (imm : W32) (s : State) : Result :=
  alu64Imm aluXor dst imm s

/-- XOR64_REG (spec/42_arithmetic_c.md R277). -/
def execXor64Reg (dst : Reg) (src : Reg) (s : State) : Result :=
  alu64Reg aluXor dst src s

/-- MOV64_IMM (spec/42_arithmetic_c.md R280). -/
def execMov64Imm (dst : Reg) (imm : W32) (s : State) : Result :=
  move64Imm aluMov dst imm s

/-- MOV64_REG (spec/42_arithmetic_c.md R281). -/
def execMov64Reg (dst : Reg) (src : Reg) (s : State) : Result :=
  move64Reg aluMov dst src s

/-- MOVSX64_8 (spec/42_arithmetic_c.md R284). -/
def execMovsx64x8 (dst : Reg) (src : Reg) (s : State) : Result :=
  move64Reg (aluMovsx 8) dst src s

/-- MOVSX64_16 (spec/42_arithmetic_c.md R285). -/
def execMovsx64x16 (dst : Reg) (src : Reg) (s : State) : Result :=
  move64Reg (aluMovsx 16) dst src s

/-- MOVSX64_32 (spec/42_arithmetic_c.md R286). -/
def execMovsx64x32 (dst : Reg) (src : Reg) (s : State) : Result :=
  move64Reg (aluMovsx 32) dst src s

/-- ARSH64_IMM (spec/42_arithmetic_c.md R289). -/
def execArsh64Imm (dst : Reg) (imm : W32) (s : State) : Result :=
  alu64Imm aluArsh dst imm s

/-- ARSH64_REG (spec/42_arithmetic_c.md R290). -/
def execArsh64Reg (dst : Reg) (src : Reg) (s : State) : Result :=
  alu64Reg aluArsh dst src s

end Sys2Proof.Machine
end

