-- ==== Sys2Proof/Machine/Atomic.lean ====
section
/-! DEFINITION. Atomic operations (spec/47_atomic.md). One meaning for each instruction over the shared operations. -/

namespace Sys2Proof.Machine

/-- ATOMIC_ADD32 (spec/47_atomic.md R440). -/
def execAtomicAdd32 (dst : Reg) (src : Reg) (off : BitVec 16) (s : State) : Result :=
  atomicForm 4 (onLow32 aluAdd) dst src off s

/-- ATOMIC_FETCH_ADD32 (spec/47_atomic.md R441). -/
def execAtomicFetchAdd32 (dst : Reg) (src : Reg) (off : BitVec 16) (s : State) : Result :=
  atomicFetchForm 4 (onLow32 aluAdd) dst src off s

/-- ATOMIC_OR32 (spec/47_atomic.md R442). -/
def execAtomicOr32 (dst : Reg) (src : Reg) (off : BitVec 16) (s : State) : Result :=
  atomicForm 4 (onLow32 aluOr) dst src off s

/-- ATOMIC_FETCH_OR32 (spec/47_atomic.md R443). -/
def execAtomicFetchOr32 (dst : Reg) (src : Reg) (off : BitVec 16) (s : State) : Result :=
  atomicFetchForm 4 (onLow32 aluOr) dst src off s

/-- ATOMIC_AND32 (spec/47_atomic.md R444). -/
def execAtomicAnd32 (dst : Reg) (src : Reg) (off : BitVec 16) (s : State) : Result :=
  atomicForm 4 (onLow32 aluAnd) dst src off s

/-- ATOMIC_FETCH_AND32 (spec/47_atomic.md R445). -/
def execAtomicFetchAnd32 (dst : Reg) (src : Reg) (off : BitVec 16) (s : State) : Result :=
  atomicFetchForm 4 (onLow32 aluAnd) dst src off s

/-- ATOMIC_XOR32 (spec/47_atomic.md R446). -/
def execAtomicXor32 (dst : Reg) (src : Reg) (off : BitVec 16) (s : State) : Result :=
  atomicForm 4 (onLow32 aluXor) dst src off s

/-- ATOMIC_FETCH_XOR32 (spec/47_atomic.md R447). -/
def execAtomicFetchXor32 (dst : Reg) (src : Reg) (off : BitVec 16) (s : State) : Result :=
  atomicFetchForm 4 (onLow32 aluXor) dst src off s

/-- ATOMIC_XCHG32 (spec/47_atomic.md R448). -/
def execAtomicXchg32 (dst : Reg) (src : Reg) (off : BitVec 16) (s : State) : Result :=
  atomicFetchForm 4 takeNew dst src off s

/-- ATOMIC_CMPXCHG32 (spec/47_atomic.md R449). -/
def execAtomicCmpxchg32 (dst : Reg) (src : Reg) (off : BitVec 16) (s : State) : Result :=
  cmpxchgForm 4 exchange32 dst src off s

/-- ATOMIC_ADD64 (spec/47_atomic.md R450). -/
def execAtomicAdd64 (dst : Reg) (src : Reg) (off : BitVec 16) (s : State) : Result :=
  atomicForm 8 aluAdd dst src off s

/-- ATOMIC_FETCH_ADD64 (spec/47_atomic.md R451). -/
def execAtomicFetchAdd64 (dst : Reg) (src : Reg) (off : BitVec 16) (s : State) : Result :=
  atomicFetchForm 8 aluAdd dst src off s

/-- ATOMIC_OR64 (spec/47_atomic.md R452). -/
def execAtomicOr64 (dst : Reg) (src : Reg) (off : BitVec 16) (s : State) : Result :=
  atomicForm 8 aluOr dst src off s

/-- ATOMIC_FETCH_OR64 (spec/47_atomic.md R453). -/
def execAtomicFetchOr64 (dst : Reg) (src : Reg) (off : BitVec 16) (s : State) : Result :=
  atomicFetchForm 8 aluOr dst src off s

/-- ATOMIC_AND64 (spec/47_atomic.md R454). -/
def execAtomicAnd64 (dst : Reg) (src : Reg) (off : BitVec 16) (s : State) : Result :=
  atomicForm 8 aluAnd dst src off s

/-- ATOMIC_FETCH_AND64 (spec/47_atomic.md R455). -/
def execAtomicFetchAnd64 (dst : Reg) (src : Reg) (off : BitVec 16) (s : State) : Result :=
  atomicFetchForm 8 aluAnd dst src off s

/-- ATOMIC_XOR64 (spec/47_atomic.md R456). -/
def execAtomicXor64 (dst : Reg) (src : Reg) (off : BitVec 16) (s : State) : Result :=
  atomicForm 8 aluXor dst src off s

/-- ATOMIC_FETCH_XOR64 (spec/47_atomic.md R457). -/
def execAtomicFetchXor64 (dst : Reg) (src : Reg) (off : BitVec 16) (s : State) : Result :=
  atomicFetchForm 8 aluXor dst src off s

/-- ATOMIC_XCHG64 (spec/47_atomic.md R458). -/
def execAtomicXchg64 (dst : Reg) (src : Reg) (off : BitVec 16) (s : State) : Result :=
  atomicFetchForm 8 takeNew dst src off s

/-- ATOMIC_CMPXCHG64 (spec/47_atomic.md R459). -/
def execAtomicCmpxchg64 (dst : Reg) (src : Reg) (off : BitVec 16) (s : State) : Result :=
  cmpxchgForm 8 exchange64 dst src off s

end Sys2Proof.Machine
end

