-- ==== Sys2Proof/Machine/ByteSwap.lean ====
section
/-! DEFINITION. Byte swaps (spec/43_byteswap.md). One meaning for each instruction over the shared operations. -/

namespace Sys2Proof.Machine

/-- LE16 (spec/43_byteswap.md R314). -/
def execLe16 (dst : Reg) (s : State) : Result :=
  alu64Dst (hostToLittle s.params.hostEndian 2) dst s

/-- LE32 (spec/43_byteswap.md R315). -/
def execLe32 (dst : Reg) (s : State) : Result :=
  alu64Dst (hostToLittle s.params.hostEndian 4) dst s

/-- LE64 (spec/43_byteswap.md R316). -/
def execLe64 (dst : Reg) (s : State) : Result :=
  alu64Dst (hostToLittle s.params.hostEndian 8) dst s

/-- BE16 (spec/43_byteswap.md R317). -/
def execBe16 (dst : Reg) (s : State) : Result :=
  alu64Dst (hostToBig s.params.hostEndian 2) dst s

/-- BE32 (spec/43_byteswap.md R318). -/
def execBe32 (dst : Reg) (s : State) : Result :=
  alu64Dst (hostToBig s.params.hostEndian 4) dst s

/-- BE64 (spec/43_byteswap.md R319). -/
def execBe64 (dst : Reg) (s : State) : Result :=
  alu64Dst (hostToBig s.params.hostEndian 8) dst s

/-- BSWAP16 (spec/43_byteswap.md R320). -/
def execBswap16 (dst : Reg) (s : State) : Result :=
  alu64Dst (swapBytes 2) dst s

/-- BSWAP32 (spec/43_byteswap.md R321). -/
def execBswap32 (dst : Reg) (s : State) : Result :=
  alu64Dst (swapBytes 4) dst s

/-- BSWAP64 (spec/43_byteswap.md R322). -/
def execBswap64 (dst : Reg) (s : State) : Result :=
  alu64Dst (swapBytes 8) dst s

end Sys2Proof.Machine
end

