-- ==== Sys2Proof/Machine/Call.lean ====
section
/-! DEFINITION. CALL and EXIT (spec/45_jump_b.md R385 to R389). One meaning for each instruction over the shared operations. -/

namespace Sys2Proof.Machine

/-- CALL_HELPER (spec/45_jump_b.md R386). -/
def execCallHelper (imm : W32) (s : State) : Result :=
  helperCall (s.params.helpersByAddr.lookup imm.toInt) imm.toInt s

/-- CALL_LOCAL (spec/45_jump_b.md R387). -/
def execCallLocal (imm : W32) (s : State) : Result :=
  localCall imm.toInt s

/-- CALL_BTF (spec/45_jump_b.md R388). -/
def execCallBtf (imm : W32) (s : State) : Result :=
  helperCall (s.params.helpersByBtf.lookup imm.toInt) imm.toInt s

/-- EXIT (spec/45_jump_b.md R389). -/
def execExit (s : State) : Result :=
  returnOrEnd s

end Sys2Proof.Machine
end

