-- ==== Sys2Proof/Machine/Imm64.lean ====
section
/-! DEFINITION. 64-bit immediate loads and the second slot (spec/48_imm64.md). One meaning for each instruction over the shared operations. -/

namespace Sys2Proof.Machine

/-- LDDW (spec/48_imm64.md R472). The high half is nextImm, the low half imm as it is. -/
def execLddw (dst : Reg) (imm : W32) (nextImm : W32) (s : State) : Result :=
  finishWide dst (nextImm ++ imm) s

/-- LD_MAP_FD (spec/48_imm64.md R473). -/
def execLdMapFd (dst : Reg) (imm : W32) (s : State) : Result :=
  finishLookup dst (s.params.mapAddrByFd imm) s

/-- LD_MAP_VAL_FD (spec/48_imm64.md R474). nextImm is not negative in a legal encoding, so zero-extension is sign-extension. -/
def execLdMapValFd (dst : Reg) (imm : W32) (nextImm : W32) (s : State) : Result :=
  finishLookup dst ((s.params.mapValByFd imm).map (· + zext64 nextImm)) s

/-- LD_VAR_ADDR (spec/48_imm64.md R475). -/
def execLdVarAddr (dst : Reg) (imm : W32) (s : State) : Result :=
  finishLookup dst (s.params.varAddrOf imm) s

/-- LD_CODE_ADDR (spec/48_imm64.md R476). -/
def execLdCodeAddr (dst : Reg) (imm : W32) (s : State) : Result :=
  finishLookup dst (s.params.codeAddrOf s.pc imm) s

/-- LD_MAP_IDX (spec/48_imm64.md R477). -/
def execLdMapIdx (dst : Reg) (imm : W32) (s : State) : Result :=
  finishLookup dst (s.params.mapAddrByIdx imm) s

/-- LD_MAP_VAL_IDX (spec/48_imm64.md R478). nextImm is not negative in a legal encoding, so zero-extension is sign-extension. -/
def execLdMapValIdx (dst : Reg) (imm : W32) (nextImm : W32) (s : State) : Result :=
  finishLookup dst ((s.params.mapValByIdx imm).map (· + zext64 nextImm)) s

/-- IMM64_HI (spec/48_imm64.md R479). Never run as an instruction: fetch reports BadPC where it is the second slot of a wide instruction;
anywhere else the slot is illegal (log 17). -/
def execImm64Hi (_nextImm : W32) (s : State) : Result :=
  raise (.illegalInstruction s.pc) s

end Sys2Proof.Machine
end

