-- ==== Sys2Proof/Machine/Flags.lean ====
section
/-! DEFINITION. The ISA has no flags (spec/10_state.md R37): nothing an instruction leaves behind is computed here.
What stands in place of flags is the comparison inside each conditional jump (spec/44_jump_a.md R333, R334), written
once for both widths. -/

namespace Sys2Proof.Machine

/-- JEQ. -/
def cmpEq {n : Nat} (a b : BitVec n) : Bool := decide (a = b)

/-- JNE. -/
def cmpNe {n : Nat} (a b : BitVec n) : Bool := decide (a ≠ b)

/-- JSET: some bit is set in both. -/
def cmpSet {n : Nat} (a b : BitVec n) : Bool := decide (a &&& b ≠ 0)

/-- JGT, unsigned. -/
def cmpGt {n : Nat} (a b : BitVec n) : Bool := decide (a.toNat > b.toNat)

/-- JGE, unsigned. -/
def cmpGe {n : Nat} (a b : BitVec n) : Bool := decide (a.toNat ≥ b.toNat)

/-- JLT, unsigned. -/
def cmpLt {n : Nat} (a b : BitVec n) : Bool := decide (a.toNat < b.toNat)

/-- JLE, unsigned. -/
def cmpLe {n : Nat} (a b : BitVec n) : Bool := decide (a.toNat ≤ b.toNat)

/-- JSGT, signed. -/
def cmpSgt {n : Nat} (a b : BitVec n) : Bool := decide (a.toInt > b.toInt)

/-- JSGE, signed. -/
def cmpSge {n : Nat} (a b : BitVec n) : Bool := decide (a.toInt ≥ b.toInt)

/-- JSLT, signed. -/
def cmpSlt {n : Nat} (a b : BitVec n) : Bool := decide (a.toInt < b.toInt)

/-- JSLE, signed. -/
def cmpSle {n : Nat} (a b : BitVec n) : Bool := decide (a.toInt ≤ b.toInt)

end Sys2Proof.Machine
end

