-- ==== Sys2Proof/Machine/Jump.lean ====
section
/-! DEFINITION. Jumps (spec/44_jump_a.md, spec/45_jump_b.md). One meaning for each instruction over the shared operations. -/

namespace Sys2Proof.Machine

/-- JA (spec/44_jump_a.md R330). -/
def execJa (off : BitVec 16) (s : State) : Result :=
  jumpBy off.toInt s

/-- JA32 (spec/44_jump_a.md R331). -/
def execJa32 (imm : W32) (s : State) : Result :=
  jumpBy imm.toInt s

/-- JEQ64_IMM (spec/44_jump_a.md R340). -/
def execJeq64Imm (dst : Reg) (off : BitVec 16) (imm : W32) (s : State) : Result :=
  jump64Imm cmpEq dst off imm s

/-- JEQ64_REG (spec/44_jump_a.md R341). -/
def execJeq64Reg (dst : Reg) (src : Reg) (off : BitVec 16) (s : State) : Result :=
  jump64Reg cmpEq dst src off s

/-- JEQ32_IMM (spec/44_jump_a.md R342). -/
def execJeq32Imm (dst : Reg) (off : BitVec 16) (imm : W32) (s : State) : Result :=
  jump32Imm cmpEq dst off imm s

/-- JEQ32_REG (spec/44_jump_a.md R343). -/
def execJeq32Reg (dst : Reg) (src : Reg) (off : BitVec 16) (s : State) : Result :=
  jump32Reg cmpEq dst src off s

/-- JGT64_IMM (spec/44_jump_a.md R344). -/
def execJgt64Imm (dst : Reg) (off : BitVec 16) (imm : W32) (s : State) : Result :=
  jump64Imm cmpGt dst off imm s

/-- JGT64_REG (spec/44_jump_a.md R345). -/
def execJgt64Reg (dst : Reg) (src : Reg) (off : BitVec 16) (s : State) : Result :=
  jump64Reg cmpGt dst src off s

/-- JGT32_IMM (spec/44_jump_a.md R346). -/
def execJgt32Imm (dst : Reg) (off : BitVec 16) (imm : W32) (s : State) : Result :=
  jump32Imm cmpGt dst off imm s

/-- JGT32_REG (spec/44_jump_a.md R347). -/
def execJgt32Reg (dst : Reg) (src : Reg) (off : BitVec 16) (s : State) : Result :=
  jump32Reg cmpGt dst src off s

/-- JGE64_IMM (spec/44_jump_a.md R348). -/
def execJge64Imm (dst : Reg) (off : BitVec 16) (imm : W32) (s : State) : Result :=
  jump64Imm cmpGe dst off imm s

/-- JGE64_REG (spec/44_jump_a.md R349). -/
def execJge64Reg (dst : Reg) (src : Reg) (off : BitVec 16) (s : State) : Result :=
  jump64Reg cmpGe dst src off s

/-- JGE32_IMM (spec/44_jump_a.md R350). -/
def execJge32Imm (dst : Reg) (off : BitVec 16) (imm : W32) (s : State) : Result :=
  jump32Imm cmpGe dst off imm s

/-- JGE32_REG (spec/44_jump_a.md R351). -/
def execJge32Reg (dst : Reg) (src : Reg) (off : BitVec 16) (s : State) : Result :=
  jump32Reg cmpGe dst src off s

/-- JSET64_IMM (spec/44_jump_a.md R352). -/
def execJset64Imm (dst : Reg) (off : BitVec 16) (imm : W32) (s : State) : Result :=
  jump64Imm cmpSet dst off imm s

/-- JSET64_REG (spec/44_jump_a.md R353). -/
def execJset64Reg (dst : Reg) (src : Reg) (off : BitVec 16) (s : State) : Result :=
  jump64Reg cmpSet dst src off s

/-- JSET32_IMM (spec/44_jump_a.md R354). -/
def execJset32Imm (dst : Reg) (off : BitVec 16) (imm : W32) (s : State) : Result :=
  jump32Imm cmpSet dst off imm s

/-- JSET32_REG (spec/44_jump_a.md R355). -/
def execJset32Reg (dst : Reg) (src : Reg) (off : BitVec 16) (s : State) : Result :=
  jump32Reg cmpSet dst src off s

/-- JNE64_IMM (spec/44_jump_a.md R356). -/
def execJne64Imm (dst : Reg) (off : BitVec 16) (imm : W32) (s : State) : Result :=
  jump64Imm cmpNe dst off imm s

/-- JNE64_REG (spec/44_jump_a.md R357). -/
def execJne64Reg (dst : Reg) (src : Reg) (off : BitVec 16) (s : State) : Result :=
  jump64Reg cmpNe dst src off s

/-- JNE32_IMM (spec/44_jump_a.md R358). -/
def execJne32Imm (dst : Reg) (off : BitVec 16) (imm : W32) (s : State) : Result :=
  jump32Imm cmpNe dst off imm s

/-- JNE32_REG (spec/44_jump_a.md R359). -/
def execJne32Reg (dst : Reg) (src : Reg) (off : BitVec 16) (s : State) : Result :=
  jump32Reg cmpNe dst src off s

/-- JSGT64_IMM (spec/44_jump_a.md R360). -/
def execJsgt64Imm (dst : Reg) (off : BitVec 16) (imm : W32) (s : State) : Result :=
  jump64Imm cmpSgt dst off imm s

/-- JSGT64_REG (spec/44_jump_a.md R361). -/
def execJsgt64Reg (dst : Reg) (src : Reg) (off : BitVec 16) (s : State) : Result :=
  jump64Reg cmpSgt dst src off s

/-- JSGT32_IMM (spec/44_jump_a.md R362). -/
def execJsgt32Imm (dst : Reg) (off : BitVec 16) (imm : W32) (s : State) : Result :=
  jump32Imm cmpSgt dst off imm s

/-- JSGT32_REG (spec/44_jump_a.md R363). -/
def execJsgt32Reg (dst : Reg) (src : Reg) (off : BitVec 16) (s : State) : Result :=
  jump32Reg cmpSgt dst src off s

/-- JSGE64_IMM (spec/44_jump_a.md R364). -/
def execJsge64Imm (dst : Reg) (off : BitVec 16) (imm : W32) (s : State) : Result :=
  jump64Imm cmpSge dst off imm s

/-- JSGE64_REG (spec/44_jump_a.md R365). -/
def execJsge64Reg (dst : Reg) (src : Reg) (off : BitVec 16) (s : State) : Result :=
  jump64Reg cmpSge dst src off s

/-- JSGE32_IMM (spec/44_jump_a.md R366). -/
def execJsge32Imm (dst : Reg) (off : BitVec 16) (imm : W32) (s : State) : Result :=
  jump32Imm cmpSge dst off imm s

/-- JSGE32_REG (spec/44_jump_a.md R367). -/
def execJsge32Reg (dst : Reg) (src : Reg) (off : BitVec 16) (s : State) : Result :=
  jump32Reg cmpSge dst src off s

/-- JLT64_IMM (spec/45_jump_b.md R368). -/
def execJlt64Imm (dst : Reg) (off : BitVec 16) (imm : W32) (s : State) : Result :=
  jump64Imm cmpLt dst off imm s

/-- JLT64_REG (spec/45_jump_b.md R369). -/
def execJlt64Reg (dst : Reg) (src : Reg) (off : BitVec 16) (s : State) : Result :=
  jump64Reg cmpLt dst src off s

/-- JLT32_IMM (spec/45_jump_b.md R370). -/
def execJlt32Imm (dst : Reg) (off : BitVec 16) (imm : W32) (s : State) : Result :=
  jump32Imm cmpLt dst off imm s

/-- JLT32_REG (spec/45_jump_b.md R371). -/
def execJlt32Reg (dst : Reg) (src : Reg) (off : BitVec 16) (s : State) : Result :=
  jump32Reg cmpLt dst src off s

/-- JLE64_IMM (spec/45_jump_b.md R372). -/
def execJle64Imm (dst : Reg) (off : BitVec 16) (imm : W32) (s : State) : Result :=
  jump64Imm cmpLe dst off imm s

/-- JLE64_REG (spec/45_jump_b.md R373). -/
def execJle64Reg (dst : Reg) (src : Reg) (off : BitVec 16) (s : State) : Result :=
  jump64Reg cmpLe dst src off s

/-- JLE32_IMM (spec/45_jump_b.md R374). -/
def execJle32Imm (dst : Reg) (off : BitVec 16) (imm : W32) (s : State) : Result :=
  jump32Imm cmpLe dst off imm s

/-- JLE32_REG (spec/45_jump_b.md R375). -/
def execJle32Reg (dst : Reg) (src : Reg) (off : BitVec 16) (s : State) : Result :=
  jump32Reg cmpLe dst src off s

/-- JSLT64_IMM (spec/45_jump_b.md R376). -/
def execJslt64Imm (dst : Reg) (off : BitVec 16) (imm : W32) (s : State) : Result :=
  jump64Imm cmpSlt dst off imm s

/-- JSLT64_REG (spec/45_jump_b.md R377). -/
def execJslt64Reg (dst : Reg) (src : Reg) (off : BitVec 16) (s : State) : Result :=
  jump64Reg cmpSlt dst src off s

/-- JSLT32_IMM (spec/45_jump_b.md R378). -/
def execJslt32Imm (dst : Reg) (off : BitVec 16) (imm : W32) (s : State) : Result :=
  jump32Imm cmpSlt dst off imm s

/-- JSLT32_REG (spec/45_jump_b.md R379). -/
def execJslt32Reg (dst : Reg) (src : Reg) (off : BitVec 16) (s : State) : Result :=
  jump32Reg cmpSlt dst src off s

/-- JSLE64_IMM (spec/45_jump_b.md R380). -/
def execJsle64Imm (dst : Reg) (off : BitVec 16) (imm : W32) (s : State) : Result :=
  jump64Imm cmpSle dst off imm s

/-- JSLE64_REG (spec/45_jump_b.md R381). -/
def execJsle64Reg (dst : Reg) (src : Reg) (off : BitVec 16) (s : State) : Result :=
  jump64Reg cmpSle dst src off s

/-- JSLE32_IMM (spec/45_jump_b.md R382). -/
def execJsle32Imm (dst : Reg) (off : BitVec 16) (imm : W32) (s : State) : Result :=
  jump32Imm cmpSle dst off imm s

/-- JSLE32_REG (spec/45_jump_b.md R383). -/
def execJsle32Reg (dst : Reg) (src : Reg) (off : BitVec 16) (s : State) : Result :=
  jump32Reg cmpSle dst src off s

end Sys2Proof.Machine
end

