-- ==== Sys2Proof/Machine/LoadStore.lean ====
section
/-! DEFINITION. Loads and stores (spec/46_load_store.md). One meaning for each instruction over the shared operations. -/

namespace Sys2Proof.Machine

/-- LDXW (spec/46_load_store.md R402). -/
def execLdxw (dst : Reg) (src : Reg) (off : BitVec 16) (s : State) : Result :=
  loadForm 4 id dst src off s

/-- LDXH (spec/46_load_store.md R403). -/
def execLdxh (dst : Reg) (src : Reg) (off : BitVec 16) (s : State) : Result :=
  loadForm 2 id dst src off s

/-- LDXB (spec/46_load_store.md R404). -/
def execLdxb (dst : Reg) (src : Reg) (off : BitVec 16) (s : State) : Result :=
  loadForm 1 id dst src off s

/-- LDXDW (spec/46_load_store.md R405). -/
def execLdxdw (dst : Reg) (src : Reg) (off : BitVec 16) (s : State) : Result :=
  loadForm 8 id dst src off s

/-- STW (spec/46_load_store.md R406). -/
def execStw (dst : Reg) (off : BitVec 16) (imm : W32) (s : State) : Result :=
  storeImmForm 4 dst off imm s

/-- STH (spec/46_load_store.md R407). -/
def execSth (dst : Reg) (off : BitVec 16) (imm : W32) (s : State) : Result :=
  storeImmForm 2 dst off imm s

/-- STB (spec/46_load_store.md R408). -/
def execStb (dst : Reg) (off : BitVec 16) (imm : W32) (s : State) : Result :=
  storeImmForm 1 dst off imm s

/-- STDW (spec/46_load_store.md R409). -/
def execStdw (dst : Reg) (off : BitVec 16) (imm : W32) (s : State) : Result :=
  storeImmForm 8 dst off imm s

/-- STXW (spec/46_load_store.md R410). -/
def execStxw (dst : Reg) (src : Reg) (off : BitVec 16) (s : State) : Result :=
  storeRegForm 4 dst src off s

/-- STXH (spec/46_load_store.md R411). -/
def execStxh (dst : Reg) (src : Reg) (off : BitVec 16) (s : State) : Result :=
  storeRegForm 2 dst src off s

/-- STXB (spec/46_load_store.md R412). -/
def execStxb (dst : Reg) (src : Reg) (off : BitVec 16) (s : State) : Result :=
  storeRegForm 1 dst src off s

/-- STXDW (spec/46_load_store.md R413). -/
def execStxdw (dst : Reg) (src : Reg) (off : BitVec 16) (s : State) : Result :=
  storeRegForm 8 dst src off s

/-- LDXSW (spec/46_load_store.md R414). -/
def execLdxsw (dst : Reg) (src : Reg) (off : BitVec 16) (s : State) : Result :=
  loadForm 4 (signExtendBytes 4) dst src off s

/-- LDXSH (spec/46_load_store.md R415). -/
def execLdxsh (dst : Reg) (src : Reg) (off : BitVec 16) (s : State) : Result :=
  loadForm 2 (signExtendBytes 2) dst src off s

/-- LDXSB (spec/46_load_store.md R416). -/
def execLdxsb (dst : Reg) (src : Reg) (off : BitVec 16) (s : State) : Result :=
  loadForm 1 (signExtendBytes 1) dst src off s

end Sys2Proof.Machine
end

