-- ==== Sys2Proof/Machine/Packet.lean ====
section
/-! DEFINITION. Legacy packet access (spec/49_packet.md): every one raises IllegalInstruction(pc) (R490). One meaning for each instruction over the shared operations. -/

namespace Sys2Proof.Machine

/-- LD_ABS_W (spec/49_packet.md R491). -/
def execLdAbsW (_imm : W32) (s : State) : Result :=
  raise (.illegalInstruction s.pc) s

/-- LD_ABS_H (spec/49_packet.md R492). -/
def execLdAbsH (_imm : W32) (s : State) : Result :=
  raise (.illegalInstruction s.pc) s

/-- LD_ABS_B (spec/49_packet.md R493). -/
def execLdAbsB (_imm : W32) (s : State) : Result :=
  raise (.illegalInstruction s.pc) s

/-- LD_IND_W (spec/49_packet.md R494). -/
def execLdIndW (_src : Reg) (_imm : W32) (s : State) : Result :=
  raise (.illegalInstruction s.pc) s

/-- LD_IND_H (spec/49_packet.md R495). -/
def execLdIndH (_src : Reg) (_imm : W32) (s : State) : Result :=
  raise (.illegalInstruction s.pc) s

/-- LD_IND_B (spec/49_packet.md R496). -/
def execLdIndB (_src : Reg) (_imm : W32) (s : State) : Result :=
  raise (.illegalInstruction s.pc) s

end Sys2Proof.Machine
end

