-- ==== Sys2Proof/WellFormed.lean ====
section
/-! DEFINITION. Which terms of Instr stand for an encoding. A register operand is a register by its type and every
other field is free, so the one check left is on next_imm of the two map value loads (spec/48_imm64.md R479). -/

namespace Sys2Proof

/-- The condition spec/48_imm64.md R479 puts on next_imm in subtypes 2 and 6: it is not negative as a signed number. -/
def nextImmNonneg (nextImm : W32) : Bool := decide (0 ≤ nextImm.toInt)

/-- The instruction has an encoding (spec/30_encoding.md R120 items 2 and 3). -/
def Instr.wellFormed (i : Instr) : Bool :=
  match i with
  | .ldMapValFd _ _ nextImm => nextImmNonneg nextImm
  | .ldMapValIdx _ _ nextImm => nextImmNonneg nextImm
  | .add32Imm .. | .add32Reg .. | .add64Imm .. | .add64Reg .. | .sub32Imm .. | .sub32Reg .. => true
  | .sub64Imm .. | .sub64Reg .. | .mul32Imm .. | .mul32Reg .. | .mul64Imm .. | .mul64Reg .. => true
  | .div32Imm .. | .div32Reg .. | .div64Imm .. | .div64Reg .. | .sdiv32Imm .. | .sdiv32Reg .. => true
  | .sdiv64Imm .. | .sdiv64Reg .. | .or32Imm .. | .or32Reg .. | .or64Imm .. | .or64Reg .. => true
  | .and32Imm .. | .and32Reg .. | .and64Imm .. | .and64Reg .. | .lsh32Imm .. | .lsh32Reg .. => true
  | .lsh64Imm .. | .lsh64Reg .. | .rsh32Imm .. | .rsh32Reg .. | .rsh64Imm .. | .rsh64Reg .. => true
  | .neg32 .. | .neg64 .. | .mod32Imm .. | .mod32Reg .. | .mod64Imm .. | .mod64Reg .. => true
  | .smod32Imm .. | .smod32Reg .. | .smod64Imm .. | .smod64Reg .. | .xor32Imm .. | .xor32Reg .. => true
  | .xor64Imm .. | .xor64Reg .. | .mov32Imm .. | .mov32Reg .. | .mov64Imm .. | .mov64Reg .. => true
  | .movsx32x8 .. | .movsx32x16 .. | .movsx64x8 .. | .movsx64x16 .. | .movsx64x32 .. | .arsh32Imm .. => true
  | .arsh32Reg .. | .arsh64Imm .. | .arsh64Reg .. | .le16 .. | .le32 .. | .le64 .. => true
  | .be16 .. | .be32 .. | .be64 .. | .bswap16 .. | .bswap32 .. | .bswap64 .. => true
  | .ja .. | .ja32 .. | .jeq64Imm .. | .jeq64Reg .. | .jeq32Imm .. | .jeq32Reg .. => true
  | .jgt64Imm .. | .jgt64Reg .. | .jgt32Imm .. | .jgt32Reg .. | .jge64Imm .. | .jge64Reg .. => true
  | .jge32Imm .. | .jge32Reg .. | .jset64Imm .. | .jset64Reg .. | .jset32Imm .. | .jset32Reg .. => true
  | .jne64Imm .. | .jne64Reg .. | .jne32Imm .. | .jne32Reg .. | .jsgt64Imm .. | .jsgt64Reg .. => true
  | .jsgt32Imm .. | .jsgt32Reg .. | .jsge64Imm .. | .jsge64Reg .. | .jsge32Imm .. | .jsge32Reg .. => true
  | .jlt64Imm .. | .jlt64Reg .. | .jlt32Imm .. | .jlt32Reg .. | .jle64Imm .. | .jle64Reg .. => true
  | .jle32Imm .. | .jle32Reg .. | .jslt64Imm .. | .jslt64Reg .. | .jslt32Imm .. | .jslt32Reg .. => true
  | .jsle64Imm .. | .jsle64Reg .. | .jsle32Imm .. | .jsle32Reg .. | .callHelper .. | .callLocal .. => true
  | .callBtf .. | .exit | .ldxw .. | .ldxh .. | .ldxb .. | .ldxdw .. => true
  | .stw .. | .sth .. | .stb .. | .stdw .. | .stxw .. | .stxh .. => true
  | .stxb .. | .stxdw .. | .ldxsw .. | .ldxsh .. | .ldxsb .. | .atomicAdd32 .. => true
  | .atomicFetchAdd32 .. | .atomicOr32 .. | .atomicFetchOr32 .. | .atomicAnd32 .. | .atomicFetchAnd32 .. | .atomicXor32 .. => true
  | .atomicFetchXor32 .. | .atomicXchg32 .. | .atomicCmpxchg32 .. | .atomicAdd64 .. | .atomicFetchAdd64 .. | .atomicOr64 .. => true
  | .atomicFetchOr64 .. | .atomicAnd64 .. | .atomicFetchAnd64 .. | .atomicXor64 .. | .atomicFetchXor64 .. | .atomicXchg64 .. => true
  | .atomicCmpxchg64 .. | .lddw .. | .ldMapFd .. | .ldVarAddr .. | .ldCodeAddr .. | .ldMapIdx .. => true
  | .ldAbsW .. | .ldAbsH .. | .ldAbsB .. | .ldIndW .. | .ldIndH .. | .ldIndB .. => true
  | .imm64Hi .. => true

/-- The instruction is wide: it takes two slots (spec/30_encoding.md R109, R122). -/
def Instr.isWide (i : Instr) : Bool :=
  match i with
  | .lddw .. | .ldMapFd .. | .ldMapValFd .. | .ldVarAddr .. | .ldCodeAddr .. | .ldMapIdx .. | .ldMapValIdx .. => true
  | .add32Imm .. | .add32Reg .. | .add64Imm .. | .add64Reg .. | .sub32Imm .. | .sub32Reg .. => false
  | .sub64Imm .. | .sub64Reg .. | .mul32Imm .. | .mul32Reg .. | .mul64Imm .. | .mul64Reg .. => false
  | .div32Imm .. | .div32Reg .. | .div64Imm .. | .div64Reg .. | .sdiv32Imm .. | .sdiv32Reg .. => false
  | .sdiv64Imm .. | .sdiv64Reg .. | .or32Imm .. | .or32Reg .. | .or64Imm .. | .or64Reg .. => false
  | .and32Imm .. | .and32Reg .. | .and64Imm .. | .and64Reg .. | .lsh32Imm .. | .lsh32Reg .. => false
  | .lsh64Imm .. | .lsh64Reg .. | .rsh32Imm .. | .rsh32Reg .. | .rsh64Imm .. | .rsh64Reg .. => false
  | .neg32 .. | .neg64 .. | .mod32Imm .. | .mod32Reg .. | .mod64Imm .. | .mod64Reg .. => false
  | .smod32Imm .. | .smod32Reg .. | .smod64Imm .. | .smod64Reg .. | .xor32Imm .. | .xor32Reg .. => false
  | .xor64Imm .. | .xor64Reg .. | .mov32Imm .. | .mov32Reg .. | .mov64Imm .. | .mov64Reg .. => false
  | .movsx32x8 .. | .movsx32x16 .. | .movsx64x8 .. | .movsx64x16 .. | .movsx64x32 .. | .arsh32Imm .. => false
  | .arsh32Reg .. | .arsh64Imm .. | .arsh64Reg .. | .le16 .. | .le32 .. | .le64 .. => false
  | .be16 .. | .be32 .. | .be64 .. | .bswap16 .. | .bswap32 .. | .bswap64 .. => false
  | .ja .. | .ja32 .. | .jeq64Imm .. | .jeq64Reg .. | .jeq32Imm .. | .jeq32Reg .. => false
  | .jgt64Imm .. | .jgt64Reg .. | .jgt32Imm .. | .jgt32Reg .. | .jge64Imm .. | .jge64Reg .. => false
  | .jge32Imm .. | .jge32Reg .. | .jset64Imm .. | .jset64Reg .. | .jset32Imm .. | .jset32Reg .. => false
  | .jne64Imm .. | .jne64Reg .. | .jne32Imm .. | .jne32Reg .. | .jsgt64Imm .. | .jsgt64Reg .. => false
  | .jsgt32Imm .. | .jsgt32Reg .. | .jsge64Imm .. | .jsge64Reg .. | .jsge32Imm .. | .jsge32Reg .. => false
  | .jlt64Imm .. | .jlt64Reg .. | .jlt32Imm .. | .jlt32Reg .. | .jle64Imm .. | .jle64Reg .. => false
  | .jle32Imm .. | .jle32Reg .. | .jslt64Imm .. | .jslt64Reg .. | .jslt32Imm .. | .jslt32Reg .. => false
  | .jsle64Imm .. | .jsle64Reg .. | .jsle32Imm .. | .jsle32Reg .. | .callHelper .. | .callLocal .. => false
  | .callBtf .. | .exit | .ldxw .. | .ldxh .. | .ldxb .. | .ldxdw .. => false
  | .stw .. | .sth .. | .stb .. | .stdw .. | .stxw .. | .stxh .. => false
  | .stxb .. | .stxdw .. | .ldxsw .. | .ldxsh .. | .ldxsb .. | .atomicAdd32 .. => false
  | .atomicFetchAdd32 .. | .atomicOr32 .. | .atomicFetchOr32 .. | .atomicAnd32 .. | .atomicFetchAnd32 .. | .atomicXor32 .. => false
  | .atomicFetchXor32 .. | .atomicXchg32 .. | .atomicCmpxchg32 .. | .atomicAdd64 .. | .atomicFetchAdd64 .. | .atomicOr64 .. => false
  | .atomicFetchOr64 .. | .atomicAnd64 .. | .atomicFetchAnd64 .. | .atomicXor64 .. | .atomicFetchXor64 .. | .atomicXchg64 .. => false
  | .atomicCmpxchg64 .. | .ldAbsW .. | .ldAbsH .. | .ldAbsB .. | .ldIndW .. | .ldIndH .. => false
  | .ldIndB .. | .imm64Hi .. => false

/-- The slots the instruction takes (spec/30_encoding.md R122). -/
def Instr.length (i : Instr) : Nat := if i.isWide then 2 else 1

end Sys2Proof
end

