-- ==== Sys2Proof/Decode.lean ====
section
/-! DEFINITION. Reading an instruction from slots and writing one to slots (spec/30_encoding.md). The decoder is total:
every list of slots gives an instruction or a named reason why it is none (R122). The encoder is written beside it from
the same encodings. -/

namespace Sys2Proof

/-! ## The fields of a slot (R101 to R107) -/

/-- The fields of a slot on a host of byte order `e` (spec/30_encoding.md R103, R106). -/
def Fields.ofSlot (e : Endian) (s : Slot) : Fields :=
  match e with
  | .little =>
    { opcode := s.b0, dst := s.b1.extractLsb' 0 4, src := s.b1.extractLsb' 4 4,
      offset := s.b3 ++ s.b2, imm := s.b7 ++ s.b6 ++ s.b5 ++ s.b4 }
  | .big =>
    { opcode := s.b0, dst := s.b1.extractLsb' 4 4, src := s.b1.extractLsb' 0 4,
      offset := s.b2 ++ s.b3, imm := s.b4 ++ s.b5 ++ s.b6 ++ s.b7 }

/-- The slot that holds the given fields on a host of byte order `e` (spec/30_encoding.md R103, R106). -/
def Fields.toSlot (e : Endian) (f : Fields) : Slot :=
  match e with
  | .little =>
    { b0 := f.opcode, b1 := f.src ++ f.dst,
      b2 := f.offset.extractLsb' 0 8, b3 := f.offset.extractLsb' 8 8,
      b4 := f.imm.extractLsb' 0 8, b5 := f.imm.extractLsb' 8 8,
      b6 := f.imm.extractLsb' 16 8, b7 := f.imm.extractLsb' 24 8 }
  | .big =>
    { b0 := f.opcode, b1 := f.dst ++ f.src,
      b2 := f.offset.extractLsb' 8 8, b3 := f.offset.extractLsb' 0 8,
      b4 := f.imm.extractLsb' 24 8, b5 := f.imm.extractLsb' 16 8,
      b6 := f.imm.extractLsb' 8 8, b7 := f.imm.extractLsb' 0 8 }

/-- The fields in the canonical word W (spec/30_encoding.md R107). -/
def Fields.ofWord (w : W64) : Fields :=
  { opcode := w.extractLsb' 0 8, dst := w.extractLsb' 8 4, src := w.extractLsb' 12 4,
    offset := w.extractLsb' 16 16, imm := w.extractLsb' 32 32 }

/-- The canonical word W of the fields (spec/30_encoding.md R107). -/
def Fields.toWord (f : Fields) : W64 := f.imm ++ f.offset ++ f.src ++ f.dst ++ f.opcode

/-- The slot whose canonical word is `w`, as a host of byte order `e` stores it. -/
def Slot.ofWord (e : Endian) (w : W64) : Slot := (Fields.ofWord w).toSlot e

/-! ## The operand forms

Each function below checks the fields of one form and hands the operands to the constructor `c`. -/

/-- A field used as a register number names one of R0 to R10 (spec/30_encoding.md R119). -/
def regOf (n : BitVec 4) : Option Reg := if h : n.toNat < 11 then some ⟨n.toNat, h⟩ else none

/-- Goes on with the register a field names, or refuses the field (spec/30_encoding.md R119). -/
def withRegField (n : BitVec 4) (k : Reg → Except Reject Instr) : Except Reject Instr :=
  match regOf n with
  | some r => k r
  | none => .error .noSuchRegister

/-- Destination register and imm; src_reg 0 and offset `off` (ALU and ALU64 with K, spec/30_encoding.md R116). -/
def dstImmForm (f : Fields) (off : BitVec 16) (c : Reg → W32 → Instr) : Except Reject Instr :=
  if f.offset ≠ off then .error .offsetSelector
  else if f.src ≠ 0 then .error .unusedField
  else withRegField f.dst fun d => .ok (c d f.imm)

/-- Destination and source register; imm 0 and offset `off` (ALU and ALU64 with X, spec/30_encoding.md R116). -/
def dstSrcForm (f : Fields) (off : BitVec 16) (c : Reg → Reg → Instr) : Except Reject Instr :=
  if f.offset ≠ off then .error .offsetSelector
  else if f.imm ≠ 0 then .error .unusedField
  else withRegField f.dst fun d => withRegField f.src fun r => .ok (c d r)

/-- DIV and SDIV, MOD and SMOD with K: offset 0 or 1 selects (spec/30_encoding.md R116). -/
def dstImmSelected (f : Fields) (c0 c1 : Reg → W32 → Instr) : Except Reject Instr :=
  if f.offset = 1 then dstImmForm f 1 c1 else dstImmForm f 0 c0

/-- DIV and SDIV, MOD and SMOD with X: offset 0 or 1 selects (spec/30_encoding.md R116). -/
def dstSrcSelected (f : Fields) (c0 c1 : Reg → Reg → Instr) : Except Reject Instr :=
  if f.offset = 1 then dstSrcForm f 1 c1 else dstSrcForm f 0 c0

/-- MOV and MOVSX of class ALU: offset 0, 8 or 16 selects (spec/42_arithmetic_c.md R261). -/
def movForm32 (f : Fields) (c c8 c16 : Reg → Reg → Instr) : Except Reject Instr :=
  if f.offset = 8 then dstSrcForm f 8 c8
  else if f.offset = 16 then dstSrcForm f 16 c16
  else dstSrcForm f 0 c

/-- MOV and MOVSX of class ALU64: offset 0, 8, 16 or 32 selects (spec/42_arithmetic_c.md R261). -/
def movForm64 (f : Fields) (c c8 c16 c32 : Reg → Reg → Instr) : Except Reject Instr :=
  if f.offset = 32 then dstSrcForm f 32 c32 else movForm32 f c c8 c16

/-- Destination register alone; everything else 0 (NEG, spec/41_arithmetic_b.md R260). -/
def dstForm (f : Fields) (c : Reg → Instr) : Except Reject Instr :=
  if f.offset ≠ 0 ∨ f.src ≠ 0 ∨ f.imm ≠ 0 then .error .unusedField
  else withRegField f.dst fun d => .ok (c d)

/-- A byte swap: imm is the width (spec/43_byteswap.md R310, R311). -/
def swapForm (f : Fields) (c16 c32 c64 : Reg → Instr) : Except Reject Instr :=
  if f.imm = 16 then dstForm { f with imm := 0 } c16
  else if f.imm = 32 then dstForm { f with imm := 0 } c32
  else if f.imm = 64 then dstForm { f with imm := 0 } c64
  else .error .immSelector

/-- JA: offset alone (spec/44_jump_a.md R330). -/
def offForm (f : Fields) (c : BitVec 16 → Instr) : Except Reject Instr :=
  if f.dst ≠ 0 ∨ f.src ≠ 0 ∨ f.imm ≠ 0 then .error .unusedField else .ok (c f.offset)

/-- JA32, CALL of one subtype and the ABS loads: imm alone, src_reg `sub`
(spec/44_jump_a.md R331, spec/45_jump_b.md R385, spec/49_packet.md R490). -/
def immForm (f : Fields) (sub : BitVec 4) (c : W32 → Instr) : Except Reject Instr :=
  if f.dst ≠ 0 ∨ f.src ≠ sub ∨ f.offset ≠ 0 then .error .unusedField else .ok (c f.imm)

/-- CALL: src_reg is the subtype (spec/45_jump_b.md R385). -/
def callForm (f : Fields) (c0 c1 c2 : W32 → Instr) : Except Reject Instr :=
  if f.src = 0 then immForm f 0 c0
  else if f.src = 1 then immForm f 1 c1
  else if f.src = 2 then immForm f 2 c2
  else .error .srcSelector

/-- EXIT: every field 0 (spec/45_jump_b.md R389). -/
def bareForm (f : Fields) (i : Instr) : Except Reject Instr :=
  if f.dst ≠ 0 ∨ f.src ≠ 0 ∨ f.offset ≠ 0 ∨ f.imm ≠ 0 then .error .unusedField else .ok i

/-- Register, offset and imm; src_reg 0 (conditional jumps with K, spec/44_jump_a.md R333; ST, spec/46_load_store.md R400). -/
def dstOffImmForm (f : Fields) (c : Reg → BitVec 16 → W32 → Instr) : Except Reject Instr :=
  if f.src ≠ 0 then .error .unusedField
  else withRegField f.dst fun d => .ok (c d f.offset f.imm)

/-- Two registers and offset; imm 0 (conditional jumps with X, LDX, STX; spec/44_jump_a.md R333, spec/46_load_store.md R400). -/
def dstSrcOffForm (f : Fields) (c : Reg → Reg → BitVec 16 → Instr) : Except Reject Instr :=
  if f.imm ≠ 0 then .error .unusedField
  else withRegField f.dst fun d => withRegField f.src fun r => .ok (c d r f.offset)

/-- The operation selector of an atomic instruction, with the constructor each value selects (spec/47_atomic.md R431). -/
def atomicSelect (table : List (W32 × (Reg → Reg → BitVec 16 → Instr))) (f : Fields) : Except Reject Instr :=
  match table with
  | [] => .error .immSelector
  | (v, c) :: rest => if f.imm = v then dstSrcOffForm { f with imm := 0 } c else atomicSelect rest f

/-- IND loads: source register and imm; dst_reg and offset 0 (spec/49_packet.md R490). -/
def srcImmForm (f : Fields) (c : Reg → W32 → Instr) : Except Reject Instr :=
  if f.dst ≠ 0 ∨ f.offset ≠ 0 then .error .unusedField
  else withRegField f.src fun r => .ok (c r f.imm)

/-- The reserved word of a second slot: all of it but next_imm (spec/30_encoding.md R109). -/
def Fields.reservedZero (f : Fields) : Bool := f.opcode == 0 && f.dst == 0 && f.src == 0 && f.offset == 0

/-- A slot with opcode 0x00 read by itself: the row IMM64_HI (spec/48_imm64.md R479). -/
def secondSlotForm (f : Fields) (c : W32 → Instr) : Except Reject Instr :=
  if f.reservedZero then .ok (c f.imm) else .error .reservedWord

/-- The subtype of a 64-bit immediate load, with next_imm at hand (spec/48_imm64.md R470, R479). -/
def wideSubtype (f : Fields) (d : Reg) (nextImm : W32) : Except Reject Instr :=
  if f.src = 0 then .ok (.lddw d f.imm nextImm)
  else if f.src = 2 then
    if nextImmNonneg nextImm then .ok (.ldMapValFd d f.imm nextImm) else .error .nextImm
  else if f.src = 6 then
    if nextImmNonneg nextImm then .ok (.ldMapValIdx d f.imm nextImm) else .error .nextImm
  else if nextImm ≠ 0 then .error .nextImm
  else if f.src = 1 then .ok (.ldMapFd d f.imm)
  else if f.src = 3 then .ok (.ldVarAddr d f.imm)
  else if f.src = 4 then .ok (.ldCodeAddr d f.imm)
  else if f.src = 5 then .ok (.ldMapIdx d f.imm)
  else .error .srcSelector

/-- Opcode 0x18: the wide form (spec/30_encoding.md R109, R120 item 4). -/
def wideForm (f : Fields) (second : Option Fields) : Except Reject Instr :=
  match second with
  | none => .error .missingSecondSlot
  | some g =>
    if g.reservedZero then
      if f.offset ≠ 0 then .error .unusedField
      else withRegField f.dst fun d => wideSubtype f d g.imm
    else .error .reservedWord

/-! ## The decoder -/

/-- The instruction in the fields of a slot and, for opcode 0x18, of the slot after it
(spec/30_encoding.md R116 to R118, R120 items 1 to 4). -/
def decodeFields (f : Fields) (second : Option Fields) : Except Reject Instr :=
  match f.opcode.toNat with
  | 0x00 => secondSlotForm f .imm64Hi
  | 0x04 => dstImmForm f 0 .add32Imm
  | 0x05 => offForm f .ja
  | 0x06 => immForm f 0 .ja32
  | 0x07 => dstImmForm f 0 .add64Imm
  | 0x0c => dstSrcForm f 0 .add32Reg
  | 0x0f => dstSrcForm f 0 .add64Reg
  | 0x14 => dstImmForm f 0 .sub32Imm
  | 0x15 => dstOffImmForm f .jeq64Imm
  | 0x16 => dstOffImmForm f .jeq32Imm
  | 0x17 => dstImmForm f 0 .sub64Imm
  | 0x18 => wideForm f second
  | 0x1c => dstSrcForm f 0 .sub32Reg
  | 0x1d => dstSrcOffForm f .jeq64Reg
  | 0x1e => dstSrcOffForm f .jeq32Reg
  | 0x1f => dstSrcForm f 0 .sub64Reg
  | 0x20 => immForm f 0 .ldAbsW
  | 0x24 => dstImmForm f 0 .mul32Imm
  | 0x25 => dstOffImmForm f .jgt64Imm
  | 0x26 => dstOffImmForm f .jgt32Imm
  | 0x27 => dstImmForm f 0 .mul64Imm
  | 0x28 => immForm f 0 .ldAbsH
  | 0x2c => dstSrcForm f 0 .mul32Reg
  | 0x2d => dstSrcOffForm f .jgt64Reg
  | 0x2e => dstSrcOffForm f .jgt32Reg
  | 0x2f => dstSrcForm f 0 .mul64Reg
  | 0x30 => immForm f 0 .ldAbsB
  | 0x34 => dstImmSelected f .div32Imm .sdiv32Imm
  | 0x35 => dstOffImmForm f .jge64Imm
  | 0x36 => dstOffImmForm f .jge32Imm
  | 0x37 => dstImmSelected f .div64Imm .sdiv64Imm
  | 0x3c => dstSrcSelected f .div32Reg .sdiv32Reg
  | 0x3d => dstSrcOffForm f .jge64Reg
  | 0x3e => dstSrcOffForm f .jge32Reg
  | 0x3f => dstSrcSelected f .div64Reg .sdiv64Reg
  | 0x40 => srcImmForm f .ldIndW
  | 0x44 => dstImmForm f 0 .or32Imm
  | 0x45 => dstOffImmForm f .jset64Imm
  | 0x46 => dstOffImmForm f .jset32Imm
  | 0x47 => dstImmForm f 0 .or64Imm
  | 0x48 => srcImmForm f .ldIndH
  | 0x4c => dstSrcForm f 0 .or32Reg
  | 0x4d => dstSrcOffForm f .jset64Reg
  | 0x4e => dstSrcOffForm f .jset32Reg
  | 0x4f => dstSrcForm f 0 .or64Reg
  | 0x50 => srcImmForm f .ldIndB
  | 0x54 => dstImmForm f 0 .and32Imm
  | 0x55 => dstOffImmForm f .jne64Imm
  | 0x56 => dstOffImmForm f .jne32Imm
  | 0x57 => dstImmForm f 0 .and64Imm
  | 0x5c => dstSrcForm f 0 .and32Reg
  | 0x5d => dstSrcOffForm f .jne64Reg
  | 0x5e => dstSrcOffForm f .jne32Reg
  | 0x5f => dstSrcForm f 0 .and64Reg
  | 0x61 => dstSrcOffForm f .ldxw
  | 0x62 => dstOffImmForm f .stw
  | 0x63 => dstSrcOffForm f .stxw
  | 0x64 => dstImmForm f 0 .lsh32Imm
  | 0x65 => dstOffImmForm f .jsgt64Imm
  | 0x66 => dstOffImmForm f .jsgt32Imm
  | 0x67 => dstImmForm f 0 .lsh64Imm
  | 0x69 => dstSrcOffForm f .ldxh
  | 0x6a => dstOffImmForm f .sth
  | 0x6b => dstSrcOffForm f .stxh
  | 0x6c => dstSrcForm f 0 .lsh32Reg
  | 0x6d => dstSrcOffForm f .jsgt64Reg
  | 0x6e => dstSrcOffForm f .jsgt32Reg
  | 0x6f => dstSrcForm f 0 .lsh64Reg
  | 0x71 => dstSrcOffForm f .ldxb
  | 0x72 => dstOffImmForm f .stb
  | 0x73 => dstSrcOffForm f .stxb
  | 0x74 => dstImmForm f 0 .rsh32Imm
  | 0x75 => dstOffImmForm f .jsge64Imm
  | 0x76 => dstOffImmForm f .jsge32Imm
  | 0x77 => dstImmForm f 0 .rsh64Imm
  | 0x79 => dstSrcOffForm f .ldxdw
  | 0x7a => dstOffImmForm f .stdw
  | 0x7b => dstSrcOffForm f .stxdw
  | 0x7c => dstSrcForm f 0 .rsh32Reg
  | 0x7d => dstSrcOffForm f .jsge64Reg
  | 0x7e => dstSrcOffForm f .jsge32Reg
  | 0x7f => dstSrcForm f 0 .rsh64Reg
  | 0x81 => dstSrcOffForm f .ldxsw
  | 0x84 => dstForm f .neg32
  | 0x85 => callForm f .callHelper .callLocal .callBtf
  | 0x87 => dstForm f .neg64
  | 0x89 => dstSrcOffForm f .ldxsh
  | 0x91 => dstSrcOffForm f .ldxsb
  | 0x94 => dstImmSelected f .mod32Imm .smod32Imm
  | 0x95 => bareForm f .exit
  | 0x97 => dstImmSelected f .mod64Imm .smod64Imm
  | 0x9c => dstSrcSelected f .mod32Reg .smod32Reg
  | 0x9f => dstSrcSelected f .mod64Reg .smod64Reg
  | 0xa4 => dstImmForm f 0 .xor32Imm
  | 0xa5 => dstOffImmForm f .jlt64Imm
  | 0xa6 => dstOffImmForm f .jlt32Imm
  | 0xa7 => dstImmForm f 0 .xor64Imm
  | 0xac => dstSrcForm f 0 .xor32Reg
  | 0xad => dstSrcOffForm f .jlt64Reg
  | 0xae => dstSrcOffForm f .jlt32Reg
  | 0xaf => dstSrcForm f 0 .xor64Reg
  | 0xb4 => dstImmForm f 0 .mov32Imm
  | 0xb5 => dstOffImmForm f .jle64Imm
  | 0xb6 => dstOffImmForm f .jle32Imm
  | 0xb7 => dstImmForm f 0 .mov64Imm
  | 0xbc => movForm32 f .mov32Reg .movsx32x8 .movsx32x16
  | 0xbd => dstSrcOffForm f .jle64Reg
  | 0xbe => dstSrcOffForm f .jle32Reg
  | 0xbf => movForm64 f .mov64Reg .movsx64x8 .movsx64x16 .movsx64x32
  | 0xc3 => atomicSelect
    [(0x00, .atomicAdd32), (0x01, .atomicFetchAdd32),
     (0x40, .atomicOr32), (0x41, .atomicFetchOr32),
     (0x50, .atomicAnd32), (0x51, .atomicFetchAnd32),
     (0xa0, .atomicXor32), (0xa1, .atomicFetchXor32),
     (0xe1, .atomicXchg32), (0xf1, .atomicCmpxchg32)] f
  | 0xc4 => dstImmForm f 0 .arsh32Imm
  | 0xc5 => dstOffImmForm f .jslt64Imm
  | 0xc6 => dstOffImmForm f .jslt32Imm
  | 0xc7 => dstImmForm f 0 .arsh64Imm
  | 0xcc => dstSrcForm f 0 .arsh32Reg
  | 0xcd => dstSrcOffForm f .jslt64Reg
  | 0xce => dstSrcOffForm f .jslt32Reg
  | 0xcf => dstSrcForm f 0 .arsh64Reg
  | 0xd4 => swapForm f .le16 .le32 .le64
  | 0xd5 => dstOffImmForm f .jsle64Imm
  | 0xd6 => dstOffImmForm f .jsle32Imm
  | 0xd7 => swapForm f .bswap16 .bswap32 .bswap64
  | 0xdb => atomicSelect
    [(0x00, .atomicAdd64), (0x01, .atomicFetchAdd64),
     (0x40, .atomicOr64), (0x41, .atomicFetchOr64),
     (0x50, .atomicAnd64), (0x51, .atomicFetchAnd64),
     (0xa0, .atomicXor64), (0xa1, .atomicFetchXor64),
     (0xe1, .atomicXchg64), (0xf1, .atomicCmpxchg64)] f
  | 0xdc => swapForm f .be16 .be32 .be64
  | 0xdd => dstSrcOffForm f .jsle64Reg
  | 0xde => dstSrcOffForm f .jsle32Reg
  | _ => .error .unassignedOpcode

/-- The instruction at the head of a list of slots (spec/30_encoding.md R122). -/
def decode (e : Endian) (slots : List Slot) : Except Reject Instr :=
  match slots with
  | [] => .error .noSlot
  | s :: rest => decodeFields (Fields.ofSlot e s) (rest.head?.map (Fields.ofSlot e))

/-- The instruction the decoder reads from `nbits` bits `w` of the opcode table's numbering: the canonical words of
two slots, the second zero where `nbits` ends before it, laid out as a little-endian host stores them. -/
def decodeTableWord (nbits w : Nat) : Option Instr :=
  let bits := w % 2 ^ nbits
  let slots := [Slot.ofWord .little (BitVec.ofNat 64 bits), Slot.ofWord .little (BitVec.ofNat 64 (bits / 2 ^ 64))]
  match decode .little slots with
  | .ok i => some i
  | .error _ => none

/-! ## The encoder -/

/-- A register number as a field. -/
def regField (r : Reg) : BitVec 4 := BitVec.ofNat 4 r.val

/-- The fields of the first slot of an instruction: the fixed fields of its row and its operands. -/
def Instr.fields (i : Instr) : Fields :=
  match i with
  | .add32Imm dst imm => ⟨0x04, regField dst, 0, 0, imm⟩
  | .add32Reg dst src => ⟨0x0c, regField dst, regField src, 0, 0⟩
  | .add64Imm dst imm => ⟨0x07, regField dst, 0, 0, imm⟩
  | .add64Reg dst src => ⟨0x0f, regField dst, regField src, 0, 0⟩
  | .sub32Imm dst imm => ⟨0x14, regField dst, 0, 0, imm⟩
  | .sub32Reg dst src => ⟨0x1c, regField dst, regField src, 0, 0⟩
  | .sub64Imm dst imm => ⟨0x17, regField dst, 0, 0, imm⟩
  | .sub64Reg dst src => ⟨0x1f, regField dst, regField src, 0, 0⟩
  | .mul32Imm dst imm => ⟨0x24, regField dst, 0, 0, imm⟩
  | .mul32Reg dst src => ⟨0x2c, regField dst, regField src, 0, 0⟩
  | .mul64Imm dst imm => ⟨0x27, regField dst, 0, 0, imm⟩
  | .mul64Reg dst src => ⟨0x2f, regField dst, regField src, 0, 0⟩
  | .div32Imm dst imm => ⟨0x34, regField dst, 0, 0, imm⟩
  | .div32Reg dst src => ⟨0x3c, regField dst, regField src, 0, 0⟩
  | .div64Imm dst imm => ⟨0x37, regField dst, 0, 0, imm⟩
  | .div64Reg dst src => ⟨0x3f, regField dst, regField src, 0, 0⟩
  | .sdiv32Imm dst imm => ⟨0x34, regField dst, 0, 1, imm⟩
  | .sdiv32Reg dst src => ⟨0x3c, regField dst, regField src, 1, 0⟩
  | .sdiv64Imm dst imm => ⟨0x37, regField dst, 0, 1, imm⟩
  | .sdiv64Reg dst src => ⟨0x3f, regField dst, regField src, 1, 0⟩
  | .or32Imm dst imm => ⟨0x44, regField dst, 0, 0, imm⟩
  | .or32Reg dst src => ⟨0x4c, regField dst, regField src, 0, 0⟩
  | .or64Imm dst imm => ⟨0x47, regField dst, 0, 0, imm⟩
  | .or64Reg dst src => ⟨0x4f, regField dst, regField src, 0, 0⟩
  | .and32Imm dst imm => ⟨0x54, regField dst, 0, 0, imm⟩
  | .and32Reg dst src => ⟨0x5c, regField dst, regField src, 0, 0⟩
  | .and64Imm dst imm => ⟨0x57, regField dst, 0, 0, imm⟩
  | .and64Reg dst src => ⟨0x5f, regField dst, regField src, 0, 0⟩
  | .lsh32Imm dst imm => ⟨0x64, regField dst, 0, 0, imm⟩
  | .lsh32Reg dst src => ⟨0x6c, regField dst, regField src, 0, 0⟩
  | .lsh64Imm dst imm => ⟨0x67, regField dst, 0, 0, imm⟩
  | .lsh64Reg dst src => ⟨0x6f, regField dst, regField src, 0, 0⟩
  | .rsh32Imm dst imm => ⟨0x74, regField dst, 0, 0, imm⟩
  | .rsh32Reg dst src => ⟨0x7c, regField dst, regField src, 0, 0⟩
  | .rsh64Imm dst imm => ⟨0x77, regField dst, 0, 0, imm⟩
  | .rsh64Reg dst src => ⟨0x7f, regField dst, regField src, 0, 0⟩
  | .neg32 dst => ⟨0x84, regField dst, 0, 0, 0⟩
  | .neg64 dst => ⟨0x87, regField dst, 0, 0, 0⟩
  | .mod32Imm dst imm => ⟨0x94, regField dst, 0, 0, imm⟩
  | .mod32Reg dst src => ⟨0x9c, regField dst, regField src, 0, 0⟩
  | .mod64Imm dst imm => ⟨0x97, regField dst, 0, 0, imm⟩
  | .mod64Reg dst src => ⟨0x9f, regField dst, regField src, 0, 0⟩
  | .smod32Imm dst imm => ⟨0x94, regField dst, 0, 1, imm⟩
  | .smod32Reg dst src => ⟨0x9c, regField dst, regField src, 1, 0⟩
  | .smod64Imm dst imm => ⟨0x97, regField dst, 0, 1, imm⟩
  | .smod64Reg dst src => ⟨0x9f, regField dst, regField src, 1, 0⟩
  | .xor32Imm dst imm => ⟨0xa4, regField dst, 0, 0, imm⟩
  | .xor32Reg dst src => ⟨0xac, regField dst, regField src, 0, 0⟩
  | .xor64Imm dst imm => ⟨0xa7, regField dst, 0, 0, imm⟩
  | .xor64Reg dst src => ⟨0xaf, regField dst, regField src, 0, 0⟩
  | .mov32Imm dst imm => ⟨0xb4, regField dst, 0, 0, imm⟩
  | .mov32Reg dst src => ⟨0xbc, regField dst, regField src, 0, 0⟩
  | .mov64Imm dst imm => ⟨0xb7, regField dst, 0, 0, imm⟩
  | .mov64Reg dst src => ⟨0xbf, regField dst, regField src, 0, 0⟩
  | .movsx32x8 dst src => ⟨0xbc, regField dst, regField src, 8, 0⟩
  | .movsx32x16 dst src => ⟨0xbc, regField dst, regField src, 16, 0⟩
  | .movsx64x8 dst src => ⟨0xbf, regField dst, regField src, 8, 0⟩
  | .movsx64x16 dst src => ⟨0xbf, regField dst, regField src, 16, 0⟩
  | .movsx64x32 dst src => ⟨0xbf, regField dst, regField src, 32, 0⟩
  | .arsh32Imm dst imm => ⟨0xc4, regField dst, 0, 0, imm⟩
  | .arsh32Reg dst src => ⟨0xcc, regField dst, regField src, 0, 0⟩
  | .arsh64Imm dst imm => ⟨0xc7, regField dst, 0, 0, imm⟩
  | .arsh64Reg dst src => ⟨0xcf, regField dst, regField src, 0, 0⟩
  | .le16 dst => ⟨0xd4, regField dst, 0, 0, 16⟩
  | .le32 dst => ⟨0xd4, regField dst, 0, 0, 32⟩
  | .le64 dst => ⟨0xd4, regField dst, 0, 0, 64⟩
  | .be16 dst => ⟨0xdc, regField dst, 0, 0, 16⟩
  | .be32 dst => ⟨0xdc, regField dst, 0, 0, 32⟩
  | .be64 dst => ⟨0xdc, regField dst, 0, 0, 64⟩
  | .bswap16 dst => ⟨0xd7, regField dst, 0, 0, 16⟩
  | .bswap32 dst => ⟨0xd7, regField dst, 0, 0, 32⟩
  | .bswap64 dst => ⟨0xd7, regField dst, 0, 0, 64⟩
  | .ja off => ⟨0x05, 0, 0, off, 0⟩
  | .ja32 imm => ⟨0x06, 0, 0, 0, imm⟩
  | .jeq64Imm dst off imm => ⟨0x15, regField dst, 0, off, imm⟩
  | .jeq64Reg dst src off => ⟨0x1d, regField dst, regField src, off, 0⟩
  | .jeq32Imm dst off imm => ⟨0x16, regField dst, 0, off, imm⟩
  | .jeq32Reg dst src off => ⟨0x1e, regField dst, regField src, off, 0⟩
  | .jgt64Imm dst off imm => ⟨0x25, regField dst, 0, off, imm⟩
  | .jgt64Reg dst src off => ⟨0x2d, regField dst, regField src, off, 0⟩
  | .jgt32Imm dst off imm => ⟨0x26, regField dst, 0, off, imm⟩
  | .jgt32Reg dst src off => ⟨0x2e, regField dst, regField src, off, 0⟩
  | .jge64Imm dst off imm => ⟨0x35, regField dst, 0, off, imm⟩
  | .jge64Reg dst src off => ⟨0x3d, regField dst, regField src, off, 0⟩
  | .jge32Imm dst off imm => ⟨0x36, regField dst, 0, off, imm⟩
  | .jge32Reg dst src off => ⟨0x3e, regField dst, regField src, off, 0⟩
  | .jset64Imm dst off imm => ⟨0x45, regField dst, 0, off, imm⟩
  | .jset64Reg dst src off => ⟨0x4d, regField dst, regField src, off, 0⟩
  | .jset32Imm dst off imm => ⟨0x46, regField dst, 0, off, imm⟩
  | .jset32Reg dst src off => ⟨0x4e, regField dst, regField src, off, 0⟩
  | .jne64Imm dst off imm => ⟨0x55, regField dst, 0, off, imm⟩
  | .jne64Reg dst src off => ⟨0x5d, regField dst, regField src, off, 0⟩
  | .jne32Imm dst off imm => ⟨0x56, regField dst, 0, off, imm⟩
  | .jne32Reg dst src off => ⟨0x5e, regField dst, regField src, off, 0⟩
  | .jsgt64Imm dst off imm => ⟨0x65, regField dst, 0, off, imm⟩
  | .jsgt64Reg dst src off => ⟨0x6d, regField dst, regField src, off, 0⟩
  | .jsgt32Imm dst off imm => ⟨0x66, regField dst, 0, off, imm⟩
  | .jsgt32Reg dst src off => ⟨0x6e, regField dst, regField src, off, 0⟩
  | .jsge64Imm dst off imm => ⟨0x75, regField dst, 0, off, imm⟩
  | .jsge64Reg dst src off => ⟨0x7d, regField dst, regField src, off, 0⟩
  | .jsge32Imm dst off imm => ⟨0x76, regField dst, 0, off, imm⟩
  | .jsge32Reg dst src off => ⟨0x7e, regField dst, regField src, off, 0⟩
  | .jlt64Imm dst off imm => ⟨0xa5, regField dst, 0, off, imm⟩
  | .jlt64Reg dst src off => ⟨0xad, regField dst, regField src, off, 0⟩
  | .jlt32Imm dst off imm => ⟨0xa6, regField dst, 0, off, imm⟩
  | .jlt32Reg dst src off => ⟨0xae, regField dst, regField src, off, 0⟩
  | .jle64Imm dst off imm => ⟨0xb5, regField dst, 0, off, imm⟩
  | .jle64Reg dst src off => ⟨0xbd, regField dst, regField src, off, 0⟩
  | .jle32Imm dst off imm => ⟨0xb6, regField dst, 0, off, imm⟩
  | .jle32Reg dst src off => ⟨0xbe, regField dst, regField src, off, 0⟩
  | .jslt64Imm dst off imm => ⟨0xc5, regField dst, 0, off, imm⟩
  | .jslt64Reg dst src off => ⟨0xcd, regField dst, regField src, off, 0⟩
  | .jslt32Imm dst off imm => ⟨0xc6, regField dst, 0, off, imm⟩
  | .jslt32Reg dst src off => ⟨0xce, regField dst, regField src, off, 0⟩
  | .jsle64Imm dst off imm => ⟨0xd5, regField dst, 0, off, imm⟩
  | .jsle64Reg dst src off => ⟨0xdd, regField dst, regField src, off, 0⟩
  | .jsle32Imm dst off imm => ⟨0xd6, regField dst, 0, off, imm⟩
  | .jsle32Reg dst src off => ⟨0xde, regField dst, regField src, off, 0⟩
  | .callHelper imm => ⟨0x85, 0, 0, 0, imm⟩
  | .callLocal imm => ⟨0x85, 0, 1, 0, imm⟩
  | .callBtf imm => ⟨0x85, 0, 2, 0, imm⟩
  | .exit => ⟨0x95, 0, 0, 0, 0⟩
  | .ldxw dst src off => ⟨0x61, regField dst, regField src, off, 0⟩
  | .ldxh dst src off => ⟨0x69, regField dst, regField src, off, 0⟩
  | .ldxb dst src off => ⟨0x71, regField dst, regField src, off, 0⟩
  | .ldxdw dst src off => ⟨0x79, regField dst, regField src, off, 0⟩
  | .stw dst off imm => ⟨0x62, regField dst, 0, off, imm⟩
  | .sth dst off imm => ⟨0x6a, regField dst, 0, off, imm⟩
  | .stb dst off imm => ⟨0x72, regField dst, 0, off, imm⟩
  | .stdw dst off imm => ⟨0x7a, regField dst, 0, off, imm⟩
  | .stxw dst src off => ⟨0x63, regField dst, regField src, off, 0⟩
  | .stxh dst src off => ⟨0x6b, regField dst, regField src, off, 0⟩
  | .stxb dst src off => ⟨0x73, regField dst, regField src, off, 0⟩
  | .stxdw dst src off => ⟨0x7b, regField dst, regField src, off, 0⟩
  | .ldxsw dst src off => ⟨0x81, regField dst, regField src, off, 0⟩
  | .ldxsh dst src off => ⟨0x89, regField dst, regField src, off, 0⟩
  | .ldxsb dst src off => ⟨0x91, regField dst, regField src, off, 0⟩
  | .atomicAdd32 dst src off => ⟨0xc3, regField dst, regField src, off, 0x0⟩
  | .atomicFetchAdd32 dst src off => ⟨0xc3, regField dst, regField src, off, 0x1⟩
  | .atomicOr32 dst src off => ⟨0xc3, regField dst, regField src, off, 0x40⟩
  | .atomicFetchOr32 dst src off => ⟨0xc3, regField dst, regField src, off, 0x41⟩
  | .atomicAnd32 dst src off => ⟨0xc3, regField dst, regField src, off, 0x50⟩
  | .atomicFetchAnd32 dst src off => ⟨0xc3, regField dst, regField src, off, 0x51⟩
  | .atomicXor32 dst src off => ⟨0xc3, regField dst, regField src, off, 0xa0⟩
  | .atomicFetchXor32 dst src off => ⟨0xc3, regField dst, regField src, off, 0xa1⟩
  | .atomicXchg32 dst src off => ⟨0xc3, regField dst, regField src, off, 0xe1⟩
  | .atomicCmpxchg32 dst src off => ⟨0xc3, regField dst, regField src, off, 0xf1⟩
  | .atomicAdd64 dst src off => ⟨0xdb, regField dst, regField src, off, 0x0⟩
  | .atomicFetchAdd64 dst src off => ⟨0xdb, regField dst, regField src, off, 0x1⟩
  | .atomicOr64 dst src off => ⟨0xdb, regField dst, regField src, off, 0x40⟩
  | .atomicFetchOr64 dst src off => ⟨0xdb, regField dst, regField src, off, 0x41⟩
  | .atomicAnd64 dst src off => ⟨0xdb, regField dst, regField src, off, 0x50⟩
  | .atomicFetchAnd64 dst src off => ⟨0xdb, regField dst, regField src, off, 0x51⟩
  | .atomicXor64 dst src off => ⟨0xdb, regField dst, regField src, off, 0xa0⟩
  | .atomicFetchXor64 dst src off => ⟨0xdb, regField dst, regField src, off, 0xa1⟩
  | .atomicXchg64 dst src off => ⟨0xdb, regField dst, regField src, off, 0xe1⟩
  | .atomicCmpxchg64 dst src off => ⟨0xdb, regField dst, regField src, off, 0xf1⟩
  | .lddw dst imm _ => ⟨0x18, regField dst, 0, 0, imm⟩
  | .ldMapFd dst imm => ⟨0x18, regField dst, 1, 0, imm⟩
  | .ldMapValFd dst imm _ => ⟨0x18, regField dst, 2, 0, imm⟩
  | .ldVarAddr dst imm => ⟨0x18, regField dst, 3, 0, imm⟩
  | .ldCodeAddr dst imm => ⟨0x18, regField dst, 4, 0, imm⟩
  | .ldMapIdx dst imm => ⟨0x18, regField dst, 5, 0, imm⟩
  | .ldMapValIdx dst imm _ => ⟨0x18, regField dst, 6, 0, imm⟩
  | .ldAbsW imm => ⟨0x20, 0, 0, 0, imm⟩
  | .ldAbsH imm => ⟨0x28, 0, 0, 0, imm⟩
  | .ldAbsB imm => ⟨0x30, 0, 0, 0, imm⟩
  | .ldIndW src imm => ⟨0x40, 0, regField src, 0, imm⟩
  | .ldIndH src imm => ⟨0x48, 0, regField src, 0, imm⟩
  | .ldIndB src imm => ⟨0x50, 0, regField src, 0, imm⟩
  | .imm64Hi nextImm => ⟨0x00, 0, 0, 0, nextImm⟩

/-- next_imm of a wide instruction, 0 where its subtype does not use it (spec/48_imm64.md R479). -/
def Instr.secondImm (i : Instr) : W32 :=
  match i with
  | .lddw _ _ nextImm | .ldMapValFd _ _ nextImm | .ldMapValIdx _ _ nextImm => nextImm
  | .add32Imm .. | .add32Reg .. | .add64Imm .. | .add64Reg .. | .sub32Imm .. | .sub32Reg .. => 0
  | .sub64Imm .. | .sub64Reg .. | .mul32Imm .. | .mul32Reg .. | .mul64Imm .. | .mul64Reg .. => 0
  | .div32Imm .. | .div32Reg .. | .div64Imm .. | .div64Reg .. | .sdiv32Imm .. | .sdiv32Reg .. => 0
  | .sdiv64Imm .. | .sdiv64Reg .. | .or32Imm .. | .or32Reg .. | .or64Imm .. | .or64Reg .. => 0
  | .and32Imm .. | .and32Reg .. | .and64Imm .. | .and64Reg .. | .lsh32Imm .. | .lsh32Reg .. => 0
  | .lsh64Imm .. | .lsh64Reg .. | .rsh32Imm .. | .rsh32Reg .. | .rsh64Imm .. | .rsh64Reg .. => 0
  | .neg32 .. | .neg64 .. | .mod32Imm .. | .mod32Reg .. | .mod64Imm .. | .mod64Reg .. => 0
  | .smod32Imm .. | .smod32Reg .. | .smod64Imm .. | .smod64Reg .. | .xor32Imm .. | .xor32Reg .. => 0
  | .xor64Imm .. | .xor64Reg .. | .mov32Imm .. | .mov32Reg .. | .mov64Imm .. | .mov64Reg .. => 0
  | .movsx32x8 .. | .movsx32x16 .. | .movsx64x8 .. | .movsx64x16 .. | .movsx64x32 .. | .arsh32Imm .. => 0
  | .arsh32Reg .. | .arsh64Imm .. | .arsh64Reg .. | .le16 .. | .le32 .. | .le64 .. => 0
  | .be16 .. | .be32 .. | .be64 .. | .bswap16 .. | .bswap32 .. | .bswap64 .. => 0
  | .ja .. | .ja32 .. | .jeq64Imm .. | .jeq64Reg .. | .jeq32Imm .. | .jeq32Reg .. => 0
  | .jgt64Imm .. | .jgt64Reg .. | .jgt32Imm .. | .jgt32Reg .. | .jge64Imm .. | .jge64Reg .. => 0
  | .jge32Imm .. | .jge32Reg .. | .jset64Imm .. | .jset64Reg .. | .jset32Imm .. | .jset32Reg .. => 0
  | .jne64Imm .. | .jne64Reg .. | .jne32Imm .. | .jne32Reg .. | .jsgt64Imm .. | .jsgt64Reg .. => 0
  | .jsgt32Imm .. | .jsgt32Reg .. | .jsge64Imm .. | .jsge64Reg .. | .jsge32Imm .. | .jsge32Reg .. => 0
  | .jlt64Imm .. | .jlt64Reg .. | .jlt32Imm .. | .jlt32Reg .. | .jle64Imm .. | .jle64Reg .. => 0
  | .jle32Imm .. | .jle32Reg .. | .jslt64Imm .. | .jslt64Reg .. | .jslt32Imm .. | .jslt32Reg .. => 0
  | .jsle64Imm .. | .jsle64Reg .. | .jsle32Imm .. | .jsle32Reg .. | .callHelper .. | .callLocal .. => 0
  | .callBtf .. | .exit | .ldxw .. | .ldxh .. | .ldxb .. | .ldxdw .. => 0
  | .stw .. | .sth .. | .stb .. | .stdw .. | .stxw .. | .stxh .. => 0
  | .stxb .. | .stxdw .. | .ldxsw .. | .ldxsh .. | .ldxsb .. | .atomicAdd32 .. => 0
  | .atomicFetchAdd32 .. | .atomicOr32 .. | .atomicFetchOr32 .. | .atomicAnd32 .. | .atomicFetchAnd32 .. | .atomicXor32 .. => 0
  | .atomicFetchXor32 .. | .atomicXchg32 .. | .atomicCmpxchg32 .. | .atomicAdd64 .. | .atomicFetchAdd64 .. | .atomicOr64 .. => 0
  | .atomicFetchOr64 .. | .atomicAnd64 .. | .atomicFetchAnd64 .. | .atomicXor64 .. | .atomicFetchXor64 .. | .atomicXchg64 .. => 0
  | .atomicCmpxchg64 .. | .ldMapFd .. | .ldVarAddr .. | .ldCodeAddr .. | .ldMapIdx .. | .ldAbsW .. => 0
  | .ldAbsH .. | .ldAbsB .. | .ldIndW .. | .ldIndH .. | .ldIndB .. | .imm64Hi .. => 0

/-- The slots of an instruction on a host of byte order `e`: one, or two for a wide instruction
(spec/30_encoding.md R101, R109). -/
def encode (e : Endian) (i : Instr) : List Slot :=
  if i.isWide then [i.fields.toSlot e, Fields.toSlot e ⟨0, 0, 0, 0, i.secondImm⟩] else [i.fields.toSlot e]

end Sys2Proof
end

