-- ==== Sys2Proof/Machine/Fetch.lean ====
section
/-! DEFINITION. Fetching an instruction's slots (spec/10_state.md R36) and placing an instruction where the next step
fetches it. -/

namespace Sys2Proof.Machine

/-- The opcode of a slot is 0x18: the instruction there takes two slots (spec/30_encoding.md R122). -/
def startsWide (a : Slot) : Bool := a.b0 == 0x18

/-- Scanning `slots` from an instruction's first slot by each instruction's length, the slot of index `i` is the second
slot of a wide instruction (spec/10_state.md R36, spec/30_encoding.md R122, R123; log 8). `second` says that the slot
at the head is one itself. -/
def secondSlotFrom (second : Bool) (slots : List Slot) (i : Nat) : Bool :=
  match slots, i with
  | [], _ => false
  | _ :: _, 0 => second
  | a :: rest, k + 1 => secondSlotFrom (!second && startsWide a) rest k

/-- The slots from the pc on, or none where fetch raises BadPC (spec/10_state.md R36, spec/60_exceptions.md R503). -/
def State.fetch (s : State) : Option (List Slot) :=
  if s.pc < 0 then none
  else if s.params.program.length ≤ s.pc.toNat then none
  else if secondSlotFrom false s.params.program s.pc.toNat then none
  else some (s.params.program.drop s.pc.toNat)

/-- The slot of zeros. -/
def zeroSlot : Slot := ⟨0, 0, 0, 0, 0, 0, 0, 0⟩

/-- The first `i` slots of a program, filled up with zero slots. -/
def prefixSlots (prog : List Slot) (i : Nat) : List Slot :=
  match i, prog with
  | 0, _ => []
  | k + 1, [] => zeroSlot :: prefixSlots [] k
  | k + 1, a :: rest => a :: prefixSlots rest k

/-- The program with the slots `a` and `b` at index `i`. Where a wide instruction of the program would make `i` its
second slot, the slots below `i` are zero slots instead. -/
def placeSlots (prog : List Slot) (i : Nat) (a b : Slot) : List Slot :=
  (if secondSlotFrom false (prefixSlots prog i ++ [a]) i then List.replicate i zeroSlot else prefixSlots prog i)
    ++ a :: b :: prog.drop (i + 2)

/-- The state with the canonical words of two slots, `nbits` bits of `w` and zeros above, stored where the next step
fetches, the run not ended. A negative pc, at which nothing can stand, becomes 0. -/
def State.placeWord (s : State) (nbits w : Nat) : State :=
  { s with
    pc := s.pc.toNat
    out := .running
    params := { s.params with
      program := placeSlots s.params.program s.pc.toNat
        (Slot.ofWord s.params.hostEndian (BitVec.ofNat 64 (w % 2 ^ nbits)))
        (Slot.ofWord s.params.hostEndian (BitVec.ofNat 64 (w % 2 ^ nbits / 2 ^ 64))) } }

end Sys2Proof.Machine
end

