-- ==== Sys2Proof/Machine/Legal.lean ====
section
/-! DEFINITION. Which decoded instructions are legal under the parameters (spec/30_encoding.md R120 items 5 to 7,
R123, R130), which programs are well formed (R123) and which launches are allowed (spec/70_reset_and_hazards.md R551). -/

namespace Sys2Proof

open Machine

/-- The conformance group of an instruction, the groups value of its row of spec/opcode_table.json (spec/00_scope.md R3). -/
def Instr.group (i : Instr) : Group :=
  match i with
  | .add32Imm .. | .add32Reg .. | .sub32Imm .. | .sub32Reg .. | .or32Imm .. | .or32Reg .. => .base32
  | .and32Imm .. | .and32Reg .. | .lsh32Imm .. | .lsh32Reg .. | .rsh32Imm .. | .rsh32Reg .. => .base32
  | .neg32 .. | .xor32Imm .. | .xor32Reg .. | .mov32Imm .. | .mov32Reg .. | .movsx32x8 .. => .base32
  | .movsx32x16 .. | .arsh32Imm .. | .arsh32Reg .. | .le16 .. | .le32 .. | .be16 .. => .base32
  | .be32 .. | .bswap16 .. | .bswap32 .. | .ja .. | .ja32 .. | .jeq32Imm .. => .base32
  | .jeq32Reg .. | .jgt32Imm .. | .jgt32Reg .. | .jge32Imm .. | .jge32Reg .. | .jset32Imm .. => .base32
  | .jset32Reg .. | .jne32Imm .. | .jne32Reg .. | .jsgt32Imm .. | .jsgt32Reg .. | .jsge32Imm .. => .base32
  | .jsge32Reg .. | .jlt32Imm .. | .jlt32Reg .. | .jle32Imm .. | .jle32Reg .. | .jslt32Imm .. => .base32
  | .jslt32Reg .. | .jsle32Imm .. | .jsle32Reg .. | .callHelper .. | .callLocal .. | .callBtf .. => .base32
  | .exit | .ldxw .. | .ldxh .. | .ldxb .. | .stw .. | .sth .. => .base32
  | .stb .. | .stxw .. | .stxh .. | .stxb .. | .ldxsw .. | .ldxsh .. => .base32
  | .ldxsb .. => .base32
  | .add64Imm .. | .add64Reg .. | .sub64Imm .. | .sub64Reg .. | .or64Imm .. | .or64Reg .. => .base64
  | .and64Imm .. | .and64Reg .. | .lsh64Imm .. | .lsh64Reg .. | .rsh64Imm .. | .rsh64Reg .. => .base64
  | .neg64 .. | .xor64Imm .. | .xor64Reg .. | .mov64Imm .. | .mov64Reg .. | .movsx64x8 .. => .base64
  | .movsx64x16 .. | .movsx64x32 .. | .arsh64Imm .. | .arsh64Reg .. | .le64 .. | .be64 .. => .base64
  | .bswap64 .. | .jeq64Imm .. | .jeq64Reg .. | .jgt64Imm .. | .jgt64Reg .. | .jge64Imm .. => .base64
  | .jge64Reg .. | .jset64Imm .. | .jset64Reg .. | .jne64Imm .. | .jne64Reg .. | .jsgt64Imm .. => .base64
  | .jsgt64Reg .. | .jsge64Imm .. | .jsge64Reg .. | .jlt64Imm .. | .jlt64Reg .. | .jle64Imm .. => .base64
  | .jle64Reg .. | .jslt64Imm .. | .jslt64Reg .. | .jsle64Imm .. | .jsle64Reg .. | .ldxdw .. => .base64
  | .stdw .. | .stxdw .. | .lddw .. | .ldMapFd .. | .ldMapValFd .. | .ldVarAddr .. => .base64
  | .ldCodeAddr .. | .ldMapIdx .. | .ldMapValIdx .. | .imm64Hi .. => .base64
  | .atomicAdd32 .. | .atomicFetchAdd32 .. | .atomicOr32 .. | .atomicFetchOr32 .. | .atomicAnd32 .. | .atomicFetchAnd32 .. => .atomic32
  | .atomicXor32 .. | .atomicFetchXor32 .. | .atomicXchg32 .. | .atomicCmpxchg32 .. => .atomic32
  | .atomicAdd64 .. | .atomicFetchAdd64 .. | .atomicOr64 .. | .atomicFetchOr64 .. | .atomicAnd64 .. | .atomicFetchAnd64 .. => .atomic64
  | .atomicXor64 .. | .atomicFetchXor64 .. | .atomicXchg64 .. | .atomicCmpxchg64 .. => .atomic64
  | .mul32Imm .. | .mul32Reg .. | .div32Imm .. | .div32Reg .. | .sdiv32Imm .. | .sdiv32Reg .. => .divmul32
  | .mod32Imm .. | .mod32Reg .. | .smod32Imm .. | .smod32Reg .. => .divmul32
  | .mul64Imm .. | .mul64Reg .. | .div64Imm .. | .div64Reg .. | .sdiv64Imm .. | .sdiv64Reg .. => .divmul64
  | .mod64Imm .. | .mod64Reg .. | .smod64Imm .. | .smod64Reg .. => .divmul64
  | .ldAbsW .. | .ldAbsH .. | .ldAbsB .. | .ldIndW .. | .ldIndH .. | .ldIndB .. => .packet

/-- The registers an instruction's rule writes, the writes value of its row of spec/opcode_table.json. What a helper or
the frame policy writes is not the instruction's own (spec/45_jump_b.md R386, R387). -/
def Instr.writes (i : Instr) : List Reg :=
  match i with
  | .add32Imm dst _ | .add32Reg dst _ | .add64Imm dst _ | .add64Reg dst _ | .sub32Imm dst _ => [dst]
  | .sub32Reg dst _ | .sub64Imm dst _ | .sub64Reg dst _ | .mul32Imm dst _ | .mul32Reg dst _ => [dst]
  | .mul64Imm dst _ | .mul64Reg dst _ | .div32Imm dst _ | .div32Reg dst _ | .div64Imm dst _ => [dst]
  | .div64Reg dst _ | .sdiv32Imm dst _ | .sdiv32Reg dst _ | .sdiv64Imm dst _ | .sdiv64Reg dst _ => [dst]
  | .or32Imm dst _ | .or32Reg dst _ | .or64Imm dst _ | .or64Reg dst _ | .and32Imm dst _ => [dst]
  | .and32Reg dst _ | .and64Imm dst _ | .and64Reg dst _ | .lsh32Imm dst _ | .lsh32Reg dst _ => [dst]
  | .lsh64Imm dst _ | .lsh64Reg dst _ | .rsh32Imm dst _ | .rsh32Reg dst _ | .rsh64Imm dst _ => [dst]
  | .rsh64Reg dst _ | .neg32 dst | .neg64 dst | .mod32Imm dst _ | .mod32Reg dst _ => [dst]
  | .mod64Imm dst _ | .mod64Reg dst _ | .smod32Imm dst _ | .smod32Reg dst _ | .smod64Imm dst _ => [dst]
  | .smod64Reg dst _ | .xor32Imm dst _ | .xor32Reg dst _ | .xor64Imm dst _ | .xor64Reg dst _ => [dst]
  | .mov32Imm dst _ | .mov32Reg dst _ | .mov64Imm dst _ | .mov64Reg dst _ | .movsx32x8 dst _ => [dst]
  | .movsx32x16 dst _ | .movsx64x8 dst _ | .movsx64x16 dst _ | .movsx64x32 dst _ | .arsh32Imm dst _ => [dst]
  | .arsh32Reg dst _ | .arsh64Imm dst _ | .arsh64Reg dst _ | .le16 dst | .le32 dst => [dst]
  | .le64 dst | .be16 dst | .be32 dst | .be64 dst | .bswap16 dst => [dst]
  | .bswap32 dst | .bswap64 dst | .ldxw dst _ _ | .ldxh dst _ _ | .ldxb dst _ _ => [dst]
  | .ldxdw dst _ _ | .ldxsw dst _ _ | .ldxsh dst _ _ | .ldxsb dst _ _ | .lddw dst _ _ => [dst]
  | .ldMapFd dst _ | .ldMapValFd dst _ _ | .ldVarAddr dst _ | .ldCodeAddr dst _ | .ldMapIdx dst _ => [dst]
  | .ldMapValIdx dst _ _ => [dst]
  | .atomicFetchAdd32 _ src _ | .atomicFetchOr32 _ src _ | .atomicFetchAnd32 _ src _ | .atomicFetchXor32 _ src _ | .atomicXchg32 _ src _ => [src]
  | .atomicFetchAdd64 _ src _ | .atomicFetchOr64 _ src _ | .atomicFetchAnd64 _ src _ | .atomicFetchXor64 _ src _ | .atomicXchg64 _ src _ => [src]
  | .atomicCmpxchg32 .. | .atomicCmpxchg64 .. => [0]
  | .ja .. | .ja32 .. | .jeq64Imm .. | .jeq64Reg .. | .jeq32Imm .. | .jeq32Reg .. => []
  | .jgt64Imm .. | .jgt64Reg .. | .jgt32Imm .. | .jgt32Reg .. | .jge64Imm .. | .jge64Reg .. => []
  | .jge32Imm .. | .jge32Reg .. | .jset64Imm .. | .jset64Reg .. | .jset32Imm .. | .jset32Reg .. => []
  | .jne64Imm .. | .jne64Reg .. | .jne32Imm .. | .jne32Reg .. | .jsgt64Imm .. | .jsgt64Reg .. => []
  | .jsgt32Imm .. | .jsgt32Reg .. | .jsge64Imm .. | .jsge64Reg .. | .jsge32Imm .. | .jsge32Reg .. => []
  | .jlt64Imm .. | .jlt64Reg .. | .jlt32Imm .. | .jlt32Reg .. | .jle64Imm .. | .jle64Reg .. => []
  | .jle32Imm .. | .jle32Reg .. | .jslt64Imm .. | .jslt64Reg .. | .jslt32Imm .. | .jslt32Reg .. => []
  | .jsle64Imm .. | .jsle64Reg .. | .jsle32Imm .. | .jsle32Reg .. | .callHelper .. | .callLocal .. => []
  | .callBtf .. | .exit | .stw .. | .sth .. | .stb .. | .stdw .. => []
  | .stxw .. | .stxh .. | .stxb .. | .stxdw .. | .atomicAdd32 .. | .atomicOr32 .. => []
  | .atomicAnd32 .. | .atomicXor32 .. | .atomicAdd64 .. | .atomicOr64 .. | .atomicAnd64 .. | .atomicXor64 .. => []
  | .ldAbsW .. | .ldAbsH .. | .ldAbsB .. | .ldIndW .. | .ldIndH .. | .ldIndB .. => []
  | .imm64Hi .. => []

/-- The row has no execution at all: the packet loads (spec/49_packet.md R490) and the second slot of a wide
instruction (spec/48_imm64.md R479). -/
def Instr.neverLegal (i : Instr) : Bool :=
  match i with
  | .ldAbsW .. | .ldAbsH .. | .ldAbsB .. | .ldIndW .. | .ldIndH .. | .ldIndB .. => true
  | .imm64Hi .. => true
  | .add32Imm .. | .add32Reg .. | .add64Imm .. | .add64Reg .. | .sub32Imm .. | .sub32Reg .. => false
  | .sub64Imm .. | .sub64Reg .. | .mul32Imm .. | .mul32Reg .. | .mul64Imm .. | .mul64Reg .. => false
  | .div32Imm .. | .div32Reg .. | .div64Imm .. | .div64Reg .. | .sdiv32Imm .. | .sdiv32Reg .. => false
  | .sdiv64Imm .. | .sdiv64Reg .. | .or32Imm .. | .or32Reg .. | .or64Imm .. | .or64Reg .. => false
  | .and32Imm .. | .and32Reg .. | .and64Imm .. | .and64Reg .. | .lsh32Imm .. | .lsh32Reg .. => false
  | .lsh64Imm .. | .lsh64Reg .. | .rsh32Imm .. | .rsh32Reg .. | .rsh64Imm .. | .rsh64Reg .. => false
  | .neg32 .. | .neg64 .. | .mod32Imm .. | .mod32Reg .. | .mod64Imm .. | .mod64Reg .. => false
  | .smod32Imm .. | .smod32Reg .. | .smod64Imm .. | .smod64Reg .. | .xor32Imm .. | .xor32Reg .. => false
  | .xor64Imm .. | .xor64Reg .. | .mov32Imm .. | .mov32Reg .. | .mov64Imm .. | .mov64Reg .. => false
  | .movsx32x8 .. | .movsx32x16 .. | .movsx64x8 .. | .movsx64x16 .. | .movsx64x32 .. | .arsh32Imm .. => false
  | .arsh32Reg .. | .arsh64Imm .. | .arsh64Reg .. | .le16 .. | .le32 .. | .le64 .. => false
  | .be16 .. | .be32 .. | .be64 .. | .bswap16 .. | .bswap32 .. | .bswap64 .. => false
  | .ja .. | .ja32 .. | .jeq64Imm .. | .jeq64Reg .. | .jeq32Imm .. | .jeq32Reg .. => false
  | .jgt64Imm .. | .jgt64Reg .. | .jgt32Imm .. | .jgt32Reg .. | .jge64Imm .. | .jge64Reg .. => false
  | .jge32Imm .. | .jge32Reg .. | .jset64Imm .. | .jset64Reg .. | .jset32Imm .. | .jset32Reg .. => false
  | .jne64Imm .. | .jne64Reg .. | .jne32Imm .. | .jne32Reg .. | .jsgt64Imm .. | .jsgt64Reg .. => false
  | .jsgt32Imm .. | .jsgt32Reg .. | .jsge64Imm .. | .jsge64Reg .. | .jsge32Imm .. | .jsge32Reg .. => false
  | .jlt64Imm .. | .jlt64Reg .. | .jlt32Imm .. | .jlt32Reg .. | .jle64Imm .. | .jle64Reg .. => false
  | .jle32Imm .. | .jle32Reg .. | .jslt64Imm .. | .jslt64Reg .. | .jslt32Imm .. | .jslt32Reg .. => false
  | .jsle64Imm .. | .jsle64Reg .. | .jsle32Imm .. | .jsle32Reg .. | .callHelper .. | .callLocal .. => false
  | .callBtf .. | .exit | .ldxw .. | .ldxh .. | .ldxb .. | .ldxdw .. => false
  | .stw .. | .sth .. | .stb .. | .stdw .. | .stxw .. | .stxh .. => false
  | .stxb .. | .stxdw .. | .ldxsw .. | .ldxsh .. | .ldxsb .. | .atomicAdd32 .. => false
  | .atomicFetchAdd32 .. | .atomicOr32 .. | .atomicFetchOr32 .. | .atomicAnd32 .. | .atomicFetchAnd32 .. | .atomicXor32 .. => false
  | .atomicFetchXor32 .. | .atomicXchg32 .. | .atomicCmpxchg32 .. | .atomicAdd64 .. | .atomicFetchAdd64 .. | .atomicOr64 .. => false
  | .atomicFetchOr64 .. | .atomicAnd64 .. | .atomicFetchAnd64 .. | .atomicXor64 .. | .atomicFetchXor64 .. | .atomicXchg64 .. => false
  | .atomicCmpxchg64 .. | .lddw .. | .ldMapFd .. | .ldMapValFd .. | .ldVarAddr .. | .ldCodeAddr .. => false
  | .ldMapIdx .. | .ldMapValIdx .. => false

/-- Every environment lookup the instruction at slot `pc` needs is defined (spec/30_encoding.md R123,
spec/48_imm64.md R471, spec/45_jump_b.md R386, R388). -/
def Instr.lookupsDefined (p : Params) (pc : Int) (i : Instr) : Bool :=
  match i with
  | .callHelper imm => (p.helpersByAddr.lookup imm.toInt).isSome
  | .callBtf imm => (p.helpersByBtf.lookup imm.toInt).isSome
  | .ldMapFd _ imm => (p.mapAddrByFd imm).isSome
  | .ldMapValFd _ imm _ => (p.mapValByFd imm).isSome
  | .ldVarAddr _ imm => (p.varAddrOf imm).isSome
  | .ldCodeAddr _ imm => (p.codeAddrOf pc imm).isSome
  | .ldMapIdx _ imm => (p.mapAddrByIdx imm).isSome
  | .ldMapValIdx _ imm _ => (p.mapValByIdx imm).isSome
  | .add32Imm .. | .add32Reg .. | .add64Imm .. | .add64Reg .. | .sub32Imm .. | .sub32Reg .. => true
  | .sub64Imm .. | .sub64Reg .. | .mul32Imm .. | .mul32Reg .. | .mul64Imm .. | .mul64Reg .. => true
  | .div32Imm .. | .div32Reg .. | .div64Imm .. | .div64Reg .. | .sdiv32Imm .. | .sdiv32Reg .. => true
  | .sdiv64Imm .. | .sdiv64Reg .. | .or32Imm .. | .or32Reg .. | .or64Imm .. | .or64Reg .. => true
  | .and32Imm .. | .and32Reg .. | .and64Imm .. | .and64Reg .. | .lsh32Imm .. | .lsh32Reg .. => true
  | .lsh64Imm .. | .lsh64Reg .. | .rsh32Imm .. | .rsh32Reg .. | .rsh64Imm .. | .rsh64Reg .. => true
  | .neg32 .. | .neg64 .. | .mod32Imm .. | .mod32Reg .. | .mod64Imm .. | .mod64Reg .. => true
  | .smod32Imm .. | .smod32Reg .. | .smod64Imm .. | .smod64Reg .. | .xor32Imm .. | .xor32Reg .. => true
  | .xor64Imm .. | .xor64Reg .. | .mov32Imm .. | .mov32Reg .. | .mov64Imm .. | .mov64Reg .. => true
  | .movsx32x8 .. | .movsx32x16 .. | .movsx64x8 .. | .movsx64x16 .. | .movsx64x32 .. | .arsh32Imm .. => true
  | .arsh32Reg .. | .arsh64Imm .. | .arsh64Reg .. | .le16 .. | .le32 .. | .le64 .. => true
  | .be16 .. | .be32 .. | .be64 .. | .bswap16 .. | .bswap32 .. | .bswap64 .. => true
  | .ja .. | .ja32 .. | .jeq64Imm .. | .jeq64Reg .. | .jeq32Imm .. | .jeq32Reg .. => true
  | .jgt64Imm .. | .jgt64Reg .. | .jgt32Imm .. | .jgt32Reg .. | .jge64Imm .. | .jge64Reg .. => true
  | .jge32Imm .. | .jge32Reg .. | .jset64Imm .. | .jset64Reg .. | .jset32Imm .. | .jset32Reg .. => true
  | .jne64Imm .. | .jne64Reg .. | .jne32Imm .. | .jne32Reg .. | .jsgt64Imm .. | .jsgt64Reg .. => true
  | .jsgt32Imm .. | .jsgt32Reg .. | .jsge64Imm .. | .jsge64Reg .. | .jsge32Imm .. | .jsge32Reg .. => true
  | .jlt64Imm .. | .jlt64Reg .. | .jlt32Imm .. | .jlt32Reg .. | .jle64Imm .. | .jle64Reg .. => true
  | .jle32Imm .. | .jle32Reg .. | .jslt64Imm .. | .jslt64Reg .. | .jslt32Imm .. | .jslt32Reg .. => true
  | .jsle64Imm .. | .jsle64Reg .. | .jsle32Imm .. | .jsle32Reg .. | .callLocal .. | .exit => true
  | .ldxw .. | .ldxh .. | .ldxb .. | .ldxdw .. | .stw .. | .sth .. => true
  | .stb .. | .stdw .. | .stxw .. | .stxh .. | .stxb .. | .stxdw .. => true
  | .ldxsw .. | .ldxsh .. | .ldxsb .. | .atomicAdd32 .. | .atomicFetchAdd32 .. | .atomicOr32 .. => true
  | .atomicFetchOr32 .. | .atomicAnd32 .. | .atomicFetchAnd32 .. | .atomicXor32 .. | .atomicFetchXor32 .. | .atomicXchg32 .. => true
  | .atomicCmpxchg32 .. | .atomicAdd64 .. | .atomicFetchAdd64 .. | .atomicOr64 .. | .atomicFetchOr64 .. | .atomicAnd64 .. => true
  | .atomicFetchAnd64 .. | .atomicXor64 .. | .atomicFetchXor64 .. | .atomicXchg64 .. | .atomicCmpxchg64 .. | .lddw .. => true
  | .ldAbsW .. | .ldAbsH .. | .ldAbsB .. | .ldIndW .. | .ldIndH .. | .ldIndB .. => true
  | .imm64Hi .. => true

/-- The instruction's group is supported and it writes no read-only register (spec/30_encoding.md R120 items 5 and 6). -/
def Instr.permitted (p : Params) (i : Instr) : Bool :=
  p.supportedGroups.contains i.group && i.writes.all fun r => !p.readonlyRegs.contains r

namespace Machine

/-- SUPPORTED_GROUPS is one the spec allows: it holds base32 and what each of its groups includes (spec/00_scope.md R4). -/
def Params.groupsClosed (p : Params) : Bool :=
  p.supportedGroups.contains .base32 &&
    p.supportedGroups.all fun g => (g.includes.map fun h => p.supportedGroups.contains h).getD true

/-- Two regions have no address in common (spec/20_memory.md R69). A region of length 0 has no address, so it is disjoint
from every region, wherever its base lies. -/
def Region.disjoint (r q : Region) : Bool :=
  r.len == 0 || q.len == 0 || decide (r.base + r.len ≤ q.base) || decide (q.base + q.len ≤ r.base)

/-- The regions end at 2^64 or below and are pairwise disjoint (spec/20_memory.md R69). -/
def regionsValid (rs : List Region) : Bool :=
  match rs with
  | [] => true
  | r :: rest => decide (r.base + r.len ≤ 2 ^ 64) && rest.all (fun q => r.disjoint q) && regionsValid rest

/-- The value address `a` of a map lies in a shared region, or is the base of an empty one (spec/20_memory.md R70, log 22). -/
def Params.mapRegionAt (p : Params) (a : W64) : Bool :=
  p.regions.any fun r => r.shared && (r.base == a.toNat || r.holds a.toNat 1)

/-- A region starts at the address `a` of a variable (spec/20_memory.md R71, log 22). -/
def Params.varRegionAt (p : Params) (a : W64) : Bool := p.regions.any fun r => r.base == a.toNat

end Machine

/-- The address an instruction obtains of a map's values or of a variable is that of a region (spec/20_memory.md R70,
R71). -/
def Instr.obtainsRegion (p : Params) (i : Instr) : Bool :=
  match i with
  | .ldMapValFd _ imm _ => (p.mapValByFd imm).all p.mapRegionAt
  | .ldMapValIdx _ imm _ => (p.mapValByIdx imm).all p.mapRegionAt
  | .ldVarAddr _ imm => (p.varAddrOf imm).all p.varRegionAt
  | .add32Imm .. | .add32Reg .. | .add64Imm .. | .add64Reg .. | .sub32Imm .. | .sub32Reg .. => true
  | .sub64Imm .. | .sub64Reg .. | .mul32Imm .. | .mul32Reg .. | .mul64Imm .. | .mul64Reg .. => true
  | .div32Imm .. | .div32Reg .. | .div64Imm .. | .div64Reg .. | .sdiv32Imm .. | .sdiv32Reg .. => true
  | .sdiv64Imm .. | .sdiv64Reg .. | .or32Imm .. | .or32Reg .. | .or64Imm .. | .or64Reg .. => true
  | .and32Imm .. | .and32Reg .. | .and64Imm .. | .and64Reg .. | .lsh32Imm .. | .lsh32Reg .. => true
  | .lsh64Imm .. | .lsh64Reg .. | .rsh32Imm .. | .rsh32Reg .. | .rsh64Imm .. | .rsh64Reg .. => true
  | .neg32 .. | .neg64 .. | .mod32Imm .. | .mod32Reg .. | .mod64Imm .. | .mod64Reg .. => true
  | .smod32Imm .. | .smod32Reg .. | .smod64Imm .. | .smod64Reg .. | .xor32Imm .. | .xor32Reg .. => true
  | .xor64Imm .. | .xor64Reg .. | .mov32Imm .. | .mov32Reg .. | .mov64Imm .. | .mov64Reg .. => true
  | .movsx32x8 .. | .movsx32x16 .. | .movsx64x8 .. | .movsx64x16 .. | .movsx64x32 .. | .arsh32Imm .. => true
  | .arsh32Reg .. | .arsh64Imm .. | .arsh64Reg .. | .le16 .. | .le32 .. | .le64 .. => true
  | .be16 .. | .be32 .. | .be64 .. | .bswap16 .. | .bswap32 .. | .bswap64 .. => true
  | .ja .. | .ja32 .. | .jeq64Imm .. | .jeq64Reg .. | .jeq32Imm .. | .jeq32Reg .. => true
  | .jgt64Imm .. | .jgt64Reg .. | .jgt32Imm .. | .jgt32Reg .. | .jge64Imm .. | .jge64Reg .. => true
  | .jge32Imm .. | .jge32Reg .. | .jset64Imm .. | .jset64Reg .. | .jset32Imm .. | .jset32Reg .. => true
  | .jne64Imm .. | .jne64Reg .. | .jne32Imm .. | .jne32Reg .. | .jsgt64Imm .. | .jsgt64Reg .. => true
  | .jsgt32Imm .. | .jsgt32Reg .. | .jsge64Imm .. | .jsge64Reg .. | .jsge32Imm .. | .jsge32Reg .. => true
  | .jlt64Imm .. | .jlt64Reg .. | .jlt32Imm .. | .jlt32Reg .. | .jle64Imm .. | .jle64Reg .. => true
  | .jle32Imm .. | .jle32Reg .. | .jslt64Imm .. | .jslt64Reg .. | .jslt32Imm .. | .jslt32Reg .. => true
  | .jsle64Imm .. | .jsle64Reg .. | .jsle32Imm .. | .jsle32Reg .. | .callHelper .. | .callLocal .. => true
  | .callBtf .. | .exit | .ldxw .. | .ldxh .. | .ldxb .. | .ldxdw .. => true
  | .stw .. | .sth .. | .stb .. | .stdw .. | .stxw .. | .stxh .. => true
  | .stxb .. | .stxdw .. | .ldxsw .. | .ldxsh .. | .ldxsb .. | .atomicAdd32 .. => true
  | .atomicFetchAdd32 .. | .atomicOr32 .. | .atomicFetchOr32 .. | .atomicAnd32 .. | .atomicFetchAnd32 .. | .atomicXor32 .. => true
  | .atomicFetchXor32 .. | .atomicXchg32 .. | .atomicCmpxchg32 .. | .atomicAdd64 .. | .atomicFetchAdd64 .. | .atomicOr64 .. => true
  | .atomicFetchOr64 .. | .atomicAnd64 .. | .atomicFetchAnd64 .. | .atomicXor64 .. | .atomicFetchXor64 .. | .atomicXchg64 .. => true
  | .atomicCmpxchg64 .. | .lddw .. | .ldMapFd .. | .ldCodeAddr .. | .ldMapIdx .. | .ldAbsW .. => true
  | .ldAbsH .. | .ldAbsB .. | .ldIndW .. | .ldIndH .. | .ldIndB .. | .imm64Hi .. => true

namespace Machine

/-- The instructions that stand in `slots`, scanned from an instruction's first slot by each instruction's length
(spec/30_encoding.md R123); a slot that decodes to nothing is passed over. `second` says that the slot at the head is the
second slot of a wide instruction. -/
def instructionsIn (e : Endian) (second : Bool) (slots : List Slot) : List Instr :=
  match slots with
  | [] => []
  | a :: rest =>
    (if second then []
      else match decode e (a :: rest) with
        | .ok i => [i]
        | .error _ => []) ++ instructionsIn e (!second && startsWide a) rest

/-- The values of a map whose value address the program obtains, and each variable whose address it obtains, are regions
of the launch (spec/20_memory.md R70, R71). -/
def Params.regionsCover (p : Params) : Bool :=
  (instructionsIn p.hostEndian false p.program).all fun i => i.obtainsRegion p

/-- A launch the spec allows (spec/70_reset_and_hazards.md R551 items 2 to 5). -/
def Params.valid (p : Params) : Bool := p.groupsClosed && regionsValid p.regions && p.regionsCover

/-- The slots `slots`, the first of index `pc`, are legal instructions one after the other, none cut off
(spec/30_encoding.md R123). -/
def wellFormedFrom (p : Params) (pc : Nat) (slots : List Slot) : Bool :=
  match slots with
  | [] => true
  | a :: rest =>
    match decode p.hostEndian (a :: rest) with
    | .error _ => false
    | .ok i =>
      i.permitted p && !i.neverLegal && i.lookupsDefined p pc &&
        if i.isWide then
          match rest with
          | [] => false
          | _ :: rest' => wellFormedFrom p (pc + 2) rest'
        else wellFormedFrom p (pc + 1) rest

/-- The program is well formed (spec/30_encoding.md R123): what a runtime that checks would launch. -/
def Params.programWellFormed (p : Params) : Bool := wellFormedFrom p 0 p.program

end Machine

end Sys2Proof
end

