-- ==== Sys2Proof/Machine/Step.lean ====
section
/-! DEFINITION. One step (spec/70_reset_and_hazards.md R552). -/

namespace Sys2Proof.Machine

/-- Fetch, decode, legality, execution of a running state (spec/70_reset_and_hazards.md R552 items 1 to 4). -/
def stepRunning (s : State) : Host.Outcome State Fault Refusal :=
  match s.fetch with
  | none => raise (.badPC s.pc) s
  | some slots =>
    match decode s.params.hostEndian slots with
    | .error _ => raise (.illegalInstruction s.pc) s
    | .ok i => if i.permitted s.params then exec i s else raise (.illegalInstruction s.pc) s

/-- One step. While the run stands, the environment's changes to shared bytes (spec/20_memory.md R76) and then one
instruction. After a fault the fault is the answer, after EXIT there is none (spec/10_state.md R44, log 1). -/
def step (s : State) : Host.Outcome State Fault Refusal :=
  match s.out with
  | .running => stepRunning s.agentStep
  | .exited _ => .refused .runEnded
  | .faulted f => .fault f

/-- `s` with the instruction whose bits are `w`, in the numbering of spec/opcode_table.json, stored where `step` fetches
its next instruction (log 5). -/
def State.withFetchWord (s : State) (nbits w : Nat) : State := s.placeWord nbits w

end Sys2Proof.Machine
end

