-- ==== Sys2Proof/Safety.lean ====
section
/-! DEFINITION. The terms statements are written in: what an instruction leaves unchanged, what it reads, which access
it makes, what results the spec gives, written with natural numbers and integers and not with the model's own
functions, and what counts as a safe run. -/

namespace Sys2Proof

open Machine

/-! ## Frames -/

/-- Every byte of memory reads as before. -/
def SameMemory (s t : State) : Prop := ∀ a : Nat, t.byteAt a = s.byteAt a

/-- Every byte outside the `n` bytes from `a` reads as before. -/
def SameMemoryOutside (a n : Nat) (s t : State) : Prop := ∀ b : Nat, b < a ∨ a + n ≤ b → t.byteAt b = s.byteAt b

/-- Every register is as before. -/
def SameRegs (s t : State) : Prop := ∀ q : Reg, t.reg q = s.reg q

/-- Every register but one is as before. -/
def SameRegsBut (r : Reg) (s t : State) : Prop := ∀ q : Reg, q ≠ r → t.reg q = s.reg q

/-- The status of the run, the parameters, what the environment will do and the counters of free values are as before. -/
def SameRun (s t : State) : Prop :=
  t.out = s.out ∧ t.params = s.params ∧ t.agentWrites = s.agentWrites ∧ t.agentTime = s.agentTime ∧
    t.choices = s.choices ∧ t.draws = s.draws

/-- The call stack and all that SameRun names are as before. -/
def SameRest (s t : State) : Prop := t.cs = s.cs ∧ SameRun s t

/-- `t` is `s` with register `r` holding `v` and the pc at `pc`; everything else, every byte included, is as before. -/
def WritesReg (r : Reg) (v : W64) (pc : Int) (s t : State) : Prop :=
  t.reg r = some v ∧ t.pc = pc ∧ SameRegsBut r s t ∧ SameMemory s t ∧ SameRest s t

/-- `t` is `s` with the pc at `pc`; everything else, every byte included, is as before. -/
def MovesPc (pc : Int) (s t : State) : Prop := t.pc = pc ∧ SameRegs s t ∧ SameMemory s t ∧ SameRest s t

/-- `exec` answers a next state, and that state has the property. -/
def Completes (i : Instr) (s : State) (P : State → Prop) : Prop := ∃ t, exec i s = .next t ∧ P t

/-- `exec` takes the fault `f` and changes nothing else (spec/60_exceptions.md R501). -/
def Faults (i : Instr) (s : State) (f : Fault) : Prop := exec i s = .next { s with out := .faulted f }

/-- `i` is a helper call, and the table it uses has the relation `h` for its id (spec/45_jump_b.md R386, R388). -/
def CallsHelper (i : Instr) (p : Params) (id : Int) (h : Helper) : Prop :=
  ∃ imm : W32, id = imm.toInt ∧
    (i = .callHelper imm ∧ p.helpersByAddr.lookup id = some h ∨ i = .callBtf imm ∧ p.helpersByBtf.lookup id = some h)

/-- The byte at `a` after the cells `ws` have been written in their order, `b` where none of them is at `a`. -/
def lastWrite (ws : List Host.Cell) (a : Nat) (b : Byte) : Byte :=
  (((ws.filter fun c => c.1 == a).getLast?).map fun c => c.2).getD b

/-! ## Bytes and values, in numbers -/

/-- The number the `n` bytes from `a` stand for, the byte at `a` the least significant. -/
def littleNumber (s : State) (a n : Nat) : Nat :=
  match n with
  | 0 => 0
  | k + 1 => (s.byteAt a).toNat + 256 * littleNumber s (a + 1) k

/-- The number the `n` bytes from `a` stand for, the byte at `a` the most significant. -/
def bigNumber (s : State) (a n : Nat) : Nat :=
  match n with
  | 0 => 0
  | k + 1 => (s.byteAt a).toNat * 256 ^ k + bigNumber s (a + 1) k

/-- The number of `n` bytes at `a` in the host's byte order (spec/20_memory.md R63). -/
def hostNumber (s : State) (a n : Nat) : Nat :=
  match s.params.hostEndian with
  | .little => littleNumber s a n
  | .big => bigNumber s a n

/-- The byte the host keeps at place `k` of an `n`-byte value (spec/20_memory.md R63). -/
def hostByte (e : Endian) (n k : Nat) (v : Nat) : Byte :=
  match e with
  | .little => BitVec.ofNat 8 (v / 256 ^ k)
  | .big => BitVec.ofNat 8 (v / 256 ^ (n - 1 - k))

/-- The low `8n` bits of `v` with the order of their bytes reversed, as a number (spec/00_scope.md R13). -/
def reversedBytes (n v : Nat) : Nat :=
  match n with
  | 0 => 0
  | k + 1 => v % 256 * 256 ^ k + reversedBytes k (v / 256)

/-- `t` holds the `n`-byte value `v` at `a`, every other byte reads as before, the pc is at the next slot, nothing else
but the register `but` has changed. -/
def StoresAt (a n v : Nat) (s t : State) : Prop :=
  (∀ k, k < n → t.byteAt (a + k) = hostByte s.params.hostEndian n k v) ∧ SameMemoryOutside a n s t ∧
    t.pc = s.pc + 1 ∧ SameRest s t

/-- The address a load, store or atomic instruction computes: base plus offset modulo 2^64 (spec/20_memory.md R61). -/
def addressNumber (base : W64) (off : BitVec 16) : Nat := ((base.toNat + off.toInt) % 2 ^ 64).toNat

/-- MISALIGNED is bytewise or the address is a multiple of `n` (spec/20_memory.md R68). -/
def AlignedEnough (s : State) (a n : Nat) : Prop := s.params.misaligned = .bytewise ∨ a % n = 0

/-- One region holds the `n` bytes at `a`, none past 2^64, with the permission an access needs (spec/20_memory.md R69). -/
def InRegion (s : State) (k : Access) (a n : Nat) : Prop :=
  a + n ≤ 2 ^ 64 ∧ ∃ r ∈ s.params.regions, r.base ≤ a ∧ a + n ≤ r.base + r.len ∧
    (k ≠ .write → r.readable = true) ∧ (k ≠ .read → r.writable = true)

/-- `q` is the signed quotient of `a` by `b` rounded toward zero; the one that does not fit wraps (spec/40_arithmetic_a.md R204). -/
def IsSignedQuotient {n : Nat} (a b q : BitVec n) : Prop :=
  q = BitVec.ofInt n (Int.tdiv a.toInt b.toInt) ∧
    (Int.tdiv a.toInt b.toInt < 2 ^ (n - 1) → q.toInt = Int.tdiv a.toInt b.toInt ∧
      a.toInt = b.toInt * q.toInt + Int.tmod a.toInt b.toInt) ∧
    (a.toInt = -2 ^ (n - 1) → b.toInt = -1 → q = a)

/-- `r` is the signed remainder of `a` by `b` (spec/41_arithmetic_b.md R263). -/
def IsSignedRemainder {n : Nat} (a b r : BitVec n) : Prop :=
  r.toInt = a.toInt - b.toInt * Int.tdiv a.toInt b.toInt ∧ r.toInt.natAbs < b.toInt.natAbs ∧
    (r.toInt = 0 ∨ r.toInt.sign = a.toInt.sign) ∧ (a.toInt = -2 ^ (n - 1) → b.toInt = -1 → r = 0)

/-! ## Results, as the rules give them (spec/40_arithmetic_a.md, 41, 42, 44, 45) -/

/-- The 32-bit two-operand instructions with an immediate operand, and their results. -/
def alu32ImmResults : List ((Reg → W32 → Instr) × (W32 → W32 → W32)) :=
  [(.add32Imm, fun a b => BitVec.ofNat 32 (a.toNat + b.toNat)),
   (.sub32Imm, fun a b => BitVec.ofInt 32 (a.toNat - b.toNat : Int)),
   (.mul32Imm, fun a b => BitVec.ofNat 32 (a.toNat * b.toNat)),
   (.div32Imm, fun a b => BitVec.ofNat 32 (if b.toNat = 0 then 0 else a.toNat / b.toNat)),
   (.sdiv32Imm, fun a b => BitVec.ofInt 32 (if b.toInt = 0 then 0 else Int.tdiv a.toInt b.toInt)),
   (.or32Imm, fun a b => BitVec.ofNat 32 (a.toNat ||| b.toNat)),
   (.and32Imm, fun a b => BitVec.ofNat 32 (a.toNat &&& b.toNat)),
   (.lsh32Imm, fun a b => BitVec.ofNat 32 (a.toNat * 2 ^ (b.toNat % 32))),
   (.rsh32Imm, fun a b => BitVec.ofNat 32 (a.toNat / 2 ^ (b.toNat % 32))),
   (.mod32Imm, fun a b => BitVec.ofNat 32 (if b.toNat = 0 then a.toNat else a.toNat % b.toNat)),
   (.smod32Imm, fun a b => BitVec.ofInt 32 (if b.toInt = 0 then a.toInt else Int.tmod a.toInt b.toInt)),
   (.xor32Imm, fun a b => BitVec.ofNat 32 (a.toNat ^^^ b.toNat)),
   (.arsh32Imm, fun a b => BitVec.ofInt 32 (Int.fdiv a.toInt (2 ^ (b.toNat % 32))))]

/-- The 32-bit two-operand instructions with a register operand, and their results. -/
def alu32RegResults : List ((Reg → Reg → Instr) × (W32 → W32 → W32)) :=
  [(.add32Reg, fun a b => BitVec.ofNat 32 (a.toNat + b.toNat)),
   (.sub32Reg, fun a b => BitVec.ofInt 32 (a.toNat - b.toNat : Int)),
   (.mul32Reg, fun a b => BitVec.ofNat 32 (a.toNat * b.toNat)),
   (.div32Reg, fun a b => BitVec.ofNat 32 (if b.toNat = 0 then 0 else a.toNat / b.toNat)),
   (.sdiv32Reg, fun a b => BitVec.ofInt 32 (if b.toInt = 0 then 0 else Int.tdiv a.toInt b.toInt)),
   (.or32Reg, fun a b => BitVec.ofNat 32 (a.toNat ||| b.toNat)),
   (.and32Reg, fun a b => BitVec.ofNat 32 (a.toNat &&& b.toNat)),
   (.lsh32Reg, fun a b => BitVec.ofNat 32 (a.toNat * 2 ^ (b.toNat % 32))),
   (.rsh32Reg, fun a b => BitVec.ofNat 32 (a.toNat / 2 ^ (b.toNat % 32))),
   (.mod32Reg, fun a b => BitVec.ofNat 32 (if b.toNat = 0 then a.toNat else a.toNat % b.toNat)),
   (.smod32Reg, fun a b => BitVec.ofInt 32 (if b.toInt = 0 then a.toInt else Int.tmod a.toInt b.toInt)),
   (.xor32Reg, fun a b => BitVec.ofNat 32 (a.toNat ^^^ b.toNat)),
   (.arsh32Reg, fun a b => BitVec.ofInt 32 (Int.fdiv a.toInt (2 ^ (b.toNat % 32))))]

/-- The 64-bit two-operand instructions with an immediate operand, and their results. -/
def alu64ImmResults : List ((Reg → W32 → Instr) × (W64 → W64 → W64)) :=
  [(.add64Imm, fun a b => BitVec.ofNat 64 (a.toNat + b.toNat)),
   (.sub64Imm, fun a b => BitVec.ofInt 64 (a.toNat - b.toNat : Int)),
   (.mul64Imm, fun a b => BitVec.ofNat 64 (a.toNat * b.toNat)),
   (.div64Imm, fun a b => BitVec.ofNat 64 (if b.toNat = 0 then 0 else a.toNat / b.toNat)),
   (.sdiv64Imm, fun a b => BitVec.ofInt 64 (if b.toInt = 0 then 0 else Int.tdiv a.toInt b.toInt)),
   (.or64Imm, fun a b => BitVec.ofNat 64 (a.toNat ||| b.toNat)),
   (.and64Imm, fun a b => BitVec.ofNat 64 (a.toNat &&& b.toNat)),
   (.lsh64Imm, fun a b => BitVec.ofNat 64 (a.toNat * 2 ^ (b.toNat % 64))),
   (.rsh64Imm, fun a b => BitVec.ofNat 64 (a.toNat / 2 ^ (b.toNat % 64))),
   (.mod64Imm, fun a b => BitVec.ofNat 64 (if b.toNat = 0 then a.toNat else a.toNat % b.toNat)),
   (.smod64Imm, fun a b => BitVec.ofInt 64 (if b.toInt = 0 then a.toInt else Int.tmod a.toInt b.toInt)),
   (.xor64Imm, fun a b => BitVec.ofNat 64 (a.toNat ^^^ b.toNat)),
   (.arsh64Imm, fun a b => BitVec.ofInt 64 (Int.fdiv a.toInt (2 ^ (b.toNat % 64))))]

/-- The 64-bit two-operand instructions with a register operand, and their results. -/
def alu64RegResults : List ((Reg → Reg → Instr) × (W64 → W64 → W64)) :=
  [(.add64Reg, fun a b => BitVec.ofNat 64 (a.toNat + b.toNat)),
   (.sub64Reg, fun a b => BitVec.ofInt 64 (a.toNat - b.toNat : Int)),
   (.mul64Reg, fun a b => BitVec.ofNat 64 (a.toNat * b.toNat)),
   (.div64Reg, fun a b => BitVec.ofNat 64 (if b.toNat = 0 then 0 else a.toNat / b.toNat)),
   (.sdiv64Reg, fun a b => BitVec.ofInt 64 (if b.toInt = 0 then 0 else Int.tdiv a.toInt b.toInt)),
   (.or64Reg, fun a b => BitVec.ofNat 64 (a.toNat ||| b.toNat)),
   (.and64Reg, fun a b => BitVec.ofNat 64 (a.toNat &&& b.toNat)),
   (.lsh64Reg, fun a b => BitVec.ofNat 64 (a.toNat * 2 ^ (b.toNat % 64))),
   (.rsh64Reg, fun a b => BitVec.ofNat 64 (a.toNat / 2 ^ (b.toNat % 64))),
   (.mod64Reg, fun a b => BitVec.ofNat 64 (if b.toNat = 0 then a.toNat else a.toNat % b.toNat)),
   (.smod64Reg, fun a b => BitVec.ofInt 64 (if b.toInt = 0 then a.toInt else Int.tmod a.toInt b.toInt)),
   (.xor64Reg, fun a b => BitVec.ofNat 64 (a.toNat ^^^ b.toNat)),
   (.arsh64Reg, fun a b => BitVec.ofInt 64 (Int.fdiv a.toInt (2 ^ (b.toNat % 64))))]

/-- The 32-bit conditional jumps with an immediate operand, and when they are taken. -/
def jump32ImmConditions : List ((Reg → BitVec 16 → W32 → Instr) × (W32 → W32 → Prop)) :=
  [(.jeq32Imm, fun a b => a = b),
   (.jne32Imm, fun a b => a ≠ b),
   (.jset32Imm, fun a b => a.toNat &&& b.toNat ≠ 0),
   (.jgt32Imm, fun a b => a.toNat > b.toNat),
   (.jge32Imm, fun a b => a.toNat ≥ b.toNat),
   (.jlt32Imm, fun a b => a.toNat < b.toNat),
   (.jle32Imm, fun a b => a.toNat ≤ b.toNat),
   (.jsgt32Imm, fun a b => a.toInt > b.toInt),
   (.jsge32Imm, fun a b => a.toInt ≥ b.toInt),
   (.jslt32Imm, fun a b => a.toInt < b.toInt),
   (.jsle32Imm, fun a b => a.toInt ≤ b.toInt)]

/-- The 32-bit conditional jumps with a register operand, and when they are taken. -/
def jump32RegConditions : List ((Reg → Reg → BitVec 16 → Instr) × (W32 → W32 → Prop)) :=
  [(.jeq32Reg, fun a b => a = b),
   (.jne32Reg, fun a b => a ≠ b),
   (.jset32Reg, fun a b => a.toNat &&& b.toNat ≠ 0),
   (.jgt32Reg, fun a b => a.toNat > b.toNat),
   (.jge32Reg, fun a b => a.toNat ≥ b.toNat),
   (.jlt32Reg, fun a b => a.toNat < b.toNat),
   (.jle32Reg, fun a b => a.toNat ≤ b.toNat),
   (.jsgt32Reg, fun a b => a.toInt > b.toInt),
   (.jsge32Reg, fun a b => a.toInt ≥ b.toInt),
   (.jslt32Reg, fun a b => a.toInt < b.toInt),
   (.jsle32Reg, fun a b => a.toInt ≤ b.toInt)]

/-- The 64-bit conditional jumps with an immediate operand, and when they are taken. -/
def jump64ImmConditions : List ((Reg → BitVec 16 → W32 → Instr) × (W64 → W64 → Prop)) :=
  [(.jeq64Imm, fun a b => a = b),
   (.jne64Imm, fun a b => a ≠ b),
   (.jset64Imm, fun a b => a.toNat &&& b.toNat ≠ 0),
   (.jgt64Imm, fun a b => a.toNat > b.toNat),
   (.jge64Imm, fun a b => a.toNat ≥ b.toNat),
   (.jlt64Imm, fun a b => a.toNat < b.toNat),
   (.jle64Imm, fun a b => a.toNat ≤ b.toNat),
   (.jsgt64Imm, fun a b => a.toInt > b.toInt),
   (.jsge64Imm, fun a b => a.toInt ≥ b.toInt),
   (.jslt64Imm, fun a b => a.toInt < b.toInt),
   (.jsle64Imm, fun a b => a.toInt ≤ b.toInt)]

/-- The 64-bit conditional jumps with a register operand, and when they are taken. -/
def jump64RegConditions : List ((Reg → Reg → BitVec 16 → Instr) × (W64 → W64 → Prop)) :=
  [(.jeq64Reg, fun a b => a = b),
   (.jne64Reg, fun a b => a ≠ b),
   (.jset64Reg, fun a b => a.toNat &&& b.toNat ≠ 0),
   (.jgt64Reg, fun a b => a.toNat > b.toNat),
   (.jge64Reg, fun a b => a.toNat ≥ b.toNat),
   (.jlt64Reg, fun a b => a.toNat < b.toNat),
   (.jle64Reg, fun a b => a.toNat ≤ b.toNat),
   (.jsgt64Reg, fun a b => a.toInt > b.toInt),
   (.jsge64Reg, fun a b => a.toInt ≥ b.toInt),
   (.jslt64Reg, fun a b => a.toInt < b.toInt),
   (.jsle64Reg, fun a b => a.toInt ≤ b.toInt)]

/-- The zero-extending loads and their widths (spec/46_load_store.md). -/
def zeroLoads : List ((Reg → Reg → BitVec 16 → Instr) × Nat) :=
  [(.ldxw, 4),
   (.ldxh, 2),
   (.ldxb, 1),
   (.ldxdw, 8)]

/-- The sign-extending loads and their widths. -/
def signLoads : List ((Reg → Reg → BitVec 16 → Instr) × Nat) :=
  [(.ldxsw, 4),
   (.ldxsh, 2),
   (.ldxsb, 1)]

/-- The stores of an immediate and their widths. -/
def immStores : List ((Reg → BitVec 16 → W32 → Instr) × Nat) :=
  [(.stw, 4),
   (.sth, 2),
   (.stb, 1),
   (.stdw, 8)]

/-- The stores of a register and their widths. -/
def regStores : List ((Reg → Reg → BitVec 16 → Instr) × Nat) :=
  [(.stxw, 4),
   (.stxh, 2),
   (.stxb, 1),
   (.stxdw, 8)]

/-- The atomic operations that write no register: width, and the new memory value (modulo the width) from the old
one and the operand (spec/47_atomic.md R431). -/
def plainAtomics : List ((Reg → Reg → BitVec 16 → Instr) × Nat × (Nat → Nat → Nat)) :=
  [(.atomicAdd32, 4, fun o v => o + v),
   (.atomicOr32, 4, fun o v => o ||| v),
   (.atomicAnd32, 4, fun o v => o &&& v),
   (.atomicXor32, 4, fun o v => o ^^^ v),
   (.atomicAdd64, 8, fun o v => o + v),
   (.atomicOr64, 8, fun o v => o ||| v),
   (.atomicAnd64, 8, fun o v => o &&& v),
   (.atomicXor64, 8, fun o v => o ^^^ v)]

/-- The atomic operations that leave the old memory value in src_reg (spec/47_atomic.md R432). -/
def fetchAtomics : List ((Reg → Reg → BitVec 16 → Instr) × Nat × (Nat → Nat → Nat)) :=
  [(.atomicFetchAdd32, 4, fun o v => o + v),
   (.atomicFetchOr32, 4, fun o v => o ||| v),
   (.atomicFetchAnd32, 4, fun o v => o &&& v),
   (.atomicFetchXor32, 4, fun o v => o ^^^ v),
   (.atomicXchg32, 4, fun _ v => v),
   (.atomicFetchAdd64, 8, fun o v => o + v),
   (.atomicFetchOr64, 8, fun o v => o ||| v),
   (.atomicFetchAnd64, 8, fun o v => o &&& v),
   (.atomicFetchXor64, 8, fun o v => o ^^^ v),
   (.atomicXchg64, 8, fun _ v => v)]

/-- Compare and exchange, with the width. -/
def exchangeAtomics : List ((Reg → Reg → BitVec 16 → Instr) × Nat) :=
  [(.atomicCmpxchg32, 4),
   (.atomicCmpxchg64, 8)]

/-- TO_LE and its widths in bytes (spec/43_byteswap.md R310). -/
def swapsToLittle : List ((Reg → Instr) × Nat) :=
  [(.le16, 2),
   (.le32, 4),
   (.le64, 8)]

/-- TO_BE and its widths in bytes. -/
def swapsToBig : List ((Reg → Instr) × Nat) :=
  [(.be16, 2),
   (.be32, 4),
   (.be64, 8)]

/-- The unconditional swaps and their widths in bytes. -/
def swapsAlways : List ((Reg → Instr) × Nat) :=
  [(.bswap16, 2),
   (.bswap32, 4),
   (.bswap64, 8)]

/-- The lookup `dst = table value` of the six 64-bit immediate loads that consult the environment, from the rows of
spec/48_imm64.md R470 and R471: none where a table has no entry. -/
def lookupValue (p : Params) (pc : Int) (i : Instr) : Option (Reg × W64) :=
  match i with
  | .ldMapFd dst imm => do
    let m ← p.mapByFd.lookup imm.toInt
    let v ← p.mapAddr.lookup m
    return (dst, v)
  | .ldMapValFd dst imm nextImm => do
    let m ← p.mapByFd.lookup imm.toInt
    let v ← p.mapVal.lookup m
    return (dst, v + BitVec.ofNat 64 nextImm.toNat)
  | .ldVarAddr dst imm => do
    let v ← p.varAddr.lookup imm.toInt
    return (dst, v)
  | .ldCodeAddr dst imm => do
    let v ← p.codeAddr.lookup (pc, imm.toInt)
    return (dst, v)
  | .ldMapIdx dst imm => do
    let m ← p.mapByIdx.lookup imm.toInt
    let v ← p.mapAddr.lookup m
    return (dst, v)
  | .ldMapValIdx dst imm nextImm => do
    let m ← p.mapByIdx.lookup imm.toInt
    let v ← p.mapVal.lookup m
    return (dst, v + BitVec.ofNat 64 nextImm.toNat)
  | .add32Imm .. | .add32Reg .. | .add64Imm .. | .add64Reg .. | .sub32Imm .. | .sub32Reg .. => none
  | .sub64Imm .. | .sub64Reg .. | .mul32Imm .. | .mul32Reg .. | .mul64Imm .. | .mul64Reg .. => none
  | .div32Imm .. | .div32Reg .. | .div64Imm .. | .div64Reg .. | .sdiv32Imm .. | .sdiv32Reg .. => none
  | .sdiv64Imm .. | .sdiv64Reg .. | .or32Imm .. | .or32Reg .. | .or64Imm .. | .or64Reg .. => none
  | .and32Imm .. | .and32Reg .. | .and64Imm .. | .and64Reg .. | .lsh32Imm .. | .lsh32Reg .. => none
  | .lsh64Imm .. | .lsh64Reg .. | .rsh32Imm .. | .rsh32Reg .. | .rsh64Imm .. | .rsh64Reg .. => none
  | .neg32 .. | .neg64 .. | .mod32Imm .. | .mod32Reg .. | .mod64Imm .. | .mod64Reg .. => none
  | .smod32Imm .. | .smod32Reg .. | .smod64Imm .. | .smod64Reg .. | .xor32Imm .. | .xor32Reg .. => none
  | .xor64Imm .. | .xor64Reg .. | .mov32Imm .. | .mov32Reg .. | .mov64Imm .. | .mov64Reg .. => none
  | .movsx32x8 .. | .movsx32x16 .. | .movsx64x8 .. | .movsx64x16 .. | .movsx64x32 .. | .arsh32Imm .. => none
  | .arsh32Reg .. | .arsh64Imm .. | .arsh64Reg .. | .le16 .. | .le32 .. | .le64 .. => none
  | .be16 .. | .be32 .. | .be64 .. | .bswap16 .. | .bswap32 .. | .bswap64 .. => none
  | .ja .. | .ja32 .. | .jeq64Imm .. | .jeq64Reg .. | .jeq32Imm .. | .jeq32Reg .. => none
  | .jgt64Imm .. | .jgt64Reg .. | .jgt32Imm .. | .jgt32Reg .. | .jge64Imm .. | .jge64Reg .. => none
  | .jge32Imm .. | .jge32Reg .. | .jset64Imm .. | .jset64Reg .. | .jset32Imm .. | .jset32Reg .. => none
  | .jne64Imm .. | .jne64Reg .. | .jne32Imm .. | .jne32Reg .. | .jsgt64Imm .. | .jsgt64Reg .. => none
  | .jsgt32Imm .. | .jsgt32Reg .. | .jsge64Imm .. | .jsge64Reg .. | .jsge32Imm .. | .jsge32Reg .. => none
  | .jlt64Imm .. | .jlt64Reg .. | .jlt32Imm .. | .jlt32Reg .. | .jle64Imm .. | .jle64Reg .. => none
  | .jle32Imm .. | .jle32Reg .. | .jslt64Imm .. | .jslt64Reg .. | .jslt32Imm .. | .jslt32Reg .. => none
  | .jsle64Imm .. | .jsle64Reg .. | .jsle32Imm .. | .jsle32Reg .. | .callHelper .. | .callLocal .. => none
  | .callBtf .. | .exit | .ldxw .. | .ldxh .. | .ldxb .. | .ldxdw .. => none
  | .stw .. | .sth .. | .stb .. | .stdw .. | .stxw .. | .stxh .. => none
  | .stxb .. | .stxdw .. | .ldxsw .. | .ldxsh .. | .ldxsb .. | .atomicAdd32 .. => none
  | .atomicFetchAdd32 .. | .atomicOr32 .. | .atomicFetchOr32 .. | .atomicAnd32 .. | .atomicFetchAnd32 .. | .atomicXor32 .. => none
  | .atomicFetchXor32 .. | .atomicXchg32 .. | .atomicCmpxchg32 .. | .atomicAdd64 .. | .atomicFetchAdd64 .. | .atomicOr64 .. => none
  | .atomicFetchOr64 .. | .atomicAnd64 .. | .atomicFetchAnd64 .. | .atomicXor64 .. | .atomicFetchXor64 .. | .atomicXchg64 .. => none
  | .atomicCmpxchg64 .. | .lddw .. | .ldAbsW .. | .ldAbsH .. | .ldAbsB .. | .ldIndW .. => none
  | .ldIndH .. | .ldIndB .. | .imm64Hi .. => none

/-- The instruction is one of the six loads that consult the environment. -/
def Instr.isLookup (i : Instr) : Bool :=
  match i with
  | .ldMapFd .. | .ldMapValFd .. | .ldVarAddr .. | .ldCodeAddr .. | .ldMapIdx .. | .ldMapValIdx .. => true
  | .add32Imm .. | .add32Reg .. | .add64Imm .. | .add64Reg .. | .sub32Imm .. | .sub32Reg .. => false
  | .sub64Imm .. | .sub64Reg .. | .mul32Imm .. | .mul32Reg .. | .mul64Imm .. | .mul64Reg .. => false
  | .div32Imm .. | .div32Reg .. | .div64Imm .. | .div64Reg .. | .sdiv32Imm .. | .sdiv32Reg .. => false
  | .sdiv64Imm .. | .sdiv64Reg .. | .or32Imm .. | .or32Reg .. | .or64Imm .. | .or64Reg .. => false
  | .and32Imm .. | .and32Reg .. | .and64Imm .. | .and64Reg .. | .lsh32Imm .. | .lsh32Reg .. => false
  | .lsh64Imm .. | .lsh64Reg .. | .rsh32Imm .. | .rsh32Reg .. | .rsh64Imm .. | .rsh64Reg .. => false
  | .neg32 .. | .neg64 .. | .mod32Imm .. | .mod32Reg .. | .mod64Imm .. | .mod64Reg .. => false
  | .smod32Imm .. | .smod32Reg .. | .smod64Imm .. | .smod64Reg .. | .xor32Imm .. | .xor32Reg .. => false
  | .xor64Imm .. | .xor64Reg .. | .mov32Imm .. | .mov32Reg .. | .mov64Imm .. | .mov64Reg .. => false
  | .movsx32x8 .. | .movsx32x16 .. | .movsx64x8 .. | .movsx64x16 .. | .movsx64x32 .. | .arsh32Imm .. => false
  | .arsh32Reg .. | .arsh64Imm .. | .arsh64Reg .. | .le16 .. | .le32 .. | .le64 .. => false
  | .be16 .. | .be32 .. | .be64 .. | .bswap16 .. | .bswap32 .. | .bswap64 .. => false
  | .ja .. | .ja32 .. | .jeq64Imm .. | .jeq64Reg .. | .jeq32Imm .. | .jeq32Reg .. => false
  | .jgt64Imm .. | .jgt64Reg .. | .jgt32Imm .. | .jgt32Reg .. | .jge64Imm .. | .jge64Reg .. => false
  | .jge32Imm .. | .jge32Reg .. | .jset64Imm .. | .jset64Reg .. | .jset32Imm .. | .jset32Reg .. => false
  | .jne64Imm .. | .jne64Reg .. | .jne32Imm .. | .jne32Reg .. | .jsgt64Imm .. | .jsgt64Reg .. => false
  | .jsgt32Imm .. | .jsgt32Reg .. | .jsge64Imm .. | .jsge64Reg .. | .jsge32Imm .. | .jsge32Reg .. => false
  | .jlt64Imm .. | .jlt64Reg .. | .jlt32Imm .. | .jlt32Reg .. | .jle64Imm .. | .jle64Reg .. => false
  | .jle32Imm .. | .jle32Reg .. | .jslt64Imm .. | .jslt64Reg .. | .jslt32Imm .. | .jslt32Reg .. => false
  | .jsle64Imm .. | .jsle64Reg .. | .jsle32Imm .. | .jsle32Reg .. | .callHelper .. | .callLocal .. => false
  | .callBtf .. | .exit | .ldxw .. | .ldxh .. | .ldxb .. | .ldxdw .. => false
  | .stw .. | .sth .. | .stb .. | .stdw .. | .stxw .. | .stxh .. => false
  | .stxb .. | .stxdw .. | .ldxsw .. | .ldxsh .. | .ldxsb .. | .atomicAdd32 .. => false
  | .atomicFetchAdd32 .. | .atomicOr32 .. | .atomicFetchOr32 .. | .atomicAnd32 .. | .atomicFetchAnd32 .. | .atomicXor32 .. => false
  | .atomicFetchXor32 .. | .atomicXchg32 .. | .atomicCmpxchg32 .. | .atomicAdd64 .. | .atomicFetchAdd64 .. | .atomicOr64 .. => false
  | .atomicFetchOr64 .. | .atomicAnd64 .. | .atomicFetchAnd64 .. | .atomicXor64 .. | .atomicFetchXor64 .. | .atomicXchg64 .. => false
  | .atomicCmpxchg64 .. | .lddw .. | .ldAbsW .. | .ldAbsH .. | .ldAbsB .. | .ldIndW .. => false
  | .ldIndH .. | .ldIndB .. | .imm64Hi .. => false

/-! ## What an instruction reads, and its access to memory -/

/-- The registers an instruction reads, in the order it reads them (spec/60_exceptions.md R510, R511): the reads value of
its row of spec/opcode_table.json. EXIT reads R0 only with an empty call stack. What a helper reads is the helper's. -/
def Instr.reads (cs : List Frame) (i : Instr) : List Reg :=
  match i with
  | .exit => if cs = [] then [0] else []
  | .add32Imm dst _ | .add64Imm dst _ | .sub32Imm dst _ | .sub64Imm dst _ => [dst]
  | .mul32Imm dst _ | .mul64Imm dst _ | .div32Imm dst _ | .div64Imm dst _ => [dst]
  | .sdiv32Imm dst _ | .sdiv64Imm dst _ | .or32Imm dst _ | .or64Imm dst _ => [dst]
  | .and32Imm dst _ | .and64Imm dst _ | .lsh32Imm dst _ | .lsh64Imm dst _ => [dst]
  | .rsh32Imm dst _ | .rsh64Imm dst _ | .neg32 dst | .neg64 dst => [dst]
  | .mod32Imm dst _ | .mod64Imm dst _ | .smod32Imm dst _ | .smod64Imm dst _ => [dst]
  | .xor32Imm dst _ | .xor64Imm dst _ | .arsh32Imm dst _ | .arsh64Imm dst _ => [dst]
  | .le16 dst | .le32 dst | .le64 dst | .be16 dst => [dst]
  | .be32 dst | .be64 dst | .bswap16 dst | .bswap32 dst => [dst]
  | .bswap64 dst | .jeq64Imm dst _ _ | .jeq32Imm dst _ _ | .jgt64Imm dst _ _ => [dst]
  | .jgt32Imm dst _ _ | .jge64Imm dst _ _ | .jge32Imm dst _ _ | .jset64Imm dst _ _ => [dst]
  | .jset32Imm dst _ _ | .jne64Imm dst _ _ | .jne32Imm dst _ _ | .jsgt64Imm dst _ _ => [dst]
  | .jsgt32Imm dst _ _ | .jsge64Imm dst _ _ | .jsge32Imm dst _ _ | .jlt64Imm dst _ _ => [dst]
  | .jlt32Imm dst _ _ | .jle64Imm dst _ _ | .jle32Imm dst _ _ | .jslt64Imm dst _ _ => [dst]
  | .jslt32Imm dst _ _ | .jsle64Imm dst _ _ | .jsle32Imm dst _ _ | .stw dst _ _ => [dst]
  | .sth dst _ _ | .stb dst _ _ | .stdw dst _ _ => [dst]
  | .add32Reg dst src | .add64Reg dst src | .sub32Reg dst src | .sub64Reg dst src => [dst, src]
  | .mul32Reg dst src | .mul64Reg dst src | .div32Reg dst src | .div64Reg dst src => [dst, src]
  | .sdiv32Reg dst src | .sdiv64Reg dst src | .or32Reg dst src | .or64Reg dst src => [dst, src]
  | .and32Reg dst src | .and64Reg dst src | .lsh32Reg dst src | .lsh64Reg dst src => [dst, src]
  | .rsh32Reg dst src | .rsh64Reg dst src | .mod32Reg dst src | .mod64Reg dst src => [dst, src]
  | .smod32Reg dst src | .smod64Reg dst src | .xor32Reg dst src | .xor64Reg dst src => [dst, src]
  | .arsh32Reg dst src | .arsh64Reg dst src | .jeq64Reg dst src _ | .jeq32Reg dst src _ => [dst, src]
  | .jgt64Reg dst src _ | .jgt32Reg dst src _ | .jge64Reg dst src _ | .jge32Reg dst src _ => [dst, src]
  | .jset64Reg dst src _ | .jset32Reg dst src _ | .jne64Reg dst src _ | .jne32Reg dst src _ => [dst, src]
  | .jsgt64Reg dst src _ | .jsgt32Reg dst src _ | .jsge64Reg dst src _ | .jsge32Reg dst src _ => [dst, src]
  | .jlt64Reg dst src _ | .jlt32Reg dst src _ | .jle64Reg dst src _ | .jle32Reg dst src _ => [dst, src]
  | .jslt64Reg dst src _ | .jslt32Reg dst src _ | .jsle64Reg dst src _ | .jsle32Reg dst src _ => [dst, src]
  | .stxw dst src _ | .stxh dst src _ | .stxb dst src _ | .stxdw dst src _ => [dst, src]
  | .atomicAdd32 dst src _ | .atomicFetchAdd32 dst src _ | .atomicOr32 dst src _ | .atomicFetchOr32 dst src _ => [dst, src]
  | .atomicAnd32 dst src _ | .atomicFetchAnd32 dst src _ | .atomicXor32 dst src _ | .atomicFetchXor32 dst src _ => [dst, src]
  | .atomicXchg32 dst src _ | .atomicAdd64 dst src _ | .atomicFetchAdd64 dst src _ | .atomicOr64 dst src _ => [dst, src]
  | .atomicFetchOr64 dst src _ | .atomicAnd64 dst src _ | .atomicFetchAnd64 dst src _ | .atomicXor64 dst src _ => [dst, src]
  | .atomicFetchXor64 dst src _ | .atomicXchg64 dst src _ => [dst, src]
  | .mov32Imm .. | .mov64Imm .. | .ja .. | .ja32 .. | .callHelper .. | .callLocal .. => []
  | .callBtf .. | .lddw .. | .ldMapFd .. | .ldMapValFd .. | .ldVarAddr .. | .ldCodeAddr .. => []
  | .ldMapIdx .. | .ldMapValIdx .. | .ldAbsW .. | .ldAbsH .. | .ldAbsB .. | .ldIndW .. => []
  | .ldIndH .. | .ldIndB .. | .imm64Hi .. => []
  | .mov32Reg _ src | .mov64Reg _ src | .movsx32x8 _ src | .movsx32x16 _ src => [src]
  | .movsx64x8 _ src | .movsx64x16 _ src | .movsx64x32 _ src | .ldxw _ src _ => [src]
  | .ldxh _ src _ | .ldxb _ src _ | .ldxdw _ src _ | .ldxsw _ src _ => [src]
  | .ldxsh _ src _ | .ldxsb _ src _ => [src]
  | .atomicCmpxchg32 dst src _ | .atomicCmpxchg64 dst src _ => [dst, src, 0]

/-- The access of a load, store or atomic instruction: base register, offset, width, kind (spec/20_memory.md R61, R62,
spec/60_exceptions.md R505). -/
def Instr.access (i : Instr) : Option (Reg × BitVec 16 × Nat × Access) :=
  match i with
  | .ldxw _ src off => some (src, off, 4, .read)
  | .ldxh _ src off => some (src, off, 2, .read)
  | .ldxb _ src off => some (src, off, 1, .read)
  | .ldxdw _ src off => some (src, off, 8, .read)
  | .stw dst off _ => some (dst, off, 4, .write)
  | .sth dst off _ => some (dst, off, 2, .write)
  | .stb dst off _ => some (dst, off, 1, .write)
  | .stdw dst off _ => some (dst, off, 8, .write)
  | .stxw dst _ off => some (dst, off, 4, .write)
  | .stxh dst _ off => some (dst, off, 2, .write)
  | .stxb dst _ off => some (dst, off, 1, .write)
  | .stxdw dst _ off => some (dst, off, 8, .write)
  | .ldxsw _ src off => some (src, off, 4, .read)
  | .ldxsh _ src off => some (src, off, 2, .read)
  | .ldxsb _ src off => some (src, off, 1, .read)
  | .atomicAdd32 dst _ off => some (dst, off, 4, .rmw)
  | .atomicFetchAdd32 dst _ off => some (dst, off, 4, .rmw)
  | .atomicOr32 dst _ off => some (dst, off, 4, .rmw)
  | .atomicFetchOr32 dst _ off => some (dst, off, 4, .rmw)
  | .atomicAnd32 dst _ off => some (dst, off, 4, .rmw)
  | .atomicFetchAnd32 dst _ off => some (dst, off, 4, .rmw)
  | .atomicXor32 dst _ off => some (dst, off, 4, .rmw)
  | .atomicFetchXor32 dst _ off => some (dst, off, 4, .rmw)
  | .atomicXchg32 dst _ off => some (dst, off, 4, .rmw)
  | .atomicCmpxchg32 dst _ off => some (dst, off, 4, .rmw)
  | .atomicAdd64 dst _ off => some (dst, off, 8, .rmw)
  | .atomicFetchAdd64 dst _ off => some (dst, off, 8, .rmw)
  | .atomicOr64 dst _ off => some (dst, off, 8, .rmw)
  | .atomicFetchOr64 dst _ off => some (dst, off, 8, .rmw)
  | .atomicAnd64 dst _ off => some (dst, off, 8, .rmw)
  | .atomicFetchAnd64 dst _ off => some (dst, off, 8, .rmw)
  | .atomicXor64 dst _ off => some (dst, off, 8, .rmw)
  | .atomicFetchXor64 dst _ off => some (dst, off, 8, .rmw)
  | .atomicXchg64 dst _ off => some (dst, off, 8, .rmw)
  | .atomicCmpxchg64 dst _ off => some (dst, off, 8, .rmw)
  | .add32Imm .. | .add32Reg .. | .add64Imm .. | .add64Reg .. | .sub32Imm .. | .sub32Reg .. => none
  | .sub64Imm .. | .sub64Reg .. | .mul32Imm .. | .mul32Reg .. | .mul64Imm .. | .mul64Reg .. => none
  | .div32Imm .. | .div32Reg .. | .div64Imm .. | .div64Reg .. | .sdiv32Imm .. | .sdiv32Reg .. => none
  | .sdiv64Imm .. | .sdiv64Reg .. | .or32Imm .. | .or32Reg .. | .or64Imm .. | .or64Reg .. => none
  | .and32Imm .. | .and32Reg .. | .and64Imm .. | .and64Reg .. | .lsh32Imm .. | .lsh32Reg .. => none
  | .lsh64Imm .. | .lsh64Reg .. | .rsh32Imm .. | .rsh32Reg .. | .rsh64Imm .. | .rsh64Reg .. => none
  | .neg32 .. | .neg64 .. | .mod32Imm .. | .mod32Reg .. | .mod64Imm .. | .mod64Reg .. => none
  | .smod32Imm .. | .smod32Reg .. | .smod64Imm .. | .smod64Reg .. | .xor32Imm .. | .xor32Reg .. => none
  | .xor64Imm .. | .xor64Reg .. | .mov32Imm .. | .mov32Reg .. | .mov64Imm .. | .mov64Reg .. => none
  | .movsx32x8 .. | .movsx32x16 .. | .movsx64x8 .. | .movsx64x16 .. | .movsx64x32 .. | .arsh32Imm .. => none
  | .arsh32Reg .. | .arsh64Imm .. | .arsh64Reg .. | .le16 .. | .le32 .. | .le64 .. => none
  | .be16 .. | .be32 .. | .be64 .. | .bswap16 .. | .bswap32 .. | .bswap64 .. => none
  | .ja .. | .ja32 .. | .jeq64Imm .. | .jeq64Reg .. | .jeq32Imm .. | .jeq32Reg .. => none
  | .jgt64Imm .. | .jgt64Reg .. | .jgt32Imm .. | .jgt32Reg .. | .jge64Imm .. | .jge64Reg .. => none
  | .jge32Imm .. | .jge32Reg .. | .jset64Imm .. | .jset64Reg .. | .jset32Imm .. | .jset32Reg .. => none
  | .jne64Imm .. | .jne64Reg .. | .jne32Imm .. | .jne32Reg .. | .jsgt64Imm .. | .jsgt64Reg .. => none
  | .jsgt32Imm .. | .jsgt32Reg .. | .jsge64Imm .. | .jsge64Reg .. | .jsge32Imm .. | .jsge32Reg .. => none
  | .jlt64Imm .. | .jlt64Reg .. | .jlt32Imm .. | .jlt32Reg .. | .jle64Imm .. | .jle64Reg .. => none
  | .jle32Imm .. | .jle32Reg .. | .jslt64Imm .. | .jslt64Reg .. | .jslt32Imm .. | .jslt32Reg .. => none
  | .jsle64Imm .. | .jsle64Reg .. | .jsle32Imm .. | .jsle32Reg .. | .callHelper .. | .callLocal .. => none
  | .callBtf .. | .exit | .lddw .. | .ldMapFd .. | .ldMapValFd .. | .ldVarAddr .. => none
  | .ldCodeAddr .. | .ldMapIdx .. | .ldMapValIdx .. | .ldAbsW .. | .ldAbsH .. | .ldAbsB .. => none
  | .ldIndW .. | .ldIndH .. | .ldIndB .. | .imm64Hi .. => none

/-- The instruction is a helper call: what it does to registers and memory is the platform's (spec/45_jump_b.md R386). -/
def Instr.isHelperCall (i : Instr) : Bool :=
  match i with
  | .callHelper .. | .callBtf .. => true
  | .add32Imm .. | .add32Reg .. | .add64Imm .. | .add64Reg .. | .sub32Imm .. | .sub32Reg .. => false
  | .sub64Imm .. | .sub64Reg .. | .mul32Imm .. | .mul32Reg .. | .mul64Imm .. | .mul64Reg .. => false
  | .div32Imm .. | .div32Reg .. | .div64Imm .. | .div64Reg .. | .sdiv32Imm .. | .sdiv32Reg .. => false
  | .sdiv64Imm .. | .sdiv64Reg .. | .or32Imm .. | .or32Reg .. | .or64Imm .. | .or64Reg .. => false
  | .and32Imm .. | .and32Reg .. | .and64Imm .. | .and64Reg .. | .lsh32Imm .. | .lsh32Reg .. => false
  | .lsh64Imm .. | .lsh64Reg .. | .rsh32Imm .. | .rsh32Reg .. | .rsh64Imm .. | .rsh64Reg .. => false
  | .neg32 .. | .neg64 .. | .mod32Imm .. | .mod32Reg .. | .mod64Imm .. | .mod64Reg .. => false
  | .smod32Imm .. | .smod32Reg .. | .smod64Imm .. | .smod64Reg .. | .xor32Imm .. | .xor32Reg .. => false
  | .xor64Imm .. | .xor64Reg .. | .mov32Imm .. | .mov32Reg .. | .mov64Imm .. | .mov64Reg .. => false
  | .movsx32x8 .. | .movsx32x16 .. | .movsx64x8 .. | .movsx64x16 .. | .movsx64x32 .. | .arsh32Imm .. => false
  | .arsh32Reg .. | .arsh64Imm .. | .arsh64Reg .. | .le16 .. | .le32 .. | .le64 .. => false
  | .be16 .. | .be32 .. | .be64 .. | .bswap16 .. | .bswap32 .. | .bswap64 .. => false
  | .ja .. | .ja32 .. | .jeq64Imm .. | .jeq64Reg .. | .jeq32Imm .. | .jeq32Reg .. => false
  | .jgt64Imm .. | .jgt64Reg .. | .jgt32Imm .. | .jgt32Reg .. | .jge64Imm .. | .jge64Reg .. => false
  | .jge32Imm .. | .jge32Reg .. | .jset64Imm .. | .jset64Reg .. | .jset32Imm .. | .jset32Reg .. => false
  | .jne64Imm .. | .jne64Reg .. | .jne32Imm .. | .jne32Reg .. | .jsgt64Imm .. | .jsgt64Reg .. => false
  | .jsgt32Imm .. | .jsgt32Reg .. | .jsge64Imm .. | .jsge64Reg .. | .jsge32Imm .. | .jsge32Reg .. => false
  | .jlt64Imm .. | .jlt64Reg .. | .jlt32Imm .. | .jlt32Reg .. | .jle64Imm .. | .jle64Reg .. => false
  | .jle32Imm .. | .jle32Reg .. | .jslt64Imm .. | .jslt64Reg .. | .jslt32Imm .. | .jslt32Reg .. => false
  | .jsle64Imm .. | .jsle64Reg .. | .jsle32Imm .. | .jsle32Reg .. | .callLocal .. | .exit => false
  | .ldxw .. | .ldxh .. | .ldxb .. | .ldxdw .. | .stw .. | .sth .. => false
  | .stb .. | .stdw .. | .stxw .. | .stxh .. | .stxb .. | .stxdw .. => false
  | .ldxsw .. | .ldxsh .. | .ldxsb .. | .atomicAdd32 .. | .atomicFetchAdd32 .. | .atomicOr32 .. => false
  | .atomicFetchOr32 .. | .atomicAnd32 .. | .atomicFetchAnd32 .. | .atomicXor32 .. | .atomicFetchXor32 .. | .atomicXchg32 .. => false
  | .atomicCmpxchg32 .. | .atomicAdd64 .. | .atomicFetchAdd64 .. | .atomicOr64 .. | .atomicFetchOr64 .. | .atomicAnd64 .. => false
  | .atomicFetchAnd64 .. | .atomicXor64 .. | .atomicFetchXor64 .. | .atomicXchg64 .. | .atomicCmpxchg64 .. | .lddw .. => false
  | .ldMapFd .. | .ldMapValFd .. | .ldVarAddr .. | .ldCodeAddr .. | .ldMapIdx .. | .ldMapValIdx .. => false
  | .ldAbsW .. | .ldAbsH .. | .ldAbsB .. | .ldIndW .. | .ldIndH .. | .ldIndB .. => false
  | .imm64Hi .. => false

/-- The instruction may set the pc to something other than the slot after it (spec/10_state.md R35). -/
def Instr.setsPc (i : Instr) : Bool :=
  match i with
  | .ja .. | .ja32 .. | .jeq64Imm .. | .jeq64Reg .. | .jeq32Imm .. | .jeq32Reg .. => true
  | .jgt64Imm .. | .jgt64Reg .. | .jgt32Imm .. | .jgt32Reg .. | .jge64Imm .. | .jge64Reg .. => true
  | .jge32Imm .. | .jge32Reg .. | .jset64Imm .. | .jset64Reg .. | .jset32Imm .. | .jset32Reg .. => true
  | .jne64Imm .. | .jne64Reg .. | .jne32Imm .. | .jne32Reg .. | .jsgt64Imm .. | .jsgt64Reg .. => true
  | .jsgt32Imm .. | .jsgt32Reg .. | .jsge64Imm .. | .jsge64Reg .. | .jsge32Imm .. | .jsge32Reg .. => true
  | .jlt64Imm .. | .jlt64Reg .. | .jlt32Imm .. | .jlt32Reg .. | .jle64Imm .. | .jle64Reg .. => true
  | .jle32Imm .. | .jle32Reg .. | .jslt64Imm .. | .jslt64Reg .. | .jslt32Imm .. | .jslt32Reg .. => true
  | .jsle64Imm .. | .jsle64Reg .. | .jsle32Imm .. | .jsle32Reg .. | .callLocal .. | .exit => true
  | .add32Imm .. | .add32Reg .. | .add64Imm .. | .add64Reg .. | .sub32Imm .. | .sub32Reg .. => false
  | .sub64Imm .. | .sub64Reg .. | .mul32Imm .. | .mul32Reg .. | .mul64Imm .. | .mul64Reg .. => false
  | .div32Imm .. | .div32Reg .. | .div64Imm .. | .div64Reg .. | .sdiv32Imm .. | .sdiv32Reg .. => false
  | .sdiv64Imm .. | .sdiv64Reg .. | .or32Imm .. | .or32Reg .. | .or64Imm .. | .or64Reg .. => false
  | .and32Imm .. | .and32Reg .. | .and64Imm .. | .and64Reg .. | .lsh32Imm .. | .lsh32Reg .. => false
  | .lsh64Imm .. | .lsh64Reg .. | .rsh32Imm .. | .rsh32Reg .. | .rsh64Imm .. | .rsh64Reg .. => false
  | .neg32 .. | .neg64 .. | .mod32Imm .. | .mod32Reg .. | .mod64Imm .. | .mod64Reg .. => false
  | .smod32Imm .. | .smod32Reg .. | .smod64Imm .. | .smod64Reg .. | .xor32Imm .. | .xor32Reg .. => false
  | .xor64Imm .. | .xor64Reg .. | .mov32Imm .. | .mov32Reg .. | .mov64Imm .. | .mov64Reg .. => false
  | .movsx32x8 .. | .movsx32x16 .. | .movsx64x8 .. | .movsx64x16 .. | .movsx64x32 .. | .arsh32Imm .. => false
  | .arsh32Reg .. | .arsh64Imm .. | .arsh64Reg .. | .le16 .. | .le32 .. | .le64 .. => false
  | .be16 .. | .be32 .. | .be64 .. | .bswap16 .. | .bswap32 .. | .bswap64 .. => false
  | .callHelper .. | .callBtf .. | .ldxw .. | .ldxh .. | .ldxb .. | .ldxdw .. => false
  | .stw .. | .sth .. | .stb .. | .stdw .. | .stxw .. | .stxh .. => false
  | .stxb .. | .stxdw .. | .ldxsw .. | .ldxsh .. | .ldxsb .. | .atomicAdd32 .. => false
  | .atomicFetchAdd32 .. | .atomicOr32 .. | .atomicFetchOr32 .. | .atomicAnd32 .. | .atomicFetchAnd32 .. | .atomicXor32 .. => false
  | .atomicFetchXor32 .. | .atomicXchg32 .. | .atomicCmpxchg32 .. | .atomicAdd64 .. | .atomicFetchAdd64 .. | .atomicOr64 .. => false
  | .atomicFetchOr64 .. | .atomicAnd64 .. | .atomicFetchAnd64 .. | .atomicXor64 .. | .atomicFetchXor64 .. | .atomicXchg64 .. => false
  | .atomicCmpxchg64 .. | .lddw .. | .ldMapFd .. | .ldMapValFd .. | .ldVarAddr .. | .ldCodeAddr .. => false
  | .ldMapIdx .. | .ldMapValIdx .. | .ldAbsW .. | .ldAbsH .. | .ldAbsB .. | .ldIndW .. => false
  | .ldIndH .. | .ldIndB .. | .imm64Hi .. => false

/-! ## Encodings -/

/-- The opcode bytes the tables of spec/30_encoding.md R116 to R118 assign. -/
def assignedOpcodes : List Nat :=
  aluOpcodes 4 ++ [0xdc] ++ aluOpcodes 7 ++ jumpOpcodes 5 ++ [0x05, 0x85, 0x95] ++ jumpOpcodes 6 ++ [0x06] ++
    [0x18, 0x20, 0x28, 0x30, 0x40, 0x48, 0x50] ++ [0x61, 0x69, 0x71, 0x79] ++ [0x81, 0x89, 0x91] ++
    [0x62, 0x6a, 0x72, 0x7a] ++ [0x63, 0x6b, 0x73, 0x7b] ++ [0xc3, 0xdb]
where
  /-- Codes 0x0 to 0xd with K, and all but NEG and END with X (R116). -/
  aluOpcodes (c : Nat) : List Nat :=
    ([0, 1, 2, 3, 4, 5, 6, 7, 8, 9, 10, 11, 12, 13].map fun k => k * 16 + c) ++
      ([0, 1, 2, 3, 4, 5, 6, 7, 9, 10, 11, 12].map fun k => k * 16 + 8 + c)
  /-- The conditional jumps with K and X (R117). -/
  jumpOpcodes (c : Nat) : List Nat :=
    ([1, 2, 3, 4, 5, 6, 7, 10, 11, 12, 13].map fun k => k * 16 + c) ++
      ([1, 2, 3, 4, 5, 6, 7, 10, 11, 12, 13].map fun k => k * 16 + 8 + c)

/-! ## Conformance groups -/

/-- The group an encoding belongs to, from its class, operation, mode and size as spec/00_scope.md R3 words it. -/
def groupOfFields (f : Fields) : Group :=
  let code := f.opcode.toNat / 16
  let size := f.opcode.toNat / 8 % 4
  let mode := f.opcode.toNat / 32
  match f.opcode.toNat % 8 with
  | 4 => if code ∈ [2, 3, 9] then .divmul32 else if code = 13 ∧ f.imm = 64 then .base64 else .base32
  | 7 => if code ∈ [2, 3, 9] then .divmul64 else if code = 13 ∧ f.imm ≠ 64 then .base32 else .base64
  | 6 => .base32
  | 5 => if code ∈ [0, 8, 9] then .base32 else .base64
  | 3 => if mode = 6 then (if size = 3 then .atomic64 else .atomic32) else if size = 3 then .base64 else .base32
  | 0 => if mode = 0 then .base64 else .packet
  | _ => if size = 3 then .base64 else .base32

/-! ## Safe runs -/

/-- The bytes of memory are in canonical form and every one lies in a region, below 2^64 (spec/10_state.md R45). -/
def MemoryInv (s : State) : Prop :=
  s.mem.wf = true ∧
    ∀ c ∈ s.mem, c.1 < 2 ^ 64 ∧ ∃ r ∈ s.params.regions, r.base ≤ c.1 ∧ c.1 < r.base + r.len

/-- A run that has not ended in a fault (spec/10_state.md R44). -/
def NotFaulted (s : State) : Prop := ∀ f, s.out ≠ .faulted f

end Sys2Proof
end

