-- ==== Sys2Proof/Certificates/Slice0/Obligations.lean ====
section
/-! DEFINITION. The statements for the provers. Rule numbers R<n> are those of spec/. -/

open Sys2Proof Sys2Proof.Machine

/-! ## Encoding -/

/-- Decoding the slots of a well-formed instruction gives it back, whatever follows them, on both kinds of host. -/
def Obligations.DecodeOfEncodeIsInstruction : Prop :=
  ∀ (e : Endian) (i : Instr) (rest : List Slot), i.wellFormed = true → decode e (encode e i ++ rest) = .ok i

/-- Slots that decode to an instruction are that instruction's encoding: no field an instruction does not use is
ignored, and what is decoded is well formed (R108, R120). -/
def Obligations.EncodeOfDecodeIsSlots : Prop :=
  ∀ (e : Endian) (slots : List Slot) (i : Instr), decode e slots = .ok i →
    i.wellFormed = true ∧ slots.take i.length = encode e i

/-- An opcode byte has an instruction exactly when the tables R116 to R118 assign it, or, the model's choice, it is 0x00:
R121 and R479 call a lone slot with that opcode illegal and no instruction, and log entry 17 (DEDUCED) decodes it to the row
IMM64_HI, whose meaning raises IllegalInstruction. Any other opcode is refused whatever the other fields hold. -/
def Obligations.AssignedOpcodesExactly : Prop :=
  (∀ op : BitVec 8, (∃ f second i, f.opcode = op ∧ decodeFields f second = .ok i) ↔
    (op.toNat ∈ assignedOpcodes ∨ op = 0)) ∧
  ∀ (f : Fields) (second : Option Fields), f.opcode.toNat ∉ assignedOpcodes → f.opcode ≠ 0 →
    decodeFields f second = .error .unassignedOpcode

/-- Words written out from the spec's encodings decode to their instructions on both kinds of host. -/
def Obligations.SpecWordsDecode : Prop :=
  decode .little [⟨0x07, 0x01, 0x00, 0x00, 0x44, 0x33, 0x22, 0x11⟩] = .ok (.add64Imm 1 0x11223344) ∧
  decode .big [⟨0x07, 0x10, 0x00, 0x00, 0x11, 0x22, 0x33, 0x44⟩] = .ok (.add64Imm 1 0x11223344) ∧
  decode .little [⟨0x61, 0x21, 0xf8, 0xff, 0x00, 0x00, 0x00, 0x00⟩] = .ok (.ldxw 1 2 0xfff8) ∧
  decode .big [⟨0x61, 0x12, 0xff, 0xf8, 0x00, 0x00, 0x00, 0x00⟩] = .ok (.ldxw 1 2 0xfff8) ∧
  decode .little [⟨0x85, 0x10, 0x00, 0x00, 0x05, 0x00, 0x00, 0x00⟩] = .ok (.callLocal 5) ∧
  decode .little [⟨0xc3, 0x21, 0x10, 0x00, 0xf1, 0x00, 0x00, 0x00⟩] = .ok (.atomicCmpxchg32 1 2 16)

/-! ## The step -/

/-- A step of a running state, once the environment has changed what it may (R76), is exec of the instruction fetched
and decoded: as fetch gives the slots, and as the slots of an encoding stand in the program at the pc. -/
def Obligations.StepRunsDecodedInstruction : Prop :=
  (∀ (s : State) (slots : List Slot) (i : Instr), s.out = .running → s.fetch = some slots →
    decode s.params.hostEndian slots = .ok i → i.permitted s.params = true → step s = exec i s.agentStep) ∧
  ∀ (s : State) (before after : List Slot) (i : Instr), s.out = .running → i.wellFormed = true →
    s.params.program = before ++ encode s.params.hostEndian i ++ after → s.pc = before.length →
    secondSlotFrom false s.params.program before.length = false → i.permitted s.params = true →
    step s = exec i s.agentStep

/-- Before anything is executed: a fetch that finds no instruction raises BadPC(pc); slots that decode to none, a group
that is not supported and a read-only destination raise IllegalInstruction(pc) (R502, R503, R511 items 1 and 2). -/
def Obligations.StepFaultsBeforeExecution : Prop :=
  ∀ s : State, s.out = .running →
    (s.fetch = none → step s = .next { s.agentStep with out := .faulted (.badPC s.pc) }) ∧
    (∀ slots r, s.fetch = some slots → decode s.params.hostEndian slots = .error r →
      step s = .next { s.agentStep with out := .faulted (.illegalInstruction s.pc) }) ∧
    (∀ slots i, s.fetch = some slots → decode s.params.hostEndian slots = .ok i →
      (i.group ∉ s.params.supportedGroups ∨ ∃ r ∈ i.writes, r ∈ s.params.readonlyRegs) →
      step s = .next { s.agentStep with out := .faulted (.illegalInstruction s.pc) })

/-- The conformance group of every instruction, as R3 reads it off the class, operation, mode and size of its encoding
(R206, R311, R335); and a set of supported groups is closed as R4 says: it holds base32, and base64 brings base32,
atomic64 brings atomic32, divmul64 brings divmul32. -/
def Obligations.GroupsOfInstructions : Prop :=
  (∀ i : Instr, i.group = groupOfFields i.fields) ∧
  ∀ p : Params, p.groupsClosed = true ↔
    (.base32 ∈ p.supportedGroups ∧ (.base64 ∈ p.supportedGroups → .base32 ∈ p.supportedGroups) ∧
      (.atomic64 ∈ p.supportedGroups → .atomic32 ∈ p.supportedGroups) ∧
      (.divmul64 ∈ p.supportedGroups → .divmul32 ∈ p.supportedGroups))

/-- In a program that is the encodings of some instructions one after the other, fetch finds each instruction at its own
first slot and finds nothing at any other index (R34, R36, R122). -/
def Obligations.FetchFindsInstructionStarts : Prop :=
  ∀ (s : State) (is : List Instr), (∀ i ∈ is, i.wellFormed = true) →
    s.params.program = is.flatMap (encode s.params.hostEndian) →
    (∀ (before after : List Instr) (i : Instr), is = before ++ i :: after →
      s.pc = ((before.map Instr.length).sum : Nat) →
      ∃ slots, s.fetch = some slots ∧ decode s.params.hostEndian slots = .ok i) ∧
    ((∀ (before after : List Instr) (i : Instr), is = before ++ i :: after →
      s.pc ≠ ((before.map Instr.length).sum : Nat)) → s.fetch = none)

/-- After the end of a run no further step exists (R44, R501). That a faulted run answers its fault again and an exited one
is refused as ended is the model's choice, log entry 1 (DEDUCED). -/
def Obligations.EndedRunHasNoNextState : Prop :=
  ∀ s : State, (∀ f, s.out = .faulted f → step s = .fault f) ∧ (∀ v, s.out = .exited v → step s = .refused .runEnded)

/-- A running state always has a next state: no state is stuck (R501). -/
def Obligations.RunningStateIsNeverStuck : Prop :=
  ∀ s : State, s.out = .running → ∃ t, step s = .next t

/-- A fault is precise: the step that takes one changes the status of the run and nothing else (R501, R513). -/
def Obligations.FaultsArePrecise : Prop :=
  ∀ (s t : State) (f : Fault), s.out = .running → step s = .next t → t.out = .faulted f →
    t = { s.agentStep with out := .faulted f }

/-- Only EXIT with an empty call stack ends a run without a fault, with all of R0 as the value (R44, R389). -/
def Obligations.OnlyExitEndsARun : Prop :=
  ∀ (s t : State) (v : W64), s.out = .running → step s = .next t → t.out = .exited v →
    s.cs = [] ∧ s.reg 0 = some v ∧ t = { s.agentStep with out := .exited v } ∧
      ∃ slots, s.fetch = some slots ∧ decode s.params.hostEndian slots = .ok .exit

/-- No step changes a parameter of the run: the program text, the regions and the tables stay (R38, R39, R41, R78). -/
def Obligations.ParametersNeverChange : Prop :=
  ∀ s t : State, step s = .next t → t.params = s.params

/-- A well-formed program never reaches an illegal instruction, from whatever registers and memory (R123, R502). -/
def Obligations.WellFormedProgramIsNeverIllegal : Prop :=
  ∀ (s t : State) (p : Int), s.params.programWellFormed = true → s.out = .running → step s = .next t →
    t.out ≠ .faulted (.illegalInstruction p)

/-- The pc after an instruction that is no jump, no local call and no exit, and that did not fault, is the slot after
the instruction, two slots on for a wide one (R35). -/
def Obligations.PcAdvancesByLength : Prop :=
  ∀ (i : Instr) (s t : State), i.setsPc = false → s.out = .running → exec i s = .next t → t.out = .running →
    t.pc = s.pc + i.length

/-- The call stack is changed by CALL with src_reg 1 and by EXIT alone (R40). -/
def Obligations.CallStackChangesOnlyByCallAndExit : Prop :=
  ∀ (i : Instr) (s t : State), (∀ imm, i ≠ .callLocal imm) → i ≠ .exit → exec i s = .next t → t.cs = s.cs

/-- No instruction but a helper call, a local call and EXIT, whose effect on registers is the platform's, changes a
register of READONLY_REGS (R33). -/
def Obligations.ReadonlyRegistersAreKept : Prop :=
  ∀ (s t : State) (slots : List Slot) (i : Instr) (r : Reg), s.out = .running → s.fetch = some slots →
    decode s.params.hostEndian slots = .ok i → i.isHelperCall = false → (∀ imm, i ≠ .callLocal imm) → i ≠ .exit →
    r ∈ s.params.readonlyRegs → step s = .next t → t.reg r = s.reg r

/-! ## Memory over steps -/

/-- Every step keeps memory in canonical form, every byte of it inside a region (R45). -/
def Obligations.StepKeepsMemoryInvariant : Prop :=
  ∀ s t : State, MemoryInv s → step s = .next t → MemoryInv t

/-- The memory after reset has the form every step keeps. -/
def Obligations.ResetMemoryInvariant : Prop := MemoryInv State.reset

/-- No step changes a byte that lies in no writable and in no shared region. -/
def Obligations.UnwritableUnsharedBytesNeverChange : Prop :=
  ∀ (s t : State) (a : Nat), step s = .next t → s.params.writableByte a = false → s.params.sharedByte a = false →
    t.byteAt a = s.byteAt a

/-- A byte outside the shared regions changes only by a store, an atomic operation or a helper: a step of any other
instruction leaves it (R76 item 1). -/
def Obligations.PrivateBytesChangeOnlyByWrites : Prop :=
  ∀ (s t : State) (slots : List Slot) (i : Instr) (a : Nat), s.out = .running → s.fetch = some slots →
    decode s.params.hostEndian slots = .ok i → i.isHelperCall = false →
    (∀ b off n k, i.access = some (b, off, n, k) → k = .read) → s.params.sharedByte a = false →
    step s = .next t → t.byteAt a = s.byteAt a

/-- What the environment does before a step (R76 item 2, R558): it changes bytes of shared regions only, and no register,
pc or call stack. What is recorded is written as recorded, any value at any shared byte; with nothing recorded the change
is a free value of the moment (log 10), so that no step can be shown to find the bytes of the step before. -/
def Obligations.EnvironmentChangesSharedBytesOnly : Prop :=
  ∀ s : State,
    (∀ a, s.params.sharedByte a = false → s.agentStep.byteAt a = s.byteAt a) ∧
    (∀ a b rest, s.params.sharedByte a = true → s.agentWrites = [(a, b)] :: rest → s.agentStep.byteAt a = b) ∧
    (∀ ws rest, s.agentWrites = ws :: rest → s.agentStep.agentWrites = rest ∧ s.agentStep.agentTime = s.agentTime ∧
      ∀ a, s.params.sharedByte a = true → s.agentStep.byteAt a = lastWrite ws a (s.byteAt a)) ∧
    (∀ a, s.agentWrites = [] → s.params.sharedByte a = true →
      s.agentStep.byteAt a = lastWrite (Config.agentWrites s.agentTime) a (s.byteAt a) ∧
      s.agentStep.agentTime = s.agentTime + 1 ∧ s.agentStep.agentWrites = []) ∧
    SameRegs s s.agentStep ∧ s.agentStep.pc = s.pc ∧ s.agentStep.cs = s.cs ∧ s.agentStep.out = s.out ∧
    s.agentStep.params = s.params ∧ s.agentStep.choices = s.choices ∧ s.agentStep.draws = s.draws

/-! ## Launch and reset -/

/-- The first state of a run: the pc at the entry slot, an empty call stack, a register with a value exactly where the
entry registers give one, memory as supplied, the run standing (R43), the parameters as given (R11, R551); and what is
recorded beforehand of the environment (log 10). -/
def Obligations.LaunchState : Prop :=
  ∀ (p : Params) (entryPc : Nat) (given : List (Reg × W64)) (mem : Memory) (recorded : List (List Host.Cell)) (s : State),
    s = State.launch p entryPc given mem recorded →
      s.pc = entryPc ∧ s.cs = [] ∧ (∀ r : Reg, s.reg r = given.lookup r) ∧ s.mem = mem ∧ s.out = .running ∧
      s.params = p ∧ s.agentWrites = recorded

/-- The state after reset: entry slot 0, empty call stack, no byte supplied, the run standing, and the parameters for
which R11 gives a default at it; and, the model's choice (log 2, 3, 4, 5), every register 0, a little-endian host, every
group supported, no program. -/
def Obligations.ResetState : Prop :=
  State.reset.pc = 0 ∧ State.reset.cs = [] ∧ State.reset.mem = [] ∧ State.reset.out = .running ∧
    (∀ r : Reg, State.reset.reg r = some 0) ∧ State.reset.params.hostEndian = .little ∧
    (∀ g : Group, g ∈ State.reset.params.supportedGroups) ∧
    State.reset.params.program = [] ∧ State.reset.params.regions = [] ∧ State.reset.params.readonlyRegs = [] ∧
    State.reset.params.maxCallDepth = none ∧ State.reset.params.misaligned = .fault ∧
    State.reset.params.framePolicy = .identity ∧ State.reset.params.helpersByAddr = [] ∧
    State.reset.params.helpersByBtf = [] ∧ State.reset.params.mapByFd = [] ∧ State.reset.params.mapByIdx = [] ∧
    State.reset.params.mapAddr = [] ∧ State.reset.params.mapVal = [] ∧ State.reset.params.varAddr = [] ∧
    State.reset.params.codeAddr = []

/-! ## Arithmetic -/

/-- 32-bit arithmetic with an immediate: the result from the low 32 bits, the high half zero, nothing else changed. -/
def Obligations.Alu32ImmediateResult : Prop :=
  ∀ (c : Reg → W32 → Instr) (f : W32 → W32 → W32), (c, f) ∈ alu32ImmResults →
    ∀ (dst : Reg) (imm : W32) (s : State) (a : W64), s.reg dst = some a →
      Completes (c dst imm) s (WritesReg dst ((f (a.setWidth 32) imm).setWidth 64) (s.pc + 1) s)

/-- 32-bit arithmetic with a register: both low halves, the high half of the result zero, nothing else changed; source
and destination may be one register (R207). -/
def Obligations.Alu32RegisterResult : Prop :=
  ∀ (c : Reg → Reg → Instr) (f : W32 → W32 → W32), (c, f) ∈ alu32RegResults →
    ∀ (dst src : Reg) (s : State) (a b : W64), s.reg dst = some a → s.reg src = some b →
      Completes (c dst src) s (WritesReg dst ((f (a.setWidth 32) (b.setWidth 32)).setWidth 64) (s.pc + 1) s)

/-- 64-bit arithmetic with an immediate, which is sign-extended (R125), nothing else changed. -/
def Obligations.Alu64ImmediateResult : Prop :=
  ∀ (c : Reg → W32 → Instr) (f : W64 → W64 → W64), (c, f) ∈ alu64ImmResults →
    ∀ (dst : Reg) (imm : W32) (s : State) (a : W64), s.reg dst = some a →
      Completes (c dst imm) s (WritesReg dst (f a (BitVec.ofInt 64 imm.toInt)) (s.pc + 1) s)

/-- 64-bit arithmetic with a register, nothing else changed. -/
def Obligations.Alu64RegisterResult : Prop :=
  ∀ (c : Reg → Reg → Instr) (f : W64 → W64 → W64), (c, f) ∈ alu64RegResults →
    ∀ (dst src : Reg) (s : State) (a b : W64), s.reg dst = some a → s.reg src = some b →
      Completes (c dst src) s (WritesReg dst (f a b) (s.pc + 1) s)

/-- Division by zero: DIV and SDIV of both classes set all 64 bits of the destination to zero and nothing else is
changed or recorded; the divisor tested is the low 32 bits in class ALU, all 64 in class ALU64 (R202). -/
def Obligations.DivisionByZeroGivesZero : Prop :=
  ∀ (dst src : Reg) (imm : W32) (s : State) (a b : W64), s.reg dst = some a → s.reg src = some b →
    (imm = 0 → ∀ i ∈ [Instr.div32Imm dst imm, .div64Imm dst imm, .sdiv32Imm dst imm, .sdiv64Imm dst imm],
      Completes i s (WritesReg dst 0 (s.pc + 1) s)) ∧
    (b.toNat % 2 ^ 32 = 0 → ∀ i ∈ [Instr.div32Reg dst src, .sdiv32Reg dst src],
      Completes i s (WritesReg dst 0 (s.pc + 1) s)) ∧
    (b = 0 → ∀ i ∈ [Instr.div64Reg dst src, .sdiv64Reg dst src], Completes i s (WritesReg dst 0 (s.pc + 1) s))

/-- Modulo by zero: class ALU64 leaves the destination, class ALU zeroes its upper half (R262). -/
def Obligations.ModuloByZeroKeepsDestination : Prop :=
  ∀ (dst src : Reg) (imm : W32) (s : State) (a b : W64), s.reg dst = some a → s.reg src = some b →
    (imm = 0 → ∀ i ∈ [Instr.mod64Imm dst imm, .smod64Imm dst imm], Completes i s (WritesReg dst a (s.pc + 1) s)) ∧
    (imm = 0 → ∀ i ∈ [Instr.mod32Imm dst imm, .smod32Imm dst imm],
      Completes i s (WritesReg dst (BitVec.ofNat 64 (a.toNat % 2 ^ 32)) (s.pc + 1) s)) ∧
    (b = 0 → ∀ i ∈ [Instr.mod64Reg dst src, .smod64Reg dst src], Completes i s (WritesReg dst a (s.pc + 1) s)) ∧
    (b.toNat % 2 ^ 32 = 0 → ∀ i ∈ [Instr.mod32Reg dst src, .smod32Reg dst src],
      Completes i s (WritesReg dst (BitVec.ofNat 64 (a.toNat % 2 ^ 32)) (s.pc + 1) s))

/-- SDIV rounds toward zero and fits the law a = b * (a s/ b) + (a s% b); the one quotient that does not fit wraps to
the most negative value, without a fault. Both the rounding and the wrap are the spec's own decisions (R204 with D9 and
D10), not sentences of the source. -/
def Obligations.SignedDivisionRoundsTowardZero : Prop :=
  ∀ (dst src : Reg) (imm : W32) (s : State) (a b : W64), s.reg dst = some a → s.reg src = some b →
    (b ≠ 0 → ∃ q, Completes (.sdiv64Reg dst src) s (WritesReg dst q (s.pc + 1) s) ∧ IsSignedQuotient a b q) ∧
    (imm ≠ 0 → ∃ q, Completes (.sdiv64Imm dst imm) s (WritesReg dst q (s.pc + 1) s) ∧
      IsSignedQuotient a (imm.signExtend 64) q) ∧
    (b.setWidth 32 ≠ 0 → ∃ q : W32, Completes (.sdiv32Reg dst src) s (WritesReg dst (q.setWidth 64) (s.pc + 1) s) ∧
      IsSignedQuotient (a.setWidth 32) (b.setWidth 32) q) ∧
    (imm ≠ 0 → ∃ q : W32, Completes (.sdiv32Imm dst imm) s (WritesReg dst (q.setWidth 64) (s.pc + 1) s) ∧
      IsSignedQuotient (a.setWidth 32) imm q)

/-- SMOD is a - b * trunc(a / b): zero or of the dividend's sign, smaller than the divisor, and 0 for the most negative
dividend and divisor -1 (R263). -/
def Obligations.SignedModuloTruncates : Prop :=
  ∀ (dst src : Reg) (imm : W32) (s : State) (a b : W64), s.reg dst = some a → s.reg src = some b →
    (b ≠ 0 → ∃ r, Completes (.smod64Reg dst src) s (WritesReg dst r (s.pc + 1) s) ∧ IsSignedRemainder a b r) ∧
    (imm ≠ 0 → ∃ r, Completes (.smod64Imm dst imm) s (WritesReg dst r (s.pc + 1) s) ∧
      IsSignedRemainder a (imm.signExtend 64) r) ∧
    (b.setWidth 32 ≠ 0 → ∃ r : W32, Completes (.smod32Reg dst src) s (WritesReg dst (r.setWidth 64) (s.pc + 1) s) ∧
      IsSignedRemainder (a.setWidth 32) (b.setWidth 32) r) ∧
    (imm ≠ 0 → ∃ r : W32, Completes (.smod32Imm dst imm) s (WritesReg dst (r.setWidth 64) (s.pc + 1) s) ∧
      IsSignedRemainder (a.setWidth 32) imm r)

/-- NEG: two's complement of the low 32 or of all 64 bits (R260). -/
def Obligations.NegateResult : Prop :=
  ∀ (dst : Reg) (s : State) (a : W64), s.reg dst = some a →
    Completes (.neg32 dst) s
      (WritesReg dst (BitVec.ofNat 64 ((2 ^ 32 - a.toNat % 2 ^ 32) % 2 ^ 32)) (s.pc + 1) s) ∧
    Completes (.neg64 dst) s (WritesReg dst (BitVec.ofNat 64 (2 ^ 64 - a.toNat)) (s.pc + 1) s)

/-- MOV: the immediate, or the source register, which alone is read; class ALU zeroes the upper half (R278 to R281).
MOVSX: the low 8, 16 or 32 bits of the source sign-extended to 32 bits (upper half zero) or to 64 (R261). -/
def Obligations.MoveResult : Prop :=
  (∀ (dst src : Reg) (imm : W32) (s : State),
    Completes (.mov32Imm dst imm) s (WritesReg dst (BitVec.ofNat 64 imm.toNat) (s.pc + 1) s) ∧
    Completes (.mov64Imm dst imm) s (WritesReg dst (BitVec.ofInt 64 imm.toInt) (s.pc + 1) s) ∧
    ∀ b, s.reg src = some b →
      Completes (.mov32Reg dst src) s (WritesReg dst (BitVec.ofNat 64 (b.toNat % 2 ^ 32)) (s.pc + 1) s) ∧
      Completes (.mov64Reg dst src) s (WritesReg dst b (s.pc + 1) s)) ∧
  ∀ (dst src : Reg) (s : State) (b : W64), s.reg src = some b →
    Completes (.movsx32x8 dst src) s
      (WritesReg dst ((BitVec.ofInt 32 ((b.toNat : Int).bmod (2 ^ 8))).setWidth 64) (s.pc + 1) s) ∧
    Completes (.movsx32x16 dst src) s
      (WritesReg dst ((BitVec.ofInt 32 ((b.toNat : Int).bmod (2 ^ 16))).setWidth 64) (s.pc + 1) s) ∧
    Completes (.movsx64x8 dst src) s (WritesReg dst (BitVec.ofInt 64 ((b.toNat : Int).bmod (2 ^ 8))) (s.pc + 1) s) ∧
    Completes (.movsx64x16 dst src) s (WritesReg dst (BitVec.ofInt 64 ((b.toNat : Int).bmod (2 ^ 16))) (s.pc + 1) s) ∧
    Completes (.movsx64x32 dst src) s (WritesReg dst (BitVec.ofInt 64 ((b.toNat : Int).bmod (2 ^ 32))) (s.pc + 1) s)

/-- The byte swaps on both kinds of host: the low N bits as they are or with their bytes reversed, zero-extended; applied
twice, a swap gives the low N bits back, zero-extended (R313). -/
def Obligations.ByteSwapResult : Prop :=
  (∀ (dst : Reg) (s : State) (a : W64), s.reg dst = some a →
    (∀ c n, (c, n) ∈ swapsToLittle → Completes (c dst) s (WritesReg dst
      (if s.params.hostEndian = .little then BitVec.ofNat 64 (a.toNat % 256 ^ n)
        else BitVec.ofNat 64 (reversedBytes n a.toNat)) (s.pc + 1) s)) ∧
    (∀ c n, (c, n) ∈ swapsToBig → Completes (c dst) s (WritesReg dst
      (if s.params.hostEndian = .big then BitVec.ofNat 64 (a.toNat % 256 ^ n)
        else BitVec.ofNat 64 (reversedBytes n a.toNat)) (s.pc + 1) s)) ∧
    (∀ c n, (c, n) ∈ swapsAlways → Completes (c dst) s
      (WritesReg dst (BitVec.ofNat 64 (reversedBytes n a.toNat)) (s.pc + 1) s))) ∧
  ∀ (dst : Reg) (s : State) (a : W64) (c : Reg → Instr) (n : Nat), s.reg dst = some a →
    (c, n) ∈ swapsToLittle ++ swapsToBig ++ swapsAlways →
    Completes (c dst) s fun t => Completes (c dst) t fun u => u.reg dst = some (BitVec.ofNat 64 (a.toNat % 256 ^ n))

/-! ## Jumps -/

/-- JA and JA32 set the pc to the slot after the jump plus the displacement and change nothing else (R330, R331). -/
def Obligations.UnconditionalJumps : Prop :=
  ∀ (off : BitVec 16) (imm : W32) (s : State),
    Completes (.ja off) s (MovesPc (s.pc + 1 + off.toInt) s) ∧
    Completes (.ja32 imm) s (MovesPc (s.pc + 1 + imm.toInt) s)

/-- 32-bit conditional jumps with an immediate: taken exactly when the comparison of the low 32 bits holds. -/
def Obligations.Jump32ImmediateTarget : Prop :=
  ∀ (c : Reg → BitVec 16 → W32 → Instr) (P : W32 → W32 → Prop), (c, P) ∈ jump32ImmConditions →
    ∀ (dst : Reg) (off : BitVec 16) (imm : W32) (s : State) (a : W64), s.reg dst = some a →
      (P (a.setWidth 32) imm → Completes (c dst off imm) s (MovesPc (s.pc + 1 + off.toInt) s)) ∧
      (¬P (a.setWidth 32) imm → Completes (c dst off imm) s (MovesPc (s.pc + 1) s))

/-- 32-bit conditional jumps with a register: taken exactly when the comparison of the low halves holds. -/
def Obligations.Jump32RegisterTarget : Prop :=
  ∀ (c : Reg → Reg → BitVec 16 → Instr) (P : W32 → W32 → Prop), (c, P) ∈ jump32RegConditions →
    ∀ (dst src : Reg) (off : BitVec 16) (s : State) (a b : W64), s.reg dst = some a → s.reg src = some b →
      (P (a.setWidth 32) (b.setWidth 32) → Completes (c dst src off) s (MovesPc (s.pc + 1 + off.toInt) s)) ∧
      (¬P (a.setWidth 32) (b.setWidth 32) → Completes (c dst src off) s (MovesPc (s.pc + 1) s))

/-- 64-bit conditional jumps with an immediate, sign-extended also for an unsigned comparison (R334). -/
def Obligations.Jump64ImmediateTarget : Prop :=
  ∀ (c : Reg → BitVec 16 → W32 → Instr) (P : W64 → W64 → Prop), (c, P) ∈ jump64ImmConditions →
    ∀ (dst : Reg) (off : BitVec 16) (imm : W32) (s : State) (a : W64), s.reg dst = some a →
      (P a (BitVec.ofInt 64 imm.toInt) → Completes (c dst off imm) s (MovesPc (s.pc + 1 + off.toInt) s)) ∧
      (¬P a (BitVec.ofInt 64 imm.toInt) → Completes (c dst off imm) s (MovesPc (s.pc + 1) s))

/-- 64-bit conditional jumps with a register: taken exactly when the comparison of all 64 bits holds. -/
def Obligations.Jump64RegisterTarget : Prop :=
  ∀ (c : Reg → Reg → BitVec 16 → Instr) (P : W64 → W64 → Prop), (c, P) ∈ jump64RegConditions →
    ∀ (dst src : Reg) (off : BitVec 16) (s : State) (a b : W64), s.reg dst = some a → s.reg src = some b →
      (P a b → Completes (c dst src off) s (MovesPc (s.pc + 1 + off.toInt) s)) ∧
      (¬P a b → Completes (c dst src off) s (MovesPc (s.pc + 1) s))

/-! ## Calls and EXIT -/

/-- CALL with src_reg 1 below the depth limit: the return index and what the policy saves go on the call stack, the
callee starts at its target with the registers the policy gives it; under the default policy these are the caller's;
no byte of memory changes (R387). -/
def Obligations.LocalCallEntersCallee : Prop :=
  ∀ (imm : W32) (s : State), (∀ d, s.params.maxCallDepth = some d → s.cs.length < d) →
    Completes (.callLocal imm) s fun t =>
      t.pc = s.pc + 1 + imm.toInt ∧ t.regs = (s.params.framePolicy.onCall s.regs).1 ∧
      t.cs = ⟨s.pc + 1, (s.params.framePolicy.onCall s.regs).2⟩ :: s.cs ∧
      (s.params.framePolicy = .identity → SameRegs s t ∧ t.cs = ⟨s.pc + 1, []⟩ :: s.cs) ∧
      SameMemory s t ∧ SameRun s t

/-- CallDepthExceeded(pc) is raised by CALL with src_reg 1 when the call stack already holds MAX_CALL_DEPTH frames, by
nothing else, and never when the depth is unbounded. The limit and this fault are the spec's own decision (R387, R507 with
D22). -/
def Obligations.CallDepthLimit : Prop :=
  (∀ (imm : W32) (s : State) (d : Nat), s.params.maxCallDepth = some d → d ≤ s.cs.length →
    Faults (.callLocal imm) s (.callDepthExceeded s.pc)) ∧
  (∀ (i : Instr) (s t : State) (p : Int), s.out = .running → exec i s = .next t → t.out = .faulted (.callDepthExceeded p) →
    p = s.pc ∧ (∃ imm, i = .callLocal imm) ∧ ∃ d, s.params.maxCallDepth = some d ∧ d ≤ s.cs.length)

/-- EXIT: with an empty call stack the run ends with the value of R0, and UninitRegister(0) if it holds none; otherwise
the newest frame is popped, the policy gives the registers (under the default policy they stay) and the pc is the saved
index; no byte of memory changes (R389). -/
def Obligations.ExitEndsOrReturns : Prop :=
  ∀ s : State,
    (∀ v, s.cs = [] → s.reg 0 = some v → exec .exit s = .next { s with out := .exited v }) ∧
    (s.cs = [] → s.reg 0 = none → Faults .exit s (.uninitRegister 0)) ∧
    (∀ fr rest, s.cs = fr :: rest → Completes .exit s fun t =>
      t.pc = fr.ret ∧ t.cs = rest ∧ t.regs = s.params.framePolicy.onReturn s.regs fr.saved ∧
      (s.params.framePolicy = .identity → SameRegs s t) ∧ SameMemory s t ∧ SameRun s t)

/-- A call and the EXIT that pops its frame: the caller goes on after the call with its call stack; under the default
policy with the registers the callee left, under a convention with every saved register as before the call. -/
def Obligations.ExitReturnsAfterTheCall : Prop :=
  ∀ (imm : W32) (s t u : State), s.out = .running → exec (.callLocal imm) s = .next t → t.out = .running →
    u.cs = t.cs → u.params = t.params →
    Completes .exit u fun w => w.pc = s.pc + 1 ∧ w.cs = s.cs ∧
      (s.params.framePolicy = .identity → SameRegs u w) ∧
      (∀ saved callee cleared r, s.params.framePolicy = .convention saved callee cleared → r ∈ saved →
        w.reg r = s.reg r)

/-- A helper call applies the relation its table has for its id to the registers and memory it finds (R386, R388): when
the relation has a result, the registers are the result's; a byte of a writable region is the last the helper wrote there,
every other byte is as before; the call stack stays and the pc goes to the next slot. A described relation gives a possible
outcome, and none exactly when none is possible. The relation x[0] <- x[1] + x[2] of R386's example changes R0 alone. The
forms of relations are log entry 11. -/
def Obligations.HelperCallFollowsItsAnswer : Prop :=
  (∀ (i : Instr) (s : State) (id : Int) (h : Helper) (a : HelperAnswer) (e : HelperEffect),
    CallsHelper i s.params id h → h.answer s = some a → (∀ r ∈ a.reads, s.reg r ≠ none) → a.effect = some e →
    Completes i s fun t =>
      t.regs = e.regs ∧ t.pc = s.pc + 1 ∧ t.cs = s.cs ∧ t.out = s.out ∧ t.params = s.params ∧
      t.agentWrites = s.agentWrites ∧ t.agentTime = s.agentTime ∧ t.choices = s.choices + 1 ∧ t.draws = s.draws ∧
      ∀ x, t.byteAt x = if s.params.writableByte x then lastWrite e.writes x (s.byteAt x) else s.byteAt x) ∧
  (∀ (os : List HelperOutcome) (s : State), ∃ a, (Helper.described os).answer s = some a ∧
    (a.effect = none ↔ ∀ o ∈ os, o.possible s = false) ∧
    ∀ e, a.effect = some e → ∃ o ∈ os, o.possible s = true ∧ e = o.effect s) ∧
  ∀ (i : Instr) (s : State) (id : Int) (a b : W64),
    CallsHelper i s.params id (.described [⟨[], [(0, some (.op .add (.reg 1) (.reg 2)))], []⟩]) →
    s.reg 1 = some a → s.reg 2 = some b →
    Completes i s fun t =>
      t.reg 0 = some (BitVec.ofNat 64 (a.toNat + b.toNat)) ∧ SameRegsBut 0 s t ∧ SameMemory s t ∧ t.pc = s.pc + 1 ∧
      t.cs = s.cs ∧ t.out = s.out

/-- A call of a helper of which nothing is known: no register holds a value, every byte of a writable region is any value
(a free value, log 9), every other byte is as before; the call stack stays and the pc goes to the next slot (R386, R388). -/
def Obligations.UnknownHelperWeakestContract : Prop :=
  ∀ (i : Instr) (s : State) (id : Int), CallsHelper i s.params id .unknown →
    Completes i s fun t =>
      (∀ r, t.reg r = none) ∧ t.pc = s.pc + 1 ∧ t.cs = s.cs ∧ t.out = s.out ∧ t.params = s.params ∧
      t.agentWrites = s.agentWrites ∧ t.agentTime = s.agentTime ∧ t.choices = s.choices ∧ t.draws = s.draws + 1 ∧
      ∀ x, t.byteAt x = if s.params.writableByte x then Config.uninitByte (s.draws + 1) x else s.byteAt x

/-- Where a helper call faults: no entry for the id in the table the call uses (R502), a register the relation reads
without a value (R510), no result for the present registers and memory (R508). -/
def Obligations.HelperCallFaults : Prop :=
  (∀ (imm : W32) (s : State),
    (s.params.helpersByAddr.lookup imm.toInt = none → Faults (.callHelper imm) s (.illegalInstruction s.pc)) ∧
    (s.params.helpersByBtf.lookup imm.toInt = none → Faults (.callBtf imm) s (.illegalInstruction s.pc))) ∧
  ∀ (i : Instr) (s : State) (id : Int) (h : Helper) (a : HelperAnswer),
    CallsHelper i s.params id h → h.answer s = some a →
    (∀ r, a.reads.find? (fun q => s.reg q == none) = some r → Faults i s (.uninitRegister r)) ∧
    ((∀ r ∈ a.reads, s.reg r ≠ none) → a.effect = none → Faults i s (.helperFault id))

/-! ## Loads, stores, atomics -/

/-- Loads of 1, 2, 4 and 8 bytes: LDX MEM zero-extends, LDX MEMSX sign-extends, in both cases all 64 bits of the
destination are written (R66); nothing else changes. The wrapping address (R61, D12), the host byte order of data (R63,
D14) and the alignment and region conditions (R64, R68, R69, D12, D13) are the spec's own decisions; that a misaligned
access under MISALIGNED = bytewise is one step is log entry 13 (DEDUCED). -/
def Obligations.LoadsWidenTheValue : Prop :=
  ∀ (c : Reg → Reg → BitVec 16 → Instr) (n : Nat) (dst src : Reg) (off : BitVec 16) (s : State) (base : W64),
    s.reg src = some base → AlignedEnough s (addressNumber base off) n → InRegion s .read (addressNumber base off) n →
    ((c, n) ∈ zeroLoads → Completes (c dst src off) s
      (WritesReg dst (BitVec.ofNat 64 (hostNumber s (addressNumber base off) n)) (s.pc + 1) s)) ∧
    ((c, n) ∈ signLoads → Completes (c dst src off) s
      (WritesReg dst (BitVec.ofInt 64 ((hostNumber s (addressNumber base off) n : Int).bmod (256 ^ n))) (s.pc + 1) s))

/-- ST: the low bytes of the sign-extended immediate at the effective address, in host order; every other byte and every
register is as before (R65, R67). A misaligned access under MISALIGNED = bytewise is one step: log entry 13 (DEDUCED). -/
def Obligations.StoreOfImmediate : Prop :=
  ∀ (c : Reg → BitVec 16 → W32 → Instr) (n : Nat), (c, n) ∈ immStores →
    ∀ (dst : Reg) (off : BitVec 16) (imm : W32) (s : State) (base : W64), s.reg dst = some base →
      AlignedEnough s (addressNumber base off) n → InRegion s .write (addressNumber base off) n →
      Completes (c dst off imm) s fun t =>
        StoresAt (addressNumber base off) n (imm.toInt % 2 ^ 64).toNat s t ∧ SameRegs s t

/-- STX: the low bytes of the source register at the effective address, in host order; every other byte and every
register is as before (R65, R67). A misaligned access under MISALIGNED = bytewise is one step: log entry 13 (DEDUCED). -/
def Obligations.StoreOfRegister : Prop :=
  ∀ (c : Reg → Reg → BitVec 16 → Instr) (n : Nat), (c, n) ∈ regStores →
    ∀ (dst src : Reg) (off : BitVec 16) (s : State) (base v : W64), s.reg dst = some base → s.reg src = some v →
      AlignedEnough s (addressNumber base off) n → InRegion s .write (addressNumber base off) n →
      Completes (c dst src off) s fun t => StoresAt (addressNumber base off) n v.toNat s t ∧ SameRegs s t

/-- A value stored from a register and loaded back from the same address is its low bytes, zero-extended, also where both
accesses are misaligned under MISALIGNED = bytewise, each one step: log entry 13 (DEDUCED). -/
def Obligations.LoadAfterStoreGivesTheValue : Prop :=
  ∀ (st ld : Reg → Reg → BitVec 16 → Instr) (n : Nat), (st, n) ∈ regStores → (ld, n) ∈ zeroLoads →
    ∀ (dst src res : Reg) (off : BitVec 16) (s : State) (base v : W64), s.reg dst = some base → s.reg src = some v →
      AlignedEnough s (addressNumber base off) n → InRegion s .write (addressNumber base off) n →
      InRegion s .read (addressNumber base off) n →
      Completes (st dst src off) s fun t => Completes (ld res dst off) t fun u =>
        u.reg res = some (BitVec.ofNat 64 (v.toNat % 256 ^ n))

/-- Atomic operations without FETCH: memory takes the operation's result modulo its width, every other byte and every
register is as before (R431, R432, R434, R75). -/
def Obligations.AtomicWithoutFetch : Prop :=
  ∀ (c : Reg → Reg → BitVec 16 → Instr) (n : Nat) (f : Nat → Nat → Nat), (c, n, f) ∈ plainAtomics →
    ∀ (dst src : Reg) (off : BitVec 16) (s : State) (base v : W64), s.reg dst = some base → s.reg src = some v →
      addressNumber base off % n = 0 → InRegion s .rmw (addressNumber base off) n →
      Completes (c dst src off) s fun t =>
        StoresAt (addressNumber base off) n (f (hostNumber s (addressNumber base off) n) v.toNat) s t ∧ SameRegs s t

/-- Atomic operations with FETCH, exchange among them: as without, and src_reg receives the old memory value,
zero-extended; no other register changes (R432, R433, R434). -/
def Obligations.AtomicWithFetch : Prop :=
  ∀ (c : Reg → Reg → BitVec 16 → Instr) (n : Nat) (f : Nat → Nat → Nat), (c, n, f) ∈ fetchAtomics →
    ∀ (dst src : Reg) (off : BitVec 16) (s : State) (base v : W64), s.reg dst = some base → s.reg src = some v →
      addressNumber base off % n = 0 → InRegion s .rmw (addressNumber base off) n →
      Completes (c dst src off) s fun t =>
        StoresAt (addressNumber base off) n (f (hostNumber s (addressNumber base off) n) v.toNat) s t ∧
        t.reg src = some (BitVec.ofNat 64 (hostNumber s (addressNumber base off) n)) ∧ SameRegsBut src s t

/-- Compare and exchange: memory takes the low bytes of src_reg when it matched the low bytes of R0 and keeps its value
otherwise; R0 receives the old memory value, zero-extended, in either case; no other register changes (R432 to R434). -/
def Obligations.CompareAndExchange : Prop :=
  ∀ (c : Reg → Reg → BitVec 16 → Instr) (n : Nat), (c, n) ∈ exchangeAtomics →
    ∀ (dst src : Reg) (off : BitVec 16) (s : State) (base v e : W64), s.reg dst = some base → s.reg src = some v →
      s.reg 0 = some e → addressNumber base off % n = 0 → InRegion s .rmw (addressNumber base off) n →
      Completes (c dst src off) s fun t =>
        StoresAt (addressNumber base off) n
          (if hostNumber s (addressNumber base off) n = e.toNat % 256 ^ n then v.toNat
            else hostNumber s (addressNumber base off) n) s t ∧
        t.reg 0 = some (BitVec.ofNat 64 (hostNumber s (addressNumber base off) n)) ∧ SameRegsBut 0 s t

/-- Where a load, store or atomic instruction whose registers all hold values faults: Misaligned first, always for an
atomic and under MISALIGNED = fault for the others; then MemFault, when no region with the permission holds all the
bytes (R68, R69, R505, R506, R511). A misaligned access under MISALIGNED = bytewise is checked as a whole, in one step: log
entry 13 (DEDUCED). -/
def Obligations.MemoryAccessFaults : Prop :=
  ∀ (i : Instr) (s : State) (b : Reg) (off : BitVec 16) (n : Nat) (k : Access) (base : W64),
    i.access = some (b, off, n, k) → (∀ r ∈ i.reads s.cs, s.reg r ≠ none) → s.reg b = some base →
    (addressNumber base off % n ≠ 0 → (k = .rmw ∨ s.params.misaligned = .fault) →
      Faults i s (.misaligned (BitVec.ofNat 64 (addressNumber base off)) n)) ∧
    (addressNumber base off % n = 0 ∨ k ≠ .rmw ∧ s.params.misaligned = .bytewise →
      ¬InRegion s k (addressNumber base off) n →
      Faults i s (.memFault (BitVec.ofNat 64 (addressNumber base off)) n k))

/-- The first register of the reading order (dst_reg, src_reg, R0) that holds no value is reported, before any other
fault the instruction's operands could raise (R504, R511). -/
def Obligations.FirstUnsetRegisterIsReported : Prop :=
  ∀ (i : Instr) (s : State) (r : Reg), (i.reads s.cs).find? (fun q => s.reg q == none) = some r →
    Faults i s (.uninitRegister r)

/-! ## 64-bit immediates, packet loads -/

/-- LDDW: next_imm in the high half, imm as it is in the low half, the second slot skipped (R472). -/
def Obligations.LoadOfConstant : Prop :=
  ∀ (dst : Reg) (imm nextImm : W32) (s : State),
    Completes (.lddw dst imm nextImm) s
      (WritesReg dst (BitVec.ofNat 64 (nextImm.toNat * 2 ^ 32 + imm.toNat)) (s.pc + 2) s)

/-- The six loads that consult the environment: the address the tables give, the second slot skipped; where a table has
no entry, IllegalInstruction(pc) (R471, R473 to R478). -/
def Obligations.EnvironmentLookups : Prop :=
  ∀ (i : Instr) (s : State), i.isLookup = true →
    (∀ dst v, lookupValue s.params s.pc i = some (dst, v) → Completes i s (WritesReg dst v (s.pc + 2) s)) ∧
    (lookupValue s.params s.pc i = none → Faults i s (.illegalInstruction s.pc))

/-- In a launch the spec allows, the address a step obtains of a map's first value lies in a shared region, or is the base
of an empty one (R70), and the address it obtains of a variable is the base of a region (R71). What the address has to do
with the region is log entry 22 (DEDUCED). -/
def Obligations.ObtainedAddressesHaveRegions : Prop :=
  ∀ (s t : State) (slots : List Slot) (i : Instr) (dst : Reg) (imm next : W32), s.params.valid = true →
    s.out = .running → s.fetch = some slots → decode s.params.hostEndian slots = .ok i → step s = .next t →
    t.out = .running →
    ((i = .ldMapValFd dst imm next ∨ i = .ldMapValIdx dst imm next) →
      ∃ (a : W64) (r : Region), t.reg dst = some (a + BitVec.ofNat 64 next.toNat) ∧ r ∈ s.params.regions ∧
        r.shared = true ∧ (r.base = a.toNat ∨ r.base ≤ a.toNat ∧ a.toNat < r.base + r.len)) ∧
    (i = .ldVarAddr dst imm → ∃ (a : W64) (r : Region), t.reg dst = some a ∧ r ∈ s.params.regions ∧ r.base = a.toNat)

/-- The six packet loads, and a slot with opcode 0x00 run by itself, raise IllegalInstruction(pc) and do nothing else,
whatever groups are supported (R479, R490 to R496). -/
def Obligations.PacketLoadsAreIllegal : Prop :=
  ∀ (src : Reg) (imm : W32) (s : State),
    ∀ i ∈ [Instr.ldAbsW imm, .ldAbsH imm, .ldAbsB imm, .ldIndW src imm, .ldIndH src imm, .ldIndB src imm, .imm64Hi imm],
      Faults i s (.illegalInstruction s.pc)
end

