-- ==== Sys2Proof/Laws/Encoding.lean ====
section
/-! SUPPORT. The laws of slots and fields: a slot and its fields determine each other on either kind of host. -/

namespace Sys2Proof

/-- Two bytes cut from 16 bits put together again. -/
theorem join16 (v : BitVec 16) : v.extractLsb' 8 8 ++ v.extractLsb' 0 8 = v := by
  rw [BitVec.extractLsb'_append_extractLsb'_eq_extractLsb' (by rfl)]
  exact BitVec.extractLsb'_eq_self

/-- Four bytes cut from 32 bits put together again. -/
theorem join32 (v : W32) :
    v.extractLsb' 24 8 ++ v.extractLsb' 16 8 ++ v.extractLsb' 8 8 ++ v.extractLsb' 0 8 = v := by
  rw [BitVec.extractLsb'_append_extractLsb'_eq_extractLsb' (by rfl),
    BitVec.extractLsb'_append_extractLsb'_eq_extractLsb' (by rfl),
    BitVec.extractLsb'_append_extractLsb'_eq_extractLsb' (by rfl)]
  exact BitVec.extractLsb'_eq_self

/-- The bytes cut from four bytes put together. -/
theorem cut32 (a b c d : Byte) :
    (a ++ b ++ c ++ d : W32).extractLsb' 0 8 = d ∧ (a ++ b ++ c ++ d : W32).extractLsb' 8 8 = c ∧
    (a ++ b ++ c ++ d : W32).extractLsb' 16 8 = b ∧ (a ++ b ++ c ++ d : W32).extractLsb' 24 8 = a := by
  refine ⟨BitVec.extractLsb'_append_eq_right, ?_, ?_, ?_⟩
  · exact (BitVec.extractLsb'_append_eq_of_le (by decide)).trans BitVec.extractLsb'_append_eq_right
  · exact (BitVec.extractLsb'_append_eq_of_le (by decide)).trans
      ((BitVec.extractLsb'_append_eq_of_le (by decide)).trans BitVec.extractLsb'_append_eq_right)
  · exact (BitVec.extractLsb'_append_eq_of_le (by decide)).trans
      ((BitVec.extractLsb'_append_eq_of_le (by decide)).trans BitVec.extractLsb'_append_eq_left)

/-- Fields written to a slot are read back. -/
@[simp] theorem Fields.ofSlot_toSlot (e : Endian) (f : Fields) : Fields.ofSlot e (f.toSlot e) = f := by
  obtain ⟨op, d, s, off, imm⟩ := f
  cases e <;> simp only [Fields.ofSlot, Fields.toSlot, Fields.mk.injEq] <;>
    refine ⟨trivial, ?_, ?_, join16 off, join32 imm⟩
  · exact BitVec.extractLsb'_append_eq_right
  · exact BitVec.extractLsb'_append_eq_left
  · exact BitVec.extractLsb'_append_eq_left
  · exact BitVec.extractLsb'_append_eq_right

/-- A slot's fields written to a slot give the slot. -/
@[simp] theorem Fields.toSlot_ofSlot (e : Endian) (a : Slot) : (Fields.ofSlot e a).toSlot e = a := by
  obtain ⟨b0, b1, b2, b3, b4, b5, b6, b7⟩ := a
  have h1 : b1.extractLsb' 4 4 ++ b1.extractLsb' 0 4 = b1 := by
    rw [BitVec.extractLsb'_append_extractLsb'_eq_extractLsb' (by rfl)]
    exact BitVec.extractLsb'_eq_self
  cases e <;> simp only [Fields.ofSlot, Fields.toSlot, Slot.mk.injEq]
  · obtain ⟨c0, c1, c2, c3⟩ := cut32 b7 b6 b5 b4
    exact ⟨trivial, h1, BitVec.extractLsb'_append_eq_right, BitVec.extractLsb'_append_eq_left, c0, c1, c2, c3⟩
  · obtain ⟨c0, c1, c2, c3⟩ := cut32 b4 b5 b6 b7
    exact ⟨trivial, h1, BitVec.extractLsb'_append_eq_left, BitVec.extractLsb'_append_eq_right, c3, c2, c1, c0⟩

/-- The fields of the canonical word of some fields are those fields (R107). -/
@[simp] theorem Fields.ofWord_toWord (f : Fields) : Fields.ofWord f.toWord = f := by
  obtain ⟨op, d, s, off, imm⟩ := f
  simp only [Fields.ofWord, Fields.toWord, Fields.mk.injEq]
  refine ⟨BitVec.extractLsb'_append_eq_right, ?_, ?_, ?_, ?_⟩
  · exact (BitVec.extractLsb'_append_eq_of_le (by decide)).trans BitVec.extractLsb'_append_eq_right
  · exact (BitVec.extractLsb'_append_eq_of_le (by decide)).trans
      ((BitVec.extractLsb'_append_eq_of_le (by decide)).trans BitVec.extractLsb'_append_eq_right)
  · exact (BitVec.extractLsb'_append_eq_of_le (by decide)).trans
      ((BitVec.extractLsb'_append_eq_of_le (by decide)).trans
        ((BitVec.extractLsb'_append_eq_of_le (by decide)).trans BitVec.extractLsb'_append_eq_right))
  · exact (BitVec.extractLsb'_append_eq_of_le (by decide)).trans
      ((BitVec.extractLsb'_append_eq_of_le (by decide)).trans
        ((BitVec.extractLsb'_append_eq_of_le (by decide)).trans BitVec.extractLsb'_append_eq_left))

/-- A register number read back from its field. -/
@[simp] theorem regOf_regField (r : Reg) : regOf (regField r) = some r := by
  revert r; decide

/-- The field of the register a field names is that field. -/
theorem regField_of_regOf {n : BitVec 4} {r : Reg} (h : regOf n = some r) : regField r = n := by
  revert n r; decide

@[simp] theorem withRegField_regField (r : Reg) (k : Reg → Except Reject Instr) :
    withRegField (regField r) k = k r := by
  simp [withRegField]

/-- All a register field can do. -/
theorem withRegField_ok {n : BitVec 4} {k : Reg → Except Reject Instr} {i : Instr} (h : withRegField n k = .ok i) :
    ∃ r, regField r = n ∧ k r = .ok i := by
  unfold withRegField at h
  split at h
  · rename_i r hr
    exact ⟨r, regField_of_regOf hr, h⟩
  · cases h

end Sys2Proof
end

