-- ==== Sys2Proof/Laws/State.lean ====
section
/-! SUPPORT. One lemma for each field and each update of the state, so that no proof unfolds an update, and what a
register and a byte read after each. -/

namespace Sys2Proof.Machine

variable (s : State)

@[simp] theorem State.setReg_regs (r : Reg) (v : W64) : (s.setReg r v).regs = s.regs.set r.val (some v) := rfl
@[simp] theorem State.setReg_pc (r : Reg) (v : W64) : (s.setReg r v).pc = s.pc := rfl
@[simp] theorem State.setReg_cs (r : Reg) (v : W64) : (s.setReg r v).cs = s.cs := rfl
@[simp] theorem State.setReg_mem (r : Reg) (v : W64) : (s.setReg r v).mem = s.mem := rfl
@[simp] theorem State.setReg_out (r : Reg) (v : W64) : (s.setReg r v).out = s.out := rfl
@[simp] theorem State.setReg_params (r : Reg) (v : W64) : (s.setReg r v).params = s.params := rfl
@[simp] theorem State.setReg_agentWrites (r : Reg) (v : W64) : (s.setReg r v).agentWrites = s.agentWrites := rfl
@[simp] theorem State.setReg_agentTime (r : Reg) (v : W64) : (s.setReg r v).agentTime = s.agentTime := rfl
@[simp] theorem State.setReg_choices (r : Reg) (v : W64) : (s.setReg r v).choices = s.choices := rfl
@[simp] theorem State.setReg_draws (r : Reg) (v : W64) : (s.setReg r v).draws = s.draws := rfl

@[simp] theorem State.setPc_regs (t : Int) : (s.setPc t).regs = s.regs := rfl
@[simp] theorem State.setPc_pc (t : Int) : (s.setPc t).pc = t := rfl
@[simp] theorem State.setPc_cs (t : Int) : (s.setPc t).cs = s.cs := rfl
@[simp] theorem State.setPc_mem (t : Int) : (s.setPc t).mem = s.mem := rfl
@[simp] theorem State.setPc_out (t : Int) : (s.setPc t).out = s.out := rfl
@[simp] theorem State.setPc_params (t : Int) : (s.setPc t).params = s.params := rfl
@[simp] theorem State.setPc_agentWrites (t : Int) : (s.setPc t).agentWrites = s.agentWrites := rfl
@[simp] theorem State.setPc_agentTime (t : Int) : (s.setPc t).agentTime = s.agentTime := rfl
@[simp] theorem State.setPc_choices (t : Int) : (s.setPc t).choices = s.choices := rfl
@[simp] theorem State.setPc_draws (t : Int) : (s.setPc t).draws = s.draws := rfl

@[simp] theorem State.store_regs (a n : Nat) (v : W64) : (s.store a n v).regs = s.regs := rfl
@[simp] theorem State.store_pc (a n : Nat) (v : W64) : (s.store a n v).pc = s.pc := rfl
@[simp] theorem State.store_cs (a n : Nat) (v : W64) : (s.store a n v).cs = s.cs := rfl
@[simp] theorem State.store_mem (a n : Nat) (v : W64) : (s.store a n v).mem = s.mem.writeBytes a (dataBytes s.params.hostEndian n v) := rfl
@[simp] theorem State.store_out (a n : Nat) (v : W64) : (s.store a n v).out = s.out := rfl
@[simp] theorem State.store_params (a n : Nat) (v : W64) : (s.store a n v).params = s.params := rfl
@[simp] theorem State.store_agentWrites (a n : Nat) (v : W64) : (s.store a n v).agentWrites = s.agentWrites := rfl
@[simp] theorem State.store_agentTime (a n : Nat) (v : W64) : (s.store a n v).agentTime = s.agentTime := rfl
@[simp] theorem State.store_choices (a n : Nat) (v : W64) : (s.store a n v).choices = s.choices := rfl
@[simp] theorem State.store_draws (a n : Nat) (v : W64) : (s.store a n v).draws = s.draws := rfl

@[simp] theorem State.enterCallee_regs (target : Int) : (s.enterCallee target).regs = (s.params.framePolicy.onCall s.regs).1 := rfl
@[simp] theorem State.enterCallee_pc (target : Int) : (s.enterCallee target).pc = target := rfl
@[simp] theorem State.enterCallee_cs (target : Int) : (s.enterCallee target).cs = { ret := s.npc, saved := (s.params.framePolicy.onCall s.regs).2 } :: s.cs := rfl
@[simp] theorem State.enterCallee_mem (target : Int) : (s.enterCallee target).mem = s.mem := rfl
@[simp] theorem State.enterCallee_out (target : Int) : (s.enterCallee target).out = s.out := rfl
@[simp] theorem State.enterCallee_params (target : Int) : (s.enterCallee target).params = s.params := rfl
@[simp] theorem State.enterCallee_agentWrites (target : Int) : (s.enterCallee target).agentWrites = s.agentWrites := rfl
@[simp] theorem State.enterCallee_agentTime (target : Int) : (s.enterCallee target).agentTime = s.agentTime := rfl
@[simp] theorem State.enterCallee_choices (target : Int) : (s.enterCallee target).choices = s.choices := rfl
@[simp] theorem State.enterCallee_draws (target : Int) : (s.enterCallee target).draws = s.draws := rfl

@[simp] theorem State.leaveCallee_regs (fr : Frame) (rest : List Frame) : (s.leaveCallee fr rest).regs = s.params.framePolicy.onReturn s.regs fr.saved := rfl
@[simp] theorem State.leaveCallee_pc (fr : Frame) (rest : List Frame) : (s.leaveCallee fr rest).pc = fr.ret := rfl
@[simp] theorem State.leaveCallee_cs (fr : Frame) (rest : List Frame) : (s.leaveCallee fr rest).cs = rest := rfl
@[simp] theorem State.leaveCallee_mem (fr : Frame) (rest : List Frame) : (s.leaveCallee fr rest).mem = s.mem := rfl
@[simp] theorem State.leaveCallee_out (fr : Frame) (rest : List Frame) : (s.leaveCallee fr rest).out = s.out := rfl
@[simp] theorem State.leaveCallee_params (fr : Frame) (rest : List Frame) : (s.leaveCallee fr rest).params = s.params := rfl
@[simp] theorem State.leaveCallee_agentWrites (fr : Frame) (rest : List Frame) : (s.leaveCallee fr rest).agentWrites = s.agentWrites := rfl
@[simp] theorem State.leaveCallee_agentTime (fr : Frame) (rest : List Frame) : (s.leaveCallee fr rest).agentTime = s.agentTime := rfl
@[simp] theorem State.leaveCallee_choices (fr : Frame) (rest : List Frame) : (s.leaveCallee fr rest).choices = s.choices := rfl
@[simp] theorem State.leaveCallee_draws (fr : Frame) (rest : List Frame) : (s.leaveCallee fr rest).draws = s.draws := rfl

@[simp] theorem State.weakestHelper_regs : (s.weakestHelper).regs = clearRegs [0, 1, 2, 3, 4, 5, 6, 7, 8, 9, 10] s.regs := rfl
@[simp] theorem State.weakestHelper_pc : (s.weakestHelper).pc = s.pc := rfl
@[simp] theorem State.weakestHelper_cs : (s.weakestHelper).cs = s.cs := rfl
@[simp] theorem State.weakestHelper_mem : (s.weakestHelper).mem = s.mem.filter fun c => !s.params.writableByte c.1 := rfl
@[simp] theorem State.weakestHelper_out : (s.weakestHelper).out = s.out := rfl
@[simp] theorem State.weakestHelper_params : (s.weakestHelper).params = s.params := rfl
@[simp] theorem State.weakestHelper_agentWrites : (s.weakestHelper).agentWrites = s.agentWrites := rfl
@[simp] theorem State.weakestHelper_agentTime : (s.weakestHelper).agentTime = s.agentTime := rfl
@[simp] theorem State.weakestHelper_choices : (s.weakestHelper).choices = s.choices := rfl
@[simp] theorem State.weakestHelper_draws : (s.weakestHelper).draws = s.draws + 1 := rfl

@[simp] theorem State.applyHelper_regs (h : HelperEffect) : (s.applyHelper h).regs = h.regs := rfl
@[simp] theorem State.applyHelper_pc (h : HelperEffect) : (s.applyHelper h).pc = s.pc := rfl
@[simp] theorem State.applyHelper_cs (h : HelperEffect) : (s.applyHelper h).cs = s.cs := rfl
@[simp] theorem State.applyHelper_mem (h : HelperEffect) : (s.applyHelper h).mem = s.mem.writeCells (h.writes.filter fun c => s.params.writableByte c.1) := rfl
@[simp] theorem State.applyHelper_out (h : HelperEffect) : (s.applyHelper h).out = s.out := rfl
@[simp] theorem State.applyHelper_params (h : HelperEffect) : (s.applyHelper h).params = s.params := rfl
@[simp] theorem State.applyHelper_agentWrites (h : HelperEffect) : (s.applyHelper h).agentWrites = s.agentWrites := rfl
@[simp] theorem State.applyHelper_agentTime (h : HelperEffect) : (s.applyHelper h).agentTime = s.agentTime := rfl
@[simp] theorem State.applyHelper_choices (h : HelperEffect) : (s.applyHelper h).choices = s.choices + 1 := rfl
@[simp] theorem State.applyHelper_draws (h : HelperEffect) : (s.applyHelper h).draws = s.draws := rfl

@[simp] theorem State.npc_setReg (r : Reg) (v : W64) : (s.setReg r v).npc = s.npc := rfl
@[simp] theorem State.wideNpc_setReg (r : Reg) (v : W64) : (s.setReg r v).wideNpc = s.wideNpc := rfl
@[simp] theorem State.npc_store (a n : Nat) (v : W64) : (s.store a n v).npc = s.npc := rfl
@[simp] theorem State.npc_weakestHelper : s.weakestHelper.npc = s.npc := rfl
@[simp] theorem State.npc_applyHelper (h : HelperEffect) :
    (s.applyHelper h).npc = s.npc := rfl

/-! ## Registers -/

@[simp] theorem State.reg_setReg_self (r : Reg) (v : W64) : (s.setReg r v).reg r = some v := by
  simp [State.reg, State.setReg]

theorem State.reg_setReg_ne {r q : Reg} (h : q ≠ r) (v : W64) : (s.setReg r v).reg q = s.reg q := by
  have hv : r.val ≠ q.val := fun e => h (Fin.ext e.symm)
  simp [State.reg, State.setReg, hv]

@[simp] theorem State.reg_setPc (t : Int) (q : Reg) : (s.setPc t).reg q = s.reg q := rfl
@[simp] theorem State.reg_store (a n : Nat) (v : W64) (q : Reg) : (s.store a n v).reg q = s.reg q := rfl
@[simp] theorem State.reg_applyHelper (h : HelperEffect) (q : Reg) :
    (s.applyHelper h).reg q = h.regs[q.val] := rfl

theorem clearRegs_all (x : Regs) (q : Reg) : (clearRegs [0, 1, 2, 3, 4, 5, 6, 7, 8, 9, 10] x)[q.val] = none := by
  fin_cases q <;> simp [clearRegs]

@[simp] theorem State.reg_weakestHelper (q : Reg) : s.weakestHelper.reg q = none := clearRegs_all s.regs q

/-- Two states with the same registers read the same. -/
theorem State.reg_congr {t : State} (h : t.regs = s.regs) (q : Reg) : t.reg q = s.reg q := by
  simp [State.reg, h]

/-! ## Bytes -/

/-- A byte depends on the written bytes, the parameters and the draw number alone. -/
theorem State.byteAt_congr {t : State} (hm : t.mem = s.mem) (hp : t.params = s.params) (hd : t.draws = s.draws)
    (a : Nat) : t.byteAt a = s.byteAt a := by
  simp [State.byteAt, State.freeByte, hm, hp, hd]

@[simp] theorem State.byteAt_setReg (r : Reg) (v : W64) (a : Nat) : (s.setReg r v).byteAt a = s.byteAt a := rfl
@[simp] theorem State.byteAt_setPc (t : Int) (a : Nat) : (s.setPc t).byteAt a = s.byteAt a := rfl

/-! ## The environment's changes -/

/-- All the environment can do before a step: some cells of shared regions are written, and the record or the moment
number goes on; nothing else. -/
theorem State.agentStep_cases :
    s.agentStep = s ∨ ∃ ws rest time, s.agentStep = { s with mem := s.agentChange ws, agentWrites := rest, agentTime := time } := by
  unfold State.agentStep
  split
  · exact .inr ⟨_, _, s.agentTime, rfl⟩
  · split
    · rename_i h _
      exact .inr ⟨_, s.agentWrites, _, rfl⟩
    · exact .inl rfl

@[simp] theorem State.agentStep_regs : s.agentStep.regs = s.regs := by
  rcases s.agentStep_cases with h | ⟨_, _, _, h⟩ <;> rw [h]
@[simp] theorem State.agentStep_pc : s.agentStep.pc = s.pc := by
  rcases s.agentStep_cases with h | ⟨_, _, _, h⟩ <;> rw [h]
@[simp] theorem State.agentStep_cs : s.agentStep.cs = s.cs := by
  rcases s.agentStep_cases with h | ⟨_, _, _, h⟩ <;> rw [h]
@[simp] theorem State.agentStep_out : s.agentStep.out = s.out := by
  rcases s.agentStep_cases with h | ⟨_, _, _, h⟩ <;> rw [h]
@[simp] theorem State.agentStep_params : s.agentStep.params = s.params := by
  rcases s.agentStep_cases with h | ⟨_, _, _, h⟩ <;> rw [h]
@[simp] theorem State.agentStep_choices : s.agentStep.choices = s.choices := by
  rcases s.agentStep_cases with h | ⟨_, _, _, h⟩ <;> rw [h]
@[simp] theorem State.agentStep_draws : s.agentStep.draws = s.draws := by
  rcases s.agentStep_cases with h | ⟨_, _, _, h⟩ <;> rw [h]

/-- A recorded change is made, and only what is recorded. -/
theorem State.agentStep_cons {ws : List Host.Cell} {rest : List (List Host.Cell)} (h : s.agentWrites = ws :: rest) :
    s.agentStep = { s with mem := s.agentChange ws, agentWrites := rest } := by
  unfold State.agentStep; rw [h]

/-- With nothing recorded and a shared region, the change is free. -/
theorem State.agentStep_nil (h : s.agentWrites = []) (hs : s.params.anyShared = true) :
    s.agentStep = { s with mem := s.agentChange (Config.agentWrites s.agentTime), agentTime := s.agentTime + 1 } := by
  unfold State.agentStep; rw [h, if_pos hs]

/-- With nothing recorded and no shared region, there is no change. -/
theorem State.agentStep_private (h : s.agentWrites = []) (hs : s.params.anyShared = false) : s.agentStep = s := by
  unfold State.agentStep; rw [h, if_neg (by simp [hs])]

@[simp] theorem State.reg_agentStep (q : Reg) : s.agentStep.reg q = s.reg q := by simp [State.reg]

end Sys2Proof.Machine
end

