-- ==== Sys2Proof/Laws/Memory.lean ====
section
/-! SUPPORT. The laws of memory: a read after a write, the bytes a write leaves alone, the canonical form that every
memory operation keeps, and bytes against values. -/

namespace Sys2Proof.Machine

/-! ## One byte -/

@[simp] theorem Memory.read_write_self (m : Memory) (a : Nat) (b : Byte) : (m.write a b).read a = some b := by
  induction m with
  | nil => simp [Memory.write, Memory.read]
  | cons c rest ih =>
    obtain ⟨k, c⟩ := c
    unfold Memory.write
    split
    · simp [Memory.read]
    · split
      · simp [Memory.read]
      · rename_i h1 h2
        simp [Memory.read, Ne.symm h2, ih]

theorem Memory.read_write_ne (m : Memory) {a x : Nat} (h : x ≠ a) (b : Byte) : (m.write a b).read x = m.read x := by
  induction m with
  | nil => simp [Memory.write, Memory.read, Ne.symm h]
  | cons c rest ih =>
    obtain ⟨k, c⟩ := c
    unfold Memory.write
    split
    · simp [Memory.read, Ne.symm h]
    · split
      · rename_i h1 h2
        subst h2
        simp [Memory.read, Ne.symm h]
      · simp [Memory.read, ih]

/-- The addresses a write lists are those listed before and the one written. -/
theorem Memory.mem_write {m : Memory} {a : Nat} {b : Byte} {c : Host.Cell} (h : c ∈ m.write a b) :
    c = (a, b) ∨ c ∈ m := by
  induction m with
  | nil => simpa [Memory.write] using h
  | cons d rest ih =>
    obtain ⟨k, d⟩ := d
    unfold Memory.write at h
    split at h
    · simpa using h
    · split at h
      · rcases List.mem_cons.1 h with h | h
        · exact .inl h
        · exact .inr (List.mem_cons_of_mem _ h)
      · rcases List.mem_cons.1 h with h | h
        · exact .inr (h ▸ List.mem_cons_self)
        · exact (ih h).imp id (List.mem_cons_of_mem _)

theorem Memory.risingAbove_write {m : Memory} {lo a : Nat} (h : Memory.risingAbove lo m = true) (ha : lo < a) (b : Byte) :
    Memory.risingAbove lo (m.write a b) = true := by
  induction m generalizing lo with
  | nil => simp [Memory.write, Memory.risingAbove, ha]
  | cons c rest ih =>
    obtain ⟨k, c⟩ := c
    simp only [Memory.risingAbove, Bool.and_eq_true, decide_eq_true_eq] at h
    unfold Memory.write
    split
    · rename_i h1
      simp [Memory.risingAbove, ha, h1, h.2]
    · split
      · rename_i h1 h2
        subst h2
        simp [Memory.risingAbove, ha, h.2]
      · rename_i h1 h2
        simp [Memory.risingAbove, h.1, ih h.2 (by omega)]

/-- A write keeps the canonical form. -/
theorem Memory.wf_write {m : Memory} (h : m.wf = true) (a : Nat) (b : Byte) : (m.write a b).wf = true := by
  cases m with
  | nil => rfl
  | cons c rest =>
    obtain ⟨k, c⟩ := c
    simp only [Memory.wf] at h
    unfold Memory.write
    split
    · rename_i h1
      simp [Memory.wf, Memory.risingAbove, h1, h]
    · split
      · rename_i h1 h2
        subst h2
        exact h
      · exact Memory.risingAbove_write h (by omega) b

/-! ## Many bytes -/

theorem Memory.read_writeBytes_outside (m : Memory) (a : Nat) (bs : List Byte) {x : Nat}
    (h : x < a ∨ a + bs.length ≤ x) : (m.writeBytes a bs).read x = m.read x := by
  induction bs generalizing m a with
  | nil => rfl
  | cons b rest ih =>
    simp only [List.length_cons] at h
    rw [Memory.writeBytes, ih (m.write a b) (a + 1) (by omega), Memory.read_write_ne m (by omega)]

theorem Memory.read_writeBytes_inside (m : Memory) (a : Nat) (bs : List Byte) {k : Nat} (h : k < bs.length) :
    (m.writeBytes a bs).read (a + k) = some bs[k] := by
  induction bs generalizing m a k with
  | nil => simp at h
  | cons b rest ih =>
    rw [Memory.writeBytes]
    cases k with
    | zero =>
      rw [Memory.read_writeBytes_outside _ _ _ (by omega)]
      simp
    | succ k =>
      have := ih (m.write a b) (a + 1) (k := k) (by simpa using h)
      rw [show a + (k + 1) = a + 1 + k by omega, this]
      simp

theorem Memory.wf_writeBytes {m : Memory} (h : m.wf = true) (a : Nat) (bs : List Byte) : (m.writeBytes a bs).wf = true := by
  induction bs generalizing m a with
  | nil => exact h
  | cons b rest ih => exact ih (Memory.wf_write h a b) (a + 1)

theorem Memory.mem_writeBytes {m : Memory} {a : Nat} {bs : List Byte} {c : Host.Cell} (h : c ∈ m.writeBytes a bs) :
    (a ≤ c.1 ∧ c.1 < a + bs.length) ∨ c ∈ m := by
  induction bs generalizing m a with
  | nil => exact .inr h
  | cons b rest ih =>
    rcases ih h with h | h
    · left
      simp only [List.length_cons]
      omega
    · rcases Memory.mem_write h with h | h
      · left
        subst h
        simp
      · exact .inr h

theorem Memory.wf_writeCells {m : Memory} (h : m.wf = true) (cells : List Host.Cell) : (m.writeCells cells).wf = true := by
  induction cells generalizing m with
  | nil => exact h
  | cons c rest ih => exact ih (Memory.wf_write h c.1 c.2)

theorem Memory.mem_writeCells {m : Memory} {cells : List Host.Cell} {c : Host.Cell} (h : c ∈ m.writeCells cells) :
    c ∈ cells ∨ c ∈ m := by
  induction cells generalizing m with
  | nil => exact .inr h
  | cons d rest ih =>
    rcases ih h with h | h
    · exact .inl (List.mem_cons_of_mem _ h)
    · rcases Memory.mem_write h with h | h
      · exact .inl (h ▸ List.mem_cons_self)
      · exact .inr h

/-- Cells written elsewhere leave an address alone. -/
theorem Memory.read_writeCells_outside (m : Memory) (cells : List Host.Cell) {x : Nat} (h : ∀ c ∈ cells, c.1 ≠ x) :
    (m.writeCells cells).read x = m.read x := by
  induction cells generalizing m with
  | nil => rfl
  | cons d rest ih =>
    rw [Memory.writeCells, ih _ fun c hc => h c (List.mem_cons_of_mem _ hc),
      Memory.read_write_ne m (Ne.symm (h d List.mem_cons_self))]

/-- After the cells of a list are written in its order, a byte is the last one written there, or the one before. -/
theorem Memory.read_writeCells (m : Memory) (cells : List Host.Cell) (x : Nat) :
    (m.writeCells cells).read x = (((cells.filter fun c => c.1 == x).getLast?).map fun c => c.2).or (m.read x) := by
  induction cells generalizing m with
  | nil => rfl
  | cons c rest ih =>
    obtain ⟨a, b⟩ := c
    rw [Memory.writeCells, ih, List.filter_cons]
    by_cases h : a = x
    · subst h
      simp only [beq_self_eq_true, if_true, List.getLast?_cons, Memory.read_write_self]
      cases (List.filter (fun c => c.1 == a) rest).getLast? <;> rfl
    · have : (a == x) = false := by simpa using h
      simp only [this, Bool.false_eq_true, if_false]
      rw [Memory.read_write_ne m (Ne.symm h)]

theorem Memory.risingAbove_mono {m : Memory} {lo k : Nat} (h : Memory.risingAbove k m = true) (hk : lo ≤ k) :
    Memory.risingAbove lo m = true := by
  cases m with
  | nil => rfl
  | cons c rest =>
    simp only [Memory.risingAbove, Bool.and_eq_true, decide_eq_true_eq] at h ⊢
    exact ⟨by omega, h.2⟩

theorem Memory.risingAbove_filter {m : Memory} {lo : Nat} (h : Memory.risingAbove lo m = true) (p : Host.Cell → Bool) :
    Memory.risingAbove lo (m.filter p) = true := by
  induction m generalizing lo with
  | nil => rfl
  | cons c rest ih =>
    simp only [Memory.risingAbove, Bool.and_eq_true, decide_eq_true_eq] at h
    rw [List.filter_cons]
    split
    · simp only [Memory.risingAbove, Bool.and_eq_true, decide_eq_true_eq]
      exact ⟨h.1, ih h.2⟩
    · exact ih (Memory.risingAbove_mono h.2 (by omega))

/-- Dropping cells keeps the canonical form. -/
theorem Memory.wf_filter {m : Memory} (h : m.wf = true) (p : Host.Cell → Bool) : Memory.wf (m.filter p) = true := by
  cases m with
  | nil => rfl
  | cons c rest =>
    simp only [Memory.wf] at h
    have hr := Memory.risingAbove_filter h p
    rw [List.filter_cons]
    split
    · exact hr
    · cases hf : rest.filter p with
      | nil => rfl
      | cons d tail =>
        rw [hf] at hr
        simp only [Memory.risingAbove, Bool.and_eq_true] at hr
        exact hr.2

theorem Memory.read_filter (m : Memory) (p : Host.Cell → Bool) {x : Nat} (h : ∀ b, p (x, b) = true) :
    Memory.read (m.filter p) x = m.read x := by
  induction m with
  | nil => rfl
  | cons c rest ih =>
    obtain ⟨k, c⟩ := c
    rw [List.filter_cons]
    by_cases hk : k = x
    · subst hk
      simp [h c, Memory.read]
    · split
      · simp [Memory.read, hk, ih]
      · simp [Memory.read, hk, ih]

/-! ## Bytes and values -/

@[simp] theorem lowBytes_length (n : Nat) (v : W64) : (lowBytes n v).length = n := by
  induction n generalizing v with
  | zero => rfl
  | succ k ih => simp [lowBytes, ih]

@[simp] theorem dataBytes_length (e : Endian) (n : Nat) (v : W64) : (dataBytes e n v).length = n := by
  cases e <;> simp [dataBytes]

@[simp] theorem State.bytesAt_length (s : State) (a n : Nat) : (s.bytesAt a n).length = n := by
  induction n generalizing a with
  | zero => rfl
  | succ k ih => simp [State.bytesAt, ih]

/-- The bytes of a value, as numbers. -/
theorem lowBytes_getElem (n : Nat) (v : W64) {k : Nat} (h : k < (lowBytes n v).length) :
    ((lowBytes n v)[k]).toNat = v.toNat / 256 ^ k % 256 := by
  induction n generalizing v k with
  | zero => simp [lowBytes] at h
  | succ m ih =>
    cases k with
    | zero => simp [lowBytes]
    | succ k =>
      have := ih (v >>> 8) (k := k) (by simpa [lowBytes] using h)
      simp only [lowBytes, List.getElem_cons_succ]
      rw [this, BitVec.toNat_ushiftRight, Nat.shiftRight_eq_div_pow, Nat.div_div_eq_div_mul,
        show (2 : Nat) ^ 8 = 256 from rfl, pow_succ' 256 k]

/-- The number at most eight bytes stand for, the least significant first. -/
theorem ofLowBytes_toNat (bs : List Byte) (h : bs.length ≤ 8) :
    (ofLowBytes bs).toNat = bs.foldr (fun b n => b.toNat + 256 * n) 0 ∧ (ofLowBytes bs).toNat < 256 ^ bs.length := by
  induction bs with
  | nil => simp [ofLowBytes]
  | cons b rest ih =>
    simp only [List.length_cons] at h
    obtain ⟨ih, hlt⟩ := ih (by omega)
    have hb : b.toNat < 256 := b.isLt
    have hpow : 256 ^ rest.length ≤ 256 ^ 7 := Nat.pow_le_pow_right (by omega) (by omega)
    have hsmall : (ofLowBytes rest).toNat * 256 < 2 ^ 64 := by omega
    have key : (ofLowBytes (b :: rest)).toNat = b.toNat + 256 * (ofLowBytes rest).toNat := by
      have h1 : (ofLowBytes rest <<< 8).toNat = (ofLowBytes rest).toNat * 2 ^ 8 := by
        rw [BitVec.toNat_shiftLeft, Nat.shiftLeft_eq, Nat.mod_eq_of_lt (by omega)]
      have h2 : (b.setWidth 64).toNat = b.toNat := by
        rw [BitVec.toNat_setWidth, Nat.mod_eq_of_lt (by omega)]
      simp only [ofLowBytes, BitVec.toNat_or, h1, h2]
      rw [Nat.mul_comm _ (2 ^ 8), ← Nat.two_pow_add_eq_or_of_lt (by omega : b.toNat < 2 ^ 8)]
      omega
    refine ⟨by rw [key, ih]; rfl, ?_⟩
    rw [key, List.length_cons, Nat.pow_succ]
    omega

/-- The low `n` bytes of a value put together again are the value modulo 2^(8n). -/
theorem ofLowBytes_lowBytes (n : Nat) (v : W64) (h : n ≤ 8) : (ofLowBytes (lowBytes n v)).toNat = v.toNat % 256 ^ n := by
  rw [(ofLowBytes_toNat _ (by simpa using h)).1]
  clear h
  induction n generalizing v with
  | zero => simp [lowBytes, Nat.mod_one]
  | succ k ih =>
    simp only [lowBytes, List.foldr_cons, ih]
    rw [BitVec.toNat_ushiftRight, Nat.shiftRight_eq_div_pow, show (2 : Nat) ^ 8 = 256 from rfl, pow_succ' 256 k,
      Nat.mod_mul]
    simp

end Sys2Proof.Machine
end

