-- ==== Sys2Proof/Laws/Ops.lean ====
section
/-! SUPPORT. For each shared operation one lemma that says all it can do: if it answers a next state, then one of these
cases holds. A proof about an instruction cites these and unfolds nothing below them. -/

namespace Sys2Proof.Machine

/-- The state `s` in which the fault `f` has been taken. -/
def State.faultedWith (s : State) (f : Fault) : State := { s with out := .faulted f }

@[simp] theorem raise_eq (f : Fault) (s : State) : raise f s = .next (s.faultedWith f) := rfl

@[simp] theorem State.faultedWith_regs (s : State) (f : Fault) : (s.faultedWith f).regs = s.regs := rfl
@[simp] theorem State.faultedWith_pc (s : State) (f : Fault) : (s.faultedWith f).pc = s.pc := rfl
@[simp] theorem State.faultedWith_cs (s : State) (f : Fault) : (s.faultedWith f).cs = s.cs := rfl
@[simp] theorem State.faultedWith_mem (s : State) (f : Fault) : (s.faultedWith f).mem = s.mem := rfl
@[simp] theorem State.faultedWith_out (s : State) (f : Fault) : (s.faultedWith f).out = .faulted f := rfl
@[simp] theorem State.faultedWith_params (s : State) (f : Fault) : (s.faultedWith f).params = s.params := rfl
@[simp] theorem State.faultedWith_agentWrites (s : State) (f : Fault) :
    (s.faultedWith f).agentWrites = s.agentWrites := rfl
@[simp] theorem State.faultedWith_agentTime (s : State) (f : Fault) : (s.faultedWith f).agentTime = s.agentTime := rfl
@[simp] theorem State.faultedWith_choices (s : State) (f : Fault) : (s.faultedWith f).choices = s.choices := rfl
@[simp] theorem State.faultedWith_draws (s : State) (f : Fault) : (s.faultedWith f).draws = s.draws := rfl
@[simp] theorem State.faultedWith_reg (s : State) (f : Fault) (q : Reg) : (s.faultedWith f).reg q = s.reg q := rfl
@[simp] theorem State.faultedWith_byteAt (s : State) (f : Fault) (a : Nat) :
    (s.faultedWith f).byteAt a = s.byteAt a := rfl

/-- A read of a register that holds a value goes on with it. -/
theorem withReg_some {r : Reg} {s : State} {v : W64} (h : s.reg r = some v) (k : W64 → Result) :
    withReg r s k = k v := by
  simp [withReg, h]

/-- A read of a register without a value faults. -/
theorem withReg_none {r : Reg} {s : State} (h : s.reg r = none) (k : W64 → Result) :
    withReg r s k = .next (s.faultedWith (.uninitRegister r)) := by
  simp [withReg, h]

/-- All a register read can do. -/
theorem withReg_cases {r : Reg} {s t : State} {k : W64 → Result} (h : withReg r s k = .next t) :
    (∃ v, s.reg r = some v ∧ k v = .next t) ∨ (s.reg r = none ∧ t = s.faultedWith (.uninitRegister r)) := by
  cases hr : s.reg r with
  | some v => exact .inl ⟨v, rfl, withReg_some hr k ▸ h⟩
  | none =>
    rw [withReg_none hr, Host.Outcome.next.injEq] at h
    exact .inr ⟨rfl, h.symm⟩

/-- All MemRead can do: a misaligned fault, a region fault, or the value. -/
theorem memRead_cases {addr : W64} {n : Nat} {s t : State} {k : W64 → Result} (h : memRead addr n s k = .next t) :
    (s.params.refusesUnaligned addr n = true ∧ t = s.faultedWith (.misaligned addr n)) ∨
    (s.params.refusesUnaligned addr n = false ∧ s.params.allows .read addr.toNat n = false ∧
      t = s.faultedWith (.memFault addr n .read)) ∨
    (s.params.refusesUnaligned addr n = false ∧ s.params.allows .read addr.toNat n = true ∧
      k (s.load addr.toNat n) = .next t) := by
  unfold memRead at h
  split at h
  · rename_i h1
    rw [raise_eq, Host.Outcome.next.injEq] at h
    exact .inl ⟨h1, h.symm⟩
  · rename_i h1
    split at h
    · rename_i h2
      exact .inr (.inr ⟨by simpa using h1, h2, h⟩)
    · rename_i h2
      rw [raise_eq, Host.Outcome.next.injEq] at h
      exact .inr (.inl ⟨by simpa using h1, by simpa using h2, h.symm⟩)

/-- All MemWrite can do: a misaligned fault, a region fault, or the store. -/
theorem memWrite_cases {addr : W64} {n : Nat} {v : W64} {s t : State} {k : State → Result}
    (h : memWrite addr n v s k = .next t) :
    (s.params.refusesUnaligned addr n = true ∧ t = s.faultedWith (.misaligned addr n)) ∨
    (s.params.refusesUnaligned addr n = false ∧ s.params.allows .write addr.toNat n = false ∧
      t = s.faultedWith (.memFault addr n .write)) ∨
    (s.params.refusesUnaligned addr n = false ∧ s.params.allows .write addr.toNat n = true ∧
      k (s.store addr.toNat n v) = .next t) := by
  unfold memWrite at h
  split at h
  · rename_i h1
    rw [raise_eq, Host.Outcome.next.injEq] at h
    exact .inl ⟨h1, h.symm⟩
  · rename_i h1
    split at h
    · rename_i h2
      exact .inr (.inr ⟨by simpa using h1, h2, h⟩)
    · rename_i h2
      rw [raise_eq, Host.Outcome.next.injEq] at h
      exact .inr (.inl ⟨by simpa using h1, by simpa using h2, h.symm⟩)

/-- All AtomicRMW can do: a misaligned fault, a region fault, or the read and the write as one. -/
theorem atomicRMW_cases {addr : W64} {n : Nat} {f : W64 → W64} {s t : State} {k : W64 → State → Result}
    (h : atomicRMW addr n f s k = .next t) :
    (unaligned addr n = true ∧ t = s.faultedWith (.misaligned addr n)) ∨
    (unaligned addr n = false ∧ s.params.allows .rmw addr.toNat n = false ∧
      t = s.faultedWith (.memFault addr n .rmw)) ∨
    (unaligned addr n = false ∧ s.params.allows .rmw addr.toNat n = true ∧
      k (s.load addr.toNat n) (s.store addr.toNat n (f (s.load addr.toNat n))) = .next t) := by
  unfold atomicRMW at h
  split at h
  · rename_i h1
    rw [raise_eq, Host.Outcome.next.injEq] at h
    exact .inl ⟨h1, h.symm⟩
  · rename_i h1
    split at h
    · rename_i h2
      exact .inr (.inr ⟨by simpa using h1, h2, h⟩)
    · rename_i h2
      rw [raise_eq, Host.Outcome.next.injEq] at h
      exact .inr (.inl ⟨by simpa using h1, by simpa using h2, h.symm⟩)

/-- All a program-local call can do. -/
theorem localCall_cases {d : Int} {s t : State} (h : localCall d s = .next t) :
    (s.callStackFull = true ∧ t = s.faultedWith (.callDepthExceeded s.pc)) ∨
    (s.callStackFull = false ∧ t = s.enterCallee (s.npc + d)) := by
  unfold localCall at h
  split at h
  · rename_i h1
    rw [raise_eq, Host.Outcome.next.injEq] at h
    exact .inl ⟨h1, h.symm⟩
  · rename_i h1
    rw [Host.Outcome.next.injEq] at h
    exact .inr ⟨by simpa using h1, h.symm⟩

/-- All EXIT can do. -/
theorem returnOrEnd_cases {s t : State} (h : returnOrEnd s = .next t) :
    (s.cs = [] ∧ ∃ v, s.reg 0 = some v ∧ t = { s with out := .exited v }) ∨
    (s.cs = [] ∧ s.reg 0 = none ∧ t = s.faultedWith (.uninitRegister 0)) ∨
    (∃ fr rest, s.cs = fr :: rest ∧ t = s.leaveCallee fr rest) := by
  unfold returnOrEnd at h
  split at h
  · rename_i h1
    rcases withReg_cases h with ⟨v, hv, ht⟩ | ⟨hn, ht⟩
    · rw [Host.Outcome.next.injEq] at ht
      exact .inl ⟨h1, v, hv, ht.symm⟩
    · exact .inr (.inl ⟨h1, hn, ht⟩)
  · rename_i fr rest h1
    rw [Host.Outcome.next.injEq] at h
    exact .inr (.inr ⟨fr, rest, h1, h.symm⟩)

/-- All a helper call can do: no such helper, the weakest contract, or what the relation answers. -/
theorem helperCall_cases {h? : Option Helper} {id : Int} {s t : State} (h : helperCall h? id s = .next t) :
    (h? = none ∧ t = s.faultedWith (.illegalInstruction s.pc)) ∨
    ∃ f, h? = some f ∧
      ((f.answer s = none ∧ t = s.weakestHelper.setPc s.npc) ∨
       ∃ a, f.answer s = some a ∧
        ((∃ r, firstNoValue s.regs a.reads = some r ∧ t = s.faultedWith (.uninitRegister r)) ∨
         (firstNoValue s.regs a.reads = none ∧ a.effect = none ∧ t = s.faultedWith (.helperFault id)) ∨
         (firstNoValue s.regs a.reads = none ∧ ∃ e, a.effect = some e ∧ t = (s.applyHelper e).setPc s.npc))) := by
  cases h? with
  | none => exact .inl ⟨rfl, by simpa [helperCall, eq_comm] using h⟩
  | some f =>
    refine .inr ⟨f, rfl, ?_⟩
    simp only [helperCall] at h
    cases hA : f.answer s with
    | none =>
      simp only [hA, advance, Host.Outcome.next.injEq] at h
      exact .inl ⟨rfl, h.symm⟩
    | some a =>
      simp only [hA] at h
      refine .inr ⟨a, rfl, ?_⟩
      cases hF : firstNoValue s.regs a.reads with
      | some r =>
        simp only [hF, raise_eq, Host.Outcome.next.injEq] at h
        exact .inl ⟨r, rfl, h.symm⟩
      | none =>
        simp only [hF] at h
        cases hE : a.effect with
        | none =>
          simp only [hE, raise_eq, Host.Outcome.next.injEq] at h
          exact .inr (.inl ⟨rfl, rfl, h.symm⟩)
        | some e =>
          simp only [hE, advance, Host.Outcome.next.injEq] at h
          exact .inr (.inr ⟨rfl, e, rfl, h.symm⟩)

/-- A helper relation answers, but for one of which nothing is known. -/
theorem Helper.answer_eq_none_iff {h : Helper} {s : State} : h.answer s = none ↔ h = .unknown := by
  cases h <;> simp [Helper.answer]

/-- The outcome taken is one of the possible ones. -/
theorem chooseOutcome_mem {choice : Nat} {os : List HelperOutcome} {o : HelperOutcome}
    (h : chooseOutcome choice os = some o) : o ∈ os := by
  unfold chooseOutcome at h
  split at h
  · cases h
  · cases h; exact .head _
  · exact List.mem_of_getElem? h

/-- There is an outcome exactly when some outcome is possible. -/
theorem chooseOutcome_eq_none_iff {choice : Nat} {os : List HelperOutcome} : chooseOutcome choice os = none ↔ os = [] := by
  unfold chooseOutcome
  split
  · simp
  · simp
  · rename_i rest
    have : Config.helperChoice choice % (rest.length + 2) < rest.length + 2 := Nat.mod_lt _ (by omega)
    simp only [List.getElem?_eq_none_iff, List.length_cons, reduceCtorEq, iff_false]
    omega

/-- All a 64-bit immediate load that consults the environment can do. -/
theorem finishLookup_cases {dst : Reg} {v : Option W64} {s t : State} (h : finishLookup dst v s = .next t) :
    (∃ a, v = some a ∧ t = (s.setReg dst a).setPc s.wideNpc) ∨
    (v = none ∧ t = s.faultedWith (.illegalInstruction s.pc)) := by
  cases v with
  | some a =>
    simp only [finishLookup, finishWide, Host.Outcome.next.injEq] at h
    exact .inl ⟨a, rfl, h.symm⟩
  | none =>
    simp only [finishLookup, raise_eq, Host.Outcome.next.injEq] at h
    exact .inr ⟨rfl, h.symm⟩

/-- The first register without a value is none exactly when every register holds one. -/
theorem firstNoValue_none_iff (x : Regs) (rs : List Reg) : firstNoValue x rs = none ↔ ∀ r ∈ rs, x[r.val] ≠ none := by
  induction rs with
  | nil => simp [firstNoValue]
  | cons r rest ih =>
    by_cases h : x[r.val] = none
    · simp [firstNoValue, h]
    · simp [firstNoValue, h, ih]

end Sys2Proof.Machine
end

