-- ==== Sys2Proof/Laws/Exec.lean ====
section
/-! SUPPORT. What executing an instruction can do, said once: one inductive whose constructors are the ways a next state
comes about, and the theorem that every next state of exec is one of them. A statement about all instructions is a case
analysis on it. -/

namespace Sys2Proof.Machine

/-- The ways an instruction gives a next state. -/
inductive Effect (i : Instr) (s : State) : State → Prop where
  /-- IllegalInstruction(pc), where the row has no execution or a lookup is undefined. -/
  | illegal (h : i.neverLegal = true ∨ i.lookupsDefined s.params s.pc = false) :
      Effect i s (s.faultedWith (.illegalInstruction s.pc))
  /-- A register without a value was read. -/
  | unset (r : Reg) : Effect i s (s.faultedWith (.uninitRegister r))
  /-- The access is misaligned. -/
  | misaligned (addr : W64) (n : Nat) (h : i.access ≠ none) : Effect i s (s.faultedWith (.misaligned addr n))
  /-- No region holds the access. -/
  | memFault (addr : W64) (n : Nat) (k : Access) (h : i.access ≠ none) : Effect i s (s.faultedWith (.memFault addr n k))
  /-- The call stack is full. -/
  | depth (imm : W32) (hi : i = .callLocal imm) (h : s.callStackFull = true) :
      Effect i s (s.faultedWith (.callDepthExceeded s.pc))
  /-- A helper has no outcome. -/
  | helperFault (id : Int) (hi : i.isHelperCall = true) : Effect i s (s.faultedWith (.helperFault id))
  /-- One register is written and the pc goes past the instruction. -/
  | writes (dst : Reg) (v : W64) (hw : dst ∈ i.writes) (hp : i.setsPc = false) :
      Effect i s ((s.setReg dst v).setPc (s.pc + i.length))
  /-- The pc is set, nothing else. -/
  | jumps (p : Int) (hp : i.setsPc = true) : Effect i s (s.setPc p)
  /-- A store into a writable region. -/
  | stores (b : Reg) (off : BitVec 16) (n a : Nat) (v : W64) (ha : i.access = some (b, off, n, .write))
      (hr : s.params.allows .write a n = true) (hl : i.length = 1) (hp : i.setsPc = false) :
      Effect i s ((s.store a n v).setPc (s.pc + 1))
  /-- An atomic operation that writes no register. -/
  | atomic (b : Reg) (off : BitVec 16) (n a : Nat) (v : W64) (ha : i.access = some (b, off, n, .rmw))
      (hr : s.params.allows .rmw a n = true) (hl : i.length = 1) (hp : i.setsPc = false) :
      Effect i s ((s.store a n v).setPc (s.pc + 1))
  /-- An atomic operation that writes a register. -/
  | atomicFetch (b : Reg) (off : BitVec 16) (n a : Nat) (v : W64) (dst : Reg) (w : W64)
      (ha : i.access = some (b, off, n, .rmw)) (hr : s.params.allows .rmw a n = true) (hw : dst ∈ i.writes)
      (hl : i.length = 1) (hp : i.setsPc = false) :
      Effect i s (((s.store a n v).setReg dst w).setPc (s.pc + 1))
  /-- A program-local call. -/
  | calls (imm : W32) (hi : i = .callLocal imm) (h : s.callStackFull = false) :
      Effect i s (s.enterCallee (s.npc + imm.toInt))
  /-- A return to the caller. -/
  | returns (fr : Frame) (rest : List Frame) (hi : i = .exit) (h : s.cs = fr :: rest) : Effect i s (s.leaveCallee fr rest)
  /-- The end of the run. -/
  | exits (v : W64) (hi : i = .exit) (h : s.cs = []) (hr : s.reg 0 = some v) : Effect i s { s with out := .exited v }
  /-- A helper of which nothing is known. -/
  | helperUnknown (hi : i.isHelperCall = true) (hl : i.length = 1) :
      Effect i s (s.weakestHelper.setPc (s.pc + 1))
  /-- A helper whose relation has an outcome. -/
  | helperEffect (hi : i.isHelperCall = true) (hl : i.length = 1) (e : HelperEffect) :
      Effect i s ((s.applyHelper e).setPc (s.pc + 1))

/-! ## The operand forms -/

variable {i : Instr} {s t : State}

theorem Effect.of_finish {dst : Reg} {v : W64} (h : finish dst v s = .next t) (hw : dst ∈ i.writes)
    (hl : i.length = 1) (hp : i.setsPc = false) : Effect i s t := by
  simp only [finish, Host.Outcome.next.injEq] at h
  subst h
  have := Effect.writes (s := s) dst v hw hp
  rw [hl] at this
  exact this

theorem Effect.of_withReg {r : Reg} {k : W64 → Result} (h : withReg r s k = .next t)
    (hk : ∀ v, s.reg r = some v → k v = .next t → Effect i s t) : Effect i s t := by
  rcases withReg_cases h with ⟨v, hr, hv⟩ | ⟨_, rfl⟩
  · exact hk v hr hv
  · exact .unset r

theorem Effect.of_alu32Imm {f : W32 → W32 → W32} {dst : Reg} {imm : W32} (h : alu32Imm f dst imm s = .next t)
    (hw : dst ∈ i.writes) (hl : i.length = 1) (hp : i.setsPc = false) : Effect i s t :=
  of_withReg h fun _ _ h => of_finish h hw hl hp

theorem Effect.of_alu32Reg {f : W32 → W32 → W32} {dst src : Reg} (h : alu32Reg f dst src s = .next t)
    (hw : dst ∈ i.writes) (hl : i.length = 1) (hp : i.setsPc = false) : Effect i s t :=
  of_withReg h fun _ _ h => of_withReg h fun _ _ h => of_finish h hw hl hp

theorem Effect.of_alu64Imm {f : W64 → W64 → W64} {dst : Reg} {imm : W32} (h : alu64Imm f dst imm s = .next t)
    (hw : dst ∈ i.writes) (hl : i.length = 1) (hp : i.setsPc = false) : Effect i s t :=
  of_withReg h fun _ _ h => of_finish h hw hl hp

theorem Effect.of_alu64Reg {f : W64 → W64 → W64} {dst src : Reg} (h : alu64Reg f dst src s = .next t)
    (hw : dst ∈ i.writes) (hl : i.length = 1) (hp : i.setsPc = false) : Effect i s t :=
  of_withReg h fun _ _ h => of_withReg h fun _ _ h => of_finish h hw hl hp

theorem Effect.of_alu32Dst {f : W32 → W32} {dst : Reg} (h : alu32Dst f dst s = .next t)
    (hw : dst ∈ i.writes) (hl : i.length = 1) (hp : i.setsPc = false) : Effect i s t :=
  of_withReg h fun _ _ h => of_finish h hw hl hp

theorem Effect.of_alu64Dst {f : W64 → W64} {dst : Reg} (h : alu64Dst f dst s = .next t)
    (hw : dst ∈ i.writes) (hl : i.length = 1) (hp : i.setsPc = false) : Effect i s t :=
  of_withReg h fun _ _ h => of_finish h hw hl hp

theorem Effect.of_move32Imm {f : W32 → W32} {dst : Reg} {imm : W32} (h : move32Imm f dst imm s = .next t)
    (hw : dst ∈ i.writes) (hl : i.length = 1) (hp : i.setsPc = false) : Effect i s t :=
  of_finish h hw hl hp

theorem Effect.of_move32Reg {f : W32 → W32} {dst src : Reg} (h : move32Reg f dst src s = .next t)
    (hw : dst ∈ i.writes) (hl : i.length = 1) (hp : i.setsPc = false) : Effect i s t :=
  of_withReg h fun _ _ h => of_finish h hw hl hp

theorem Effect.of_move64Imm {f : W64 → W64} {dst : Reg} {imm : W32} (h : move64Imm f dst imm s = .next t)
    (hw : dst ∈ i.writes) (hl : i.length = 1) (hp : i.setsPc = false) : Effect i s t :=
  of_finish h hw hl hp

theorem Effect.of_move64Reg {f : W64 → W64} {dst src : Reg} (h : move64Reg f dst src s = .next t)
    (hw : dst ∈ i.writes) (hl : i.length = 1) (hp : i.setsPc = false) : Effect i s t :=
  of_withReg h fun _ _ h => of_finish h hw hl hp

theorem Effect.of_jumpBy {d : Int} (h : jumpBy d s = .next t) (hp : i.setsPc = true) : Effect i s t := by
  simp only [jumpBy, Host.Outcome.next.injEq] at h
  subst h
  exact .jumps _ hp

theorem Effect.of_branch {c : Bool} {off : BitVec 16} (h : branch c off s = .next t) (hp : i.setsPc = true) :
    Effect i s t := by
  unfold branch at h
  split at h
  · exact of_jumpBy h hp
  · simp only [advance, Host.Outcome.next.injEq] at h
    subst h
    exact .jumps _ hp

theorem Effect.of_jump32Imm {c : W32 → W32 → Bool} {dst : Reg} {off : BitVec 16} {imm : W32}
    (h : jump32Imm c dst off imm s = .next t) (hp : i.setsPc = true) : Effect i s t :=
  of_withReg h fun _ _ h => of_branch h hp

theorem Effect.of_jump32Reg {c : W32 → W32 → Bool} {dst src : Reg} {off : BitVec 16}
    (h : jump32Reg c dst src off s = .next t) (hp : i.setsPc = true) : Effect i s t :=
  of_withReg h fun _ _ h => of_withReg h fun _ _ h => of_branch h hp

theorem Effect.of_jump64Imm {c : W64 → W64 → Bool} {dst : Reg} {off : BitVec 16} {imm : W32}
    (h : jump64Imm c dst off imm s = .next t) (hp : i.setsPc = true) : Effect i s t :=
  of_withReg h fun _ _ h => of_branch h hp

theorem Effect.of_jump64Reg {c : W64 → W64 → Bool} {dst src : Reg} {off : BitVec 16}
    (h : jump64Reg c dst src off s = .next t) (hp : i.setsPc = true) : Effect i s t :=
  of_withReg h fun _ _ h => of_withReg h fun _ _ h => of_branch h hp

theorem Effect.of_loadForm {n : Nat} {f : W64 → W64} {dst src : Reg} {off : BitVec 16}
    (h : loadForm n f dst src off s = .next t) (hw : dst ∈ i.writes) (ha : i.access ≠ none) (hl : i.length = 1)
    (hp : i.setsPc = false) : Effect i s t :=
  of_withReg h fun _ _ h => by
    rcases memRead_cases h with ⟨_, rfl⟩ | ⟨_, _, rfl⟩ | ⟨_, _, h⟩
    · exact .misaligned _ _ ha
    · exact .memFault _ _ _ ha
    · exact of_finish h hw hl hp

theorem Effect.of_memWrite {addr : W64} {n : Nat} {v : W64} {b : Reg} {off : BitVec 16}
    (h : memWrite addr n v s advance = .next t) (ha : i.access = some (b, off, n, .write)) (hl : i.length = 1)
    (hp : i.setsPc = false) : Effect i s t := by
  rcases memWrite_cases h with ⟨_, rfl⟩ | ⟨_, _, rfl⟩ | ⟨_, hr, h⟩
  · exact .misaligned _ _ (by simp [ha])
  · exact .memFault _ _ _ (by simp [ha])
  · simp only [advance, Host.Outcome.next.injEq] at h
    subst h
    exact .stores b off n _ _ ha hr hl hp

theorem Effect.of_storeImmForm {n : Nat} {dst : Reg} {off : BitVec 16} {imm : W32}
    (h : storeImmForm n dst off imm s = .next t) (ha : i.access = some (dst, off, n, .write)) (hl : i.length = 1)
    (hp : i.setsPc = false) : Effect i s t :=
  of_withReg h fun _ _ h => of_memWrite h ha hl hp

theorem Effect.of_storeRegForm {n : Nat} {dst src : Reg} {off : BitVec 16}
    (h : storeRegForm n dst src off s = .next t) (ha : i.access = some (dst, off, n, .write)) (hl : i.length = 1)
    (hp : i.setsPc = false) : Effect i s t :=
  of_withReg h fun _ _ h => of_withReg h fun _ _ h => of_memWrite h ha hl hp

theorem Effect.of_atomicForm {n : Nat} {f : W64 → W64 → W64} {dst src : Reg} {off : BitVec 16}
    (h : atomicForm n f dst src off s = .next t) (ha : i.access = some (dst, off, n, .rmw)) (hl : i.length = 1)
    (hp : i.setsPc = false) : Effect i s t :=
  of_withReg h fun _ _ h => of_withReg h fun _ _ h => by
    rcases atomicRMW_cases h with ⟨_, rfl⟩ | ⟨_, _, rfl⟩ | ⟨_, hr, h⟩
    · exact .misaligned _ _ (by simp [ha])
    · exact .memFault _ _ _ (by simp [ha])
    · simp only [advance, Host.Outcome.next.injEq] at h
      subst h
      exact .atomic dst off n _ _ ha hr hl hp

theorem Effect.of_atomicRMW {addr : W64} {n : Nat} {f : W64 → W64} {b dst : Reg} {off : BitVec 16}
    (h : atomicRMW addr n f s (fun old u => finish dst old u) = .next t) (ha : i.access = some (b, off, n, .rmw))
    (hw : dst ∈ i.writes) (hl : i.length = 1) (hp : i.setsPc = false) : Effect i s t := by
  rcases atomicRMW_cases h with ⟨_, rfl⟩ | ⟨_, _, rfl⟩ | ⟨_, hr, h⟩
  · exact .misaligned _ _ (by simp [ha])
  · exact .memFault _ _ _ (by simp [ha])
  · simp only [finish, Host.Outcome.next.injEq] at h
    subst h
    exact .atomicFetch b off n _ _ dst _ ha hr hw hl hp

theorem Effect.of_atomicFetchForm {n : Nat} {f : W64 → W64 → W64} {dst src : Reg} {off : BitVec 16}
    (h : atomicFetchForm n f dst src off s = .next t) (ha : i.access = some (dst, off, n, .rmw))
    (hw : src ∈ i.writes) (hl : i.length = 1) (hp : i.setsPc = false) : Effect i s t :=
  of_withReg h fun _ _ h => of_withReg h fun _ _ h => of_atomicRMW h ha hw hl hp

theorem Effect.of_cmpxchgForm {n : Nat} {f : W64 → W64 → W64 → W64} {dst src : Reg} {off : BitVec 16}
    (h : cmpxchgForm n f dst src off s = .next t) (ha : i.access = some (dst, off, n, .rmw))
    (hw : 0 ∈ i.writes) (hl : i.length = 1) (hp : i.setsPc = false) : Effect i s t :=
  of_withReg h fun _ _ h => of_withReg h fun _ _ h => of_withReg h fun _ _ h => of_atomicRMW h ha hw hl hp

theorem Effect.of_finishLookup {dst : Reg} {v : Option W64} (h : finishLookup dst v s = .next t)
    (hw : dst ∈ i.writes) (hl : i.length = 2) (hp : i.setsPc = false)
    (hd : i.lookupsDefined s.params s.pc = v.isSome) : Effect i s t := by
  rcases finishLookup_cases h with ⟨a, _, rfl⟩ | ⟨rfl, rfl⟩
  · have := Effect.writes (s := s) dst a hw hp
    rw [hl] at this
    exact this
  · exact .illegal (.inr (by simpa using hd))

theorem Effect.of_helperCall {h? : Option Helper} {id : Int} (h : helperCall h? id s = .next t)
    (hi : i.isHelperCall = true) (hl : i.length = 1) (hd : i.lookupsDefined s.params s.pc = h?.isSome) : Effect i s t := by
  rcases helperCall_cases h with ⟨rfl, rfl⟩ | ⟨_, _, ⟨_, rfl⟩ | ⟨_, _, ⟨r, _, rfl⟩ | ⟨_, _, rfl⟩ | ⟨_, e, _, rfl⟩⟩⟩
  · exact .illegal (.inr hd)
  · exact .helperUnknown hi hl
  · exact .unset r
  · exact .helperFault id hi
  · exact .helperEffect hi hl e

theorem Effect.of_localCall {imm : W32} (h : localCall imm.toInt s = .next t) (hi : i = .callLocal imm) :
    Effect i s t := by
  rcases localCall_cases h with ⟨hf, rfl⟩ | ⟨hf, rfl⟩
  · exact .depth imm hi hf
  · exact .calls imm hi hf

theorem Effect.of_returnOrEnd (h : returnOrEnd s = .next t) (hi : i = .exit) : Effect i s t := by
  rcases returnOrEnd_cases h with ⟨hc, v, hr, rfl⟩ | ⟨_, _, rfl⟩ | ⟨fr, rest, hc, rfl⟩
  · exact .exits v hi hc hr
  · exact .unset 0
  · exact .returns fr rest hi hc

theorem Effect.of_raise (h : raise (.illegalInstruction s.pc) s = .next t) (hi : i.neverLegal = true) :
    Effect i s t := by
  rw [raise_eq, Host.Outcome.next.injEq] at h
  subst h
  exact .illegal (.inl hi)

/-- Every next state of exec comes about in one of the ways of Effect. -/
theorem exec_effect (h : exec i s = .next t) : Effect i s t := by
  cases i with
  | add32Imm dst imm => exact .of_alu32Imm h List.mem_cons_self rfl rfl
  | add32Reg dst src => exact .of_alu32Reg h List.mem_cons_self rfl rfl
  | add64Imm dst imm => exact .of_alu64Imm h List.mem_cons_self rfl rfl
  | add64Reg dst src => exact .of_alu64Reg h List.mem_cons_self rfl rfl
  | sub32Imm dst imm => exact .of_alu32Imm h List.mem_cons_self rfl rfl
  | sub32Reg dst src => exact .of_alu32Reg h List.mem_cons_self rfl rfl
  | sub64Imm dst imm => exact .of_alu64Imm h List.mem_cons_self rfl rfl
  | sub64Reg dst src => exact .of_alu64Reg h List.mem_cons_self rfl rfl
  | mul32Imm dst imm => exact .of_alu32Imm h List.mem_cons_self rfl rfl
  | mul32Reg dst src => exact .of_alu32Reg h List.mem_cons_self rfl rfl
  | mul64Imm dst imm => exact .of_alu64Imm h List.mem_cons_self rfl rfl
  | mul64Reg dst src => exact .of_alu64Reg h List.mem_cons_self rfl rfl
  | div32Imm dst imm => exact .of_alu32Imm h List.mem_cons_self rfl rfl
  | div32Reg dst src => exact .of_alu32Reg h List.mem_cons_self rfl rfl
  | div64Imm dst imm => exact .of_alu64Imm h List.mem_cons_self rfl rfl
  | div64Reg dst src => exact .of_alu64Reg h List.mem_cons_self rfl rfl
  | sdiv32Imm dst imm => exact .of_alu32Imm h List.mem_cons_self rfl rfl
  | sdiv32Reg dst src => exact .of_alu32Reg h List.mem_cons_self rfl rfl
  | sdiv64Imm dst imm => exact .of_alu64Imm h List.mem_cons_self rfl rfl
  | sdiv64Reg dst src => exact .of_alu64Reg h List.mem_cons_self rfl rfl
  | or32Imm dst imm => exact .of_alu32Imm h List.mem_cons_self rfl rfl
  | or32Reg dst src => exact .of_alu32Reg h List.mem_cons_self rfl rfl
  | or64Imm dst imm => exact .of_alu64Imm h List.mem_cons_self rfl rfl
  | or64Reg dst src => exact .of_alu64Reg h List.mem_cons_self rfl rfl
  | and32Imm dst imm => exact .of_alu32Imm h List.mem_cons_self rfl rfl
  | and32Reg dst src => exact .of_alu32Reg h List.mem_cons_self rfl rfl
  | and64Imm dst imm => exact .of_alu64Imm h List.mem_cons_self rfl rfl
  | and64Reg dst src => exact .of_alu64Reg h List.mem_cons_self rfl rfl
  | lsh32Imm dst imm => exact .of_alu32Imm h List.mem_cons_self rfl rfl
  | lsh32Reg dst src => exact .of_alu32Reg h List.mem_cons_self rfl rfl
  | lsh64Imm dst imm => exact .of_alu64Imm h List.mem_cons_self rfl rfl
  | lsh64Reg dst src => exact .of_alu64Reg h List.mem_cons_self rfl rfl
  | rsh32Imm dst imm => exact .of_alu32Imm h List.mem_cons_self rfl rfl
  | rsh32Reg dst src => exact .of_alu32Reg h List.mem_cons_self rfl rfl
  | rsh64Imm dst imm => exact .of_alu64Imm h List.mem_cons_self rfl rfl
  | rsh64Reg dst src => exact .of_alu64Reg h List.mem_cons_self rfl rfl
  | neg32 dst => exact .of_alu32Dst h List.mem_cons_self rfl rfl
  | neg64 dst => exact .of_alu64Dst h List.mem_cons_self rfl rfl
  | mod32Imm dst imm => exact .of_alu32Imm h List.mem_cons_self rfl rfl
  | mod32Reg dst src => exact .of_alu32Reg h List.mem_cons_self rfl rfl
  | mod64Imm dst imm => exact .of_alu64Imm h List.mem_cons_self rfl rfl
  | mod64Reg dst src => exact .of_alu64Reg h List.mem_cons_self rfl rfl
  | smod32Imm dst imm => exact .of_alu32Imm h List.mem_cons_self rfl rfl
  | smod32Reg dst src => exact .of_alu32Reg h List.mem_cons_self rfl rfl
  | smod64Imm dst imm => exact .of_alu64Imm h List.mem_cons_self rfl rfl
  | smod64Reg dst src => exact .of_alu64Reg h List.mem_cons_self rfl rfl
  | xor32Imm dst imm => exact .of_alu32Imm h List.mem_cons_self rfl rfl
  | xor32Reg dst src => exact .of_alu32Reg h List.mem_cons_self rfl rfl
  | xor64Imm dst imm => exact .of_alu64Imm h List.mem_cons_self rfl rfl
  | xor64Reg dst src => exact .of_alu64Reg h List.mem_cons_self rfl rfl
  | mov32Imm dst imm => exact .of_move32Imm h List.mem_cons_self rfl rfl
  | mov32Reg dst src => exact .of_move32Reg h List.mem_cons_self rfl rfl
  | mov64Imm dst imm => exact .of_move64Imm h List.mem_cons_self rfl rfl
  | mov64Reg dst src => exact .of_move64Reg h List.mem_cons_self rfl rfl
  | movsx32x8 dst src => exact .of_move32Reg h List.mem_cons_self rfl rfl
  | movsx32x16 dst src => exact .of_move32Reg h List.mem_cons_self rfl rfl
  | movsx64x8 dst src => exact .of_move64Reg h List.mem_cons_self rfl rfl
  | movsx64x16 dst src => exact .of_move64Reg h List.mem_cons_self rfl rfl
  | movsx64x32 dst src => exact .of_move64Reg h List.mem_cons_self rfl rfl
  | arsh32Imm dst imm => exact .of_alu32Imm h List.mem_cons_self rfl rfl
  | arsh32Reg dst src => exact .of_alu32Reg h List.mem_cons_self rfl rfl
  | arsh64Imm dst imm => exact .of_alu64Imm h List.mem_cons_self rfl rfl
  | arsh64Reg dst src => exact .of_alu64Reg h List.mem_cons_self rfl rfl
  | le16 dst => exact .of_alu64Dst h List.mem_cons_self rfl rfl
  | le32 dst => exact .of_alu64Dst h List.mem_cons_self rfl rfl
  | le64 dst => exact .of_alu64Dst h List.mem_cons_self rfl rfl
  | be16 dst => exact .of_alu64Dst h List.mem_cons_self rfl rfl
  | be32 dst => exact .of_alu64Dst h List.mem_cons_self rfl rfl
  | be64 dst => exact .of_alu64Dst h List.mem_cons_self rfl rfl
  | bswap16 dst => exact .of_alu64Dst h List.mem_cons_self rfl rfl
  | bswap32 dst => exact .of_alu64Dst h List.mem_cons_self rfl rfl
  | bswap64 dst => exact .of_alu64Dst h List.mem_cons_self rfl rfl
  | ja off => exact .of_jumpBy h rfl
  | ja32 imm => exact .of_jumpBy h rfl
  | jeq64Imm dst off imm => exact .of_jump64Imm h rfl
  | jeq64Reg dst src off => exact .of_jump64Reg h rfl
  | jeq32Imm dst off imm => exact .of_jump32Imm h rfl
  | jeq32Reg dst src off => exact .of_jump32Reg h rfl
  | jgt64Imm dst off imm => exact .of_jump64Imm h rfl
  | jgt64Reg dst src off => exact .of_jump64Reg h rfl
  | jgt32Imm dst off imm => exact .of_jump32Imm h rfl
  | jgt32Reg dst src off => exact .of_jump32Reg h rfl
  | jge64Imm dst off imm => exact .of_jump64Imm h rfl
  | jge64Reg dst src off => exact .of_jump64Reg h rfl
  | jge32Imm dst off imm => exact .of_jump32Imm h rfl
  | jge32Reg dst src off => exact .of_jump32Reg h rfl
  | jset64Imm dst off imm => exact .of_jump64Imm h rfl
  | jset64Reg dst src off => exact .of_jump64Reg h rfl
  | jset32Imm dst off imm => exact .of_jump32Imm h rfl
  | jset32Reg dst src off => exact .of_jump32Reg h rfl
  | jne64Imm dst off imm => exact .of_jump64Imm h rfl
  | jne64Reg dst src off => exact .of_jump64Reg h rfl
  | jne32Imm dst off imm => exact .of_jump32Imm h rfl
  | jne32Reg dst src off => exact .of_jump32Reg h rfl
  | jsgt64Imm dst off imm => exact .of_jump64Imm h rfl
  | jsgt64Reg dst src off => exact .of_jump64Reg h rfl
  | jsgt32Imm dst off imm => exact .of_jump32Imm h rfl
  | jsgt32Reg dst src off => exact .of_jump32Reg h rfl
  | jsge64Imm dst off imm => exact .of_jump64Imm h rfl
  | jsge64Reg dst src off => exact .of_jump64Reg h rfl
  | jsge32Imm dst off imm => exact .of_jump32Imm h rfl
  | jsge32Reg dst src off => exact .of_jump32Reg h rfl
  | jlt64Imm dst off imm => exact .of_jump64Imm h rfl
  | jlt64Reg dst src off => exact .of_jump64Reg h rfl
  | jlt32Imm dst off imm => exact .of_jump32Imm h rfl
  | jlt32Reg dst src off => exact .of_jump32Reg h rfl
  | jle64Imm dst off imm => exact .of_jump64Imm h rfl
  | jle64Reg dst src off => exact .of_jump64Reg h rfl
  | jle32Imm dst off imm => exact .of_jump32Imm h rfl
  | jle32Reg dst src off => exact .of_jump32Reg h rfl
  | jslt64Imm dst off imm => exact .of_jump64Imm h rfl
  | jslt64Reg dst src off => exact .of_jump64Reg h rfl
  | jslt32Imm dst off imm => exact .of_jump32Imm h rfl
  | jslt32Reg dst src off => exact .of_jump32Reg h rfl
  | jsle64Imm dst off imm => exact .of_jump64Imm h rfl
  | jsle64Reg dst src off => exact .of_jump64Reg h rfl
  | jsle32Imm dst off imm => exact .of_jump32Imm h rfl
  | jsle32Reg dst src off => exact .of_jump32Reg h rfl
  | callHelper imm => exact .of_helperCall h rfl rfl rfl
  | callLocal imm => exact .of_localCall h rfl
  | callBtf imm => exact .of_helperCall h rfl rfl rfl
  | exit => exact .of_returnOrEnd h rfl
  | ldxw dst src off => exact .of_loadForm h List.mem_cons_self (by simp [Instr.access]) rfl rfl
  | ldxh dst src off => exact .of_loadForm h List.mem_cons_self (by simp [Instr.access]) rfl rfl
  | ldxb dst src off => exact .of_loadForm h List.mem_cons_self (by simp [Instr.access]) rfl rfl
  | ldxdw dst src off => exact .of_loadForm h List.mem_cons_self (by simp [Instr.access]) rfl rfl
  | stw dst off imm => exact .of_storeImmForm h rfl rfl rfl
  | sth dst off imm => exact .of_storeImmForm h rfl rfl rfl
  | stb dst off imm => exact .of_storeImmForm h rfl rfl rfl
  | stdw dst off imm => exact .of_storeImmForm h rfl rfl rfl
  | stxw dst src off => exact .of_storeRegForm h rfl rfl rfl
  | stxh dst src off => exact .of_storeRegForm h rfl rfl rfl
  | stxb dst src off => exact .of_storeRegForm h rfl rfl rfl
  | stxdw dst src off => exact .of_storeRegForm h rfl rfl rfl
  | ldxsw dst src off => exact .of_loadForm h List.mem_cons_self (by simp [Instr.access]) rfl rfl
  | ldxsh dst src off => exact .of_loadForm h List.mem_cons_self (by simp [Instr.access]) rfl rfl
  | ldxsb dst src off => exact .of_loadForm h List.mem_cons_self (by simp [Instr.access]) rfl rfl
  | atomicAdd32 dst src off => exact .of_atomicForm h rfl rfl rfl
  | atomicFetchAdd32 dst src off => exact .of_atomicFetchForm h rfl List.mem_cons_self rfl rfl
  | atomicOr32 dst src off => exact .of_atomicForm h rfl rfl rfl
  | atomicFetchOr32 dst src off => exact .of_atomicFetchForm h rfl List.mem_cons_self rfl rfl
  | atomicAnd32 dst src off => exact .of_atomicForm h rfl rfl rfl
  | atomicFetchAnd32 dst src off => exact .of_atomicFetchForm h rfl List.mem_cons_self rfl rfl
  | atomicXor32 dst src off => exact .of_atomicForm h rfl rfl rfl
  | atomicFetchXor32 dst src off => exact .of_atomicFetchForm h rfl List.mem_cons_self rfl rfl
  | atomicXchg32 dst src off => exact .of_atomicFetchForm h rfl List.mem_cons_self rfl rfl
  | atomicCmpxchg32 dst src off => exact .of_cmpxchgForm h rfl List.mem_cons_self rfl rfl
  | atomicAdd64 dst src off => exact .of_atomicForm h rfl rfl rfl
  | atomicFetchAdd64 dst src off => exact .of_atomicFetchForm h rfl List.mem_cons_self rfl rfl
  | atomicOr64 dst src off => exact .of_atomicForm h rfl rfl rfl
  | atomicFetchOr64 dst src off => exact .of_atomicFetchForm h rfl List.mem_cons_self rfl rfl
  | atomicAnd64 dst src off => exact .of_atomicForm h rfl rfl rfl
  | atomicFetchAnd64 dst src off => exact .of_atomicFetchForm h rfl List.mem_cons_self rfl rfl
  | atomicXor64 dst src off => exact .of_atomicForm h rfl rfl rfl
  | atomicFetchXor64 dst src off => exact .of_atomicFetchForm h rfl List.mem_cons_self rfl rfl
  | atomicXchg64 dst src off => exact .of_atomicFetchForm h rfl List.mem_cons_self rfl rfl
  | atomicCmpxchg64 dst src off => exact .of_cmpxchgForm h rfl List.mem_cons_self rfl rfl
  | lddw dst imm nextImm =>
    simp only [exec, execLddw, finishWide, Host.Outcome.next.injEq] at h
    subst h
    exact .writes dst _ List.mem_cons_self rfl
  | ldMapFd dst imm => exact .of_finishLookup h List.mem_cons_self rfl rfl rfl
  | ldMapValFd dst imm nextImm => exact .of_finishLookup h List.mem_cons_self rfl rfl (by simp [Instr.lookupsDefined])
  | ldVarAddr dst imm => exact .of_finishLookup h List.mem_cons_self rfl rfl rfl
  | ldCodeAddr dst imm => exact .of_finishLookup h List.mem_cons_self rfl rfl rfl
  | ldMapIdx dst imm => exact .of_finishLookup h List.mem_cons_self rfl rfl rfl
  | ldMapValIdx dst imm nextImm => exact .of_finishLookup h List.mem_cons_self rfl rfl (by simp [Instr.lookupsDefined])
  | ldAbsW imm => exact .of_raise h rfl
  | ldAbsH imm => exact .of_raise h rfl
  | ldAbsB imm => exact .of_raise h rfl
  | ldIndW src imm => exact .of_raise h rfl
  | ldIndH src imm => exact .of_raise h rfl
  | ldIndB src imm => exact .of_raise h rfl
  | imm64Hi nextImm => exact .of_raise h rfl

/-! ## The instructions of a program -/

/-- The instruction found at a slot that is no second slot is among the instructions of the program. -/
theorem mem_instructionsIn {e : Endian} {i : Instr} (slots : List Slot) (second : Bool) (n : Nat) (hn : n < slots.length)
    (hs : secondSlotFrom second slots n = false) (hd : decode e (slots.drop n) = .ok i) :
    i ∈ instructionsIn e second slots := by
  induction slots generalizing second n with
  | nil => cases hn
  | cons a rest ih =>
    cases n with
    | zero =>
      cases hs
      rw [List.drop_zero] at hd
      simp [instructionsIn, hd]
    | succ n => exact List.mem_append_right _ (ih _ n (Nat.lt_of_succ_lt_succ hn) hs hd)

/-- A fetched instruction is among the instructions of the program. -/
theorem mem_instructionsIn_of_fetch {s : State} {slots : List Slot} {i : Instr} (hf : s.fetch = some slots)
    (hd : decode s.params.hostEndian slots = .ok i) : i ∈ instructionsIn s.params.hostEndian false s.params.program := by
  unfold State.fetch at hf
  split at hf
  · cases hf
  · split at hf
    · cases hf
    · split at hf
      · cases hf
      · rename_i h2 h3
        cases hf
        exact mem_instructionsIn _ _ _ (Nat.lt_of_not_le h2) (by simpa using h3) hd

end Sys2Proof.Machine
end

