-- ==== Sys2Proof/Laws/PerInstr.lean ====
section
/-! SUPPORT. For every instruction: its encoding matches the mask and the match its row of spec/opcode_table.json
gives, whatever its operands. -/

namespace Sys2Proof.Laws.EncodingRow

/-- The mask and the match of an instruction's row of spec/opcode_table.json, on the canonical word of its first slot. -/
def row (i : Instr) : W64 × W64 :=
  match i with
  | .add32Imm _ _ => (0x00000000fffff0ff, 0x4)
  | .add32Reg _ _ => (0xffffffffffff00ff, 0xc)
  | .add64Imm _ _ => (0x00000000fffff0ff, 0x7)
  | .add64Reg _ _ => (0xffffffffffff00ff, 0xf)
  | .sub32Imm _ _ => (0x00000000fffff0ff, 0x14)
  | .sub32Reg _ _ => (0xffffffffffff00ff, 0x1c)
  | .sub64Imm _ _ => (0x00000000fffff0ff, 0x17)
  | .sub64Reg _ _ => (0xffffffffffff00ff, 0x1f)
  | .mul32Imm _ _ => (0x00000000fffff0ff, 0x24)
  | .mul32Reg _ _ => (0xffffffffffff00ff, 0x2c)
  | .mul64Imm _ _ => (0x00000000fffff0ff, 0x27)
  | .mul64Reg _ _ => (0xffffffffffff00ff, 0x2f)
  | .div32Imm _ _ => (0x00000000fffff0ff, 0x34)
  | .div32Reg _ _ => (0xffffffffffff00ff, 0x3c)
  | .div64Imm _ _ => (0x00000000fffff0ff, 0x37)
  | .div64Reg _ _ => (0xffffffffffff00ff, 0x3f)
  | .sdiv32Imm _ _ => (0x00000000fffff0ff, 0x10034)
  | .sdiv32Reg _ _ => (0xffffffffffff00ff, 0x1003c)
  | .sdiv64Imm _ _ => (0x00000000fffff0ff, 0x10037)
  | .sdiv64Reg _ _ => (0xffffffffffff00ff, 0x1003f)
  | .or32Imm _ _ => (0x00000000fffff0ff, 0x44)
  | .or32Reg _ _ => (0xffffffffffff00ff, 0x4c)
  | .or64Imm _ _ => (0x00000000fffff0ff, 0x47)
  | .or64Reg _ _ => (0xffffffffffff00ff, 0x4f)
  | .and32Imm _ _ => (0x00000000fffff0ff, 0x54)
  | .and32Reg _ _ => (0xffffffffffff00ff, 0x5c)
  | .and64Imm _ _ => (0x00000000fffff0ff, 0x57)
  | .and64Reg _ _ => (0xffffffffffff00ff, 0x5f)
  | .lsh32Imm _ _ => (0x00000000fffff0ff, 0x64)
  | .lsh32Reg _ _ => (0xffffffffffff00ff, 0x6c)
  | .lsh64Imm _ _ => (0x00000000fffff0ff, 0x67)
  | .lsh64Reg _ _ => (0xffffffffffff00ff, 0x6f)
  | .rsh32Imm _ _ => (0x00000000fffff0ff, 0x74)
  | .rsh32Reg _ _ => (0xffffffffffff00ff, 0x7c)
  | .rsh64Imm _ _ => (0x00000000fffff0ff, 0x77)
  | .rsh64Reg _ _ => (0xffffffffffff00ff, 0x7f)
  | .neg32 _ => (0xfffffffffffff0ff, 0x84)
  | .neg64 _ => (0xfffffffffffff0ff, 0x87)
  | .mod32Imm _ _ => (0x00000000fffff0ff, 0x94)
  | .mod32Reg _ _ => (0xffffffffffff00ff, 0x9c)
  | .mod64Imm _ _ => (0x00000000fffff0ff, 0x97)
  | .mod64Reg _ _ => (0xffffffffffff00ff, 0x9f)
  | .smod32Imm _ _ => (0x00000000fffff0ff, 0x10094)
  | .smod32Reg _ _ => (0xffffffffffff00ff, 0x1009c)
  | .smod64Imm _ _ => (0x00000000fffff0ff, 0x10097)
  | .smod64Reg _ _ => (0xffffffffffff00ff, 0x1009f)
  | .xor32Imm _ _ => (0x00000000fffff0ff, 0xa4)
  | .xor32Reg _ _ => (0xffffffffffff00ff, 0xac)
  | .xor64Imm _ _ => (0x00000000fffff0ff, 0xa7)
  | .xor64Reg _ _ => (0xffffffffffff00ff, 0xaf)
  | .mov32Imm _ _ => (0x00000000fffff0ff, 0xb4)
  | .mov32Reg _ _ => (0xffffffffffff00ff, 0xbc)
  | .mov64Imm _ _ => (0x00000000fffff0ff, 0xb7)
  | .mov64Reg _ _ => (0xffffffffffff00ff, 0xbf)
  | .movsx32x8 _ _ => (0xffffffffffff00ff, 0x800bc)
  | .movsx32x16 _ _ => (0xffffffffffff00ff, 0x1000bc)
  | .movsx64x8 _ _ => (0xffffffffffff00ff, 0x800bf)
  | .movsx64x16 _ _ => (0xffffffffffff00ff, 0x1000bf)
  | .movsx64x32 _ _ => (0xffffffffffff00ff, 0x2000bf)
  | .arsh32Imm _ _ => (0x00000000fffff0ff, 0xc4)
  | .arsh32Reg _ _ => (0xffffffffffff00ff, 0xcc)
  | .arsh64Imm _ _ => (0x00000000fffff0ff, 0xc7)
  | .arsh64Reg _ _ => (0xffffffffffff00ff, 0xcf)
  | .le16 _ => (0xfffffffffffff0ff, 0x10000000d4)
  | .le32 _ => (0xfffffffffffff0ff, 0x20000000d4)
  | .le64 _ => (0xfffffffffffff0ff, 0x40000000d4)
  | .be16 _ => (0xfffffffffffff0ff, 0x10000000dc)
  | .be32 _ => (0xfffffffffffff0ff, 0x20000000dc)
  | .be64 _ => (0xfffffffffffff0ff, 0x40000000dc)
  | .bswap16 _ => (0xfffffffffffff0ff, 0x10000000d7)
  | .bswap32 _ => (0xfffffffffffff0ff, 0x20000000d7)
  | .bswap64 _ => (0xfffffffffffff0ff, 0x40000000d7)
  | .ja _ => (0xffffffff0000ffff, 0x5)
  | .ja32 _ => (0x00000000ffffffff, 0x6)
  | .jeq64Imm _ _ _ => (0x000000000000f0ff, 0x15)
  | .jeq64Reg _ _ _ => (0xffffffff000000ff, 0x1d)
  | .jeq32Imm _ _ _ => (0x000000000000f0ff, 0x16)
  | .jeq32Reg _ _ _ => (0xffffffff000000ff, 0x1e)
  | .jgt64Imm _ _ _ => (0x000000000000f0ff, 0x25)
  | .jgt64Reg _ _ _ => (0xffffffff000000ff, 0x2d)
  | .jgt32Imm _ _ _ => (0x000000000000f0ff, 0x26)
  | .jgt32Reg _ _ _ => (0xffffffff000000ff, 0x2e)
  | .jge64Imm _ _ _ => (0x000000000000f0ff, 0x35)
  | .jge64Reg _ _ _ => (0xffffffff000000ff, 0x3d)
  | .jge32Imm _ _ _ => (0x000000000000f0ff, 0x36)
  | .jge32Reg _ _ _ => (0xffffffff000000ff, 0x3e)
  | .jset64Imm _ _ _ => (0x000000000000f0ff, 0x45)
  | .jset64Reg _ _ _ => (0xffffffff000000ff, 0x4d)
  | .jset32Imm _ _ _ => (0x000000000000f0ff, 0x46)
  | .jset32Reg _ _ _ => (0xffffffff000000ff, 0x4e)
  | .jne64Imm _ _ _ => (0x000000000000f0ff, 0x55)
  | .jne64Reg _ _ _ => (0xffffffff000000ff, 0x5d)
  | .jne32Imm _ _ _ => (0x000000000000f0ff, 0x56)
  | .jne32Reg _ _ _ => (0xffffffff000000ff, 0x5e)
  | .jsgt64Imm _ _ _ => (0x000000000000f0ff, 0x65)
  | .jsgt64Reg _ _ _ => (0xffffffff000000ff, 0x6d)
  | .jsgt32Imm _ _ _ => (0x000000000000f0ff, 0x66)
  | .jsgt32Reg _ _ _ => (0xffffffff000000ff, 0x6e)
  | .jsge64Imm _ _ _ => (0x000000000000f0ff, 0x75)
  | .jsge64Reg _ _ _ => (0xffffffff000000ff, 0x7d)
  | .jsge32Imm _ _ _ => (0x000000000000f0ff, 0x76)
  | .jsge32Reg _ _ _ => (0xffffffff000000ff, 0x7e)
  | .jlt64Imm _ _ _ => (0x000000000000f0ff, 0xa5)
  | .jlt64Reg _ _ _ => (0xffffffff000000ff, 0xad)
  | .jlt32Imm _ _ _ => (0x000000000000f0ff, 0xa6)
  | .jlt32Reg _ _ _ => (0xffffffff000000ff, 0xae)
  | .jle64Imm _ _ _ => (0x000000000000f0ff, 0xb5)
  | .jle64Reg _ _ _ => (0xffffffff000000ff, 0xbd)
  | .jle32Imm _ _ _ => (0x000000000000f0ff, 0xb6)
  | .jle32Reg _ _ _ => (0xffffffff000000ff, 0xbe)
  | .jslt64Imm _ _ _ => (0x000000000000f0ff, 0xc5)
  | .jslt64Reg _ _ _ => (0xffffffff000000ff, 0xcd)
  | .jslt32Imm _ _ _ => (0x000000000000f0ff, 0xc6)
  | .jslt32Reg _ _ _ => (0xffffffff000000ff, 0xce)
  | .jsle64Imm _ _ _ => (0x000000000000f0ff, 0xd5)
  | .jsle64Reg _ _ _ => (0xffffffff000000ff, 0xdd)
  | .jsle32Imm _ _ _ => (0x000000000000f0ff, 0xd6)
  | .jsle32Reg _ _ _ => (0xffffffff000000ff, 0xde)
  | .callHelper _ => (0x00000000ffffffff, 0x85)
  | .callLocal _ => (0x00000000ffffffff, 0x1085)
  | .callBtf _ => (0x00000000ffffffff, 0x2085)
  | .exit => (0xffffffffffffffff, 0x95)
  | .ldxw _ _ _ => (0xffffffff000000ff, 0x61)
  | .ldxh _ _ _ => (0xffffffff000000ff, 0x69)
  | .ldxb _ _ _ => (0xffffffff000000ff, 0x71)
  | .ldxdw _ _ _ => (0xffffffff000000ff, 0x79)
  | .stw _ _ _ => (0x000000000000f0ff, 0x62)
  | .sth _ _ _ => (0x000000000000f0ff, 0x6a)
  | .stb _ _ _ => (0x000000000000f0ff, 0x72)
  | .stdw _ _ _ => (0x000000000000f0ff, 0x7a)
  | .stxw _ _ _ => (0xffffffff000000ff, 0x63)
  | .stxh _ _ _ => (0xffffffff000000ff, 0x6b)
  | .stxb _ _ _ => (0xffffffff000000ff, 0x73)
  | .stxdw _ _ _ => (0xffffffff000000ff, 0x7b)
  | .ldxsw _ _ _ => (0xffffffff000000ff, 0x81)
  | .ldxsh _ _ _ => (0xffffffff000000ff, 0x89)
  | .ldxsb _ _ _ => (0xffffffff000000ff, 0x91)
  | .atomicAdd32 _ _ _ => (0xffffffff000000ff, 0xc3)
  | .atomicFetchAdd32 _ _ _ => (0xffffffff000000ff, 0x1000000c3)
  | .atomicOr32 _ _ _ => (0xffffffff000000ff, 0x40000000c3)
  | .atomicFetchOr32 _ _ _ => (0xffffffff000000ff, 0x41000000c3)
  | .atomicAnd32 _ _ _ => (0xffffffff000000ff, 0x50000000c3)
  | .atomicFetchAnd32 _ _ _ => (0xffffffff000000ff, 0x51000000c3)
  | .atomicXor32 _ _ _ => (0xffffffff000000ff, 0xa0000000c3)
  | .atomicFetchXor32 _ _ _ => (0xffffffff000000ff, 0xa1000000c3)
  | .atomicXchg32 _ _ _ => (0xffffffff000000ff, 0xe1000000c3)
  | .atomicCmpxchg32 _ _ _ => (0xffffffff000000ff, 0xf1000000c3)
  | .atomicAdd64 _ _ _ => (0xffffffff000000ff, 0xdb)
  | .atomicFetchAdd64 _ _ _ => (0xffffffff000000ff, 0x1000000db)
  | .atomicOr64 _ _ _ => (0xffffffff000000ff, 0x40000000db)
  | .atomicFetchOr64 _ _ _ => (0xffffffff000000ff, 0x41000000db)
  | .atomicAnd64 _ _ _ => (0xffffffff000000ff, 0x50000000db)
  | .atomicFetchAnd64 _ _ _ => (0xffffffff000000ff, 0x51000000db)
  | .atomicXor64 _ _ _ => (0xffffffff000000ff, 0xa0000000db)
  | .atomicFetchXor64 _ _ _ => (0xffffffff000000ff, 0xa1000000db)
  | .atomicXchg64 _ _ _ => (0xffffffff000000ff, 0xe1000000db)
  | .atomicCmpxchg64 _ _ _ => (0xffffffff000000ff, 0xf1000000db)
  | .lddw _ _ _ => (0x00000000fffff0ff, 0x18)
  | .ldMapFd _ _ => (0x00000000fffff0ff, 0x1018)
  | .ldMapValFd _ _ _ => (0x00000000fffff0ff, 0x2018)
  | .ldVarAddr _ _ => (0x00000000fffff0ff, 0x3018)
  | .ldCodeAddr _ _ => (0x00000000fffff0ff, 0x4018)
  | .ldMapIdx _ _ => (0x00000000fffff0ff, 0x5018)
  | .ldMapValIdx _ _ _ => (0x00000000fffff0ff, 0x6018)
  | .ldAbsW _ => (0x00000000ffffffff, 0x20)
  | .ldAbsH _ => (0x00000000ffffffff, 0x28)
  | .ldAbsB _ => (0x00000000ffffffff, 0x30)
  | .ldIndW _ _ => (0x00000000ffff0fff, 0x40)
  | .ldIndH _ _ => (0x00000000ffff0fff, 0x48)
  | .ldIndB _ _ => (0x00000000ffff0fff, 0x50)
  | .imm64Hi _ => (0x00000000ffffffff, 0x0)

/-- The canonical word of the instruction, under the mask of its row, is the match of its row. -/
def Statement (i : Instr) : Prop := i.fields.toWord &&& (row i).1 = (row i).2

theorem drop (n : Nat) (x : BitVec n) : x &&& 0 = 0 := BitVec.and_zero
theorem keep4 (x : BitVec 4) : x &&& 0xf = x := BitVec.and_allOnes
theorem keep8 (x : BitVec 8) : x &&& 0xff = x := BitVec.and_allOnes
theorem keep16 (x : BitVec 16) : x &&& 0xffff = x := BitVec.and_allOnes
theorem keep32 (x : W32) : x &&& 0xffffffff = x := BitVec.and_allOnes

/-- A mask acts on the canonical word field by field (spec/30_encoding.md R107). -/
theorem toWord_and (f m : Fields) :
    f.toWord &&& m.toWord = Fields.toWord ⟨f.opcode &&& m.opcode, f.dst &&& m.dst, f.src &&& m.src,
      f.offset &&& m.offset, f.imm &&& m.imm⟩ := by
  simp only [Fields.toWord, ← BitVec.and_append]

theorem mask_keeps_opcode_src_offset (f : Fields) :
    f.toWord &&& 0x00000000fffff0ff = Fields.toWord ⟨f.opcode, 0, f.src, f.offset, 0⟩ := by
  refine (toWord_and f ⟨0xff, 0x0, 0xf, 0xffff, 0x0⟩).trans ?_
  simp only [keep8, keep4, keep16, drop]

theorem mask_keeps_opcode_offset_imm (f : Fields) :
    f.toWord &&& 0xffffffffffff00ff = Fields.toWord ⟨f.opcode, 0, 0, f.offset, f.imm⟩ := by
  refine (toWord_and f ⟨0xff, 0x0, 0x0, 0xffff, 0xffffffff⟩).trans ?_
  simp only [keep8, keep16, keep32, drop]

theorem mask_keeps_opcode_src_offset_imm (f : Fields) :
    f.toWord &&& 0xfffffffffffff0ff = Fields.toWord ⟨f.opcode, 0, f.src, f.offset, f.imm⟩ := by
  refine (toWord_and f ⟨0xff, 0x0, 0xf, 0xffff, 0xffffffff⟩).trans ?_
  simp only [keep8, keep4, keep16, keep32, drop]

theorem mask_keeps_opcode_dst_src_imm (f : Fields) :
    f.toWord &&& 0xffffffff0000ffff = Fields.toWord ⟨f.opcode, f.dst, f.src, 0, f.imm⟩ := by
  refine (toWord_and f ⟨0xff, 0xf, 0xf, 0x0, 0xffffffff⟩).trans ?_
  simp only [keep8, keep4, keep32, drop]

theorem mask_keeps_opcode_dst_src_offset (f : Fields) :
    f.toWord &&& 0x00000000ffffffff = Fields.toWord ⟨f.opcode, f.dst, f.src, f.offset, 0⟩ := by
  refine (toWord_and f ⟨0xff, 0xf, 0xf, 0xffff, 0x0⟩).trans ?_
  simp only [keep8, keep4, keep16, drop]

theorem mask_keeps_opcode_src (f : Fields) :
    f.toWord &&& 0x000000000000f0ff = Fields.toWord ⟨f.opcode, 0, f.src, 0, 0⟩ := by
  refine (toWord_and f ⟨0xff, 0x0, 0xf, 0x0, 0x0⟩).trans ?_
  simp only [keep8, keep4, drop]

theorem mask_keeps_opcode_imm (f : Fields) :
    f.toWord &&& 0xffffffff000000ff = Fields.toWord ⟨f.opcode, 0, 0, 0, f.imm⟩ := by
  refine (toWord_and f ⟨0xff, 0x0, 0x0, 0x0, 0xffffffff⟩).trans ?_
  simp only [keep8, keep32, drop]

theorem mask_keeps_opcode_dst_src_offset_imm (f : Fields) :
    f.toWord &&& 0xffffffffffffffff = Fields.toWord ⟨f.opcode, f.dst, f.src, f.offset, f.imm⟩ := by
  refine (toWord_and f ⟨0xff, 0xf, 0xf, 0xffff, 0xffffffff⟩).trans ?_
  simp only [keep8, keep4, keep16, keep32]

theorem mask_keeps_opcode_dst_offset (f : Fields) :
    f.toWord &&& 0x00000000ffff0fff = Fields.toWord ⟨f.opcode, f.dst, 0, f.offset, 0⟩ := by
  refine (toWord_and f ⟨0xff, 0xf, 0x0, 0xffff, 0x0⟩).trans ?_
  simp only [keep8, keep4, keep16, drop]

theorem add32Imm (dst : Reg) (imm : W32) : Statement (.add32Imm dst imm) := 
  (mask_keeps_opcode_src_offset _).trans (show Fields.toWord ⟨0x4, 0, 0, 0, 0⟩ = 0x4 from rfl)
theorem add32Reg (dst : Reg) (src : Reg) : Statement (.add32Reg dst src) := 
  (mask_keeps_opcode_offset_imm _).trans (show Fields.toWord ⟨0xc, 0, 0, 0, 0⟩ = 0xc from rfl)
theorem add64Imm (dst : Reg) (imm : W32) : Statement (.add64Imm dst imm) := 
  (mask_keeps_opcode_src_offset _).trans (show Fields.toWord ⟨0x7, 0, 0, 0, 0⟩ = 0x7 from rfl)
theorem add64Reg (dst : Reg) (src : Reg) : Statement (.add64Reg dst src) := 
  (mask_keeps_opcode_offset_imm _).trans (show Fields.toWord ⟨0xf, 0, 0, 0, 0⟩ = 0xf from rfl)
theorem sub32Imm (dst : Reg) (imm : W32) : Statement (.sub32Imm dst imm) := 
  (mask_keeps_opcode_src_offset _).trans (show Fields.toWord ⟨0x14, 0, 0, 0, 0⟩ = 0x14 from rfl)
theorem sub32Reg (dst : Reg) (src : Reg) : Statement (.sub32Reg dst src) := 
  (mask_keeps_opcode_offset_imm _).trans (show Fields.toWord ⟨0x1c, 0, 0, 0, 0⟩ = 0x1c from rfl)
theorem sub64Imm (dst : Reg) (imm : W32) : Statement (.sub64Imm dst imm) := 
  (mask_keeps_opcode_src_offset _).trans (show Fields.toWord ⟨0x17, 0, 0, 0, 0⟩ = 0x17 from rfl)
theorem sub64Reg (dst : Reg) (src : Reg) : Statement (.sub64Reg dst src) := 
  (mask_keeps_opcode_offset_imm _).trans (show Fields.toWord ⟨0x1f, 0, 0, 0, 0⟩ = 0x1f from rfl)
theorem mul32Imm (dst : Reg) (imm : W32) : Statement (.mul32Imm dst imm) := 
  (mask_keeps_opcode_src_offset _).trans (show Fields.toWord ⟨0x24, 0, 0, 0, 0⟩ = 0x24 from rfl)
theorem mul32Reg (dst : Reg) (src : Reg) : Statement (.mul32Reg dst src) := 
  (mask_keeps_opcode_offset_imm _).trans (show Fields.toWord ⟨0x2c, 0, 0, 0, 0⟩ = 0x2c from rfl)
theorem mul64Imm (dst : Reg) (imm : W32) : Statement (.mul64Imm dst imm) := 
  (mask_keeps_opcode_src_offset _).trans (show Fields.toWord ⟨0x27, 0, 0, 0, 0⟩ = 0x27 from rfl)
theorem mul64Reg (dst : Reg) (src : Reg) : Statement (.mul64Reg dst src) := 
  (mask_keeps_opcode_offset_imm _).trans (show Fields.toWord ⟨0x2f, 0, 0, 0, 0⟩ = 0x2f from rfl)
theorem div32Imm (dst : Reg) (imm : W32) : Statement (.div32Imm dst imm) := 
  (mask_keeps_opcode_src_offset _).trans (show Fields.toWord ⟨0x34, 0, 0, 0, 0⟩ = 0x34 from rfl)
theorem div32Reg (dst : Reg) (src : Reg) : Statement (.div32Reg dst src) := 
  (mask_keeps_opcode_offset_imm _).trans (show Fields.toWord ⟨0x3c, 0, 0, 0, 0⟩ = 0x3c from rfl)
theorem div64Imm (dst : Reg) (imm : W32) : Statement (.div64Imm dst imm) := 
  (mask_keeps_opcode_src_offset _).trans (show Fields.toWord ⟨0x37, 0, 0, 0, 0⟩ = 0x37 from rfl)
theorem div64Reg (dst : Reg) (src : Reg) : Statement (.div64Reg dst src) := 
  (mask_keeps_opcode_offset_imm _).trans (show Fields.toWord ⟨0x3f, 0, 0, 0, 0⟩ = 0x3f from rfl)
theorem sdiv32Imm (dst : Reg) (imm : W32) : Statement (.sdiv32Imm dst imm) := 
  (mask_keeps_opcode_src_offset _).trans (show Fields.toWord ⟨0x34, 0, 0, 0x1, 0⟩ = 0x10034 from rfl)
theorem sdiv32Reg (dst : Reg) (src : Reg) : Statement (.sdiv32Reg dst src) := 
  (mask_keeps_opcode_offset_imm _).trans (show Fields.toWord ⟨0x3c, 0, 0, 0x1, 0⟩ = 0x1003c from rfl)
theorem sdiv64Imm (dst : Reg) (imm : W32) : Statement (.sdiv64Imm dst imm) := 
  (mask_keeps_opcode_src_offset _).trans (show Fields.toWord ⟨0x37, 0, 0, 0x1, 0⟩ = 0x10037 from rfl)
theorem sdiv64Reg (dst : Reg) (src : Reg) : Statement (.sdiv64Reg dst src) := 
  (mask_keeps_opcode_offset_imm _).trans (show Fields.toWord ⟨0x3f, 0, 0, 0x1, 0⟩ = 0x1003f from rfl)
theorem or32Imm (dst : Reg) (imm : W32) : Statement (.or32Imm dst imm) := 
  (mask_keeps_opcode_src_offset _).trans (show Fields.toWord ⟨0x44, 0, 0, 0, 0⟩ = 0x44 from rfl)
theorem or32Reg (dst : Reg) (src : Reg) : Statement (.or32Reg dst src) := 
  (mask_keeps_opcode_offset_imm _).trans (show Fields.toWord ⟨0x4c, 0, 0, 0, 0⟩ = 0x4c from rfl)
theorem or64Imm (dst : Reg) (imm : W32) : Statement (.or64Imm dst imm) := 
  (mask_keeps_opcode_src_offset _).trans (show Fields.toWord ⟨0x47, 0, 0, 0, 0⟩ = 0x47 from rfl)
theorem or64Reg (dst : Reg) (src : Reg) : Statement (.or64Reg dst src) := 
  (mask_keeps_opcode_offset_imm _).trans (show Fields.toWord ⟨0x4f, 0, 0, 0, 0⟩ = 0x4f from rfl)
theorem and32Imm (dst : Reg) (imm : W32) : Statement (.and32Imm dst imm) := 
  (mask_keeps_opcode_src_offset _).trans (show Fields.toWord ⟨0x54, 0, 0, 0, 0⟩ = 0x54 from rfl)
theorem and32Reg (dst : Reg) (src : Reg) : Statement (.and32Reg dst src) := 
  (mask_keeps_opcode_offset_imm _).trans (show Fields.toWord ⟨0x5c, 0, 0, 0, 0⟩ = 0x5c from rfl)
theorem and64Imm (dst : Reg) (imm : W32) : Statement (.and64Imm dst imm) := 
  (mask_keeps_opcode_src_offset _).trans (show Fields.toWord ⟨0x57, 0, 0, 0, 0⟩ = 0x57 from rfl)
theorem and64Reg (dst : Reg) (src : Reg) : Statement (.and64Reg dst src) := 
  (mask_keeps_opcode_offset_imm _).trans (show Fields.toWord ⟨0x5f, 0, 0, 0, 0⟩ = 0x5f from rfl)
theorem lsh32Imm (dst : Reg) (imm : W32) : Statement (.lsh32Imm dst imm) := 
  (mask_keeps_opcode_src_offset _).trans (show Fields.toWord ⟨0x64, 0, 0, 0, 0⟩ = 0x64 from rfl)
theorem lsh32Reg (dst : Reg) (src : Reg) : Statement (.lsh32Reg dst src) := 
  (mask_keeps_opcode_offset_imm _).trans (show Fields.toWord ⟨0x6c, 0, 0, 0, 0⟩ = 0x6c from rfl)
theorem lsh64Imm (dst : Reg) (imm : W32) : Statement (.lsh64Imm dst imm) := 
  (mask_keeps_opcode_src_offset _).trans (show Fields.toWord ⟨0x67, 0, 0, 0, 0⟩ = 0x67 from rfl)
theorem lsh64Reg (dst : Reg) (src : Reg) : Statement (.lsh64Reg dst src) := 
  (mask_keeps_opcode_offset_imm _).trans (show Fields.toWord ⟨0x6f, 0, 0, 0, 0⟩ = 0x6f from rfl)
theorem rsh32Imm (dst : Reg) (imm : W32) : Statement (.rsh32Imm dst imm) := 
  (mask_keeps_opcode_src_offset _).trans (show Fields.toWord ⟨0x74, 0, 0, 0, 0⟩ = 0x74 from rfl)
theorem rsh32Reg (dst : Reg) (src : Reg) : Statement (.rsh32Reg dst src) := 
  (mask_keeps_opcode_offset_imm _).trans (show Fields.toWord ⟨0x7c, 0, 0, 0, 0⟩ = 0x7c from rfl)
theorem rsh64Imm (dst : Reg) (imm : W32) : Statement (.rsh64Imm dst imm) := 
  (mask_keeps_opcode_src_offset _).trans (show Fields.toWord ⟨0x77, 0, 0, 0, 0⟩ = 0x77 from rfl)
theorem rsh64Reg (dst : Reg) (src : Reg) : Statement (.rsh64Reg dst src) := 
  (mask_keeps_opcode_offset_imm _).trans (show Fields.toWord ⟨0x7f, 0, 0, 0, 0⟩ = 0x7f from rfl)
theorem neg32 (dst : Reg) : Statement (.neg32 dst) := 
  (mask_keeps_opcode_src_offset_imm _).trans (show Fields.toWord ⟨0x84, 0, 0, 0, 0⟩ = 0x84 from rfl)
theorem neg64 (dst : Reg) : Statement (.neg64 dst) := 
  (mask_keeps_opcode_src_offset_imm _).trans (show Fields.toWord ⟨0x87, 0, 0, 0, 0⟩ = 0x87 from rfl)
theorem mod32Imm (dst : Reg) (imm : W32) : Statement (.mod32Imm dst imm) := 
  (mask_keeps_opcode_src_offset _).trans (show Fields.toWord ⟨0x94, 0, 0, 0, 0⟩ = 0x94 from rfl)
theorem mod32Reg (dst : Reg) (src : Reg) : Statement (.mod32Reg dst src) := 
  (mask_keeps_opcode_offset_imm _).trans (show Fields.toWord ⟨0x9c, 0, 0, 0, 0⟩ = 0x9c from rfl)
theorem mod64Imm (dst : Reg) (imm : W32) : Statement (.mod64Imm dst imm) := 
  (mask_keeps_opcode_src_offset _).trans (show Fields.toWord ⟨0x97, 0, 0, 0, 0⟩ = 0x97 from rfl)
theorem mod64Reg (dst : Reg) (src : Reg) : Statement (.mod64Reg dst src) := 
  (mask_keeps_opcode_offset_imm _).trans (show Fields.toWord ⟨0x9f, 0, 0, 0, 0⟩ = 0x9f from rfl)
theorem smod32Imm (dst : Reg) (imm : W32) : Statement (.smod32Imm dst imm) := 
  (mask_keeps_opcode_src_offset _).trans (show Fields.toWord ⟨0x94, 0, 0, 0x1, 0⟩ = 0x10094 from rfl)
theorem smod32Reg (dst : Reg) (src : Reg) : Statement (.smod32Reg dst src) := 
  (mask_keeps_opcode_offset_imm _).trans (show Fields.toWord ⟨0x9c, 0, 0, 0x1, 0⟩ = 0x1009c from rfl)
theorem smod64Imm (dst : Reg) (imm : W32) : Statement (.smod64Imm dst imm) := 
  (mask_keeps_opcode_src_offset _).trans (show Fields.toWord ⟨0x97, 0, 0, 0x1, 0⟩ = 0x10097 from rfl)
theorem smod64Reg (dst : Reg) (src : Reg) : Statement (.smod64Reg dst src) := 
  (mask_keeps_opcode_offset_imm _).trans (show Fields.toWord ⟨0x9f, 0, 0, 0x1, 0⟩ = 0x1009f from rfl)
theorem xor32Imm (dst : Reg) (imm : W32) : Statement (.xor32Imm dst imm) := 
  (mask_keeps_opcode_src_offset _).trans (show Fields.toWord ⟨0xa4, 0, 0, 0, 0⟩ = 0xa4 from rfl)
theorem xor32Reg (dst : Reg) (src : Reg) : Statement (.xor32Reg dst src) := 
  (mask_keeps_opcode_offset_imm _).trans (show Fields.toWord ⟨0xac, 0, 0, 0, 0⟩ = 0xac from rfl)
theorem xor64Imm (dst : Reg) (imm : W32) : Statement (.xor64Imm dst imm) := 
  (mask_keeps_opcode_src_offset _).trans (show Fields.toWord ⟨0xa7, 0, 0, 0, 0⟩ = 0xa7 from rfl)
theorem xor64Reg (dst : Reg) (src : Reg) : Statement (.xor64Reg dst src) := 
  (mask_keeps_opcode_offset_imm _).trans (show Fields.toWord ⟨0xaf, 0, 0, 0, 0⟩ = 0xaf from rfl)
theorem mov32Imm (dst : Reg) (imm : W32) : Statement (.mov32Imm dst imm) := 
  (mask_keeps_opcode_src_offset _).trans (show Fields.toWord ⟨0xb4, 0, 0, 0, 0⟩ = 0xb4 from rfl)
theorem mov32Reg (dst : Reg) (src : Reg) : Statement (.mov32Reg dst src) := 
  (mask_keeps_opcode_offset_imm _).trans (show Fields.toWord ⟨0xbc, 0, 0, 0, 0⟩ = 0xbc from rfl)
theorem mov64Imm (dst : Reg) (imm : W32) : Statement (.mov64Imm dst imm) := 
  (mask_keeps_opcode_src_offset _).trans (show Fields.toWord ⟨0xb7, 0, 0, 0, 0⟩ = 0xb7 from rfl)
theorem mov64Reg (dst : Reg) (src : Reg) : Statement (.mov64Reg dst src) := 
  (mask_keeps_opcode_offset_imm _).trans (show Fields.toWord ⟨0xbf, 0, 0, 0, 0⟩ = 0xbf from rfl)
theorem movsx32x8 (dst : Reg) (src : Reg) : Statement (.movsx32x8 dst src) := 
  (mask_keeps_opcode_offset_imm _).trans (show Fields.toWord ⟨0xbc, 0, 0, 0x8, 0⟩ = 0x800bc from rfl)
theorem movsx32x16 (dst : Reg) (src : Reg) : Statement (.movsx32x16 dst src) := 
  (mask_keeps_opcode_offset_imm _).trans (show Fields.toWord ⟨0xbc, 0, 0, 0x10, 0⟩ = 0x1000bc from rfl)
theorem movsx64x8 (dst : Reg) (src : Reg) : Statement (.movsx64x8 dst src) := 
  (mask_keeps_opcode_offset_imm _).trans (show Fields.toWord ⟨0xbf, 0, 0, 0x8, 0⟩ = 0x800bf from rfl)
theorem movsx64x16 (dst : Reg) (src : Reg) : Statement (.movsx64x16 dst src) := 
  (mask_keeps_opcode_offset_imm _).trans (show Fields.toWord ⟨0xbf, 0, 0, 0x10, 0⟩ = 0x1000bf from rfl)
theorem movsx64x32 (dst : Reg) (src : Reg) : Statement (.movsx64x32 dst src) := 
  (mask_keeps_opcode_offset_imm _).trans (show Fields.toWord ⟨0xbf, 0, 0, 0x20, 0⟩ = 0x2000bf from rfl)
theorem arsh32Imm (dst : Reg) (imm : W32) : Statement (.arsh32Imm dst imm) := 
  (mask_keeps_opcode_src_offset _).trans (show Fields.toWord ⟨0xc4, 0, 0, 0, 0⟩ = 0xc4 from rfl)
theorem arsh32Reg (dst : Reg) (src : Reg) : Statement (.arsh32Reg dst src) := 
  (mask_keeps_opcode_offset_imm _).trans (show Fields.toWord ⟨0xcc, 0, 0, 0, 0⟩ = 0xcc from rfl)
theorem arsh64Imm (dst : Reg) (imm : W32) : Statement (.arsh64Imm dst imm) := 
  (mask_keeps_opcode_src_offset _).trans (show Fields.toWord ⟨0xc7, 0, 0, 0, 0⟩ = 0xc7 from rfl)
theorem arsh64Reg (dst : Reg) (src : Reg) : Statement (.arsh64Reg dst src) := 
  (mask_keeps_opcode_offset_imm _).trans (show Fields.toWord ⟨0xcf, 0, 0, 0, 0⟩ = 0xcf from rfl)
theorem le16 (dst : Reg) : Statement (.le16 dst) := 
  (mask_keeps_opcode_src_offset_imm _).trans (show Fields.toWord ⟨0xd4, 0, 0, 0, 0x10⟩ = 0x10000000d4 from rfl)
theorem le32 (dst : Reg) : Statement (.le32 dst) := 
  (mask_keeps_opcode_src_offset_imm _).trans (show Fields.toWord ⟨0xd4, 0, 0, 0, 0x20⟩ = 0x20000000d4 from rfl)
theorem le64 (dst : Reg) : Statement (.le64 dst) := 
  (mask_keeps_opcode_src_offset_imm _).trans (show Fields.toWord ⟨0xd4, 0, 0, 0, 0x40⟩ = 0x40000000d4 from rfl)
theorem be16 (dst : Reg) : Statement (.be16 dst) := 
  (mask_keeps_opcode_src_offset_imm _).trans (show Fields.toWord ⟨0xdc, 0, 0, 0, 0x10⟩ = 0x10000000dc from rfl)
theorem be32 (dst : Reg) : Statement (.be32 dst) := 
  (mask_keeps_opcode_src_offset_imm _).trans (show Fields.toWord ⟨0xdc, 0, 0, 0, 0x20⟩ = 0x20000000dc from rfl)
theorem be64 (dst : Reg) : Statement (.be64 dst) := 
  (mask_keeps_opcode_src_offset_imm _).trans (show Fields.toWord ⟨0xdc, 0, 0, 0, 0x40⟩ = 0x40000000dc from rfl)
theorem bswap16 (dst : Reg) : Statement (.bswap16 dst) := 
  (mask_keeps_opcode_src_offset_imm _).trans (show Fields.toWord ⟨0xd7, 0, 0, 0, 0x10⟩ = 0x10000000d7 from rfl)
theorem bswap32 (dst : Reg) : Statement (.bswap32 dst) := 
  (mask_keeps_opcode_src_offset_imm _).trans (show Fields.toWord ⟨0xd7, 0, 0, 0, 0x20⟩ = 0x20000000d7 from rfl)
theorem bswap64 (dst : Reg) : Statement (.bswap64 dst) := 
  (mask_keeps_opcode_src_offset_imm _).trans (show Fields.toWord ⟨0xd7, 0, 0, 0, 0x40⟩ = 0x40000000d7 from rfl)
theorem ja (off : BitVec 16) : Statement (.ja off) := 
  (mask_keeps_opcode_dst_src_imm _).trans (show Fields.toWord ⟨0x5, 0, 0, 0, 0⟩ = 0x5 from rfl)
theorem ja32 (imm : W32) : Statement (.ja32 imm) := 
  (mask_keeps_opcode_dst_src_offset _).trans (show Fields.toWord ⟨0x6, 0, 0, 0, 0⟩ = 0x6 from rfl)
theorem jeq64Imm (dst : Reg) (off : BitVec 16) (imm : W32) : Statement (.jeq64Imm dst off imm) := 
  (mask_keeps_opcode_src _).trans (show Fields.toWord ⟨0x15, 0, 0, 0, 0⟩ = 0x15 from rfl)
theorem jeq64Reg (dst : Reg) (src : Reg) (off : BitVec 16) : Statement (.jeq64Reg dst src off) := 
  (mask_keeps_opcode_imm _).trans (show Fields.toWord ⟨0x1d, 0, 0, 0, 0⟩ = 0x1d from rfl)
theorem jeq32Imm (dst : Reg) (off : BitVec 16) (imm : W32) : Statement (.jeq32Imm dst off imm) := 
  (mask_keeps_opcode_src _).trans (show Fields.toWord ⟨0x16, 0, 0, 0, 0⟩ = 0x16 from rfl)
theorem jeq32Reg (dst : Reg) (src : Reg) (off : BitVec 16) : Statement (.jeq32Reg dst src off) := 
  (mask_keeps_opcode_imm _).trans (show Fields.toWord ⟨0x1e, 0, 0, 0, 0⟩ = 0x1e from rfl)
theorem jgt64Imm (dst : Reg) (off : BitVec 16) (imm : W32) : Statement (.jgt64Imm dst off imm) := 
  (mask_keeps_opcode_src _).trans (show Fields.toWord ⟨0x25, 0, 0, 0, 0⟩ = 0x25 from rfl)
theorem jgt64Reg (dst : Reg) (src : Reg) (off : BitVec 16) : Statement (.jgt64Reg dst src off) := 
  (mask_keeps_opcode_imm _).trans (show Fields.toWord ⟨0x2d, 0, 0, 0, 0⟩ = 0x2d from rfl)
theorem jgt32Imm (dst : Reg) (off : BitVec 16) (imm : W32) : Statement (.jgt32Imm dst off imm) := 
  (mask_keeps_opcode_src _).trans (show Fields.toWord ⟨0x26, 0, 0, 0, 0⟩ = 0x26 from rfl)
theorem jgt32Reg (dst : Reg) (src : Reg) (off : BitVec 16) : Statement (.jgt32Reg dst src off) := 
  (mask_keeps_opcode_imm _).trans (show Fields.toWord ⟨0x2e, 0, 0, 0, 0⟩ = 0x2e from rfl)
theorem jge64Imm (dst : Reg) (off : BitVec 16) (imm : W32) : Statement (.jge64Imm dst off imm) := 
  (mask_keeps_opcode_src _).trans (show Fields.toWord ⟨0x35, 0, 0, 0, 0⟩ = 0x35 from rfl)
theorem jge64Reg (dst : Reg) (src : Reg) (off : BitVec 16) : Statement (.jge64Reg dst src off) := 
  (mask_keeps_opcode_imm _).trans (show Fields.toWord ⟨0x3d, 0, 0, 0, 0⟩ = 0x3d from rfl)
theorem jge32Imm (dst : Reg) (off : BitVec 16) (imm : W32) : Statement (.jge32Imm dst off imm) := 
  (mask_keeps_opcode_src _).trans (show Fields.toWord ⟨0x36, 0, 0, 0, 0⟩ = 0x36 from rfl)
theorem jge32Reg (dst : Reg) (src : Reg) (off : BitVec 16) : Statement (.jge32Reg dst src off) := 
  (mask_keeps_opcode_imm _).trans (show Fields.toWord ⟨0x3e, 0, 0, 0, 0⟩ = 0x3e from rfl)
theorem jset64Imm (dst : Reg) (off : BitVec 16) (imm : W32) : Statement (.jset64Imm dst off imm) := 
  (mask_keeps_opcode_src _).trans (show Fields.toWord ⟨0x45, 0, 0, 0, 0⟩ = 0x45 from rfl)
theorem jset64Reg (dst : Reg) (src : Reg) (off : BitVec 16) : Statement (.jset64Reg dst src off) := 
  (mask_keeps_opcode_imm _).trans (show Fields.toWord ⟨0x4d, 0, 0, 0, 0⟩ = 0x4d from rfl)
theorem jset32Imm (dst : Reg) (off : BitVec 16) (imm : W32) : Statement (.jset32Imm dst off imm) := 
  (mask_keeps_opcode_src _).trans (show Fields.toWord ⟨0x46, 0, 0, 0, 0⟩ = 0x46 from rfl)
theorem jset32Reg (dst : Reg) (src : Reg) (off : BitVec 16) : Statement (.jset32Reg dst src off) := 
  (mask_keeps_opcode_imm _).trans (show Fields.toWord ⟨0x4e, 0, 0, 0, 0⟩ = 0x4e from rfl)
theorem jne64Imm (dst : Reg) (off : BitVec 16) (imm : W32) : Statement (.jne64Imm dst off imm) := 
  (mask_keeps_opcode_src _).trans (show Fields.toWord ⟨0x55, 0, 0, 0, 0⟩ = 0x55 from rfl)
theorem jne64Reg (dst : Reg) (src : Reg) (off : BitVec 16) : Statement (.jne64Reg dst src off) := 
  (mask_keeps_opcode_imm _).trans (show Fields.toWord ⟨0x5d, 0, 0, 0, 0⟩ = 0x5d from rfl)
theorem jne32Imm (dst : Reg) (off : BitVec 16) (imm : W32) : Statement (.jne32Imm dst off imm) := 
  (mask_keeps_opcode_src _).trans (show Fields.toWord ⟨0x56, 0, 0, 0, 0⟩ = 0x56 from rfl)
theorem jne32Reg (dst : Reg) (src : Reg) (off : BitVec 16) : Statement (.jne32Reg dst src off) := 
  (mask_keeps_opcode_imm _).trans (show Fields.toWord ⟨0x5e, 0, 0, 0, 0⟩ = 0x5e from rfl)
theorem jsgt64Imm (dst : Reg) (off : BitVec 16) (imm : W32) : Statement (.jsgt64Imm dst off imm) := 
  (mask_keeps_opcode_src _).trans (show Fields.toWord ⟨0x65, 0, 0, 0, 0⟩ = 0x65 from rfl)
theorem jsgt64Reg (dst : Reg) (src : Reg) (off : BitVec 16) : Statement (.jsgt64Reg dst src off) := 
  (mask_keeps_opcode_imm _).trans (show Fields.toWord ⟨0x6d, 0, 0, 0, 0⟩ = 0x6d from rfl)
theorem jsgt32Imm (dst : Reg) (off : BitVec 16) (imm : W32) : Statement (.jsgt32Imm dst off imm) := 
  (mask_keeps_opcode_src _).trans (show Fields.toWord ⟨0x66, 0, 0, 0, 0⟩ = 0x66 from rfl)
theorem jsgt32Reg (dst : Reg) (src : Reg) (off : BitVec 16) : Statement (.jsgt32Reg dst src off) := 
  (mask_keeps_opcode_imm _).trans (show Fields.toWord ⟨0x6e, 0, 0, 0, 0⟩ = 0x6e from rfl)
theorem jsge64Imm (dst : Reg) (off : BitVec 16) (imm : W32) : Statement (.jsge64Imm dst off imm) := 
  (mask_keeps_opcode_src _).trans (show Fields.toWord ⟨0x75, 0, 0, 0, 0⟩ = 0x75 from rfl)
theorem jsge64Reg (dst : Reg) (src : Reg) (off : BitVec 16) : Statement (.jsge64Reg dst src off) := 
  (mask_keeps_opcode_imm _).trans (show Fields.toWord ⟨0x7d, 0, 0, 0, 0⟩ = 0x7d from rfl)
theorem jsge32Imm (dst : Reg) (off : BitVec 16) (imm : W32) : Statement (.jsge32Imm dst off imm) := 
  (mask_keeps_opcode_src _).trans (show Fields.toWord ⟨0x76, 0, 0, 0, 0⟩ = 0x76 from rfl)
theorem jsge32Reg (dst : Reg) (src : Reg) (off : BitVec 16) : Statement (.jsge32Reg dst src off) := 
  (mask_keeps_opcode_imm _).trans (show Fields.toWord ⟨0x7e, 0, 0, 0, 0⟩ = 0x7e from rfl)
theorem jlt64Imm (dst : Reg) (off : BitVec 16) (imm : W32) : Statement (.jlt64Imm dst off imm) := 
  (mask_keeps_opcode_src _).trans (show Fields.toWord ⟨0xa5, 0, 0, 0, 0⟩ = 0xa5 from rfl)
theorem jlt64Reg (dst : Reg) (src : Reg) (off : BitVec 16) : Statement (.jlt64Reg dst src off) := 
  (mask_keeps_opcode_imm _).trans (show Fields.toWord ⟨0xad, 0, 0, 0, 0⟩ = 0xad from rfl)
theorem jlt32Imm (dst : Reg) (off : BitVec 16) (imm : W32) : Statement (.jlt32Imm dst off imm) := 
  (mask_keeps_opcode_src _).trans (show Fields.toWord ⟨0xa6, 0, 0, 0, 0⟩ = 0xa6 from rfl)
theorem jlt32Reg (dst : Reg) (src : Reg) (off : BitVec 16) : Statement (.jlt32Reg dst src off) := 
  (mask_keeps_opcode_imm _).trans (show Fields.toWord ⟨0xae, 0, 0, 0, 0⟩ = 0xae from rfl)
theorem jle64Imm (dst : Reg) (off : BitVec 16) (imm : W32) : Statement (.jle64Imm dst off imm) := 
  (mask_keeps_opcode_src _).trans (show Fields.toWord ⟨0xb5, 0, 0, 0, 0⟩ = 0xb5 from rfl)
theorem jle64Reg (dst : Reg) (src : Reg) (off : BitVec 16) : Statement (.jle64Reg dst src off) := 
  (mask_keeps_opcode_imm _).trans (show Fields.toWord ⟨0xbd, 0, 0, 0, 0⟩ = 0xbd from rfl)
theorem jle32Imm (dst : Reg) (off : BitVec 16) (imm : W32) : Statement (.jle32Imm dst off imm) := 
  (mask_keeps_opcode_src _).trans (show Fields.toWord ⟨0xb6, 0, 0, 0, 0⟩ = 0xb6 from rfl)
theorem jle32Reg (dst : Reg) (src : Reg) (off : BitVec 16) : Statement (.jle32Reg dst src off) := 
  (mask_keeps_opcode_imm _).trans (show Fields.toWord ⟨0xbe, 0, 0, 0, 0⟩ = 0xbe from rfl)
theorem jslt64Imm (dst : Reg) (off : BitVec 16) (imm : W32) : Statement (.jslt64Imm dst off imm) := 
  (mask_keeps_opcode_src _).trans (show Fields.toWord ⟨0xc5, 0, 0, 0, 0⟩ = 0xc5 from rfl)
theorem jslt64Reg (dst : Reg) (src : Reg) (off : BitVec 16) : Statement (.jslt64Reg dst src off) := 
  (mask_keeps_opcode_imm _).trans (show Fields.toWord ⟨0xcd, 0, 0, 0, 0⟩ = 0xcd from rfl)
theorem jslt32Imm (dst : Reg) (off : BitVec 16) (imm : W32) : Statement (.jslt32Imm dst off imm) := 
  (mask_keeps_opcode_src _).trans (show Fields.toWord ⟨0xc6, 0, 0, 0, 0⟩ = 0xc6 from rfl)
theorem jslt32Reg (dst : Reg) (src : Reg) (off : BitVec 16) : Statement (.jslt32Reg dst src off) := 
  (mask_keeps_opcode_imm _).trans (show Fields.toWord ⟨0xce, 0, 0, 0, 0⟩ = 0xce from rfl)
theorem jsle64Imm (dst : Reg) (off : BitVec 16) (imm : W32) : Statement (.jsle64Imm dst off imm) := 
  (mask_keeps_opcode_src _).trans (show Fields.toWord ⟨0xd5, 0, 0, 0, 0⟩ = 0xd5 from rfl)
theorem jsle64Reg (dst : Reg) (src : Reg) (off : BitVec 16) : Statement (.jsle64Reg dst src off) := 
  (mask_keeps_opcode_imm _).trans (show Fields.toWord ⟨0xdd, 0, 0, 0, 0⟩ = 0xdd from rfl)
theorem jsle32Imm (dst : Reg) (off : BitVec 16) (imm : W32) : Statement (.jsle32Imm dst off imm) := 
  (mask_keeps_opcode_src _).trans (show Fields.toWord ⟨0xd6, 0, 0, 0, 0⟩ = 0xd6 from rfl)
theorem jsle32Reg (dst : Reg) (src : Reg) (off : BitVec 16) : Statement (.jsle32Reg dst src off) := 
  (mask_keeps_opcode_imm _).trans (show Fields.toWord ⟨0xde, 0, 0, 0, 0⟩ = 0xde from rfl)
theorem callHelper (imm : W32) : Statement (.callHelper imm) := 
  (mask_keeps_opcode_dst_src_offset _).trans (show Fields.toWord ⟨0x85, 0, 0, 0, 0⟩ = 0x85 from rfl)
theorem callLocal (imm : W32) : Statement (.callLocal imm) := 
  (mask_keeps_opcode_dst_src_offset _).trans (show Fields.toWord ⟨0x85, 0, 0x1, 0, 0⟩ = 0x1085 from rfl)
theorem callBtf (imm : W32) : Statement (.callBtf imm) := 
  (mask_keeps_opcode_dst_src_offset _).trans (show Fields.toWord ⟨0x85, 0, 0x2, 0, 0⟩ = 0x2085 from rfl)
theorem exit : Statement .exit := 
  (mask_keeps_opcode_dst_src_offset_imm _).trans (show Fields.toWord ⟨0x95, 0, 0, 0, 0⟩ = 0x95 from rfl)
theorem ldxw (dst : Reg) (src : Reg) (off : BitVec 16) : Statement (.ldxw dst src off) := 
  (mask_keeps_opcode_imm _).trans (show Fields.toWord ⟨0x61, 0, 0, 0, 0⟩ = 0x61 from rfl)
theorem ldxh (dst : Reg) (src : Reg) (off : BitVec 16) : Statement (.ldxh dst src off) := 
  (mask_keeps_opcode_imm _).trans (show Fields.toWord ⟨0x69, 0, 0, 0, 0⟩ = 0x69 from rfl)
theorem ldxb (dst : Reg) (src : Reg) (off : BitVec 16) : Statement (.ldxb dst src off) := 
  (mask_keeps_opcode_imm _).trans (show Fields.toWord ⟨0x71, 0, 0, 0, 0⟩ = 0x71 from rfl)
theorem ldxdw (dst : Reg) (src : Reg) (off : BitVec 16) : Statement (.ldxdw dst src off) := 
  (mask_keeps_opcode_imm _).trans (show Fields.toWord ⟨0x79, 0, 0, 0, 0⟩ = 0x79 from rfl)
theorem stw (dst : Reg) (off : BitVec 16) (imm : W32) : Statement (.stw dst off imm) := 
  (mask_keeps_opcode_src _).trans (show Fields.toWord ⟨0x62, 0, 0, 0, 0⟩ = 0x62 from rfl)
theorem sth (dst : Reg) (off : BitVec 16) (imm : W32) : Statement (.sth dst off imm) := 
  (mask_keeps_opcode_src _).trans (show Fields.toWord ⟨0x6a, 0, 0, 0, 0⟩ = 0x6a from rfl)
theorem stb (dst : Reg) (off : BitVec 16) (imm : W32) : Statement (.stb dst off imm) := 
  (mask_keeps_opcode_src _).trans (show Fields.toWord ⟨0x72, 0, 0, 0, 0⟩ = 0x72 from rfl)
theorem stdw (dst : Reg) (off : BitVec 16) (imm : W32) : Statement (.stdw dst off imm) := 
  (mask_keeps_opcode_src _).trans (show Fields.toWord ⟨0x7a, 0, 0, 0, 0⟩ = 0x7a from rfl)
theorem stxw (dst : Reg) (src : Reg) (off : BitVec 16) : Statement (.stxw dst src off) := 
  (mask_keeps_opcode_imm _).trans (show Fields.toWord ⟨0x63, 0, 0, 0, 0⟩ = 0x63 from rfl)
theorem stxh (dst : Reg) (src : Reg) (off : BitVec 16) : Statement (.stxh dst src off) := 
  (mask_keeps_opcode_imm _).trans (show Fields.toWord ⟨0x6b, 0, 0, 0, 0⟩ = 0x6b from rfl)
theorem stxb (dst : Reg) (src : Reg) (off : BitVec 16) : Statement (.stxb dst src off) := 
  (mask_keeps_opcode_imm _).trans (show Fields.toWord ⟨0x73, 0, 0, 0, 0⟩ = 0x73 from rfl)
theorem stxdw (dst : Reg) (src : Reg) (off : BitVec 16) : Statement (.stxdw dst src off) := 
  (mask_keeps_opcode_imm _).trans (show Fields.toWord ⟨0x7b, 0, 0, 0, 0⟩ = 0x7b from rfl)
theorem ldxsw (dst : Reg) (src : Reg) (off : BitVec 16) : Statement (.ldxsw dst src off) := 
  (mask_keeps_opcode_imm _).trans (show Fields.toWord ⟨0x81, 0, 0, 0, 0⟩ = 0x81 from rfl)
theorem ldxsh (dst : Reg) (src : Reg) (off : BitVec 16) : Statement (.ldxsh dst src off) := 
  (mask_keeps_opcode_imm _).trans (show Fields.toWord ⟨0x89, 0, 0, 0, 0⟩ = 0x89 from rfl)
theorem ldxsb (dst : Reg) (src : Reg) (off : BitVec 16) : Statement (.ldxsb dst src off) := 
  (mask_keeps_opcode_imm _).trans (show Fields.toWord ⟨0x91, 0, 0, 0, 0⟩ = 0x91 from rfl)
theorem atomicAdd32 (dst : Reg) (src : Reg) (off : BitVec 16) : Statement (.atomicAdd32 dst src off) := 
  (mask_keeps_opcode_imm _).trans (show Fields.toWord ⟨0xc3, 0, 0, 0, 0⟩ = 0xc3 from rfl)
theorem atomicFetchAdd32 (dst : Reg) (src : Reg) (off : BitVec 16) : Statement (.atomicFetchAdd32 dst src off) := 
  (mask_keeps_opcode_imm _).trans (show Fields.toWord ⟨0xc3, 0, 0, 0, 0x1⟩ = 0x1000000c3 from rfl)
theorem atomicOr32 (dst : Reg) (src : Reg) (off : BitVec 16) : Statement (.atomicOr32 dst src off) := 
  (mask_keeps_opcode_imm _).trans (show Fields.toWord ⟨0xc3, 0, 0, 0, 0x40⟩ = 0x40000000c3 from rfl)
theorem atomicFetchOr32 (dst : Reg) (src : Reg) (off : BitVec 16) : Statement (.atomicFetchOr32 dst src off) := 
  (mask_keeps_opcode_imm _).trans (show Fields.toWord ⟨0xc3, 0, 0, 0, 0x41⟩ = 0x41000000c3 from rfl)
theorem atomicAnd32 (dst : Reg) (src : Reg) (off : BitVec 16) : Statement (.atomicAnd32 dst src off) := 
  (mask_keeps_opcode_imm _).trans (show Fields.toWord ⟨0xc3, 0, 0, 0, 0x50⟩ = 0x50000000c3 from rfl)
theorem atomicFetchAnd32 (dst : Reg) (src : Reg) (off : BitVec 16) : Statement (.atomicFetchAnd32 dst src off) := 
  (mask_keeps_opcode_imm _).trans (show Fields.toWord ⟨0xc3, 0, 0, 0, 0x51⟩ = 0x51000000c3 from rfl)
theorem atomicXor32 (dst : Reg) (src : Reg) (off : BitVec 16) : Statement (.atomicXor32 dst src off) := 
  (mask_keeps_opcode_imm _).trans (show Fields.toWord ⟨0xc3, 0, 0, 0, 0xa0⟩ = 0xa0000000c3 from rfl)
theorem atomicFetchXor32 (dst : Reg) (src : Reg) (off : BitVec 16) : Statement (.atomicFetchXor32 dst src off) := 
  (mask_keeps_opcode_imm _).trans (show Fields.toWord ⟨0xc3, 0, 0, 0, 0xa1⟩ = 0xa1000000c3 from rfl)
theorem atomicXchg32 (dst : Reg) (src : Reg) (off : BitVec 16) : Statement (.atomicXchg32 dst src off) := 
  (mask_keeps_opcode_imm _).trans (show Fields.toWord ⟨0xc3, 0, 0, 0, 0xe1⟩ = 0xe1000000c3 from rfl)
theorem atomicCmpxchg32 (dst : Reg) (src : Reg) (off : BitVec 16) : Statement (.atomicCmpxchg32 dst src off) := 
  (mask_keeps_opcode_imm _).trans (show Fields.toWord ⟨0xc3, 0, 0, 0, 0xf1⟩ = 0xf1000000c3 from rfl)
theorem atomicAdd64 (dst : Reg) (src : Reg) (off : BitVec 16) : Statement (.atomicAdd64 dst src off) := 
  (mask_keeps_opcode_imm _).trans (show Fields.toWord ⟨0xdb, 0, 0, 0, 0⟩ = 0xdb from rfl)
theorem atomicFetchAdd64 (dst : Reg) (src : Reg) (off : BitVec 16) : Statement (.atomicFetchAdd64 dst src off) := 
  (mask_keeps_opcode_imm _).trans (show Fields.toWord ⟨0xdb, 0, 0, 0, 0x1⟩ = 0x1000000db from rfl)
theorem atomicOr64 (dst : Reg) (src : Reg) (off : BitVec 16) : Statement (.atomicOr64 dst src off) := 
  (mask_keeps_opcode_imm _).trans (show Fields.toWord ⟨0xdb, 0, 0, 0, 0x40⟩ = 0x40000000db from rfl)
theorem atomicFetchOr64 (dst : Reg) (src : Reg) (off : BitVec 16) : Statement (.atomicFetchOr64 dst src off) := 
  (mask_keeps_opcode_imm _).trans (show Fields.toWord ⟨0xdb, 0, 0, 0, 0x41⟩ = 0x41000000db from rfl)
theorem atomicAnd64 (dst : Reg) (src : Reg) (off : BitVec 16) : Statement (.atomicAnd64 dst src off) := 
  (mask_keeps_opcode_imm _).trans (show Fields.toWord ⟨0xdb, 0, 0, 0, 0x50⟩ = 0x50000000db from rfl)
theorem atomicFetchAnd64 (dst : Reg) (src : Reg) (off : BitVec 16) : Statement (.atomicFetchAnd64 dst src off) := 
  (mask_keeps_opcode_imm _).trans (show Fields.toWord ⟨0xdb, 0, 0, 0, 0x51⟩ = 0x51000000db from rfl)
theorem atomicXor64 (dst : Reg) (src : Reg) (off : BitVec 16) : Statement (.atomicXor64 dst src off) := 
  (mask_keeps_opcode_imm _).trans (show Fields.toWord ⟨0xdb, 0, 0, 0, 0xa0⟩ = 0xa0000000db from rfl)
theorem atomicFetchXor64 (dst : Reg) (src : Reg) (off : BitVec 16) : Statement (.atomicFetchXor64 dst src off) := 
  (mask_keeps_opcode_imm _).trans (show Fields.toWord ⟨0xdb, 0, 0, 0, 0xa1⟩ = 0xa1000000db from rfl)
theorem atomicXchg64 (dst : Reg) (src : Reg) (off : BitVec 16) : Statement (.atomicXchg64 dst src off) := 
  (mask_keeps_opcode_imm _).trans (show Fields.toWord ⟨0xdb, 0, 0, 0, 0xe1⟩ = 0xe1000000db from rfl)
theorem atomicCmpxchg64 (dst : Reg) (src : Reg) (off : BitVec 16) : Statement (.atomicCmpxchg64 dst src off) := 
  (mask_keeps_opcode_imm _).trans (show Fields.toWord ⟨0xdb, 0, 0, 0, 0xf1⟩ = 0xf1000000db from rfl)
theorem lddw (dst : Reg) (imm : W32) (nextImm : W32) : Statement (.lddw dst imm nextImm) := 
  (mask_keeps_opcode_src_offset _).trans (show Fields.toWord ⟨0x18, 0, 0, 0, 0⟩ = 0x18 from rfl)
theorem ldMapFd (dst : Reg) (imm : W32) : Statement (.ldMapFd dst imm) := 
  (mask_keeps_opcode_src_offset _).trans (show Fields.toWord ⟨0x18, 0, 0x1, 0, 0⟩ = 0x1018 from rfl)
theorem ldMapValFd (dst : Reg) (imm : W32) (nextImm : W32) : Statement (.ldMapValFd dst imm nextImm) := 
  (mask_keeps_opcode_src_offset _).trans (show Fields.toWord ⟨0x18, 0, 0x2, 0, 0⟩ = 0x2018 from rfl)
theorem ldVarAddr (dst : Reg) (imm : W32) : Statement (.ldVarAddr dst imm) := 
  (mask_keeps_opcode_src_offset _).trans (show Fields.toWord ⟨0x18, 0, 0x3, 0, 0⟩ = 0x3018 from rfl)
theorem ldCodeAddr (dst : Reg) (imm : W32) : Statement (.ldCodeAddr dst imm) := 
  (mask_keeps_opcode_src_offset _).trans (show Fields.toWord ⟨0x18, 0, 0x4, 0, 0⟩ = 0x4018 from rfl)
theorem ldMapIdx (dst : Reg) (imm : W32) : Statement (.ldMapIdx dst imm) := 
  (mask_keeps_opcode_src_offset _).trans (show Fields.toWord ⟨0x18, 0, 0x5, 0, 0⟩ = 0x5018 from rfl)
theorem ldMapValIdx (dst : Reg) (imm : W32) (nextImm : W32) : Statement (.ldMapValIdx dst imm nextImm) := 
  (mask_keeps_opcode_src_offset _).trans (show Fields.toWord ⟨0x18, 0, 0x6, 0, 0⟩ = 0x6018 from rfl)
theorem ldAbsW (imm : W32) : Statement (.ldAbsW imm) := 
  (mask_keeps_opcode_dst_src_offset _).trans (show Fields.toWord ⟨0x20, 0, 0, 0, 0⟩ = 0x20 from rfl)
theorem ldAbsH (imm : W32) : Statement (.ldAbsH imm) := 
  (mask_keeps_opcode_dst_src_offset _).trans (show Fields.toWord ⟨0x28, 0, 0, 0, 0⟩ = 0x28 from rfl)
theorem ldAbsB (imm : W32) : Statement (.ldAbsB imm) := 
  (mask_keeps_opcode_dst_src_offset _).trans (show Fields.toWord ⟨0x30, 0, 0, 0, 0⟩ = 0x30 from rfl)
theorem ldIndW (src : Reg) (imm : W32) : Statement (.ldIndW src imm) := 
  (mask_keeps_opcode_dst_offset _).trans (show Fields.toWord ⟨0x40, 0, 0, 0, 0⟩ = 0x40 from rfl)
theorem ldIndH (src : Reg) (imm : W32) : Statement (.ldIndH src imm) := 
  (mask_keeps_opcode_dst_offset _).trans (show Fields.toWord ⟨0x48, 0, 0, 0, 0⟩ = 0x48 from rfl)
theorem ldIndB (src : Reg) (imm : W32) : Statement (.ldIndB src imm) := 
  (mask_keeps_opcode_dst_offset _).trans (show Fields.toWord ⟨0x50, 0, 0, 0, 0⟩ = 0x50 from rfl)
theorem imm64Hi (nextImm : W32) : Statement (.imm64Hi nextImm) := 
  (mask_keeps_opcode_dst_src_offset _).trans (show Fields.toWord ⟨0x0, 0, 0, 0, 0⟩ = 0x0 from rfl)

end Sys2Proof.Laws.EncodingRow
end

