-- ==== Sys2Proof/Tests/Slice0.lean ====
section
/-! SUPPORT. Tests: the check of WellFormed on ill-formed terms, every row's example bytes, the value examples of the
spec's rules, and a witness for the hypotheses of each statement. The expected bytes and values of the tables are the
examples the rule of each instruction gives in spec/40 to spec/49. -/

namespace Sys2Proof.Tests

open Machine

/-! ## Well-formed terms -/

/-- next_imm of the map value loads must not be negative (spec/48_imm64.md R479): the two ill-formed terms. -/
theorem test_wellFormed_refuses :
    Instr.wellFormed (.ldMapValFd 1 3 0x80000000) = false ∧ Instr.wellFormed (.ldMapValIdx 1 0 0xffffffff) = false ∧
    Instr.wellFormed (.ldMapValFd 1 3 0x7fffffff) = true ∧ Instr.wellFormed (.ldMapValIdx 1 0 0) = true := by decide

/-- The decoder refuses the slots of an ill-formed term. -/
theorem test_decode_refuses_negative_next_imm :
    decode .little (encode .little (.ldMapValFd 1 3 0x80000000)) = .error .nextImm := by decide

/-! ## Words written out from the spec -/

/-- Slots from bytes as a host stores them. -/
def slotsOf (bs : List Byte) : List Slot :=
  match bs with
  | b0 :: b1 :: b2 :: b3 :: b4 :: b5 :: b6 :: b7 :: rest => ⟨b0, b1, b2, b3, b4, b5, b6, b7⟩ :: slotsOf rest
  | _ => []

/-- The bytes decode to the instruction on a host of that order, and it encodes to them. -/
def reads (e : Endian) (bs : List Byte) (i : Instr) : Bool :=
  (match decode e (slotsOf bs) with
    | .ok j => decide (j = i)
    | .error _ => false) && decide (encode e i = slotsOf bs)

/-- A row: little-endian host bytes, big-endian host bytes, the instruction. -/
def readsBoth (row : List Byte × List Byte × Instr) : Bool := reads .little row.1 row.2.2 && reads .big row.2.1 row.2.2

/-! Rows of spec/40_arithmetic_a.md. -/

theorem test_decode_arithmetic_a_1 :
    ([([0x04, 0x01, 0x00, 0x00, 0x01, 0x00, 0x00, 0x00], [0x04, 0x10, 0x00, 0x00, 0x00, 0x00, 0x00, 0x01], .add32Imm 1 1),
      ([0x0c, 0x21, 0x00, 0x00, 0x00, 0x00, 0x00, 0x00], [0x0c, 0x12, 0x00, 0x00, 0x00, 0x00, 0x00, 0x00], .add32Reg 1 2),
      ([0x07, 0x01, 0x00, 0x00, 0x01, 0x00, 0x00, 0x00], [0x07, 0x10, 0x00, 0x00, 0x00, 0x00, 0x00, 0x01], .add64Imm 1 1),
      ([0x0f, 0x21, 0x00, 0x00, 0x00, 0x00, 0x00, 0x00], [0x0f, 0x12, 0x00, 0x00, 0x00, 0x00, 0x00, 0x00], .add64Reg 1 2),
      ([0x14, 0x01, 0x00, 0x00, 0x01, 0x00, 0x00, 0x00], [0x14, 0x10, 0x00, 0x00, 0x00, 0x00, 0x00, 0x01], .sub32Imm 1 1),
      ([0x1c, 0x21, 0x00, 0x00, 0x00, 0x00, 0x00, 0x00], [0x1c, 0x12, 0x00, 0x00, 0x00, 0x00, 0x00, 0x00], .sub32Reg 1 2),
      ([0x17, 0x01, 0x00, 0x00, 0x01, 0x00, 0x00, 0x00], [0x17, 0x10, 0x00, 0x00, 0x00, 0x00, 0x00, 0x01], .sub64Imm 1 1),
      ([0x1f, 0x21, 0x00, 0x00, 0x00, 0x00, 0x00, 0x00], [0x1f, 0x12, 0x00, 0x00, 0x00, 0x00, 0x00, 0x00], .sub64Reg 1 2),
      ([0x24, 0x01, 0x00, 0x00, 0xfe, 0xff, 0xff, 0xff], [0x24, 0x10, 0x00, 0x00, 0xff, 0xff, 0xff, 0xfe], .mul32Imm 1 0xfffffffe),
      ([0x2c, 0x21, 0x00, 0x00, 0x00, 0x00, 0x00, 0x00], [0x2c, 0x12, 0x00, 0x00, 0x00, 0x00, 0x00, 0x00], .mul32Reg 1 2)] : List (List Byte × List Byte × Instr)).all readsBoth = true := by decide

theorem test_decode_arithmetic_a_2 :
    ([([0x27, 0x01, 0x00, 0x00, 0xfe, 0xff, 0xff, 0xff], [0x27, 0x10, 0x00, 0x00, 0xff, 0xff, 0xff, 0xfe], .mul64Imm 1 0xfffffffe),
      ([0x2f, 0x21, 0x00, 0x00, 0x00, 0x00, 0x00, 0x00], [0x2f, 0x12, 0x00, 0x00, 0x00, 0x00, 0x00, 0x00], .mul64Reg 1 2),
      ([0x34, 0x01, 0x00, 0x00, 0xfe, 0xff, 0xff, 0xff], [0x34, 0x10, 0x00, 0x00, 0xff, 0xff, 0xff, 0xfe], .div32Imm 1 0xfffffffe),
      ([0x3c, 0x21, 0x00, 0x00, 0x00, 0x00, 0x00, 0x00], [0x3c, 0x12, 0x00, 0x00, 0x00, 0x00, 0x00, 0x00], .div32Reg 1 2),
      ([0x37, 0x01, 0x00, 0x00, 0xfe, 0xff, 0xff, 0xff], [0x37, 0x10, 0x00, 0x00, 0xff, 0xff, 0xff, 0xfe], .div64Imm 1 0xfffffffe),
      ([0x3f, 0x21, 0x00, 0x00, 0x00, 0x00, 0x00, 0x00], [0x3f, 0x12, 0x00, 0x00, 0x00, 0x00, 0x00, 0x00], .div64Reg 1 2),
      ([0x34, 0x01, 0x01, 0x00, 0x03, 0x00, 0x00, 0x00], [0x34, 0x10, 0x00, 0x01, 0x00, 0x00, 0x00, 0x03], .sdiv32Imm 1 3),
      ([0x3c, 0x21, 0x01, 0x00, 0x00, 0x00, 0x00, 0x00], [0x3c, 0x12, 0x00, 0x01, 0x00, 0x00, 0x00, 0x00], .sdiv32Reg 1 2),
      ([0x37, 0x01, 0x01, 0x00, 0x03, 0x00, 0x00, 0x00], [0x37, 0x10, 0x00, 0x01, 0x00, 0x00, 0x00, 0x03], .sdiv64Imm 1 3),
      ([0x3f, 0x21, 0x01, 0x00, 0x00, 0x00, 0x00, 0x00], [0x3f, 0x12, 0x00, 0x01, 0x00, 0x00, 0x00, 0x00], .sdiv64Reg 1 2)] : List (List Byte × List Byte × Instr)).all readsBoth = true := by decide

/-! Rows of spec/41_arithmetic_b.md. -/

theorem test_decode_arithmetic_b_1 :
    ([([0x44, 0x01, 0x00, 0x00, 0xf0, 0xff, 0xff, 0xff], [0x44, 0x10, 0x00, 0x00, 0xff, 0xff, 0xff, 0xf0], .or32Imm 1 0xfffffff0),
      ([0x4c, 0x21, 0x00, 0x00, 0x00, 0x00, 0x00, 0x00], [0x4c, 0x12, 0x00, 0x00, 0x00, 0x00, 0x00, 0x00], .or32Reg 1 2),
      ([0x47, 0x01, 0x00, 0x00, 0xf0, 0xff, 0xff, 0xff], [0x47, 0x10, 0x00, 0x00, 0xff, 0xff, 0xff, 0xf0], .or64Imm 1 0xfffffff0),
      ([0x4f, 0x21, 0x00, 0x00, 0x00, 0x00, 0x00, 0x00], [0x4f, 0x12, 0x00, 0x00, 0x00, 0x00, 0x00, 0x00], .or64Reg 1 2),
      ([0x54, 0x01, 0x00, 0x00, 0xf0, 0xff, 0xff, 0xff], [0x54, 0x10, 0x00, 0x00, 0xff, 0xff, 0xff, 0xf0], .and32Imm 1 0xfffffff0),
      ([0x5c, 0x21, 0x00, 0x00, 0x00, 0x00, 0x00, 0x00], [0x5c, 0x12, 0x00, 0x00, 0x00, 0x00, 0x00, 0x00], .and32Reg 1 2),
      ([0x57, 0x01, 0x00, 0x00, 0xf0, 0xff, 0xff, 0xff], [0x57, 0x10, 0x00, 0x00, 0xff, 0xff, 0xff, 0xf0], .and64Imm 1 0xfffffff0),
      ([0x5f, 0x21, 0x00, 0x00, 0x00, 0x00, 0x00, 0x00], [0x5f, 0x12, 0x00, 0x00, 0x00, 0x00, 0x00, 0x00], .and64Reg 1 2)] : List (List Byte × List Byte × Instr)).all readsBoth = true := by decide

theorem test_decode_arithmetic_b_2 :
    ([([0x64, 0x01, 0x00, 0x00, 0x21, 0x00, 0x00, 0x00], [0x64, 0x10, 0x00, 0x00, 0x00, 0x00, 0x00, 0x21], .lsh32Imm 1 0x21),
      ([0x6c, 0x21, 0x00, 0x00, 0x00, 0x00, 0x00, 0x00], [0x6c, 0x12, 0x00, 0x00, 0x00, 0x00, 0x00, 0x00], .lsh32Reg 1 2),
      ([0x67, 0x01, 0x00, 0x00, 0x21, 0x00, 0x00, 0x00], [0x67, 0x10, 0x00, 0x00, 0x00, 0x00, 0x00, 0x21], .lsh64Imm 1 0x21),
      ([0x6f, 0x21, 0x00, 0x00, 0x00, 0x00, 0x00, 0x00], [0x6f, 0x12, 0x00, 0x00, 0x00, 0x00, 0x00, 0x00], .lsh64Reg 1 2),
      ([0x74, 0x01, 0x00, 0x00, 0x04, 0x00, 0x00, 0x00], [0x74, 0x10, 0x00, 0x00, 0x00, 0x00, 0x00, 0x04], .rsh32Imm 1 4),
      ([0x7c, 0x21, 0x00, 0x00, 0x00, 0x00, 0x00, 0x00], [0x7c, 0x12, 0x00, 0x00, 0x00, 0x00, 0x00, 0x00], .rsh32Reg 1 2),
      ([0x77, 0x01, 0x00, 0x00, 0x04, 0x00, 0x00, 0x00], [0x77, 0x10, 0x00, 0x00, 0x00, 0x00, 0x00, 0x04], .rsh64Imm 1 4),
      ([0x7f, 0x21, 0x00, 0x00, 0x00, 0x00, 0x00, 0x00], [0x7f, 0x12, 0x00, 0x00, 0x00, 0x00, 0x00, 0x00], .rsh64Reg 1 2),
      ([0x84, 0x01, 0x00, 0x00, 0x00, 0x00, 0x00, 0x00], [0x84, 0x10, 0x00, 0x00, 0x00, 0x00, 0x00, 0x00], .neg32 1)] : List (List Byte × List Byte × Instr)).all readsBoth = true := by decide

theorem test_decode_arithmetic_b_3 :
    ([([0x87, 0x01, 0x00, 0x00, 0x00, 0x00, 0x00, 0x00], [0x87, 0x10, 0x00, 0x00, 0x00, 0x00, 0x00, 0x00], .neg64 1),
      ([0x94, 0x01, 0x00, 0x00, 0xfe, 0xff, 0xff, 0xff], [0x94, 0x10, 0x00, 0x00, 0xff, 0xff, 0xff, 0xfe], .mod32Imm 1 0xfffffffe),
      ([0x9c, 0x21, 0x00, 0x00, 0x00, 0x00, 0x00, 0x00], [0x9c, 0x12, 0x00, 0x00, 0x00, 0x00, 0x00, 0x00], .mod32Reg 1 2),
      ([0x97, 0x01, 0x00, 0x00, 0xfe, 0xff, 0xff, 0xff], [0x97, 0x10, 0x00, 0x00, 0xff, 0xff, 0xff, 0xfe], .mod64Imm 1 0xfffffffe),
      ([0x9f, 0x21, 0x00, 0x00, 0x00, 0x00, 0x00, 0x00], [0x9f, 0x12, 0x00, 0x00, 0x00, 0x00, 0x00, 0x00], .mod64Reg 1 2),
      ([0x94, 0x01, 0x01, 0x00, 0x03, 0x00, 0x00, 0x00], [0x94, 0x10, 0x00, 0x01, 0x00, 0x00, 0x00, 0x03], .smod32Imm 1 3),
      ([0x9c, 0x21, 0x01, 0x00, 0x00, 0x00, 0x00, 0x00], [0x9c, 0x12, 0x00, 0x01, 0x00, 0x00, 0x00, 0x00], .smod32Reg 1 2),
      ([0x97, 0x01, 0x01, 0x00, 0x03, 0x00, 0x00, 0x00], [0x97, 0x10, 0x00, 0x01, 0x00, 0x00, 0x00, 0x03], .smod64Imm 1 3),
      ([0x9f, 0x21, 0x01, 0x00, 0x00, 0x00, 0x00, 0x00], [0x9f, 0x12, 0x00, 0x01, 0x00, 0x00, 0x00, 0x00], .smod64Reg 1 2)] : List (List Byte × List Byte × Instr)).all readsBoth = true := by decide

/-! Rows of spec/42_arithmetic_c.md. -/

theorem test_decode_arithmetic_c_1 :
    ([([0xa4, 0x01, 0x00, 0x00, 0xff, 0xff, 0xff, 0xff], [0xa4, 0x10, 0x00, 0x00, 0xff, 0xff, 0xff, 0xff], .xor32Imm 1 0xffffffff),
      ([0xac, 0x21, 0x00, 0x00, 0x00, 0x00, 0x00, 0x00], [0xac, 0x12, 0x00, 0x00, 0x00, 0x00, 0x00, 0x00], .xor32Reg 1 2),
      ([0xa7, 0x01, 0x00, 0x00, 0xff, 0xff, 0xff, 0xff], [0xa7, 0x10, 0x00, 0x00, 0xff, 0xff, 0xff, 0xff], .xor64Imm 1 0xffffffff),
      ([0xaf, 0x21, 0x00, 0x00, 0x00, 0x00, 0x00, 0x00], [0xaf, 0x12, 0x00, 0x00, 0x00, 0x00, 0x00, 0x00], .xor64Reg 1 2),
      ([0xb4, 0x01, 0x00, 0x00, 0xff, 0xff, 0xff, 0xff], [0xb4, 0x10, 0x00, 0x00, 0xff, 0xff, 0xff, 0xff], .mov32Imm 1 0xffffffff),
      ([0xbc, 0x21, 0x00, 0x00, 0x00, 0x00, 0x00, 0x00], [0xbc, 0x12, 0x00, 0x00, 0x00, 0x00, 0x00, 0x00], .mov32Reg 1 2),
      ([0xb7, 0x01, 0x00, 0x00, 0xff, 0xff, 0xff, 0xff], [0xb7, 0x10, 0x00, 0x00, 0xff, 0xff, 0xff, 0xff], .mov64Imm 1 0xffffffff),
      ([0xbf, 0x21, 0x00, 0x00, 0x00, 0x00, 0x00, 0x00], [0xbf, 0x12, 0x00, 0x00, 0x00, 0x00, 0x00, 0x00], .mov64Reg 1 2)] : List (List Byte × List Byte × Instr)).all readsBoth = true := by decide

theorem test_decode_arithmetic_c_2 :
    ([([0xbc, 0x21, 0x08, 0x00, 0x00, 0x00, 0x00, 0x00], [0xbc, 0x12, 0x00, 0x08, 0x00, 0x00, 0x00, 0x00], .movsx32x8 1 2),
      ([0xbc, 0x21, 0x10, 0x00, 0x00, 0x00, 0x00, 0x00], [0xbc, 0x12, 0x00, 0x10, 0x00, 0x00, 0x00, 0x00], .movsx32x16 1 2),
      ([0xbf, 0x21, 0x08, 0x00, 0x00, 0x00, 0x00, 0x00], [0xbf, 0x12, 0x00, 0x08, 0x00, 0x00, 0x00, 0x00], .movsx64x8 1 2),
      ([0xbf, 0x21, 0x10, 0x00, 0x00, 0x00, 0x00, 0x00], [0xbf, 0x12, 0x00, 0x10, 0x00, 0x00, 0x00, 0x00], .movsx64x16 1 2),
      ([0xbf, 0x21, 0x20, 0x00, 0x00, 0x00, 0x00, 0x00], [0xbf, 0x12, 0x00, 0x20, 0x00, 0x00, 0x00, 0x00], .movsx64x32 1 2),
      ([0xc4, 0x01, 0x00, 0x00, 0x04, 0x00, 0x00, 0x00], [0xc4, 0x10, 0x00, 0x00, 0x00, 0x00, 0x00, 0x04], .arsh32Imm 1 4),
      ([0xcc, 0x21, 0x00, 0x00, 0x00, 0x00, 0x00, 0x00], [0xcc, 0x12, 0x00, 0x00, 0x00, 0x00, 0x00, 0x00], .arsh32Reg 1 2),
      ([0xc7, 0x01, 0x00, 0x00, 0x04, 0x00, 0x00, 0x00], [0xc7, 0x10, 0x00, 0x00, 0x00, 0x00, 0x00, 0x04], .arsh64Imm 1 4),
      ([0xcf, 0x21, 0x00, 0x00, 0x00, 0x00, 0x00, 0x00], [0xcf, 0x12, 0x00, 0x00, 0x00, 0x00, 0x00, 0x00], .arsh64Reg 1 2)] : List (List Byte × List Byte × Instr)).all readsBoth = true := by decide

/-! Rows of spec/43_byteswap.md. -/

theorem test_decode_byteswap :
    ([([0xd4, 0x01, 0x00, 0x00, 0x10, 0x00, 0x00, 0x00], [0xd4, 0x10, 0x00, 0x00, 0x00, 0x00, 0x00, 0x10], .le16 1),
      ([0xd4, 0x01, 0x00, 0x00, 0x20, 0x00, 0x00, 0x00], [0xd4, 0x10, 0x00, 0x00, 0x00, 0x00, 0x00, 0x20], .le32 1),
      ([0xd4, 0x01, 0x00, 0x00, 0x40, 0x00, 0x00, 0x00], [0xd4, 0x10, 0x00, 0x00, 0x00, 0x00, 0x00, 0x40], .le64 1),
      ([0xdc, 0x01, 0x00, 0x00, 0x10, 0x00, 0x00, 0x00], [0xdc, 0x10, 0x00, 0x00, 0x00, 0x00, 0x00, 0x10], .be16 1),
      ([0xdc, 0x01, 0x00, 0x00, 0x20, 0x00, 0x00, 0x00], [0xdc, 0x10, 0x00, 0x00, 0x00, 0x00, 0x00, 0x20], .be32 1),
      ([0xdc, 0x01, 0x00, 0x00, 0x40, 0x00, 0x00, 0x00], [0xdc, 0x10, 0x00, 0x00, 0x00, 0x00, 0x00, 0x40], .be64 1),
      ([0xd7, 0x01, 0x00, 0x00, 0x10, 0x00, 0x00, 0x00], [0xd7, 0x10, 0x00, 0x00, 0x00, 0x00, 0x00, 0x10], .bswap16 1),
      ([0xd7, 0x01, 0x00, 0x00, 0x20, 0x00, 0x00, 0x00], [0xd7, 0x10, 0x00, 0x00, 0x00, 0x00, 0x00, 0x20], .bswap32 1),
      ([0xd7, 0x01, 0x00, 0x00, 0x40, 0x00, 0x00, 0x00], [0xd7, 0x10, 0x00, 0x00, 0x00, 0x00, 0x00, 0x40], .bswap64 1)] : List (List Byte × List Byte × Instr)).all readsBoth = true := by decide

/-! Rows of spec/44_jump_a.md. -/

theorem test_decode_jump_a_1 :
    ([([0x05, 0x00, 0x03, 0x00, 0x00, 0x00, 0x00, 0x00], [0x05, 0x00, 0x00, 0x03, 0x00, 0x00, 0x00, 0x00], .ja 3),
      ([0x06, 0x00, 0x00, 0x00, 0x03, 0x00, 0x00, 0x00], [0x06, 0x00, 0x00, 0x00, 0x00, 0x00, 0x00, 0x03], .ja32 3),
      ([0x15, 0x01, 0x03, 0x00, 0x05, 0x00, 0x00, 0x00], [0x15, 0x10, 0x00, 0x03, 0x00, 0x00, 0x00, 0x05], .jeq64Imm 1 3 5),
      ([0x1d, 0x21, 0x03, 0x00, 0x00, 0x00, 0x00, 0x00], [0x1d, 0x12, 0x00, 0x03, 0x00, 0x00, 0x00, 0x00], .jeq64Reg 1 2 3),
      ([0x16, 0x01, 0x03, 0x00, 0x05, 0x00, 0x00, 0x00], [0x16, 0x10, 0x00, 0x03, 0x00, 0x00, 0x00, 0x05], .jeq32Imm 1 3 5),
      ([0x1e, 0x21, 0x03, 0x00, 0x00, 0x00, 0x00, 0x00], [0x1e, 0x12, 0x00, 0x03, 0x00, 0x00, 0x00, 0x00], .jeq32Reg 1 2 3),
      ([0x25, 0x01, 0x03, 0x00, 0x01, 0x00, 0x00, 0x00], [0x25, 0x10, 0x00, 0x03, 0x00, 0x00, 0x00, 0x01], .jgt64Imm 1 3 1),
      ([0x2d, 0x21, 0x03, 0x00, 0x00, 0x00, 0x00, 0x00], [0x2d, 0x12, 0x00, 0x03, 0x00, 0x00, 0x00, 0x00], .jgt64Reg 1 2 3),
      ([0x26, 0x01, 0x03, 0x00, 0x01, 0x00, 0x00, 0x00], [0x26, 0x10, 0x00, 0x03, 0x00, 0x00, 0x00, 0x01], .jgt32Imm 1 3 1),
      ([0x2e, 0x21, 0x03, 0x00, 0x00, 0x00, 0x00, 0x00], [0x2e, 0x12, 0x00, 0x03, 0x00, 0x00, 0x00, 0x00], .jgt32Reg 1 2 3)] : List (List Byte × List Byte × Instr)).all readsBoth = true := by decide

theorem test_decode_jump_a_2 :
    ([([0x35, 0x01, 0x03, 0x00, 0x05, 0x00, 0x00, 0x00], [0x35, 0x10, 0x00, 0x03, 0x00, 0x00, 0x00, 0x05], .jge64Imm 1 3 5),
      ([0x3d, 0x21, 0x03, 0x00, 0x00, 0x00, 0x00, 0x00], [0x3d, 0x12, 0x00, 0x03, 0x00, 0x00, 0x00, 0x00], .jge64Reg 1 2 3),
      ([0x36, 0x01, 0x03, 0x00, 0x05, 0x00, 0x00, 0x00], [0x36, 0x10, 0x00, 0x03, 0x00, 0x00, 0x00, 0x05], .jge32Imm 1 3 5),
      ([0x3e, 0x21, 0x03, 0x00, 0x00, 0x00, 0x00, 0x00], [0x3e, 0x12, 0x00, 0x03, 0x00, 0x00, 0x00, 0x00], .jge32Reg 1 2 3),
      ([0x45, 0x01, 0x03, 0x00, 0xff, 0xff, 0xff, 0xff], [0x45, 0x10, 0x00, 0x03, 0xff, 0xff, 0xff, 0xff], .jset64Imm 1 3 0xffffffff),
      ([0x4d, 0x21, 0x03, 0x00, 0x00, 0x00, 0x00, 0x00], [0x4d, 0x12, 0x00, 0x03, 0x00, 0x00, 0x00, 0x00], .jset64Reg 1 2 3),
      ([0x46, 0x01, 0x03, 0x00, 0xff, 0xff, 0xff, 0xff], [0x46, 0x10, 0x00, 0x03, 0xff, 0xff, 0xff, 0xff], .jset32Imm 1 3 0xffffffff),
      ([0x4e, 0x21, 0x03, 0x00, 0x00, 0x00, 0x00, 0x00], [0x4e, 0x12, 0x00, 0x03, 0x00, 0x00, 0x00, 0x00], .jset32Reg 1 2 3),
      ([0x55, 0x01, 0x03, 0x00, 0x05, 0x00, 0x00, 0x00], [0x55, 0x10, 0x00, 0x03, 0x00, 0x00, 0x00, 0x05], .jne64Imm 1 3 5),
      ([0x5d, 0x21, 0x03, 0x00, 0x00, 0x00, 0x00, 0x00], [0x5d, 0x12, 0x00, 0x03, 0x00, 0x00, 0x00, 0x00], .jne64Reg 1 2 3)] : List (List Byte × List Byte × Instr)).all readsBoth = true := by decide

theorem test_decode_jump_a_3 :
    ([([0x56, 0x01, 0x03, 0x00, 0x05, 0x00, 0x00, 0x00], [0x56, 0x10, 0x00, 0x03, 0x00, 0x00, 0x00, 0x05], .jne32Imm 1 3 5),
      ([0x5e, 0x21, 0x03, 0x00, 0x00, 0x00, 0x00, 0x00], [0x5e, 0x12, 0x00, 0x03, 0x00, 0x00, 0x00, 0x00], .jne32Reg 1 2 3),
      ([0x65, 0x01, 0x03, 0x00, 0x01, 0x00, 0x00, 0x00], [0x65, 0x10, 0x00, 0x03, 0x00, 0x00, 0x00, 0x01], .jsgt64Imm 1 3 1),
      ([0x6d, 0x21, 0x03, 0x00, 0x00, 0x00, 0x00, 0x00], [0x6d, 0x12, 0x00, 0x03, 0x00, 0x00, 0x00, 0x00], .jsgt64Reg 1 2 3),
      ([0x66, 0x01, 0x03, 0x00, 0x01, 0x00, 0x00, 0x00], [0x66, 0x10, 0x00, 0x03, 0x00, 0x00, 0x00, 0x01], .jsgt32Imm 1 3 1),
      ([0x6e, 0x21, 0x03, 0x00, 0x00, 0x00, 0x00, 0x00], [0x6e, 0x12, 0x00, 0x03, 0x00, 0x00, 0x00, 0x00], .jsgt32Reg 1 2 3),
      ([0x75, 0x01, 0x03, 0x00, 0xff, 0xff, 0xff, 0xff], [0x75, 0x10, 0x00, 0x03, 0xff, 0xff, 0xff, 0xff], .jsge64Imm 1 3 0xffffffff),
      ([0x7d, 0x21, 0x03, 0x00, 0x00, 0x00, 0x00, 0x00], [0x7d, 0x12, 0x00, 0x03, 0x00, 0x00, 0x00, 0x00], .jsge64Reg 1 2 3),
      ([0x76, 0x01, 0x03, 0x00, 0xff, 0xff, 0xff, 0xff], [0x76, 0x10, 0x00, 0x03, 0xff, 0xff, 0xff, 0xff], .jsge32Imm 1 3 0xffffffff),
      ([0x7e, 0x21, 0x03, 0x00, 0x00, 0x00, 0x00, 0x00], [0x7e, 0x12, 0x00, 0x03, 0x00, 0x00, 0x00, 0x00], .jsge32Reg 1 2 3)] : List (List Byte × List Byte × Instr)).all readsBoth = true := by decide

/-! Rows of spec/45_jump_b.md. -/

theorem test_decode_jump_b_1 :
    ([([0xa5, 0x01, 0x03, 0x00, 0xff, 0xff, 0xff, 0xff], [0xa5, 0x10, 0x00, 0x03, 0xff, 0xff, 0xff, 0xff], .jlt64Imm 1 3 0xffffffff),
      ([0xad, 0x21, 0x03, 0x00, 0x00, 0x00, 0x00, 0x00], [0xad, 0x12, 0x00, 0x03, 0x00, 0x00, 0x00, 0x00], .jlt64Reg 1 2 3),
      ([0xa6, 0x01, 0x03, 0x00, 0xff, 0xff, 0xff, 0xff], [0xa6, 0x10, 0x00, 0x03, 0xff, 0xff, 0xff, 0xff], .jlt32Imm 1 3 0xffffffff),
      ([0xae, 0x21, 0x03, 0x00, 0x00, 0x00, 0x00, 0x00], [0xae, 0x12, 0x00, 0x03, 0x00, 0x00, 0x00, 0x00], .jlt32Reg 1 2 3),
      ([0xb5, 0x01, 0x03, 0x00, 0x05, 0x00, 0x00, 0x00], [0xb5, 0x10, 0x00, 0x03, 0x00, 0x00, 0x00, 0x05], .jle64Imm 1 3 5),
      ([0xbd, 0x21, 0x03, 0x00, 0x00, 0x00, 0x00, 0x00], [0xbd, 0x12, 0x00, 0x03, 0x00, 0x00, 0x00, 0x00], .jle64Reg 1 2 3),
      ([0xb6, 0x01, 0x03, 0x00, 0x05, 0x00, 0x00, 0x00], [0xb6, 0x10, 0x00, 0x03, 0x00, 0x00, 0x00, 0x05], .jle32Imm 1 3 5),
      ([0xbe, 0x21, 0x03, 0x00, 0x00, 0x00, 0x00, 0x00], [0xbe, 0x12, 0x00, 0x03, 0x00, 0x00, 0x00, 0x00], .jle32Reg 1 2 3),
      ([0xc5, 0x01, 0x03, 0x00, 0x01, 0x00, 0x00, 0x00], [0xc5, 0x10, 0x00, 0x03, 0x00, 0x00, 0x00, 0x01], .jslt64Imm 1 3 1),
      ([0xcd, 0x21, 0x03, 0x00, 0x00, 0x00, 0x00, 0x00], [0xcd, 0x12, 0x00, 0x03, 0x00, 0x00, 0x00, 0x00], .jslt64Reg 1 2 3)] : List (List Byte × List Byte × Instr)).all readsBoth = true := by decide

theorem test_decode_jump_b_2 :
    ([([0xc6, 0x01, 0x03, 0x00, 0x01, 0x00, 0x00, 0x00], [0xc6, 0x10, 0x00, 0x03, 0x00, 0x00, 0x00, 0x01], .jslt32Imm 1 3 1),
      ([0xce, 0x21, 0x03, 0x00, 0x00, 0x00, 0x00, 0x00], [0xce, 0x12, 0x00, 0x03, 0x00, 0x00, 0x00, 0x00], .jslt32Reg 1 2 3),
      ([0xd5, 0x01, 0x03, 0x00, 0xff, 0xff, 0xff, 0xff], [0xd5, 0x10, 0x00, 0x03, 0xff, 0xff, 0xff, 0xff], .jsle64Imm 1 3 0xffffffff),
      ([0xdd, 0x21, 0x03, 0x00, 0x00, 0x00, 0x00, 0x00], [0xdd, 0x12, 0x00, 0x03, 0x00, 0x00, 0x00, 0x00], .jsle64Reg 1 2 3),
      ([0xd6, 0x01, 0x03, 0x00, 0xff, 0xff, 0xff, 0xff], [0xd6, 0x10, 0x00, 0x03, 0xff, 0xff, 0xff, 0xff], .jsle32Imm 1 3 0xffffffff),
      ([0xde, 0x21, 0x03, 0x00, 0x00, 0x00, 0x00, 0x00], [0xde, 0x12, 0x00, 0x03, 0x00, 0x00, 0x00, 0x00], .jsle32Reg 1 2 3),
      ([0x85, 0x00, 0x00, 0x00, 0x07, 0x00, 0x00, 0x00], [0x85, 0x00, 0x00, 0x00, 0x00, 0x00, 0x00, 0x07], .callHelper 7),
      ([0x85, 0x10, 0x00, 0x00, 0x05, 0x00, 0x00, 0x00], [0x85, 0x01, 0x00, 0x00, 0x00, 0x00, 0x00, 0x05], .callLocal 5),
      ([0x85, 0x20, 0x00, 0x00, 0x07, 0x00, 0x00, 0x00], [0x85, 0x02, 0x00, 0x00, 0x00, 0x00, 0x00, 0x07], .callBtf 7),
      ([0x95, 0x00, 0x00, 0x00, 0x00, 0x00, 0x00, 0x00], [0x95, 0x00, 0x00, 0x00, 0x00, 0x00, 0x00, 0x00], .exit)] : List (List Byte × List Byte × Instr)).all readsBoth = true := by decide

/-! Rows of spec/46_load_store.md. -/

theorem test_decode_load_store_1 :
    ([([0x61, 0x21, 0xf8, 0xff, 0x00, 0x00, 0x00, 0x00], [0x61, 0x12, 0xff, 0xf8, 0x00, 0x00, 0x00, 0x00], .ldxw 1 2 0xfff8),
      ([0x69, 0x21, 0xf8, 0xff, 0x00, 0x00, 0x00, 0x00], [0x69, 0x12, 0xff, 0xf8, 0x00, 0x00, 0x00, 0x00], .ldxh 1 2 0xfff8),
      ([0x71, 0x21, 0xf8, 0xff, 0x00, 0x00, 0x00, 0x00], [0x71, 0x12, 0xff, 0xf8, 0x00, 0x00, 0x00, 0x00], .ldxb 1 2 0xfff8),
      ([0x79, 0x21, 0xf8, 0xff, 0x00, 0x00, 0x00, 0x00], [0x79, 0x12, 0xff, 0xf8, 0x00, 0x00, 0x00, 0x00], .ldxdw 1 2 0xfff8),
      ([0x62, 0x01, 0x10, 0x00, 0xfe, 0xff, 0xff, 0xff], [0x62, 0x10, 0x00, 0x10, 0xff, 0xff, 0xff, 0xfe], .stw 1 0x10 0xfffffffe),
      ([0x6a, 0x01, 0x10, 0x00, 0x78, 0x56, 0x34, 0x12], [0x6a, 0x10, 0x00, 0x10, 0x12, 0x34, 0x56, 0x78], .sth 1 0x10 0x12345678),
      ([0x72, 0x01, 0x10, 0x00, 0xfe, 0xff, 0xff, 0xff], [0x72, 0x10, 0x00, 0x10, 0xff, 0xff, 0xff, 0xfe], .stb 1 0x10 0xfffffffe)] : List (List Byte × List Byte × Instr)).all readsBoth = true := by decide

theorem test_decode_load_store_2 :
    ([([0x7a, 0x01, 0x10, 0x00, 0xfe, 0xff, 0xff, 0xff], [0x7a, 0x10, 0x00, 0x10, 0xff, 0xff, 0xff, 0xfe], .stdw 1 0x10 0xfffffffe),
      ([0x63, 0x21, 0x10, 0x00, 0x00, 0x00, 0x00, 0x00], [0x63, 0x12, 0x00, 0x10, 0x00, 0x00, 0x00, 0x00], .stxw 1 2 0x10),
      ([0x6b, 0x21, 0x10, 0x00, 0x00, 0x00, 0x00, 0x00], [0x6b, 0x12, 0x00, 0x10, 0x00, 0x00, 0x00, 0x00], .stxh 1 2 0x10),
      ([0x73, 0x21, 0x10, 0x00, 0x00, 0x00, 0x00, 0x00], [0x73, 0x12, 0x00, 0x10, 0x00, 0x00, 0x00, 0x00], .stxb 1 2 0x10),
      ([0x7b, 0x21, 0x10, 0x00, 0x00, 0x00, 0x00, 0x00], [0x7b, 0x12, 0x00, 0x10, 0x00, 0x00, 0x00, 0x00], .stxdw 1 2 0x10),
      ([0x81, 0x21, 0xf8, 0xff, 0x00, 0x00, 0x00, 0x00], [0x81, 0x12, 0xff, 0xf8, 0x00, 0x00, 0x00, 0x00], .ldxsw 1 2 0xfff8),
      ([0x89, 0x21, 0xf8, 0xff, 0x00, 0x00, 0x00, 0x00], [0x89, 0x12, 0xff, 0xf8, 0x00, 0x00, 0x00, 0x00], .ldxsh 1 2 0xfff8),
      ([0x91, 0x21, 0xf8, 0xff, 0x00, 0x00, 0x00, 0x00], [0x91, 0x12, 0xff, 0xf8, 0x00, 0x00, 0x00, 0x00], .ldxsb 1 2 0xfff8)] : List (List Byte × List Byte × Instr)).all readsBoth = true := by decide

/-! Rows of spec/47_atomic.md. -/

theorem test_decode_atomic_1 :
    ([([0xc3, 0x21, 0x10, 0x00, 0x00, 0x00, 0x00, 0x00], [0xc3, 0x12, 0x00, 0x10, 0x00, 0x00, 0x00, 0x00], .atomicAdd32 1 2 0x10),
      ([0xc3, 0x21, 0x10, 0x00, 0x01, 0x00, 0x00, 0x00], [0xc3, 0x12, 0x00, 0x10, 0x00, 0x00, 0x00, 0x01], .atomicFetchAdd32 1 2 0x10),
      ([0xc3, 0x21, 0x10, 0x00, 0x40, 0x00, 0x00, 0x00], [0xc3, 0x12, 0x00, 0x10, 0x00, 0x00, 0x00, 0x40], .atomicOr32 1 2 0x10),
      ([0xc3, 0x21, 0x10, 0x00, 0x41, 0x00, 0x00, 0x00], [0xc3, 0x12, 0x00, 0x10, 0x00, 0x00, 0x00, 0x41], .atomicFetchOr32 1 2 0x10),
      ([0xc3, 0x21, 0x10, 0x00, 0x50, 0x00, 0x00, 0x00], [0xc3, 0x12, 0x00, 0x10, 0x00, 0x00, 0x00, 0x50], .atomicAnd32 1 2 0x10),
      ([0xc3, 0x21, 0x10, 0x00, 0x51, 0x00, 0x00, 0x00], [0xc3, 0x12, 0x00, 0x10, 0x00, 0x00, 0x00, 0x51], .atomicFetchAnd32 1 2 0x10),
      ([0xc3, 0x21, 0x10, 0x00, 0xa0, 0x00, 0x00, 0x00], [0xc3, 0x12, 0x00, 0x10, 0x00, 0x00, 0x00, 0xa0], .atomicXor32 1 2 0x10),
      ([0xc3, 0x21, 0x10, 0x00, 0xa1, 0x00, 0x00, 0x00], [0xc3, 0x12, 0x00, 0x10, 0x00, 0x00, 0x00, 0xa1], .atomicFetchXor32 1 2 0x10),
      ([0xc3, 0x21, 0x10, 0x00, 0xe1, 0x00, 0x00, 0x00], [0xc3, 0x12, 0x00, 0x10, 0x00, 0x00, 0x00, 0xe1], .atomicXchg32 1 2 0x10),
      ([0xc3, 0x21, 0x10, 0x00, 0xf1, 0x00, 0x00, 0x00], [0xc3, 0x12, 0x00, 0x10, 0x00, 0x00, 0x00, 0xf1], .atomicCmpxchg32 1 2 0x10)] : List (List Byte × List Byte × Instr)).all readsBoth = true := by decide

theorem test_decode_atomic_2 :
    ([([0xdb, 0x21, 0x10, 0x00, 0x00, 0x00, 0x00, 0x00], [0xdb, 0x12, 0x00, 0x10, 0x00, 0x00, 0x00, 0x00], .atomicAdd64 1 2 0x10),
      ([0xdb, 0x21, 0x10, 0x00, 0x01, 0x00, 0x00, 0x00], [0xdb, 0x12, 0x00, 0x10, 0x00, 0x00, 0x00, 0x01], .atomicFetchAdd64 1 2 0x10),
      ([0xdb, 0x21, 0x10, 0x00, 0x40, 0x00, 0x00, 0x00], [0xdb, 0x12, 0x00, 0x10, 0x00, 0x00, 0x00, 0x40], .atomicOr64 1 2 0x10),
      ([0xdb, 0x21, 0x10, 0x00, 0x41, 0x00, 0x00, 0x00], [0xdb, 0x12, 0x00, 0x10, 0x00, 0x00, 0x00, 0x41], .atomicFetchOr64 1 2 0x10),
      ([0xdb, 0x21, 0x10, 0x00, 0x50, 0x00, 0x00, 0x00], [0xdb, 0x12, 0x00, 0x10, 0x00, 0x00, 0x00, 0x50], .atomicAnd64 1 2 0x10),
      ([0xdb, 0x21, 0x10, 0x00, 0x51, 0x00, 0x00, 0x00], [0xdb, 0x12, 0x00, 0x10, 0x00, 0x00, 0x00, 0x51], .atomicFetchAnd64 1 2 0x10),
      ([0xdb, 0x21, 0x10, 0x00, 0xa0, 0x00, 0x00, 0x00], [0xdb, 0x12, 0x00, 0x10, 0x00, 0x00, 0x00, 0xa0], .atomicXor64 1 2 0x10),
      ([0xdb, 0x21, 0x10, 0x00, 0xa1, 0x00, 0x00, 0x00], [0xdb, 0x12, 0x00, 0x10, 0x00, 0x00, 0x00, 0xa1], .atomicFetchXor64 1 2 0x10),
      ([0xdb, 0x21, 0x10, 0x00, 0xe1, 0x00, 0x00, 0x00], [0xdb, 0x12, 0x00, 0x10, 0x00, 0x00, 0x00, 0xe1], .atomicXchg64 1 2 0x10),
      ([0xdb, 0x21, 0x10, 0x00, 0xf1, 0x00, 0x00, 0x00], [0xdb, 0x12, 0x00, 0x10, 0x00, 0x00, 0x00, 0xf1], .atomicCmpxchg64 1 2 0x10)] : List (List Byte × List Byte × Instr)).all readsBoth = true := by decide

/-! Rows of spec/48_imm64.md. -/

theorem test_decode_imm64 :
    ([([0x18, 0x01, 0x00, 0x00, 0x01, 0x00, 0x00, 0x80, 0x00, 0x00, 0x00, 0x00, 0x44, 0x33, 0x22, 0x11], [0x18, 0x10, 0x00, 0x00, 0x80, 0x00, 0x00, 0x01, 0x00, 0x00, 0x00, 0x00, 0x11, 0x22, 0x33, 0x44], .lddw 1 0x80000001 0x11223344),
      ([0x18, 0x11, 0x00, 0x00, 0x03, 0x00, 0x00, 0x00, 0x00, 0x00, 0x00, 0x00, 0x00, 0x00, 0x00, 0x00], [0x18, 0x11, 0x00, 0x00, 0x00, 0x00, 0x00, 0x03, 0x00, 0x00, 0x00, 0x00, 0x00, 0x00, 0x00, 0x00], .ldMapFd 1 3),
      ([0x18, 0x21, 0x00, 0x00, 0x03, 0x00, 0x00, 0x00, 0x00, 0x00, 0x00, 0x00, 0x10, 0x00, 0x00, 0x00], [0x18, 0x12, 0x00, 0x00, 0x00, 0x00, 0x00, 0x03, 0x00, 0x00, 0x00, 0x00, 0x00, 0x00, 0x00, 0x10], .ldMapValFd 1 3 0x10),
      ([0x18, 0x31, 0x00, 0x00, 0x09, 0x00, 0x00, 0x00, 0x00, 0x00, 0x00, 0x00, 0x00, 0x00, 0x00, 0x00], [0x18, 0x13, 0x00, 0x00, 0x00, 0x00, 0x00, 0x09, 0x00, 0x00, 0x00, 0x00, 0x00, 0x00, 0x00, 0x00], .ldVarAddr 1 9),
      ([0x18, 0x41, 0x00, 0x00, 0x04, 0x00, 0x00, 0x00, 0x00, 0x00, 0x00, 0x00, 0x00, 0x00, 0x00, 0x00], [0x18, 0x14, 0x00, 0x00, 0x00, 0x00, 0x00, 0x04, 0x00, 0x00, 0x00, 0x00, 0x00, 0x00, 0x00, 0x00], .ldCodeAddr 1 4),
      ([0x18, 0x51, 0x00, 0x00, 0x00, 0x00, 0x00, 0x00, 0x00, 0x00, 0x00, 0x00, 0x00, 0x00, 0x00, 0x00], [0x18, 0x15, 0x00, 0x00, 0x00, 0x00, 0x00, 0x00, 0x00, 0x00, 0x00, 0x00, 0x00, 0x00, 0x00, 0x00], .ldMapIdx 1 0),
      ([0x18, 0x61, 0x00, 0x00, 0x00, 0x00, 0x00, 0x00, 0x00, 0x00, 0x00, 0x00, 0x10, 0x00, 0x00, 0x00], [0x18, 0x16, 0x00, 0x00, 0x00, 0x00, 0x00, 0x00, 0x00, 0x00, 0x00, 0x00, 0x00, 0x00, 0x00, 0x10], .ldMapValIdx 1 0 0x10),
      ([0x00, 0x00, 0x00, 0x00, 0x44, 0x33, 0x22, 0x11], [0x00, 0x00, 0x00, 0x00, 0x11, 0x22, 0x33, 0x44], .imm64Hi 0x11223344)] : List (List Byte × List Byte × Instr)).all readsBoth = true := by decide

/-! Rows of spec/49_packet.md. -/

theorem test_decode_packet :
    ([([0x20, 0x00, 0x00, 0x00, 0x0e, 0x00, 0x00, 0x00], [0x20, 0x00, 0x00, 0x00, 0x00, 0x00, 0x00, 0x0e], .ldAbsW 0xe),
      ([0x28, 0x00, 0x00, 0x00, 0x0e, 0x00, 0x00, 0x00], [0x28, 0x00, 0x00, 0x00, 0x00, 0x00, 0x00, 0x0e], .ldAbsH 0xe),
      ([0x30, 0x00, 0x00, 0x00, 0x0e, 0x00, 0x00, 0x00], [0x30, 0x00, 0x00, 0x00, 0x00, 0x00, 0x00, 0x0e], .ldAbsB 0xe),
      ([0x40, 0x20, 0x00, 0x00, 0x0e, 0x00, 0x00, 0x00], [0x40, 0x02, 0x00, 0x00, 0x00, 0x00, 0x00, 0x0e], .ldIndW 2 0xe),
      ([0x48, 0x20, 0x00, 0x00, 0x0e, 0x00, 0x00, 0x00], [0x48, 0x02, 0x00, 0x00, 0x00, 0x00, 0x00, 0x0e], .ldIndH 2 0xe),
      ([0x50, 0x20, 0x00, 0x00, 0x0e, 0x00, 0x00, 0x00], [0x50, 0x02, 0x00, 0x00, 0x00, 0x00, 0x00, 0x0e], .ldIndB 2 0xe)] : List (List Byte × List Byte × Instr)).all readsBoth = true := by decide

/-! Encodings the spec refuses (spec/30_encoding.md R108, R119 to R121). -/

theorem test_decode_refuses :
    decode .little (slotsOf [0x04, 0x0b, 0, 0, 1, 0, 0, 0]) = .error .noSuchRegister ∧
    decode .little (slotsOf [0x04, 0x11, 0, 0, 1, 0, 0, 0]) = .error .unusedField ∧
    decode .little (slotsOf [0x34, 0x01, 2, 0, 1, 0, 0, 0]) = .error .offsetSelector ∧
    decode .little (slotsOf [0xc3, 0x21, 0, 0, 2, 0, 0, 0]) = .error .immSelector ∧
    decode .little (slotsOf [0x85, 0x30, 0, 0, 0, 0, 0, 0]) = .error .srcSelector ∧
    decode .little (slotsOf [0x18, 0x01, 0, 0, 1, 0, 0, 0]) = .error .missingSecondSlot ∧
    decode .little (slotsOf [0x8c, 0, 0, 0, 0, 0, 0, 0]) = .error .unassignedOpcode := by decide

/-! ## The value examples -/

/-- A small state at slot 4: one readable and writable region of 64 bytes from 0x1000, some registers, some bytes. -/
def small (e : Endian) (given : List (Reg × W64)) (mem : Memory) : State :=
  State.launch { Params.default with hostEndian := e, regions := [⟨0x1000, 64, true, true, false⟩] } 4 given mem []

/-- R1, R2 and R0 of a state, with NoValue for none. -/
def withR12 (x1 : Option W64) (x2 : W64) : List (Reg × W64) :=
  match x1 with
  | some v => [(1, v), (2, x2)]
  | none => [(2, x2)]

/-- After the instruction R1 holds a value and the pc is at slot 5. -/
def givesR1 (i : Instr) (s : State) (v : W64) : Bool :=
  match exec i s with
  | .next t => decide (t.reg 1 = some v) && decide (t.pc = 5) && decide (t.out = .running)
  | .fault _ => false
  | .refused _ => false

/-- A row: the instruction, R1 and R2 before, R1 after on a little-endian and on a big-endian host. -/
def givesBoth (row : Instr × Option W64 × W64 × W64 × W64) : Bool :=
  givesR1 row.1 (small .little (withR12 row.2.1 row.2.2.1) []) row.2.2.2.1 &&
    givesR1 row.1 (small .big (withR12 row.2.1 row.2.2.1) []) row.2.2.2.2

/-- A row: the instruction, R1 and R2 before, the pc after. -/
def goesTo (row : Instr × W64 × W64 × Int) : Bool :=
  match exec row.1 (small .little (withR12 (some row.2.1) row.2.2.1) []) with
  | .next t => decide (t.pc = row.2.2.2) && decide (t.out = .running)
  | .fault _ => false
  | .refused _ => false

theorem test_value_arithmetic_a_1 :
    ([(.add32Imm 1 1, some 0x1ffffffff, 0, 0, 0),
      (.add32Imm 1 0xffffffff, some 5, 0, 4, 4),
      (.add32Reg 1 2, some 0xffffffffffffffff, 0x100000002, 1, 1),
      (.add64Imm 1 1, some 0x1ffffffff, 0, 0x200000000, 0x200000000),
      (.add64Imm 1 0xffffffff, some 5, 0, 4, 4),
      (.add64Reg 1 2, some 0xffffffffffffffff, 0x100000002, 0x100000001, 0x100000001),
      (.sub32Imm 1 1, some 0, 0, 0xffffffff, 0xffffffff),
      (.sub32Reg 1 2, some 0x500000003, 4, 0xffffffff, 0xffffffff),
      (.sub32Reg 1 1, some 0x123456789abcdef0, 0, 0, 0),
      (.sub64Imm 1 1, some 0, 0, 0xffffffffffffffff, 0xffffffffffffffff),
      (.sub64Reg 1 2, some 0x500000003, 4, 0x4ffffffff, 0x4ffffffff)] : List (Instr × Option W64 × W64 × W64 × W64)).all givesBoth = true := by decide

theorem test_value_arithmetic_a_2 :
    ([(.sub64Reg 1 1, some 0x123456789abcdef0, 0, 0, 0),
      (.mul32Imm 1 0xfffffffe, some 0x180000000, 0, 0, 0),
      (.mul32Reg 1 2, some 0xffffffffffffffff, 0xffffffffffffffff, 1, 1),
      (.mul32Reg 1 2, some 0x100000000, 0x100000000, 0, 0),
      (.mul64Imm 1 0xfffffffe, some 0x180000000, 0, 0xfffffffd00000000, 0xfffffffd00000000),
      (.mul64Reg 1 2, some 0xffffffffffffffff, 0xffffffffffffffff, 1, 1),
      (.mul64Reg 1 2, some 0x100000000, 0x100000000, 0, 0),
      (.div32Imm 1 0xfffffffe, some 0xfffffffffffffff6, 0, 0, 0),
      (.div32Imm 1 0, some 7, 0, 0, 0),
      (.div32Reg 1 2, some 0x123456789abcdef0, 0x100000000, 0, 0),
      (.div32Reg 1 2, some 0x64, 7, 0xe, 0xe)] : List (Instr × Option W64 × W64 × W64 × W64)).all givesBoth = true := by decide

theorem test_value_arithmetic_a_3 :
    ([(.div64Imm 1 0xfffffffe, some 0xfffffffffffffff6, 0, 0, 0),
      (.div64Imm 1 0, some 7, 0, 0, 0),
      (.div64Reg 1 2, some 0x123456789abcdef0, 0x100000000, 0x12345678, 0x12345678),
      (.div64Reg 1 2, some 0x64, 7, 0xe, 0xe),
      (.sdiv32Imm 1 3, some 0xfffffffffffffff6, 0, 0xfffffffd, 0xfffffffd),
      (.sdiv32Imm 1 0xfffffffe, some 7, 0, 0xfffffffd, 0xfffffffd),
      (.sdiv32Reg 1 2, some 0x80000000, 0xffffffff, 0x80000000, 0x80000000),
      (.sdiv32Reg 1 2, some 0x8000000000000000, 0xffffffffffffffff, 0, 0),
      (.sdiv64Imm 1 3, some 0xfffffffffffffff6, 0, 0xfffffffffffffffd, 0xfffffffffffffffd),
      (.sdiv64Imm 1 0xfffffffe, some 7, 0, 0xfffffffffffffffd, 0xfffffffffffffffd),
      (.sdiv64Reg 1 2, some 0x80000000, 0xffffffff, 0, 0),
      (.sdiv64Reg 1 2, some 0x8000000000000000, 0xffffffffffffffff, 0x8000000000000000, 0x8000000000000000)] : List (Instr × Option W64 × W64 × W64 × W64)).all givesBoth = true := by decide

theorem test_value_arithmetic_b_1 :
    ([(.or32Imm 1 0xfffffff0, some 0x100000000, 0, 0xfffffff0, 0xfffffff0),
      (.or32Reg 1 2, some 0xf0f0f0f00f0f0f0f, 0xff00ff00ff00ff, 0xfff0fff, 0xfff0fff),
      (.or64Imm 1 0xfffffff0, some 0x100000000, 0, 0xfffffffffffffff0, 0xfffffffffffffff0),
      (.or64Reg 1 2, some 0xf0f0f0f00f0f0f0f, 0xff00ff00ff00ff, 0xf0fff0ff0fff0fff, 0xf0fff0ff0fff0fff),
      (.and32Imm 1 0xfffffff0, some 0xffffffffffffffff, 0, 0xfffffff0, 0xfffffff0),
      (.and32Reg 1 2, some 0xf0f0f0f00f0f0f0f, 0xff00ff00ff00ff, 0xf000f, 0xf000f),
      (.and64Imm 1 0xfffffff0, some 0xffffffffffffffff, 0, 0xfffffffffffffff0, 0xfffffffffffffff0),
      (.and64Reg 1 2, some 0xf0f0f0f00f0f0f0f, 0xff00ff00ff00ff, 0xf000f0000f000f, 0xf000f0000f000f),
      (.lsh32Imm 1 0x21, some 0x180000001, 0, 2, 2),
      (.lsh32Imm 1 4, some 1, 0, 0x10, 0x10),
      (.lsh32Reg 1 2, some 1, 0xffffffffffffffff, 0x80000000, 0x80000000)] : List (Instr × Option W64 × W64 × W64 × W64)).all givesBoth = true := by decide

theorem test_value_arithmetic_b_2 :
    ([(.lsh32Reg 1 2, some 0x100000001, 0x20, 1, 1),
      (.lsh64Imm 1 0x21, some 0x180000001, 0, 0x200000000, 0x200000000),
      (.lsh64Imm 1 4, some 1, 0, 0x10, 0x10),
      (.lsh64Reg 1 2, some 1, 0xffffffffffffffff, 0x8000000000000000, 0x8000000000000000),
      (.lsh64Reg 1 2, some 0x100000001, 0x20, 0x100000000, 0x100000000),
      (.rsh32Imm 1 4, some 0x8000000080000000, 0, 0x8000000, 0x8000000),
      (.rsh32Imm 1 0x24, some 0x8000000080000000, 0, 0x8000000, 0x8000000),
      (.rsh32Reg 1 2, some 0x8000000080000000, 0x40, 0x80000000, 0x80000000),
      (.rsh32Reg 1 2, some 0x8000000080000000, 0x1f, 1, 1),
      (.rsh64Imm 1 4, some 0x8000000080000000, 0, 0x800000008000000, 0x800000008000000),
      (.rsh64Imm 1 0x24, some 0x8000000080000000, 0, 0x8000000, 0x8000000)] : List (Instr × Option W64 × W64 × W64 × W64)).all givesBoth = true := by decide

theorem test_value_arithmetic_b_3 :
    ([(.rsh64Reg 1 2, some 0x8000000080000000, 0x40, 0x8000000080000000, 0x8000000080000000),
      (.rsh64Reg 1 2, some 0x8000000080000000, 0x1f, 0x100000001, 0x100000001),
      (.neg32 1, some 1, 0, 0xffffffff, 0xffffffff),
      (.neg32 1, some 0x8000000080000000, 0, 0x80000000, 0x80000000),
      (.neg64 1, some 1, 0, 0xffffffffffffffff, 0xffffffffffffffff),
      (.neg64 1, some 0x8000000080000000, 0, 0x7fffffff80000000, 0x7fffffff80000000),
      (.mod32Imm 1 0xfffffffe, some 0xffffffffffffffff, 0, 1, 1),
      (.mod32Imm 1 0, some 7, 0, 7, 7),
      (.mod32Reg 1 2, some 0x123456789abcdef0, 0, 0x9abcdef0, 0x9abcdef0),
      (.mod32Reg 1 2, some 0x64, 7, 2, 2),
      (.mod64Imm 1 0xfffffffe, some 0xffffffffffffffff, 0, 1, 1)] : List (Instr × Option W64 × W64 × W64 × W64)).all givesBoth = true := by decide

theorem test_value_arithmetic_b_4 :
    ([(.mod64Imm 1 0, some 7, 0, 7, 7),
      (.mod64Reg 1 2, some 0x123456789abcdef0, 0, 0x123456789abcdef0, 0x123456789abcdef0),
      (.mod64Reg 1 2, some 0x64, 7, 2, 2),
      (.smod32Imm 1 3, some 0xfffffffffffffff3, 0, 0xffffffff, 0xffffffff),
      (.smod32Imm 1 0xfffffffd, some 0xd, 0, 1, 1),
      (.smod32Reg 1 2, some 0xfffffffffffffff3, 0xfffffffffffffffd, 0xffffffff, 0xffffffff),
      (.smod32Reg 1 2, some 0x8000000080000000, 0xffffffffffffffff, 0, 0),
      (.smod64Imm 1 3, some 0xfffffffffffffff3, 0, 0xffffffffffffffff, 0xffffffffffffffff),
      (.smod64Imm 1 0xfffffffd, some 0xd, 0, 1, 1),
      (.smod64Reg 1 2, some 0xfffffffffffffff3, 0xfffffffffffffffd, 0xffffffffffffffff, 0xffffffffffffffff),
      (.smod64Reg 1 2, some 0x8000000080000000, 0xffffffffffffffff, 0, 0)] : List (Instr × Option W64 × W64 × W64 × W64)).all givesBoth = true := by decide

theorem test_value_arithmetic_c_1 :
    ([(.xor32Imm 1 0xffffffff, some 0, 0, 0xffffffff, 0xffffffff),
      (.xor32Imm 1 0xf0f0f0f, some 0x123456789abcdef0, 0, 0x95b3d1ff, 0x95b3d1ff),
      (.xor32Reg 1 2, some 0xf0f0f0f00f0f0f0f, 0xff00ff00ff00ff, 0xff00ff0, 0xff00ff0),
      (.xor32Reg 1 1, some 0x123456789abcdef0, 0, 0, 0),
      (.xor64Imm 1 0xffffffff, some 0, 0, 0xffffffffffffffff, 0xffffffffffffffff),
      (.xor64Imm 1 0xf0f0f0f, some 0x123456789abcdef0, 0, 0x1234567895b3d1ff, 0x1234567895b3d1ff),
      (.xor64Reg 1 2, some 0xf0f0f0f00f0f0f0f, 0xff00ff00ff00ff, 0xf00ff00f0ff00ff0, 0xf00ff00f0ff00ff0),
      (.xor64Reg 1 1, some 0x123456789abcdef0, 0, 0, 0),
      (.mov32Imm 1 0xffffffff, none, 0, 0xffffffff, 0xffffffff),
      (.mov32Imm 1 0x7fffffff, none, 0, 0x7fffffff, 0x7fffffff)] : List (Instr × Option W64 × W64 × W64 × W64)).all givesBoth = true := by decide

theorem test_value_arithmetic_c_2 :
    ([(.mov32Reg 1 2, none, 0x123456789abcdef0, 0x9abcdef0, 0x9abcdef0),
      (.mov64Imm 1 0xffffffff, none, 0, 0xffffffffffffffff, 0xffffffffffffffff),
      (.mov64Imm 1 0x7fffffff, none, 0, 0x7fffffff, 0x7fffffff),
      (.mov64Reg 1 2, none, 0x123456789abcdef0, 0x123456789abcdef0, 0x123456789abcdef0),
      (.movsx32x8 1 2, none, 0x123456789abcde80, 0xffffff80, 0xffffff80),
      (.movsx32x8 1 2, none, 0xffff7f7f, 0x7f, 0x7f),
      (.movsx32x16 1 2, none, 0x123456789abcde80, 0xffffde80, 0xffffde80),
      (.movsx32x16 1 2, none, 0xffff7f7f, 0x7f7f, 0x7f7f),
      (.movsx64x8 1 2, none, 0x123456789abcde80, 0xffffffffffffff80, 0xffffffffffffff80),
      (.movsx64x8 1 2, none, 0xffff7f7f, 0x7f, 0x7f),
      (.movsx64x16 1 2, none, 0x123456789abcde80, 0xffffffffffffde80, 0xffffffffffffde80)] : List (Instr × Option W64 × W64 × W64 × W64)).all givesBoth = true := by decide

theorem test_value_arithmetic_c_3 :
    ([(.movsx64x16 1 2, none, 0xffff7f7f, 0x7f7f, 0x7f7f),
      (.movsx64x32 1 2, none, 0x123456789abcde80, 0xffffffff9abcde80, 0xffffffff9abcde80),
      (.movsx64x32 1 2, none, 0xffff7f7f, 0xffffffffffff7f7f, 0xffffffffffff7f7f),
      (.arsh32Imm 1 4, some 0x8000000080000000, 0, 0xf8000000, 0xf8000000),
      (.arsh32Imm 1 0x24, some 0x8000000080000000, 0, 0xf8000000, 0xf8000000),
      (.arsh32Reg 1 2, some 0x8000000080000000, 0x3f, 0xffffffff, 0xffffffff),
      (.arsh32Reg 1 2, some 0x4000000040000000, 0x40, 0x40000000, 0x40000000),
      (.arsh64Imm 1 4, some 0x8000000080000000, 0, 0xf800000008000000, 0xf800000008000000),
      (.arsh64Imm 1 0x24, some 0x8000000080000000, 0, 0xfffffffff8000000, 0xfffffffff8000000),
      (.arsh64Reg 1 2, some 0x8000000080000000, 0x3f, 0xffffffffffffffff, 0xffffffffffffffff),
      (.arsh64Reg 1 2, some 0x4000000040000000, 0x40, 0x4000000040000000, 0x4000000040000000)] : List (Instr × Option W64 × W64 × W64 × W64)).all givesBoth = true := by decide

theorem test_value_byteswap :
    ([(.le16 1, some 0x1122334455667788, 0, 0x7788, 0x8877),
      (.le32 1, some 0x1122334455667788, 0, 0x55667788, 0x88776655),
      (.le64 1, some 0x1122334455667788, 0, 0x1122334455667788, 0x8877665544332211),
      (.be16 1, some 0x1122334455667788, 0, 0x8877, 0x7788),
      (.be32 1, some 0x1122334455667788, 0, 0x88776655, 0x55667788),
      (.be64 1, some 0x1122334455667788, 0, 0x8877665544332211, 0x1122334455667788),
      (.bswap16 1, some 0x1122334455667788, 0, 0x8877, 0x8877),
      (.bswap32 1, some 0x1122334455667788, 0, 0x88776655, 0x88776655),
      (.bswap64 1, some 0x1122334455667788, 0, 0x8877665544332211, 0x8877665544332211)] : List (Instr × Option W64 × W64 × W64 × W64)).all givesBoth = true := by decide

theorem test_target_jump_a_1 :
    ([(.jeq64Imm 1 3 5, 0x100000005, 0, 5),
      (.jeq64Imm 1 3 7, 7, 0, 8),
      (.jeq64Reg 1 2 3, 0x100000005, 5, 5),
      (.jeq64Reg 1 2 3, 7, 7, 8),
      (.jeq32Imm 1 3 5, 0x100000005, 0, 8),
      (.jeq32Imm 1 3 7, 7, 0, 8),
      (.jeq32Reg 1 2 3, 0x100000005, 5, 8),
      (.jeq32Reg 1 2 3, 7, 7, 8),
      (.jgt64Imm 1 3 1, 0xffffffffffffffff, 0, 8),
      (.jgt64Imm 1 3 5, 0x100000000, 0, 8),
      (.jgt64Reg 1 2 3, 0xffffffffffffffff, 1, 8),
      (.jgt64Reg 1 2 3, 0x100000000, 5, 8)] : List (Instr × W64 × W64 × Int)).all goesTo = true := by decide

theorem test_target_jump_a_2 :
    ([(.jgt32Imm 1 3 1, 0xffffffffffffffff, 0, 8),
      (.jgt32Imm 1 3 5, 0x100000000, 0, 5),
      (.jgt32Reg 1 2 3, 0xffffffffffffffff, 1, 8),
      (.jgt32Reg 1 2 3, 0x100000000, 5, 5),
      (.jge64Imm 1 3 5, 5, 0, 8),
      (.jge64Imm 1 3 5, 0x100000000, 0, 8),
      (.jge64Reg 1 2 3, 5, 5, 8),
      (.jge64Reg 1 2 3, 0x100000000, 5, 8),
      (.jge32Imm 1 3 5, 5, 0, 8),
      (.jge32Imm 1 3 5, 0x100000000, 0, 5),
      (.jge32Reg 1 2 3, 5, 5, 8),
      (.jge32Reg 1 2 3, 0x100000000, 5, 5)] : List (Instr × W64 × W64 × Int)).all goesTo = true := by decide

theorem test_target_jump_a_3 :
    ([(.jset64Imm 1 3 0xffffffff, 0x100000000, 0, 8),
      (.jset64Imm 1 3 1, 6, 0, 5),
      (.jset64Reg 1 2 3, 0x100000000, 0xffffffffffffffff, 8),
      (.jset64Reg 1 2 3, 6, 1, 5),
      (.jset32Imm 1 3 0xffffffff, 0x100000000, 0, 5),
      (.jset32Imm 1 3 1, 6, 0, 5),
      (.jset32Reg 1 2 3, 0x100000000, 0xffffffffffffffff, 5),
      (.jset32Reg 1 2 3, 6, 1, 5),
      (.jne64Imm 1 3 5, 0x100000005, 0, 8),
      (.jne64Imm 1 3 7, 7, 0, 5),
      (.jne64Reg 1 2 3, 0x100000005, 5, 8),
      (.jne64Reg 1 2 3, 7, 7, 5)] : List (Instr × W64 × W64 × Int)).all goesTo = true := by decide

theorem test_target_jump_a_4 :
    ([(.jne32Imm 1 3 5, 0x100000005, 0, 5),
      (.jne32Imm 1 3 7, 7, 0, 5),
      (.jne32Reg 1 2 3, 0x100000005, 5, 5),
      (.jne32Reg 1 2 3, 7, 7, 5),
      (.jsgt64Imm 1 3 1, 0xffffffffffffffff, 0, 5),
      (.jsgt64Imm 1 3 0, 0x80000000, 0, 8),
      (.jsgt64Reg 1 2 3, 0xffffffffffffffff, 1, 5),
      (.jsgt64Reg 1 2 3, 0x80000000, 0, 8),
      (.jsgt32Imm 1 3 1, 0xffffffffffffffff, 0, 5),
      (.jsgt32Imm 1 3 0, 0x80000000, 0, 5),
      (.jsgt32Reg 1 2 3, 0xffffffffffffffff, 1, 5),
      (.jsgt32Reg 1 2 3, 0x80000000, 0, 5)] : List (Instr × W64 × W64 × Int)).all goesTo = true := by decide

theorem test_target_jump_a_5 :
    ([(.jsge64Imm 1 3 0xffffffff, 0xffffffffffffffff, 0, 8),
      (.jsge64Imm 1 3 0, 0x80000000, 0, 8),
      (.jsge64Reg 1 2 3, 0xffffffffffffffff, 0xffffffffffffffff, 8),
      (.jsge64Reg 1 2 3, 0x80000000, 0, 8),
      (.jsge32Imm 1 3 0xffffffff, 0xffffffffffffffff, 0, 8),
      (.jsge32Imm 1 3 0, 0x80000000, 0, 5),
      (.jsge32Reg 1 2 3, 0xffffffffffffffff, 0xffffffffffffffff, 8),
      (.jsge32Reg 1 2 3, 0x80000000, 0, 5),
      (.ja 3, 0, 0, 8),
      (.ja 0xfffb, 0, 0, 0),
      (.ja32 3, 0, 0, 8),
      (.ja32 0xfffffffb, 0, 0, 0)] : List (Instr × W64 × W64 × Int)).all goesTo = true := by decide

theorem test_target_jump_b_1 :
    ([(.jlt64Imm 1 3 0xffffffff, 1, 0, 8),
      (.jlt64Imm 1 3 5, 0x100000000, 0, 5),
      (.jlt64Reg 1 2 3, 1, 0xffffffffffffffff, 8),
      (.jlt64Reg 1 2 3, 0x100000000, 5, 5),
      (.jlt32Imm 1 3 0xffffffff, 1, 0, 8),
      (.jlt32Imm 1 3 5, 0x100000000, 0, 8),
      (.jlt32Reg 1 2 3, 1, 0xffffffffffffffff, 8),
      (.jlt32Reg 1 2 3, 0x100000000, 5, 8),
      (.jle64Imm 1 3 5, 5, 0, 8),
      (.jle64Imm 1 3 5, 0x100000000, 0, 5)] : List (Instr × W64 × W64 × Int)).all goesTo = true := by decide

theorem test_target_jump_b_2 :
    ([(.jle64Reg 1 2 3, 5, 5, 8),
      (.jle64Reg 1 2 3, 0x100000000, 5, 5),
      (.jle32Imm 1 3 5, 5, 0, 8),
      (.jle32Imm 1 3 5, 0x100000000, 0, 8),
      (.jle32Reg 1 2 3, 5, 5, 8),
      (.jle32Reg 1 2 3, 0x100000000, 5, 8),
      (.jslt64Imm 1 3 1, 0xffffffffffffffff, 0, 8),
      (.jslt64Imm 1 3 0, 0x80000000, 0, 5),
      (.jslt64Reg 1 2 3, 0xffffffffffffffff, 1, 8),
      (.jslt64Reg 1 2 3, 0x80000000, 0, 5),
      (.jslt32Imm 1 3 1, 0xffffffffffffffff, 0, 8)] : List (Instr × W64 × W64 × Int)).all goesTo = true := by decide

theorem test_target_jump_b_3 :
    ([(.jslt32Imm 1 3 0, 0x80000000, 0, 8),
      (.jslt32Reg 1 2 3, 0xffffffffffffffff, 1, 8),
      (.jslt32Reg 1 2 3, 0x80000000, 0, 8),
      (.jsle64Imm 1 3 0xffffffff, 0xffffffffffffffff, 0, 8),
      (.jsle64Imm 1 3 0, 0x80000000, 0, 5),
      (.jsle64Reg 1 2 3, 0xffffffffffffffff, 0xffffffffffffffff, 8),
      (.jsle64Reg 1 2 3, 0x80000000, 0, 5),
      (.jsle32Imm 1 3 0xffffffff, 0xffffffffffffffff, 0, 8),
      (.jsle32Imm 1 3 0, 0x80000000, 0, 8),
      (.jsle32Reg 1 2 3, 0xffffffffffffffff, 0xffffffffffffffff, 8),
      (.jsle32Reg 1 2 3, 0x80000000, 0, 8)] : List (Instr × W64 × W64 × Int)).all goesTo = true := by decide

/-! ## Memory examples (spec/46_load_store.md, spec/47_atomic.md) -/

/-- Bytes at rising addresses. -/
def cells (a : Nat) (bs : List Byte) : Memory := Memory.writeBytes [] a bs

/-- A row: a load, R1 after on a little-endian and on a big-endian host; R2 is 0x1018, the bytes at 0x1010 are given. -/
def loadsBoth (row : Instr × W64 × W64) : Bool :=
  let mem := cells 0x1010 [0x80, 0x91, 0xa2, 0xb3, 0xc4, 0xd5, 0xe6, 0xf7]
  givesR1 row.1 (small .little [(2, 0x1018)] mem) row.2.1 && givesR1 row.1 (small .big [(2, 0x1018)] mem) row.2.2

/-- The eight bytes at 0x1010 after the instruction. -/
def leaves (i : Instr) (e : Endian) (bs : List Byte) : Bool :=
  match exec i (small e [(1, 0x1000), (2, 0x1122334455667788)] (cells 0x1010 [0, 0, 0, 0, 0, 0, 0, 0])) with
  | .next t => decide (t.bytesAt 0x1010 8 = bs) && decide (t.pc = 5) && decide (t.reg 1 = some 0x1000)
  | .fault _ => false
  | .refused _ => false

/-- A row: a store, the bytes at 0x1010 after on a little-endian and on a big-endian host. -/
def storesBoth (row : Instr × List Byte × List Byte) : Bool :=
  leaves row.1 .little row.2.1 && leaves row.1 .big row.2.2

/-- An atomic operation on the `n`-byte value `old` at 0x1010 with R2 = 0x100000020 and R0 = `x0`: the memory value, R2
and R0 after. -/
def atomically (e : Endian) (i : Instr) (n : Nat) (old x0 new x2 x0' : W64) : Bool :=
  match exec i (small e [(0, x0), (1, 0x1000), (2, 0x100000020)] (cells 0x1010 (dataBytes e n old))) with
  | .next t => decide (t.load 0x1010 n = new) && decide (t.reg 2 = some x2) && decide (t.reg 0 = some x0') &&
      decide (t.reg 1 = some 0x1000) && decide (t.pc = 5)
  | .fault _ => false
  | .refused _ => false

/-- A row: an atomic operation, its width, the memory value before and after, R2 after; on both hosts. -/
def updates (row : Instr × Nat × W64 × W64 × W64) : Bool :=
  [Endian.little, .big].all fun e => atomically e row.1 row.2.1 row.2.2.1 7 row.2.2.2.1 row.2.2.2.2 7

/-- A row: a compare and exchange, its width, the memory value and R0 before, the memory value and R0 after. -/
def exchanges (row : Instr × Nat × W64 × W64 × W64 × W64) : Bool :=
  [Endian.little, .big].all fun e =>
    atomically e row.1 row.2.1 row.2.2.1 row.2.2.2.1 row.2.2.2.2.1 0x100000020 row.2.2.2.2.2

theorem test_loads :
    ([(.ldxw 1 2 0xfff8, 0xb3a29180, 0x8091a2b3),
      (.ldxh 1 2 0xfff8, 0x9180, 0x8091),
      (.ldxb 1 2 0xfff8, 0x80, 0x80),
      (.ldxdw 1 2 0xfff8, 0xf7e6d5c4b3a29180, 0x8091a2b3c4d5e6f7),
      (.ldxsw 1 2 0xfff8, 0xffffffffb3a29180, 0xffffffff8091a2b3),
      (.ldxsh 1 2 0xfff8, 0xffffffffffff9180, 0xffffffffffff8091),
      (.ldxsb 1 2 0xfff8, 0xffffffffffffff80, 0xffffffffffffff80)] : List (Instr × W64 × W64)).all loadsBoth = true := by decide

theorem test_stores :
    ([(.stw 1 0x10 0xfffffffe, [0xfe, 0xff, 0xff, 0xff, 0x00, 0x00, 0x00, 0x00], [0xff, 0xff, 0xff, 0xfe, 0x00, 0x00, 0x00, 0x00]),
      (.sth 1 0x10 0x12345678, [0x78, 0x56, 0x00, 0x00, 0x00, 0x00, 0x00, 0x00], [0x56, 0x78, 0x00, 0x00, 0x00, 0x00, 0x00, 0x00]),
      (.stb 1 0x10 0xfffffffe, [0xfe, 0x00, 0x00, 0x00, 0x00, 0x00, 0x00, 0x00], [0xfe, 0x00, 0x00, 0x00, 0x00, 0x00, 0x00, 0x00]),
      (.stdw 1 0x10 0xfffffffe, [0xfe, 0xff, 0xff, 0xff, 0xff, 0xff, 0xff, 0xff], [0xff, 0xff, 0xff, 0xff, 0xff, 0xff, 0xff, 0xfe]),
      (.stxw 1 2 0x10, [0x88, 0x77, 0x66, 0x55, 0x00, 0x00, 0x00, 0x00], [0x55, 0x66, 0x77, 0x88, 0x00, 0x00, 0x00, 0x00]),
      (.stxh 1 2 0x10, [0x88, 0x77, 0x00, 0x00, 0x00, 0x00, 0x00, 0x00], [0x77, 0x88, 0x00, 0x00, 0x00, 0x00, 0x00, 0x00]),
      (.stxb 1 2 0x10, [0x88, 0x00, 0x00, 0x00, 0x00, 0x00, 0x00, 0x00], [0x88, 0x00, 0x00, 0x00, 0x00, 0x00, 0x00, 0x00]),
      (.stxdw 1 2 0x10, [0x88, 0x77, 0x66, 0x55, 0x44, 0x33, 0x22, 0x11], [0x11, 0x22, 0x33, 0x44, 0x55, 0x66, 0x77, 0x88])] : List (Instr × List Byte × List Byte)).all storesBoth = true := by decide

theorem test_atomics_1 :
    ([(.atomicAdd32 1 2 0x10, 4, 0xfffffff0, 0x10, 0x100000020),
      (.atomicFetchAdd32 1 2 0x10, 4, 0xfffffff0, 0x10, 0xfffffff0),
      (.atomicOr32 1 2 0x10, 4, 0xfffffff0, 0xfffffff0, 0x100000020),
      (.atomicFetchOr32 1 2 0x10, 4, 0xfffffff0, 0xfffffff0, 0xfffffff0),
      (.atomicAnd32 1 2 0x10, 4, 0xfffffff0, 0x20, 0x100000020),
      (.atomicFetchAnd32 1 2 0x10, 4, 0xfffffff0, 0x20, 0xfffffff0),
      (.atomicXor32 1 2 0x10, 4, 0xfffffff0, 0xffffffd0, 0x100000020),
      (.atomicFetchXor32 1 2 0x10, 4, 0xfffffff0, 0xffffffd0, 0xfffffff0),
      (.atomicXchg32 1 2 0x10, 4, 0xfffffff0, 0x20, 0xfffffff0)] : List (Instr × Nat × W64 × W64 × W64)).all updates = true := by decide

theorem test_atomics_2 :
    ([(.atomicAdd64 1 2 0x10, 8, 0xfffffffffffffff0, 0x100000010, 0x100000020),
      (.atomicFetchAdd64 1 2 0x10, 8, 0xfffffffffffffff0, 0x100000010, 0xfffffffffffffff0),
      (.atomicOr64 1 2 0x10, 8, 0xfffffffffffffff0, 0xfffffffffffffff0, 0x100000020),
      (.atomicFetchOr64 1 2 0x10, 8, 0xfffffffffffffff0, 0xfffffffffffffff0, 0xfffffffffffffff0),
      (.atomicAnd64 1 2 0x10, 8, 0xfffffffffffffff0, 0x100000020, 0x100000020),
      (.atomicFetchAnd64 1 2 0x10, 8, 0xfffffffffffffff0, 0x100000020, 0xfffffffffffffff0),
      (.atomicXor64 1 2 0x10, 8, 0xfffffffffffffff0, 0xfffffffeffffffd0, 0x100000020),
      (.atomicFetchXor64 1 2 0x10, 8, 0xfffffffffffffff0, 0xfffffffeffffffd0, 0xfffffffffffffff0),
      (.atomicXchg64 1 2 0x10, 8, 0xfffffffffffffff0, 0x100000020, 0xfffffffffffffff0)] : List (Instr × Nat × W64 × W64 × W64)).all updates = true := by decide

theorem test_exchanges :
    ([(.atomicCmpxchg32 1 2 0x10, 4, 0xfffffff0, 0xaaaaaaaafffffff0, 0x20, 0xfffffff0),
      (.atomicCmpxchg32 1 2 0x10, 4, 0xfffffff0, 5, 0xfffffff0, 0xfffffff0),
      (.atomicCmpxchg64 1 2 0x10, 8, 0xfffffffffffffff0, 0xfffffffffffffff0, 0x100000020, 0xfffffffffffffff0),
      (.atomicCmpxchg64 1 2 0x10, 8, 0xfffffffffffffff0, 5, 0xfffffffffffffff0, 0xfffffffffffffff0)] : List (Instr × Nat × W64 × W64 × W64 × W64)).all exchanges = true := by decide

/-- The next state is the one given. -/
def answers (r : Result) (t : State) : Bool :=
  match r with
  | .next u => decide (u = t)
  | .fault _ => false
  | .refused _ => false

/-! ## Calls, EXIT and 64-bit immediates -/

/-- The relation "x[0] <- x[1] + x[2], all else unchanged" of R386. -/
def sumHelper : Helper := .described [⟨[], [(0, some (.op .add (.reg 1) (.reg 2)))], []⟩]

/-- A state with these helper tables. -/
def withHelpers (byAddr byBtf : List (Int × Helper)) (given : List (Reg × W64)) (mem : Memory) : State :=
  { small .little given mem with
    params := { (small .little given mem).params with helpersByAddr := byAddr, helpersByBtf := byBtf } }

/-- R386, R388: with that relation for 7 in one table, x[1] = 40, x[2] = 2: a call through that table gives x[0] = 42, one
through the other table or for 8 is illegal. -/
theorem test_call_helper :
    answers (exec (.callHelper 7) (withHelpers [(7, sumHelper)] [] [(1, 40), (2, 2)] []))
      { withHelpers [(7, sumHelper)] [] [(0, 0x2a), (1, 40), (2, 2)] [] with pc := 5, choices := 1 } = true ∧
    answers (exec (.callBtf 7) (withHelpers [] [(7, sumHelper)] [(1, 40), (2, 2)] []))
      { withHelpers [] [(7, sumHelper)] [(0, 0x2a), (1, 40), (2, 2)] [] with pc := 5, choices := 1 } = true ∧
    [Instr.callBtf 7, .callHelper 8].all (fun i =>
      answers (exec i (withHelpers [(7, sumHelper)] [] [(1, 40), (2, 2)] []))
        { withHelpers [(7, sumHelper)] [] [(1, 40), (2, 2)] [] with out := .faulted (.illegalInstruction 4) }) = true := by
  decide

/-- With the byte at [R1] zero this helper writes the low byte of 0x1ff there and leaves R2 without a value; otherwise it
has no outcome. -/
def memoryHelper : Helper :=
  .described [⟨[.op .eq (.bytes (.reg 1) 1) (.const 0)], [(2, none)], [(.reg 1, 1, .const 0x1ff)]⟩]

/-- A relation that depends on memory and on registers, and the fault where it has no outcome. -/
theorem test_call_helper_memory :
    answers (exec (.callBtf 9) (withHelpers [] [(9, memoryHelper)] [(1, 0x1000), (2, 2)] [(0x1000, 0)]))
      { withHelpers [] [(9, memoryHelper)] [(1, 0x1000)] [(0x1000, 0xff)] with pc := 5, choices := 1 } = true ∧
    answers (exec (.callBtf 9) (withHelpers [] [(9, memoryHelper)] [(1, 0x1000), (2, 2)] [(0x1000, 5)]))
      { withHelpers [] [(9, memoryHelper)] [(1, 0x1000), (2, 2)] [(0x1000, 5)] with
        out := .faulted (.helperFault 9) } = true := by
  decide

/-- R387: CALL_LOCAL +5 at slot 2. -/
theorem test_call_local :
    answers (exec (.callLocal 5) { small .little [(1, 9)] [] with pc := 2 })
      { small .little [(1, 9)] [] with pc := 8, cs := [⟨3, []⟩] } = true := by decide

/-- R389: EXIT with an empty call stack, and at slot 7 with one frame. -/
theorem test_exit :
    answers (exec .exit (small .little [(0, 0x2a)] [])) { small .little [(0, 0x2a)] [] with out := .exited 0x2a } = true ∧
    answers (exec .exit { small .little [] [] with pc := 7, cs := [⟨3, []⟩] }) { small .little [] [] with pc := 3 } =
      true := by
  decide

/-- A wide instruction at slot 4: R1 and the pc after. -/
def wideGives (p : Params → Params) (i : Instr) (v : W64) : Bool :=
  let s := small .little [] []
  match exec i { s with pc := 0, params := p s.params } with
  | .next t => decide (t.reg 1 = some v) && decide (t.pc = 2) && decide (t.out = .running)
  | .fault _ => false
  | .refused _ => false

/-- R472 to R478. -/
theorem test_imm64 :
    wideGives id (.lddw 1 0x80000001 0x11223344) 0x1122334480000001 = true ∧
    wideGives (fun p => { p with mapByFd := [(3, 1)], mapAddr := [(1, 0xffff800000001000)] }) (.ldMapFd 1 3)
      0xffff800000001000 = true ∧
    wideGives (fun p => { p with mapByFd := [(3, 1)], mapVal := [(1, 0x2000)] }) (.ldMapValFd 1 3 0x10) 0x2010 = true ∧
    wideGives (fun p => { p with varAddr := [(9, 0x3000)] }) (.ldVarAddr 1 9) 0x3000 = true ∧
    wideGives (fun p => { p with codeAddr := [((0, 4), 0x4028)] }) (.ldCodeAddr 1 4) 0x4028 = true ∧
    wideGives (fun p => { p with mapByIdx := [(0, 1)], mapAddr := [(1, 0xffff800000001000)] }) (.ldMapIdx 1 0)
      0xffff800000001000 = true ∧
    wideGives (fun p => { p with mapByIdx := [(0, 1)], mapVal := [(1, 0x2000)] }) (.ldMapValIdx 1 0 0x10) 0x2010 = true := by
  decide

/-- R491: a packet load, run as the first instruction after reset. -/
theorem test_packet :
    answers (step (State.reset.withFetchWord 64 0x0000000e00000020))
      { State.reset.withFetchWord 64 0x0000000e00000020 with out := .faulted (.illegalInstruction 0) } = true := by decide

/-- A word placed after reset is run by the very next step, and at reset itself there is nothing to run. -/
theorem test_reset :
    (match step (State.reset.withFetchWord 64 0x00000005000001b7) with
      | .next t => decide (t.reg 1 = some 5) && decide (t.pc = 1)
      | .fault _ => false
      | .refused _ => false) = true ∧
    answers (step State.reset) { State.reset with out := .faulted (.badPC 0) } = true := by decide

/-! ## A witness for the hypotheses of each statement

Each theorem gives a concrete state and operands that meet the hypotheses of the statement it is named after, one for
each clause, at the ends of the ranges. -/

/-- A state at slot 2 of the program LDDW, EXIT; every register but R3 holds a value; the last region ends at 2^64. -/
def demo : State :=
  State.launch
      { Params.default with
        program := encode .little (.lddw 1 1 1) ++ encode .little .exit
        regions := [⟨0x1000, 64, true, true, false⟩, ⟨0x2000, 16, true, true, true⟩,
          ⟨0xfffffffffffffff8, 8, true, true, false⟩]
        helpersByAddr := [(7, .unknown), (8, sumHelper), (9, .described []), (10, .described [⟨[.reg 3], [], []⟩])]
        helpersByBtf := [(7, sumHelper), (8, .unknown)]
        mapByFd := [(3, 1)]
        mapAddr := [(1, 0x5000)]
        readonlyRegs := [10]
        maxCallDepth := some 1 }
      2 [(0, 0xffffffffffffffff), (1, 0x8000000000000000), (2, 0x100000000), (4, 0x1000), (5, 0xfffffffffffffff0),
        (6, 0), (7, 0x103f), (8, 0x1038), (9, 0x80000000), (10, 0x2000)] [(0x1000, 0xff)]
    [[(0x2000, 7)]]

/-- The state `demo` with another program, at slot 0. -/
def demoWith (is : List Instr) : State :=
  { demo with pc := 0, params := { demo.params with program := is.flatMap (encode .little) } }

/-- The state `demo` at one instruction, with tables that put map 1 and variable 9 in regions of the launch, and map 2,
map 4 and variable 10 in a private region, in none, and inside one. -/
def demoObtains (i : Instr) : State :=
  { demo with
    pc := 0
    params := { demo.params with
      program := encode .little i
      mapByFd := [(3, 1), (4, 2)]
      mapByIdx := [(3, 1), (5, 4)]
      mapVal := [(1, 0x2000), (2, 0x1000), (4, 0x5000)]
      varAddr := [(9, 0x1000), (10, 0x1008)] } }

/-- The result is a next state. -/
def goesOn (r : Result) : Bool :=
  match r with
  | .next _ => true
  | .fault _ => false
  | .refused _ => false

theorem next_of_goesOn {r : Result} (h : goesOn r = true) : ∃ t, r = .next t := by
  cases r with
  | next t => exact ⟨t, rfl⟩
  | fault f => cases h
  | refused f => cases h

/-- The status of the next state. -/
def statusOf (r : Result) : Option RunStatus :=
  match r with
  | .next t => some t.out
  | .fault _ => none
  | .refused _ => none

theorem next_of_statusOf {r : Result} {o : RunStatus} (h : statusOf r = some o) : ∃ t, r = .next t ∧ t.out = o := by
  cases r with
  | next t => exact ⟨t, rfl, by simpa [statusOf] using h⟩
  | fault f => cases h
  | refused f => cases h

theorem test_witness_DecodeOfEncodeIsInstruction :
    Instr.wellFormed (.ldMapValFd 10 0xffffffff 0x7fffffff) = true ∧ Instr.wellFormed (.jeq64Reg 0 10 0x8000) = true := by
  decide

theorem test_witness_EncodeOfDecodeIsSlots :
    decode .big (slotsOf [0x18, 0xa0, 0, 0, 0xff, 0xff, 0xff, 0xff, 0, 0, 0, 0, 0x80, 0, 0, 0, 0x95, 0, 0, 0, 0, 0, 0, 0]) =
      .ok (.lddw 10 0xffffffff 0x80000000) := by decide

theorem test_witness_AssignedOpcodesExactly :
    (Fields.mk 0x01 15 15 0xffff 0xffffffff).opcode.toNat ∉ assignedOpcodes ∧ (0xff : BitVec 8).toNat ∉ assignedOpcodes ∧
    (0x8c : BitVec 8).toNat ∉ assignedOpcodes := by decide

theorem test_witness_StepRunsDecodedInstruction :
    demo.out = .running ∧ demo.fetch = some (encode .little .exit) ∧ decode .little (encode .little .exit) = .ok .exit ∧
    Instr.permitted demo.params .exit = true ∧ Instr.wellFormed .exit = true ∧
    demo.params.program = encode .little (.lddw 1 1 1) ++ encode .little .exit ++ [] ∧
    demo.pc = (encode .little (.lddw 1 1 1)).length ∧
    secondSlotFrom false demo.params.program (encode .little (.lddw 1 1 1)).length = false := by decide

theorem test_witness_StepFaultsBeforeExecution :
    demo.out = .running ∧
    { demo with pc := -1 }.fetch = none ∧ { demo with pc := 1 }.fetch = none ∧ { demo with pc := 3 }.fetch = none ∧
    ({ demo with params := { demo.params with program := slotsOf [0x01, 0, 0, 0, 0, 0, 0, 0] }, pc := 0 }.fetch =
        some (slotsOf [0x01, 0, 0, 0, 0, 0, 0, 0]) ∧
      decode .little (slotsOf [0x01, 0, 0, 0, 0, 0, 0, 0]) = .error .unassignedOpcode) ∧
    ((demoWith [.mov64Imm 10 1]).fetch = some (encode .little (.mov64Imm 10 1)) ∧
      10 ∈ Instr.writes (.mov64Imm 10 1) ∧ (10 : Reg) ∈ (demoWith []).params.readonlyRegs) ∧
    Instr.group (.mul32Imm 1 1) ∉ { demo.params with supportedGroups := [.base32, .base64] }.supportedGroups := by decide

/-- A set of groups that is closed and two that are not (spec/00_scope.md R4). -/
theorem test_groupsClosed :
    { Params.default with supportedGroups := [.base32, .atomic32, .atomic64] }.groupsClosed = true ∧
    { Params.default with supportedGroups := [.base32, .divmul64] }.groupsClosed = false ∧
    { Params.default with supportedGroups := [.base64] }.groupsClosed = false := by decide

theorem test_witness_FetchFindsInstructionStarts :
    (∀ i ∈ [Instr.lddw 1 1 1, .exit], i.wellFormed = true) ∧
    demo.params.program = [Instr.lddw 1 1 1, .exit].flatMap (encode demo.params.hostEndian) ∧
    ([Instr.lddw 1 1 1, .exit] = [.lddw 1 1 1] ++ .exit :: [] ∧
      demo.pc = (([Instr.lddw 1 1 1].map Instr.length).sum : Nat)) ∧
    (∀ (before after : List Instr) (i : Instr), [Instr.lddw 1 1 1, .exit] = before ++ i :: after →
      ({ demo with pc := 1 } : State).pc ≠ ((before.map Instr.length).sum : Nat)) := by
  refine ⟨by decide, by decide, by decide, ?_⟩
  intro before after i h
  cases before with
  | nil => decide
  | cons a rest =>
    simp only [List.cons_append, List.cons.injEq] at h
    obtain ⟨rfl, h⟩ := h
    rw [List.map_cons, List.sum_cons, show Instr.length (.lddw 1 1 1) = 2 from rfl]
    intro e
    have : (1 : Int) = ((2 + (rest.map Instr.length).sum : Nat) : Int) := e
    omega

theorem test_witness_EndedRunHasNoNextState :
    { demo with out := .faulted (.badPC (-1)) }.out = .faulted (.badPC (-1)) ∧ { demo with out := .exited 0 }.out = .exited 0 :=
  ⟨rfl, rfl⟩

theorem test_witness_RunningStateIsNeverStuck : State.reset.out = .running := rfl

theorem test_witness_FaultsArePrecise :
    (demoWith []).out = .running ∧ ∃ t, step (demoWith []) = .next t ∧ t.out = .faulted (.badPC 0) :=
  ⟨rfl, next_of_statusOf (by decide)⟩

theorem test_witness_OnlyExitEndsARun :
    demo.out = .running ∧ ∃ t, step demo = .next t ∧ t.out = .exited 0xffffffffffffffff :=
  ⟨rfl, next_of_statusOf (by decide)⟩

theorem test_witness_ParametersNeverChange : ∃ t, step demo = .next t := next_of_goesOn (by decide)

theorem test_witness_WellFormedProgramIsNeverIllegal :
    demo.params.programWellFormed = true ∧ demo.out = .running ∧ ∃ t, step demo = .next t :=
  ⟨by decide, rfl, next_of_goesOn (by decide)⟩

theorem test_witness_PcAdvancesByLength :
    Instr.setsPc (.lddw 3 1 1) = false ∧ Instr.setsPc (.stdw 4 0 1) = false ∧ demo.out = .running ∧
    (∃ t, exec (.lddw 3 1 1) demo = .next t ∧ t.out = .running) ∧ ∃ t, exec (.stdw 4 0 1) demo = .next t ∧ t.out = .running :=
  ⟨rfl, rfl, rfl, next_of_statusOf (by decide), next_of_statusOf (by decide)⟩

theorem test_witness_CallStackChangesOnlyByCallAndExit :
    (∀ imm, Instr.ja 0 ≠ .callLocal imm) ∧ Instr.ja 0 ≠ .exit ∧ ∃ t, exec (.ja 0) demo = .next t :=
  ⟨fun _ => by simp, by simp, next_of_goesOn (by decide)⟩

theorem test_witness_ReadonlyRegistersAreKept :
    (demoWith [.mov64Imm 9 1]).out = .running ∧ (demoWith [.mov64Imm 9 1]).fetch = some (encode .little (.mov64Imm 9 1)) ∧
    decode .little (encode .little (.mov64Imm 9 1)) = .ok (.mov64Imm 9 1) ∧ Instr.isHelperCall (.mov64Imm 9 1) = false ∧
    (∀ imm, Instr.mov64Imm 9 1 ≠ .callLocal imm) ∧ Instr.mov64Imm 9 1 ≠ .exit ∧
    (10 : Reg) ∈ (demoWith [.mov64Imm 9 1]).params.readonlyRegs ∧ ∃ t, step (demoWith [.mov64Imm 9 1]) = .next t :=
  ⟨rfl, by decide, by decide, rfl, fun _ => by simp, by simp, by decide, next_of_goesOn (by decide)⟩

theorem test_witness_StepKeepsMemoryInvariant :
    MemoryInv (demoWith [.stdw 4 0 1]) ∧ ∃ t, step (demoWith [.stdw 4 0 1]) = .next t :=
  ⟨⟨by decide, by decide⟩, next_of_goesOn (by decide)⟩

theorem test_witness_UnwritableUnsharedBytesNeverChange :
    (∃ t, step (demoWith [.stdw 4 0 1]) = .next t) ∧ demo.params.writableByte 0xfff = false ∧
    demo.params.sharedByte 0xfff = false := ⟨next_of_goesOn (by decide), by decide⟩

theorem test_witness_PrivateBytesChangeOnlyByWrites :
    (demoWith [.ldxb 1 4 0]).out = .running ∧ (demoWith [.ldxb 1 4 0]).fetch = some (encode .little (.ldxb 1 4 0)) ∧
    decode .little (encode .little (.ldxb 1 4 0)) = .ok (.ldxb 1 4 0) ∧ Instr.isHelperCall (.ldxb 1 4 0) = false ∧
    (∀ b off n k, Instr.access (.ldxb 1 4 0) = some (b, off, n, k) → k = .read) ∧
    demo.params.sharedByte 0x1000 = false ∧ demo.params.sharedByte 0x1fff = false ∧
    ∃ t, step (demoWith [.ldxb 1 4 0]) = .next t :=
  ⟨rfl, by decide, by decide, rfl, fun _ _ _ _ h => by simp [Instr.access] at h; exact h.2.2.2.symm, by decide, by decide,
    next_of_goesOn (by decide)⟩

theorem test_witness_EnvironmentChangesSharedBytesOnly :
    demo.params.sharedByte 0x1fff = false ∧ demo.params.sharedByte 0x2010 = false ∧
    demo.params.sharedByte 0x2000 = true ∧ demo.params.sharedByte 0x200f = true ∧
    demo.agentWrites = [(0x2000, 7)] :: [] ∧ { demo with agentWrites := [] }.agentWrites = [] := by decide

theorem test_witness_LaunchState :
    ∃ s, s = State.launch Params.default 3 [(0, 1), (10, 0xffffffffffffffff)] [(0x1000, 0xff)] [[(0x2000, 7)]] := ⟨_, rfl⟩

theorem test_witness_Alu32ImmediateResult :
    (Instr.add32Imm, fun a b => BitVec.ofNat 32 (a.toNat + b.toNat)) ∈ alu32ImmResults ∧
    demo.reg 1 = some 0x8000000000000000 := ⟨.head _, by decide⟩

theorem test_witness_Alu32RegisterResult :
    (Instr.add32Reg, fun a b => BitVec.ofNat 32 (a.toNat + b.toNat)) ∈ alu32RegResults ∧
    demo.reg 1 = some 0x8000000000000000 ∧ demo.reg 2 = some 0x100000000 := ⟨.head _, by decide⟩

theorem test_witness_Alu64ImmediateResult :
    (Instr.add64Imm, fun a b => BitVec.ofNat 64 (a.toNat + b.toNat)) ∈ alu64ImmResults ∧
    demo.reg 0 = some 0xffffffffffffffff := ⟨.head _, by decide⟩

theorem test_witness_Alu64RegisterResult :
    (Instr.add64Reg, fun a b => BitVec.ofNat 64 (a.toNat + b.toNat)) ∈ alu64RegResults ∧
    demo.reg 0 = some 0xffffffffffffffff ∧ demo.reg 10 = some 0x2000 := ⟨.head _, by decide⟩

theorem test_witness_DivisionByZeroGivesZero :
    demo.reg 1 = some 0x8000000000000000 ∧ (demo.reg 6 = some 0 ∧ (0 : W64).toNat % 2 ^ 32 = 0) ∧
    (demo.reg 2 = some 0x100000000 ∧ (0x100000000 : W64).toNat % 2 ^ 32 = 0) := by decide

theorem test_witness_ModuloByZeroKeepsDestination :
    demo.reg 0 = some 0xffffffffffffffff ∧ (demo.reg 6 = some 0 ∧ (0 : W64).toNat % 2 ^ 32 = 0) ∧
    (demo.reg 2 = some 0x100000000 ∧ (0x100000000 : W64).toNat % 2 ^ 32 = 0) := by decide

theorem test_witness_SignedDivisionRoundsTowardZero :
    demo.reg 1 = some 0x8000000000000000 ∧ demo.reg 0 = some 0xffffffffffffffff ∧ (0xffffffffffffffff : W64) ≠ 0 ∧
    (0xffffffffffffffff : W64).setWidth 32 ≠ 0 ∧ (0xffffffff : W32) ≠ 0 := by decide

theorem test_witness_SignedModuloTruncates :
    demo.reg 9 = some 0x80000000 ∧ demo.reg 0 = some 0xffffffffffffffff ∧ (0xffffffffffffffff : W64) ≠ 0 ∧
    (0xffffffffffffffff : W64).setWidth 32 ≠ 0 ∧ (0xffffffff : W32) ≠ 0 := by decide

theorem test_witness_NegateResult : demo.reg 1 = some 0x8000000000000000 ∧ demo.reg 6 = some 0 := by decide

theorem test_witness_MoveResult : demo.reg 9 = some 0x80000000 ∧ demo.reg 0 = some 0xffffffffffffffff := by decide

theorem test_witness_ByteSwapResult :
    demo.reg 9 = some 0x80000000 ∧ (Instr.le16, 2) ∈ swapsToLittle ∧ (Instr.be16, 2) ∈ swapsToBig ∧
    (Instr.bswap16, 2) ∈ swapsAlways ∧ (Instr.le16, 2) ∈ swapsToLittle ++ swapsToBig ++ swapsAlways :=
  ⟨by decide, .head _, .head _, .head _, .head _⟩

theorem test_witness_Jump32ImmediateTarget :
    (Instr.jeq32Imm, fun a b => a = b) ∈ jump32ImmConditions ∧ demo.reg 2 = some 0x100000000 ∧
    (0x100000000 : W64).setWidth 32 = (0 : W32) ∧ ¬(0x100000000 : W64).setWidth 32 = (1 : W32) :=
  ⟨.head _, by decide⟩

theorem test_witness_Jump32RegisterTarget :
    (Instr.jeq32Reg, fun a b => a = b) ∈ jump32RegConditions ∧ demo.reg 2 = some 0x100000000 ∧ demo.reg 6 = some 0 ∧
    (0x100000000 : W64).setWidth 32 = (0 : W64).setWidth 32 ∧ demo.reg 4 = some 0x1000 ∧
    ¬(0x100000000 : W64).setWidth 32 = (0x1000 : W64).setWidth 32 := ⟨.head _, by decide⟩

theorem test_witness_Jump64ImmediateTarget :
    (Instr.jeq64Imm, fun a b => a = b) ∈ jump64ImmConditions ∧ demo.reg 0 = some 0xffffffffffffffff ∧
    (0xffffffffffffffff : W64) = BitVec.ofInt 64 (0xffffffff : W32).toInt ∧
    ¬(0xffffffffffffffff : W64) = BitVec.ofInt 64 (0 : W32).toInt := ⟨.head _, by decide⟩

theorem test_witness_Jump64RegisterTarget :
    (Instr.jeq64Reg, fun a b => a = b) ∈ jump64RegConditions ∧ demo.reg 2 = some 0x100000000 ∧ demo.reg 6 = some 0 ∧
    ¬(0x100000000 : W64) = 0 := ⟨.head _, by decide⟩

theorem test_witness_LocalCallEntersCallee :
    (∀ d, demo.params.maxCallDepth = some d → demo.cs.length < d) ∧ demo.params.framePolicy = .identity :=
  ⟨fun d h => by cases h; decide, rfl⟩

theorem test_witness_CallDepthLimit :
    ({ demo with cs := [⟨0, []⟩] }.params.maxCallDepth = some 1 ∧ 1 ≤ { demo with cs := [⟨0, []⟩] }.cs.length) ∧
    { demo with cs := [⟨0, []⟩] }.out = .running ∧
    ∃ t, exec (.callLocal 0) { demo with cs := [⟨0, []⟩] } = .next t ∧ t.out = .faulted (.callDepthExceeded 2) :=
  ⟨by decide, rfl, next_of_statusOf (by decide)⟩

theorem test_witness_ExitEndsOrReturns :
    (demo.cs = [] ∧ demo.reg 0 = some 0xffffffffffffffff) ∧
    ({ demo with regs := entryRegs [] }.cs = [] ∧ { demo with regs := entryRegs [] }.reg 0 = none) ∧
    { demo with cs := [⟨3, []⟩] }.cs = ⟨3, []⟩ :: [] := by decide

theorem test_witness_ExitReturnsAfterTheCall :
    demo.out = .running ∧ (∃ t, exec (.callLocal 0) demo = .next t ∧ t.out = .running) ∧
    { demo.params with framePolicy := .convention [6] [] [0] }.framePolicy = .convention [6] [] [0] ∧ (6 : Reg) ∈ [6] :=
  ⟨rfl, next_of_statusOf (by decide), rfl, .head _⟩

/-- For the general clause and for the example of R386. -/
theorem test_witness_HelperCallFollowsItsAnswer :
    (CallsHelper (.callHelper 8) demo.params 8 sumHelper ∧ CallsHelper (.callBtf 7) demo.params 7 sumHelper) ∧
    demo.reg 1 = some 0x8000000000000000 ∧ demo.reg 2 = some 0x100000000 ∧
    ∃ a e, sumHelper.answer demo = some a ∧ (∀ r ∈ a.reads, demo.reg r ≠ none) ∧ a.effect = some e :=
  ⟨⟨⟨8, rfl, .inl ⟨rfl, by decide⟩⟩, 7, rfl, .inr ⟨rfl, by decide⟩⟩, by decide, by decide, _, _, rfl, by decide, rfl⟩

theorem test_witness_UnknownHelperWeakestContract :
    CallsHelper (.callHelper 7) demo.params 7 .unknown ∧ CallsHelper (.callBtf 8) demo.params 8 .unknown :=
  ⟨⟨7, rfl, .inl ⟨rfl, by decide⟩⟩, 8, rfl, .inr ⟨rfl, by decide⟩⟩

theorem test_witness_HelperCallFaults :
    demo.params.helpersByAddr.lookup (0xffffffff : W32).toInt = none ∧
    demo.params.helpersByBtf.lookup (9 : W32).toInt = none ∧
    (CallsHelper (.callHelper 10) demo.params 10 (.described [⟨[.reg 3], [], []⟩]) ∧
      ∃ a, (Helper.described [⟨[.reg 3], [], []⟩]).answer demo = some a ∧
        a.reads.find? (fun q => demo.reg q == none) = some 3) ∧
    (CallsHelper (.callHelper 9) demo.params 9 (.described []) ∧
      ∃ a, (Helper.described []).answer demo = some a ∧ (∀ r ∈ a.reads, demo.reg r ≠ none) ∧ a.effect = none) :=
  ⟨by decide, by decide, ⟨⟨10, rfl, .inl ⟨rfl, by decide⟩⟩, _, rfl, by decide⟩, ⟨9, rfl, .inl ⟨rfl, by decide⟩⟩, _, rfl,
    by decide, rfl⟩

/-- The state `demo` under MISALIGNED = bytewise. -/
def demoBytewise : State := { demo with params := { demo.params with misaligned := .bytewise } }

theorem test_witness_LoadsWidenTheValue :
    ((Instr.ldxdw, 8) ∈ zeroLoads ∧ demo.reg 5 = some 0xfffffffffffffff0 ∧
      addressNumber 0xfffffffffffffff0 8 = 0xfffffffffffffff8 ∧ AlignedEnough demo 0xfffffffffffffff8 8 ∧
      InRegion demo .read 0xfffffffffffffff8 8) ∧
    ((Instr.ldxsb, 1) ∈ signLoads ∧ demo.reg 7 = some 0x103f ∧ addressNumber 0x103f 0 = 0x103f ∧
      AlignedEnough demo 0x103f 1 ∧ InRegion demo .read 0x103f 1) :=
  ⟨⟨.tail _ (.tail _ (.tail _ (.head _))), by decide, by decide, .inr (by decide), by decide,
      _, .tail _ (.tail _ (.head _)), by decide⟩,
    .tail _ (.tail _ (.head _)), by decide, by decide, .inr (by decide), by decide, _, .head _, by decide⟩

/-- The same with a misaligned access under MISALIGNED = bytewise (log 13). -/
theorem test_witness_LoadsWidenTheValue_bytewise :
    (Instr.ldxw, 4) ∈ zeroLoads ∧ (Instr.ldxsw, 4) ∈ signLoads ∧ demoBytewise.reg 8 = some 0x1038 ∧
    addressNumber 0x1038 1 = 0x1039 ∧ 0x1039 % 4 ≠ 0 ∧ AlignedEnough demoBytewise 0x1039 4 ∧
    InRegion demoBytewise .read 0x1039 4 :=
  ⟨.head _, .head _, by decide, by decide, by decide, .inl rfl, by decide, _, .head _, by decide⟩

theorem test_witness_StoreOfImmediate :
    (Instr.stw, 4) ∈ immStores ∧ demo.reg 4 = some 0x1000 ∧ addressNumber 0x1000 0x3c = 0x103c ∧
    AlignedEnough demo 0x103c 4 ∧ InRegion demo .write 0x103c 4 :=
  ⟨.head _, by decide, by decide, .inr (by decide), by decide, _, .head _, by decide⟩

/-- The same with a misaligned access under MISALIGNED = bytewise (log 13). -/
theorem test_witness_StoreOfImmediate_bytewise :
    (Instr.stw, 4) ∈ immStores ∧ demoBytewise.reg 4 = some 0x1000 ∧ addressNumber 0x1000 0x3b = 0x103b ∧ 0x103b % 4 ≠ 0 ∧
    AlignedEnough demoBytewise 0x103b 4 ∧ InRegion demoBytewise .write 0x103b 4 :=
  ⟨.head _, by decide, by decide, by decide, .inl rfl, by decide, _, .head _, by decide⟩

theorem test_witness_StoreOfRegister :
    (Instr.stxw, 4) ∈ regStores ∧ demo.reg 4 = some 0x1000 ∧ demo.reg 1 = some 0x8000000000000000 ∧
    addressNumber 0x1000 0 = 0x1000 ∧ AlignedEnough demo 0x1000 4 ∧ InRegion demo .write 0x1000 4 :=
  ⟨.head _, by decide, by decide, by decide, .inr (by decide), by decide, _, .head _, by decide⟩

/-- The same with a misaligned access under MISALIGNED = bytewise (log 13). -/
theorem test_witness_StoreOfRegister_bytewise :
    (Instr.stxw, 4) ∈ regStores ∧ demoBytewise.reg 4 = some 0x1000 ∧ demoBytewise.reg 1 = some 0x8000000000000000 ∧
    addressNumber 0x1000 1 = 0x1001 ∧ 0x1001 % 4 ≠ 0 ∧ AlignedEnough demoBytewise 0x1001 4 ∧
    InRegion demoBytewise .write 0x1001 4 :=
  ⟨.head _, by decide, by decide, by decide, by decide, .inl rfl, by decide, _, .head _, by decide⟩

theorem test_witness_LoadAfterStoreGivesTheValue :
    (Instr.stxw, 4) ∈ regStores ∧ (Instr.ldxw, 4) ∈ zeroLoads ∧ demo.reg 4 = some 0x1000 ∧
    demo.reg 1 = some 0x8000000000000000 ∧ addressNumber 0x1000 0 = 0x1000 ∧ AlignedEnough demo 0x1000 4 ∧
    InRegion demo .write 0x1000 4 ∧ InRegion demo .read 0x1000 4 :=
  ⟨.head _, .head _, by decide, by decide, by decide, .inr (by decide), ⟨by decide, _, .head _, by decide⟩,
    by decide, _, .head _, by decide⟩

/-- The same with a misaligned access under MISALIGNED = bytewise (log 13). -/
theorem test_witness_LoadAfterStoreGivesTheValue_bytewise :
    (Instr.stxw, 4) ∈ regStores ∧ (Instr.ldxw, 4) ∈ zeroLoads ∧ demoBytewise.reg 4 = some 0x1000 ∧
    demoBytewise.reg 1 = some 0x8000000000000000 ∧ addressNumber 0x1000 1 = 0x1001 ∧ 0x1001 % 4 ≠ 0 ∧
    AlignedEnough demoBytewise 0x1001 4 ∧ InRegion demoBytewise .write 0x1001 4 ∧ InRegion demoBytewise .read 0x1001 4 :=
  ⟨.head _, .head _, by decide, by decide, by decide, by decide, .inl rfl, ⟨by decide, _, .head _, by decide⟩, by decide, _,
    .head _, by decide⟩

theorem test_witness_AtomicWithoutFetch :
    (Instr.atomicAdd32, 4, fun o v => o + v) ∈ plainAtomics ∧ demo.reg 10 = some 0x2000 ∧ demo.reg 4 = some 0x1000 ∧
    addressNumber 0x2000 12 % 4 = 0 ∧ InRegion demo .rmw (addressNumber 0x2000 12) 4 :=
  ⟨.head _, by decide, by decide, by decide, by decide, _, .tail _ (.head _), by decide⟩

theorem test_witness_AtomicWithFetch :
    (Instr.atomicFetchAdd32, 4, fun o v => o + v) ∈ fetchAtomics ∧ demo.reg 4 = some 0x1000 ∧
    addressNumber 0x1000 0 % 4 = 0 ∧ InRegion demo .rmw (addressNumber 0x1000 0) 4 :=
  ⟨.head _, by decide, by decide, by decide, _, .head _, by decide⟩

theorem test_witness_CompareAndExchange :
    (Instr.atomicCmpxchg32, 4) ∈ exchangeAtomics ∧ demo.reg 4 = some 0x1000 ∧ demo.reg 1 = some 0x8000000000000000 ∧
    demo.reg 0 = some 0xffffffffffffffff ∧ addressNumber 0x1000 0 % 4 = 0 ∧
    InRegion demo .rmw (addressNumber 0x1000 0) 4 :=
  ⟨.head _, by decide, by decide, by decide, by decide, by decide, _, .head _, by decide⟩

theorem test_witness_MemoryAccessFaults :
    (Instr.access (.ldxw 1 7 0) = some (7, 0, 4, .read) ∧ (∀ r ∈ Instr.reads demo.cs (.ldxw 1 7 0), demo.reg r ≠ none) ∧
      demo.reg 7 = some 0x103f ∧ addressNumber 0x103f 0 % 4 ≠ 0 ∧ demo.params.misaligned = .fault) ∧
    (Instr.access (.ldxw 1 4 0x40) = some (4, 0x40, 4, .read) ∧
      (∀ r ∈ Instr.reads demo.cs (.ldxw 1 4 0x40), demo.reg r ≠ none) ∧ demo.reg 4 = some 0x1000 ∧
      addressNumber 0x1000 0x40 % 4 = 0 ∧ ¬InRegion demo .read (addressNumber 0x1000 0x40) 4) := by
  refine ⟨by decide, by decide, by decide, by decide, by decide, fun h => ?_⟩
  exact absurd h.2 (by decide)

/-- The same for a misaligned access under MISALIGNED = bytewise that no region holds, and for an atomic access, which
is misaligned under bytewise too, or which no region holds. -/
theorem test_witness_MemoryAccessFaults_bytewise_atomic :
    (Instr.access (.stw 4 0x3e 1) = some (4, 0x3e, 4, .write) ∧
      (∀ r ∈ Instr.reads demoBytewise.cs (.stw 4 0x3e 1), demoBytewise.reg r ≠ none) ∧
      demoBytewise.reg 4 = some 0x1000 ∧ addressNumber 0x1000 0x3e % 4 ≠ 0 ∧ Access.write ≠ .rmw ∧
      demoBytewise.params.misaligned = .bytewise ∧ ¬InRegion demoBytewise .write (addressNumber 0x1000 0x3e) 4) ∧
    (Instr.access (.atomicAdd32 4 0 2) = some (4, 2, 4, .rmw) ∧
      (∀ r ∈ Instr.reads demoBytewise.cs (.atomicAdd32 4 0 2), demoBytewise.reg r ≠ none) ∧
      demoBytewise.reg 4 = some 0x1000 ∧ addressNumber 0x1000 2 % 4 ≠ 0) ∧
    (Instr.access (.atomicCmpxchg64 4 0 0x40) = some (4, 0x40, 8, .rmw) ∧
      (∀ r ∈ Instr.reads demo.cs (.atomicCmpxchg64 4 0 0x40), demo.reg r ≠ none) ∧ demo.reg 4 = some 0x1000 ∧
      addressNumber 0x1000 0x40 % 8 = 0 ∧ ¬InRegion demo .rmw (addressNumber 0x1000 0x40) 8) :=
  ⟨⟨by decide, by decide, by decide, by decide, by decide, by decide, fun h => absurd h.2 (by decide)⟩,
    ⟨by decide, by decide, by decide, by decide⟩, by decide, by decide, by decide, by decide,
    fun h => absurd h.2 (by decide)⟩

theorem test_witness_FirstUnsetRegisterIsReported :
    (Instr.reads demo.cs (.add64Reg 3 0)).find? (fun q => demo.reg q == none) = some 3 ∧
    (Instr.reads demo.cs (.atomicXchg64 4 3 0)).find? (fun q => demo.reg q == none) = some 3 := by decide

theorem test_witness_EnvironmentLookups :
    Instr.isLookup (.ldMapFd 1 3) = true ∧ lookupValue demo.params 2 (.ldMapFd 1 3) = some (1, 0x5000) ∧
    Instr.isLookup (.ldMapIdx 1 3) = true ∧ lookupValue demo.params 2 (.ldMapIdx 1 3) = none := by decide

/-- Launches with a map in a private or in no region, a variable that is no region, overlapping regions, and an empty
region inside another, which shares no address with it. -/
theorem test_valid :
    (demoObtains (.ldMapValFd 1 3 0x10)).params.valid = true ∧ (demoObtains (.ldVarAddr 1 9)).params.valid = true ∧
    (demoObtains (.ldMapValFd 1 4 0)).params.valid = false ∧ (demoObtains (.ldMapValIdx 1 5 0)).params.valid = false ∧
    (demoObtains (.ldVarAddr 1 10)).params.valid = false ∧
    { Params.default with regions := [⟨0, 8, true, true, false⟩, ⟨4, 0, true, true, false⟩] }.valid = true ∧
    { Params.default with regions := [⟨0, 8, true, true, false⟩, ⟨7, 1, true, true, false⟩] }.valid = false := by decide

theorem test_witness_ObtainedAddressesHaveRegions :
    [Instr.ldMapValFd 1 3 0x10, .ldMapValIdx 1 3 0x10, .ldVarAddr 1 9].all (fun i =>
      (demoObtains i).params.valid && decide ((demoObtains i).fetch = some (encode .little i)) &&
        (statusOf (step (demoObtains i)) == some .running)) = true ∧
    ∀ i ∈ [Instr.ldMapValFd 1 3 0x10, .ldMapValIdx 1 3 0x10, .ldVarAddr 1 9],
      (demoObtains i).out = .running ∧ decode .little (encode .little i) = .ok i := by
  refine ⟨by decide, fun i h => ⟨rfl, ?_⟩⟩
  simp only [List.mem_cons, List.not_mem_nil, or_false] at h
  rcases h with rfl | rfl | rfl <;> decide

theorem test_witness_PacketLoadsAreIllegal :
    Instr.ldIndB 10 0xffffffff ∈ [Instr.ldAbsW 0xffffffff, .ldAbsH 0xffffffff, .ldAbsB 0xffffffff, .ldIndW 10 0xffffffff,
      .ldIndH 10 0xffffffff, .ldIndB 10 0xffffffff, .imm64Hi 0xffffffff] := by decide

end Sys2Proof.Tests
end

