-- ==== Sys2Proof/Proofs/Scope.lean ====
section
/-! PROOFS. The parameters, launch and reset: the conformance groups, and what the first state of a run holds. -/

namespace Sys2Proof

open Machine

/-! ## Conformance groups (spec/00_scope.md R3, R4) -/

/-- R3's reading of the fields, row by row: the opcode of every row is a literal, and so is imm where R3 asks for it, in
the byte swaps alone. -/
theorem Instr.group_eq_groupOfFields (i : Instr) : i.group = groupOfFields i.fields := by
  cases i <;> simp [Instr.group, Instr.fields, groupOfFields]

namespace Machine

/-- Closure in R4's words: base32, and for every listed group the one it includes. -/
theorem Params.groupsClosed_iff (p : Params) :
    p.groupsClosed = true ↔ .base32 ∈ p.supportedGroups ∧
      ∀ g ∈ p.supportedGroups, ∀ h, g.includes = some h → h ∈ p.supportedGroups := by
  have included (g : Group) : (g.includes.map fun h => p.supportedGroups.contains h).getD true = true ↔
      ∀ h, g.includes = some h → h ∈ p.supportedGroups := by
    cases g.includes <;> simp
  simp only [Params.groupsClosed, Bool.and_eq_true, List.contains_iff_mem, List.all_eq_true, included]

end Machine

/-- Settles O7: the groups row by row, and closure group by group, since only three groups include another. -/
theorem groupsOfInstructions : Obligations.GroupsOfInstructions := by
  refine ⟨Instr.group_eq_groupOfFields, fun p => ?_⟩
  rw [Params.groupsClosed_iff]
  constructor
  · rintro ⟨hbase, hincl⟩
    exact ⟨hbase, fun h => hincl _ h _ rfl, fun h => hincl _ h _ rfl, fun h => hincl _ h _ rfl⟩
  · rintro ⟨hbase, hbase64, hatomic64, hdivmul64⟩
    refine ⟨hbase, fun g hg h hh => ?_⟩
    cases g with
    | base64 => cases hh; exact hbase64 hg
    | atomic64 => cases hh; exact hatomic64 hg
    | divmul64 => cases hh; exact hdivmul64 hg
    | base32 | atomic32 | divmul32 | packet => cases hh

/-! ## Launch and reset (spec/10_state.md R43, R47) -/

namespace Machine

/-- A register of a launch holds what the first pair that names it gives. -/
theorem entryRegs_getElem (given : List (Reg × W64)) (r : Reg) : (entryRegs given)[r.val] = given.lookup r := by
  fin_cases r <;> rfl

@[simp] theorem State.reg_launch (p : Params) (entryPc : Nat) (given : List (Reg × W64)) (mem : Memory)
    (recorded : List (List Host.Cell)) (r : Reg) :
    (State.launch p entryPc given mem recorded).reg r = given.lookup r :=
  entryRegs_getElem given r

@[simp] theorem State.reg_reset (r : Reg) : State.reset.reg r = some 0 := by
  rw [State.reset, State.reg_launch]
  revert r
  decide

theorem Params.mem_supportedGroups_default (g : Group) : g ∈ Params.default.supportedGroups := by
  cases g <;> decide

end Machine

/-- Settles O23: each field is read off the launch, the registers one by one. -/
theorem launchState : Obligations.LaunchState := by
  rintro p entryPc given mem recorded s rfl
  exact ⟨rfl, rfl, State.reg_launch p entryPc given mem recorded, rfl, rfl, rfl, rfl⟩

/-- Settles O24: reset is the launch with the default parameters, entry slot 0 and every register 0. -/
theorem resetState : Obligations.ResetState :=
  ⟨rfl, rfl, rfl, rfl, State.reg_reset, rfl, Params.mem_supportedGroups_default, rfl, rfl, rfl, rfl, rfl, rfl, rfl, rfl,
    rfl, rfl, rfl, rfl, rfl, rfl⟩

end Sys2Proof
end

