-- ==== Sys2Proof/Proofs/ByteSwap.lean ====
section
/-! PROOFS. The byte swaps (spec/43_byteswap.md): the frame of an instruction that ends by writing one register, the
bytes of a value against the value put together from bytes, and the nine instructions over both. -/

namespace Sys2Proof

open Machine

/-! ## Frames -/

/-- What an instruction leaves that ends by writing `dst` and going to the next slot. -/
theorem writesReg_setReg_setPc (dst : Reg) (v : W64) (pc : Int) (s : State) :
    WritesReg dst v pc s ((s.setReg dst v).setPc pc) := by
  have hothers : SameRegsBut dst s ((s.setReg dst v).setPc pc) := fun q hq => by
    rw [State.reg_setPc, State.reg_setReg_ne s hq]
  exact ⟨by simp, rfl, hothers, fun _ => by simp, rfl, rfl, rfl, rfl, rfl, rfl, rfl⟩

theorem WritesReg.reg_eq {r : Reg} {v : W64} {pc : Int} {s t : State} (h : WritesReg r v pc s t) : t.reg r = some v :=
  h.1

theorem WritesReg.params_eq {r : Reg} {v : W64} {pc : Int} {s t : State} (h : WritesReg r v pc s t) :
    t.params = s.params := by
  obtain ⟨_, _, _, _, _, _, hparams, _⟩ := h
  exact hparams

/-- An instruction of the form `dst = f(dst)` completes when `dst` holds a value. -/
theorem completes_alu64Dst {i : Instr} {f : W64 → W64} {dst : Reg} {s : State} {a : W64}
    (hi : exec i s = alu64Dst f dst s) (ha : s.reg dst = some a) : Completes i s (WritesReg dst (f a) (s.pc + 1) s) := by
  refine ⟨(s.setReg dst (f a)).setPc s.npc, ?_, writesReg_setReg_setPc dst (f a) _ s⟩
  rw [hi, alu64Dst, withReg_some ha, finish]

/-! ## Bytes and values -/

namespace Machine

/-- One more byte put below the bytes of a value. -/
theorem ofLowBytes_cons_toNat (b : Byte) (bs : List Byte) (h : bs.length < 8) :
    (ofLowBytes (b :: bs)).toNat = b.toNat + 256 * (ofLowBytes bs).toNat := by
  rw [(ofLowBytes_toNat (b :: bs) (by simpa using h)).1, (ofLowBytes_toNat bs (by omega)).1, List.foldr_cons]

/-- The bytes of the value that bytes are put together to are those bytes. -/
theorem lowBytes_ofLowBytes (bs : List Byte) (h : bs.length ≤ 8) : lowBytes bs.length (ofLowBytes bs) = bs := by
  induction bs with
  | nil => rfl
  | cons b rest ih =>
    have hvalue := ofLowBytes_cons_toNat b rest h
    have hlow : (ofLowBytes (b :: rest)).extractLsb' 0 8 = b := BitVec.eq_of_toNat_eq (by
      have := b.isLt
      rw [BitVec.extractLsb'_toNat, hvalue]
      omega)
    have hhigh : ofLowBytes (b :: rest) >>> 8 = ofLowBytes rest := BitVec.eq_of_toNat_eq (by
      have := b.isLt
      rw [BitVec.toNat_ushiftRight, hvalue, Nat.shiftRight_eq_div_pow]
      omega)
    rw [List.length_cons, lowBytes, hlow, hhigh, ih (Nat.le_of_succ_le h)]

/-- One more byte put above the bytes of a value. -/
theorem ofLowBytes_append_singleton_toNat (bs : List Byte) (b : Byte) (h : bs.length < 8) :
    (ofLowBytes (bs ++ [b])).toNat = b.toNat * 256 ^ bs.length + (ofLowBytes bs).toNat := by
  induction bs with
  | nil =>
    rw [List.nil_append, ofLowBytes_cons_toNat b [] h]
    simp [ofLowBytes]
  | cons c rest ih =>
    rw [List.length_cons] at h
    rw [List.cons_append, ofLowBytes_cons_toNat c _ (by simpa using h), ih (by omega),
      ofLowBytes_cons_toNat c rest (by omega), List.length_cons]
    ring

/-- The lowest byte of a value is the highest of its low bytes reversed. -/
theorem swapBytes_toNat (n : Nat) (v : W64) (h : n ≤ 8) : (swapBytes n v).toNat = reversedBytes n v.toNat := by
  induction n generalizing v with
  | zero => rfl
  | succ k ih =>
    have hbyte : (v.extractLsb' 0 8).toNat = v.toNat % 256 := by simp
    have hrest : (v >>> 8).toNat = v.toNat / 256 := by
      rw [BitVec.toNat_ushiftRight, Nat.shiftRight_eq_div_pow]
    have hswap := ih (v >>> 8) (by omega)
    rw [swapBytes] at hswap
    rw [swapBytes, lowBytes, List.reverse_cons, ofLowBytes_append_singleton_toNat _ _ (by simpa using h), hswap, hbyte,
      hrest, List.length_reverse, lowBytes_length, reversedBytes]

theorem keepBytes_eq_ofNat {n : Nat} (v : W64) (h : n ≤ 8) : keepBytes n v = BitVec.ofNat 64 (v.toNat % 256 ^ n) := by
  rw [keepBytes, ← ofLowBytes_lowBytes n v h, BitVec.ofNat_toNat, BitVec.setWidth_eq]

theorem swapBytes_eq_ofNat {n : Nat} (v : W64) (h : n ≤ 8) :
    swapBytes n v = BitVec.ofNat 64 (reversedBytes n v.toNat) := by
  rw [← swapBytes_toNat n v h, BitVec.ofNat_toNat, BitVec.setWidth_eq]

theorem lowBytes_keepBytes {n : Nat} (v : W64) (h : n ≤ 8) : lowBytes n (keepBytes n v) = lowBytes n v := by
  simpa [keepBytes] using lowBytes_ofLowBytes (lowBytes n v) (by simpa using h)

theorem lowBytes_swapBytes {n : Nat} (v : W64) (h : n ≤ 8) : lowBytes n (swapBytes n v) = (lowBytes n v).reverse := by
  simpa [swapBytes] using lowBytes_ofLowBytes (lowBytes n v).reverse (by simpa using h)

theorem keepBytes_keepBytes {n : Nat} (v : W64) (h : n ≤ 8) : keepBytes n (keepBytes n v) = keepBytes n v := by
  rw [keepBytes, lowBytes_keepBytes v h, keepBytes]

theorem swapBytes_swapBytes {n : Nat} (v : W64) (h : n ≤ 8) : swapBytes n (swapBytes n v) = keepBytes n v := by
  rw [swapBytes, lowBytes_swapBytes v h, List.reverse_reverse, keepBytes]

end Machine

/-! ## The nine instructions -/

/-- `c` is the byte swap of `n` bytes that puts `f` of the host's byte order and the value into its register, and `f`
run twice leaves the low bytes. -/
structure SwapsBy (f : Endian → W64 → W64) (c : Reg → Instr) (n : Nat) : Prop where
  width : n ≤ 8
  exec_eq : ∀ dst s, exec (c dst) s = alu64Dst (f s.params.hostEndian) dst s
  twice : ∀ e v, f e (f e v) = keepBytes n v

theorem SwapsBy.completes {f : Endian → W64 → W64} {c : Reg → Instr} {n : Nat} (h : SwapsBy f c n) {dst : Reg}
    {s : State} {a : W64} (ha : s.reg dst = some a) :
    Completes (c dst) s (WritesReg dst (f s.params.hostEndian a) (s.pc + 1) s) :=
  completes_alu64Dst (h.exec_eq dst s) ha

/-- The second run finds the host's byte order as the first did, and gives the low bytes back. -/
theorem SwapsBy.completes_twice {f : Endian → W64 → W64} {c : Reg → Instr} {n : Nat} (h : SwapsBy f c n) {dst : Reg}
    {s : State} {a : W64} (ha : s.reg dst = some a) :
    Completes (c dst) s fun t =>
      Completes (c dst) t fun u => u.reg dst = some (BitVec.ofNat 64 (a.toNat % 256 ^ n)) := by
  obtain ⟨t, hfirst, ht⟩ := h.completes ha
  obtain ⟨u, hsecond, hu⟩ := h.completes ht.reg_eq
  have hvalue : u.reg dst = some (BitVec.ofNat 64 (a.toNat % 256 ^ n)) := by
    rw [hu.reg_eq, ht.params_eq, h.twice, keepBytes_eq_ofNat a h.width]
  exact ⟨t, hfirst, u, hsecond, hvalue⟩

theorem width_le_of_mem_swaps : ∀ x ∈ swapsToLittle ++ swapsToBig ++ swapsAlways, x.2 ≤ 8 := by
  simp [swapsToLittle, swapsToBig, swapsAlways]

theorem swapsBy_hostToLittle {c : Reg → Instr} {n : Nat} (h : (c, n) ∈ swapsToLittle) :
    SwapsBy (fun e => hostToLittle e n) c n := by
  have hn : n ≤ 8 := width_le_of_mem_swaps (c, n) (by simp [h])
  refine ⟨hn, ?_, fun e v => ?_⟩
  · simp only [swapsToLittle, List.mem_cons, Prod.mk.injEq, List.not_mem_nil, or_false] at h
    obtain ⟨rfl, rfl⟩ | ⟨rfl, rfl⟩ | ⟨rfl, rfl⟩ := h <;> intros <;> rfl
  · cases e with
    | little => exact keepBytes_keepBytes v hn
    | big => exact swapBytes_swapBytes v hn

theorem swapsBy_hostToBig {c : Reg → Instr} {n : Nat} (h : (c, n) ∈ swapsToBig) :
    SwapsBy (fun e => hostToBig e n) c n := by
  have hn : n ≤ 8 := width_le_of_mem_swaps (c, n) (by simp [h])
  refine ⟨hn, ?_, fun e v => ?_⟩
  · simp only [swapsToBig, List.mem_cons, Prod.mk.injEq, List.not_mem_nil, or_false] at h
    obtain ⟨rfl, rfl⟩ | ⟨rfl, rfl⟩ | ⟨rfl, rfl⟩ := h <;> intros <;> rfl
  · cases e with
    | little => exact swapBytes_swapBytes v hn
    | big => exact keepBytes_keepBytes v hn

theorem swapsBy_swapBytes {c : Reg → Instr} {n : Nat} (h : (c, n) ∈ swapsAlways) :
    SwapsBy (fun _ => swapBytes n) c n := by
  have hn : n ≤ 8 := width_le_of_mem_swaps (c, n) (by simp [h])
  refine ⟨hn, ?_, fun _ v => swapBytes_swapBytes v hn⟩
  simp only [swapsAlways, List.mem_cons, Prod.mk.injEq, List.not_mem_nil, or_false] at h
  obtain ⟨rfl, rfl⟩ | ⟨rfl, rfl⟩ | ⟨rfl, rfl⟩ := h <;> intros <;> rfl

theorem hostToLittle_eq_ofNat (e : Endian) {n : Nat} (v : W64) (h : n ≤ 8) :
    hostToLittle e n v = if e = .little then BitVec.ofNat 64 (v.toNat % 256 ^ n)
      else BitVec.ofNat 64 (reversedBytes n v.toNat) := by
  cases e with
  | little => exact keepBytes_eq_ofNat v h
  | big => exact swapBytes_eq_ofNat v h

theorem hostToBig_eq_ofNat (e : Endian) {n : Nat} (v : W64) (h : n ≤ 8) :
    hostToBig e n v = if e = .big then BitVec.ofNat 64 (v.toNat % 256 ^ n)
      else BitVec.ofNat 64 (reversedBytes n v.toNat) := by
  cases e with
  | little => exact swapBytes_eq_ofNat v h
  | big => exact keepBytes_eq_ofNat v h

/-- Settles O35: each table's instructions run its function on values, whose result and whose square are known as
numbers. -/
theorem byteSwapResult : Obligations.ByteSwapResult := by
  refine ⟨fun dst s a ha => ⟨fun c n hc => ?_, fun c n hc => ?_, fun c n hc => ?_⟩, fun dst s a c n ha hc => ?_⟩
  · have hswap := swapsBy_hostToLittle hc
    rw [← hostToLittle_eq_ofNat _ a hswap.width]
    exact hswap.completes ha
  · have hswap := swapsBy_hostToBig hc
    rw [← hostToBig_eq_ofNat _ a hswap.width]
    exact hswap.completes ha
  · have hswap := swapsBy_swapBytes hc
    rw [← swapBytes_eq_ofNat a hswap.width]
    exact hswap.completes ha
  · rcases List.mem_append.1 hc with hc | hc
    · rcases List.mem_append.1 hc with hc | hc
      · exact (swapsBy_hostToLittle hc).completes_twice ha
      · exact (swapsBy_hostToBig hc).completes_twice ha
    · exact (swapsBy_swapBytes hc).completes_twice ha

end Sys2Proof
end

