-- ==== Sys2Proof/Proofs/HelperCall.lean ====
section
/-! PROOFS. Helper calls (spec/45_jump_b.md R386, R388): the bytes a list of written cells leaves, what a call of an
answering helper makes of the state, and what a described helper answers. -/

namespace Sys2Proof

open Machine

/-! ## Written cells -/

@[simp] theorem lastWrite_nil (a : Nat) (b : Byte) : lastWrite [] a b = b := rfl

/-- Cells dropped by their address count for nothing there and change nothing elsewhere. -/
theorem lastWrite_filter (p : Nat → Bool) (ws : List Host.Cell) (a : Nat) (b : Byte) :
    lastWrite (ws.filter fun c => p c.1) a b = if p a then lastWrite ws a b else b := by
  have hat (c : Host.Cell) : ((c.1 == a) && p c.1) = (p a && c.1 == a) := by
    by_cases h : c.1 = a
    · simp [h]
    · simp [beq_false_of_ne h]
  unfold lastWrite
  rw [List.filter_filter]
  simp only [hat]
  cases p a <;> simp

/-- A byte once cells have been written to memory, nothing it depends on else having changed. -/
theorem byteAt_of_mem_eq_writeCells {s t : State} {ws : List Host.Cell} (hm : t.mem = s.mem.writeCells ws)
    (hp : t.params = s.params) (hd : t.draws = s.draws) (a : Nat) : t.byteAt a = lastWrite ws a (s.byteAt a) := by
  have hfree : t.freeByte a = s.freeByte a := by simp [State.freeByte, hp, hd]
  rw [State.byteAt, State.byteAt, hm, Memory.read_writeCells, hfree, lastWrite]
  cases ((ws.filter fun c => c.1 == a).getLast?).map fun c => c.2 <;> rfl

/-- A helper writes bytes of writable regions alone. -/
theorem byteAt_applyHelper (s : State) (e : HelperEffect) (a : Nat) :
    (s.applyHelper e).byteAt a = if s.params.writableByte a then lastWrite e.writes a (s.byteAt a) else s.byteAt a := by
  rw [byteAt_of_mem_eq_writeCells (s.applyHelper_mem e) rfl rfl, lastWrite_filter s.params.writableByte]

/-! ## The call -/

/-- Both CALL forms call the relation of their own table. -/
theorem CallsHelper.exec_eq {i : Instr} {s : State} {id : Int} {h : Helper} (hc : CallsHelper i s.params id h) :
    exec i s = helperCall (some h) id s := by
  obtain ⟨imm, rfl, ⟨rfl, hl⟩ | ⟨rfl, hl⟩⟩ := hc
  · rw [← hl]; rfl
  · rw [← hl]; rfl

/-- A call whose relation has a result and finds values in the registers it reads leaves that result. -/
theorem CallsHelper.exec_eq_next {i : Instr} {s : State} {id : Int} {h : Helper} {a : HelperAnswer} {e : HelperEffect}
    (hc : CallsHelper i s.params id h) (ha : h.answer s = some a) (hr : ∀ r ∈ a.reads, s.reg r ≠ none)
    (he : a.effect = some e) : exec i s = .next ((s.applyHelper e).setPc (s.pc + 1)) := by
  have hset : firstNoValue s.regs a.reads = none := (firstNoValue_none_iff s.regs a.reads).2 hr
  simp only [hc.exec_eq, helperCall, ha, hset, he]
  rfl

/-! ## Described helpers -/

theorem describedAnswer_effect (os : List HelperOutcome) (s : State) :
    (describedAnswer os s).effect =
      (chooseOutcome s.choices (os.filter fun o => o.possible s)).map fun o => o.effect s := rfl

/-- No result exactly when no outcome is possible. -/
theorem describedAnswer_effect_eq_none_iff (os : List HelperOutcome) (s : State) :
    (describedAnswer os s).effect = none ↔ ∀ o ∈ os, o.possible s = false := by
  rw [describedAnswer_effect, Option.map_eq_none_iff, chooseOutcome_eq_none_iff, List.filter_eq_nil_iff]
  simp only [Bool.not_eq_true]

/-- A result is that of a possible outcome. -/
theorem exists_of_describedAnswer_effect {os : List HelperOutcome} {s : State} {e : HelperEffect}
    (h : (describedAnswer os s).effect = some e) : ∃ o ∈ os, o.possible s = true ∧ e = o.effect s := by
  rw [describedAnswer_effect, Option.map_eq_some_iff] at h
  obtain ⟨o, ho, rfl⟩ := h
  obtain ⟨hmem, hpossible⟩ := List.mem_filter.1 (chooseOutcome_mem ho)
  exact ⟨o, hmem, hpossible, rfl⟩

/-- The one outcome of the relation `x[0] <- x[1] + x[2]`, R386's example. -/
def sumOutcome : HelperOutcome := ⟨[], [(0, some (.op .add (.reg 1) (.reg 2)))], []⟩

theorem describedAnswer_sumOutcome (s : State) :
    describedAnswer [sumOutcome] s = { reads := [1, 2], effect := some (sumOutcome.effect s) } := rfl

theorem sumOutcome_effect {s : State} {a b : W64} (ha : s.reg 1 = some a) (hb : s.reg 2 = some b) :
    sumOutcome.effect s = { regs := (s.setReg 0 (a + b)).regs, writes := [] } := by
  simp [sumOutcome, HelperOutcome.effect, setHelperRegs, HelperValue.eval, HelperOp.eval, ha, hb]

/-- Settles O45: the call leaves the relation's result; a described relation's result is that of the outcome chosen among
the possible ones; R386's example has one outcome, which sets R0 and writes no byte. -/
theorem helperCallFollowsItsAnswer : Obligations.HelperCallFollowsItsAnswer := by
  refine ⟨fun i s id h a e hc ha hr he => ?_, fun os s => ?_, fun i s id a b hc ha hb => ?_⟩
  · refine ⟨_, hc.exec_eq_next ha hr he, rfl, rfl, rfl, rfl, rfl, rfl, rfl, rfl, rfl, fun x => ?_⟩
    rw [State.byteAt_setPc, byteAt_applyHelper]
  · exact ⟨describedAnswer os s, rfl, describedAnswer_effect_eq_none_iff os s,
      fun _ => exists_of_describedAnswer_effect⟩
  · have hreads : ∀ r ∈ [(1 : Reg), 2], s.reg r ≠ none := by simp [ha, hb]
    have hexec := hc.exec_eq_next (congrArg some (describedAnswer_sumOutcome s)) hreads rfl
    rw [sumOutcome_effect ha hb] at hexec
    refine ⟨_, hexec, ?_, fun q hq => State.reg_setReg_ne s hq (a + b), fun x => ?_, rfl, rfl, rfl⟩
    · rw [BitVec.ofNat_add, BitVec.ofNat_toNat, BitVec.ofNat_toNat, BitVec.setWidth_eq, BitVec.setWidth_eq]
      exact State.reg_setReg_self s 0 (a + b)
    · rw [State.byteAt_setPc, byteAt_applyHelper, lastWrite_nil, ite_self]

end Sys2Proof
end

