-- ==== Sys2Proof/Proofs/DecodeEncode.lean ====
section
/-! PROOFS. Decoding what was encoded (spec/30_encoding.md R120, R122): each operand form hands the operands in its
fields to the constructor, and so the decoder gives a well-formed instruction back from its slots. -/

namespace Sys2Proof

/-! ## The operand forms -/

theorem dstImmForm_of_fields (op : BitVec 8) (d : Reg) (off : BitVec 16) (imm : W32) (c : Reg → W32 → Instr) :
    dstImmForm ⟨op, regField d, 0, off, imm⟩ off c = .ok (c d imm) := by
  simp [dstImmForm]

theorem dstSrcForm_of_fields (op : BitVec 8) (d r : Reg) (off : BitVec 16) (c : Reg → Reg → Instr) :
    dstSrcForm ⟨op, regField d, regField r, off, 0⟩ off c = .ok (c d r) := by
  simp [dstSrcForm]

theorem dstImmSelected_zero_of_fields (op : BitVec 8) (d : Reg) (imm : W32) (c0 c1 : Reg → W32 → Instr) :
    dstImmSelected ⟨op, regField d, 0, 0, imm⟩ c0 c1 = .ok (c0 d imm) := by
  simp [dstImmSelected, dstImmForm]

theorem dstImmSelected_one_of_fields (op : BitVec 8) (d : Reg) (imm : W32) (c0 c1 : Reg → W32 → Instr) :
    dstImmSelected ⟨op, regField d, 0, 1, imm⟩ c0 c1 = .ok (c1 d imm) := by
  simp [dstImmSelected, dstImmForm]

theorem dstSrcSelected_zero_of_fields (op : BitVec 8) (d r : Reg) (c0 c1 : Reg → Reg → Instr) :
    dstSrcSelected ⟨op, regField d, regField r, 0, 0⟩ c0 c1 = .ok (c0 d r) := by
  simp [dstSrcSelected, dstSrcForm]

theorem dstSrcSelected_one_of_fields (op : BitVec 8) (d r : Reg) (c0 c1 : Reg → Reg → Instr) :
    dstSrcSelected ⟨op, regField d, regField r, 1, 0⟩ c0 c1 = .ok (c1 d r) := by
  simp [dstSrcSelected, dstSrcForm]

/-- MOV and MOVSX of class ALU: the offset is the width, 0 for MOV. -/
theorem movForm32_of_fields (op : BitVec 8) (d r : Reg) (c c8 c16 : Reg → Reg → Instr) :
    movForm32 ⟨op, regField d, regField r, 0, 0⟩ c c8 c16 = .ok (c d r) ∧
    movForm32 ⟨op, regField d, regField r, 8, 0⟩ c c8 c16 = .ok (c8 d r) ∧
    movForm32 ⟨op, regField d, regField r, 16, 0⟩ c c8 c16 = .ok (c16 d r) := by
  simp [movForm32, dstSrcForm]

/-- MOV and MOVSX of class ALU64: the offset is the width, 0 for MOV. -/
theorem movForm64_of_fields (op : BitVec 8) (d r : Reg) (c c8 c16 c32 : Reg → Reg → Instr) :
    movForm64 ⟨op, regField d, regField r, 0, 0⟩ c c8 c16 c32 = .ok (c d r) ∧
    movForm64 ⟨op, regField d, regField r, 8, 0⟩ c c8 c16 c32 = .ok (c8 d r) ∧
    movForm64 ⟨op, regField d, regField r, 16, 0⟩ c c8 c16 c32 = .ok (c16 d r) ∧
    movForm64 ⟨op, regField d, regField r, 32, 0⟩ c c8 c16 c32 = .ok (c32 d r) := by
  simp [movForm64, movForm32, dstSrcForm]

theorem dstForm_of_fields (op : BitVec 8) (d : Reg) (c : Reg → Instr) :
    dstForm ⟨op, regField d, 0, 0, 0⟩ c = .ok (c d) := by
  simp [dstForm]

theorem immForm_of_fields (op : BitVec 8) (sub : BitVec 4) (imm : W32) (c : W32 → Instr) :
    immForm ⟨op, 0, sub, 0, imm⟩ sub c = .ok (c imm) := by
  simp [immForm]

/-- CALL: src_reg is the subtype. -/
theorem callForm_of_fields (op : BitVec 8) (imm : W32) (c0 c1 c2 : W32 → Instr) :
    callForm ⟨op, 0, 0, 0, imm⟩ c0 c1 c2 = .ok (c0 imm) ∧ callForm ⟨op, 0, 1, 0, imm⟩ c0 c1 c2 = .ok (c1 imm) ∧
    callForm ⟨op, 0, 2, 0, imm⟩ c0 c1 c2 = .ok (c2 imm) := by
  simp [callForm, immForm]

theorem dstOffImmForm_of_fields (op : BitVec 8) (d : Reg) (off : BitVec 16) (imm : W32)
    (c : Reg → BitVec 16 → W32 → Instr) : dstOffImmForm ⟨op, regField d, 0, off, imm⟩ c = .ok (c d off imm) := by
  simp [dstOffImmForm]

theorem dstSrcOffForm_of_fields (op : BitVec 8) (d r : Reg) (off : BitVec 16) (c : Reg → Reg → BitVec 16 → Instr) :
    dstSrcOffForm ⟨op, regField d, regField r, off, 0⟩ c = .ok (c d r off) := by
  simp [dstSrcOffForm]

theorem srcImmForm_of_fields (op : BitVec 8) (r : Reg) (imm : W32) (c : Reg → W32 → Instr) :
    srcImmForm ⟨op, 0, regField r, 0, imm⟩ c = .ok (c r imm) := by
  simp [srcImmForm]

/-- The selector of an atomic instruction in imm gives the constructor the table has for it. -/
theorem atomicSelect_of_lookup {table : List (W32 × (Reg → Reg → BitVec 16 → Instr))} {sel : W32}
    {c : Reg → Reg → BitVec 16 → Instr} (h : table.lookup sel = some c) (op : BitVec 8) (d r : Reg) (off : BitVec 16) :
    atomicSelect table ⟨op, regField d, regField r, off, sel⟩ = .ok (c d r off) := by
  induction table with
  | nil => cases h
  | cons entry rest ih =>
    obtain ⟨v, c'⟩ := entry
    rw [atomicSelect]
    by_cases hv : sel = v
    · subst hv
      rw [List.lookup_cons_self, Option.some.injEq] at h
      subst h
      exact (if_pos rfl).trans (dstSrcOffForm_of_fields ..)
    · rw [List.lookup_cons, beq_false_of_ne hv] at h
      exact (if_neg hv).trans (ih h)

/-- The wide form goes on to the subtype with next_imm of a second slot whose reserved word is 0. -/
theorem wideForm_of_fields (op : BitVec 8) (d : Reg) (sub : BitVec 4) (imm nextImm : W32) :
    wideForm ⟨op, regField d, sub, 0, imm⟩ (some ⟨0, 0, 0, 0, nextImm⟩) =
      wideSubtype ⟨op, regField d, sub, 0, imm⟩ d nextImm := by
  simp [wideForm, Fields.reservedZero]

/-! ## The decoder -/

/-- The decoder reads jumps, CALL_LOCAL and EXIT back from their fields. -/
theorem decodeFields_fields_of_setsPc {i : Instr} (hp : i.setsPc = true) (second : Option Fields) :
    decodeFields i.fields second = .ok i := by
  cases i with
  | ja | exit => rfl
  | ja32 => exact immForm_of_fields ..
  | callLocal => exact (callForm_of_fields ..).2.1
  | jeq64Imm | jeq32Imm | jgt64Imm | jgt32Imm | jge64Imm | jge32Imm | jset64Imm | jset32Imm | jne64Imm | jne32Imm
  | jsgt64Imm | jsgt32Imm | jsge64Imm | jsge32Imm | jlt64Imm | jlt32Imm | jle64Imm | jle32Imm | jslt64Imm | jslt32Imm
  | jsle64Imm | jsle32Imm =>
    exact dstOffImmForm_of_fields ..
  | jeq64Reg | jeq32Reg | jgt64Reg | jgt32Reg | jge64Reg | jge32Reg | jset64Reg | jset32Reg | jne64Reg | jne32Reg
  | jsgt64Reg | jsgt32Reg | jsge64Reg | jsge32Reg | jlt64Reg | jlt32Reg | jle64Reg | jle32Reg | jslt64Reg | jslt32Reg
  | jsle64Reg | jsle32Reg =>
    exact dstSrcOffForm_of_fields ..
  | _ => cases hp

/-- The decoder reads loads, stores and atomic instructions back from their fields. -/
theorem decodeFields_fields_of_access {i : Instr} (ha : i.access.isSome = true) (second : Option Fields) :
    decodeFields i.fields second = .ok i := by
  cases i with
  | stw | sth | stb | stdw => exact dstOffImmForm_of_fields ..
  | ldxw | ldxh | ldxb | ldxdw | ldxsw | ldxsh | ldxsb | stxw | stxh | stxb | stxdw =>
    exact dstSrcOffForm_of_fields ..
  | atomicAdd32 | atomicFetchAdd32 | atomicOr32 | atomicFetchOr32 | atomicAnd32 | atomicFetchAnd32 | atomicXor32
  | atomicFetchXor32 | atomicXchg32 | atomicCmpxchg32 | atomicAdd64 | atomicFetchAdd64 | atomicOr64 | atomicFetchOr64
  | atomicAnd64 | atomicFetchAnd64 | atomicXor64 | atomicFetchXor64 | atomicXchg64 | atomicCmpxchg64 =>
    refine atomicSelect_of_lookup ?_ ..
    rfl
  | _ => cases ha

/-- The decoder reads a well-formed instruction back from its fields; a second slot counts for a wide one alone. -/
theorem decodeFields_fields {i : Instr} (hw : i.wellFormed = true) {second : Option Fields}
    (hs : i.isWide = true → second = some ⟨0, 0, 0, 0, i.secondImm⟩) : decodeFields i.fields second = .ok i := by
  cases i with
  | add32Imm | add64Imm | sub32Imm | sub64Imm | mul32Imm | mul64Imm | or32Imm | or64Imm | and32Imm | and64Imm
  | lsh32Imm | lsh64Imm | rsh32Imm | rsh64Imm | xor32Imm | xor64Imm | mov32Imm | mov64Imm | arsh32Imm | arsh64Imm =>
    exact dstImmForm_of_fields ..
  | div32Imm | div64Imm | mod32Imm | mod64Imm => exact dstImmSelected_zero_of_fields ..
  | sdiv32Imm | sdiv64Imm | smod32Imm | smod64Imm => exact dstImmSelected_one_of_fields ..
  | add32Reg | add64Reg | sub32Reg | sub64Reg | mul32Reg | mul64Reg | or32Reg | or64Reg | and32Reg | and64Reg
  | lsh32Reg | lsh64Reg | rsh32Reg | rsh64Reg | xor32Reg | xor64Reg | arsh32Reg | arsh64Reg =>
    exact dstSrcForm_of_fields ..
  | div32Reg | div64Reg | mod32Reg | mod64Reg => exact dstSrcSelected_zero_of_fields ..
  | sdiv32Reg | sdiv64Reg | smod32Reg | smod64Reg => exact dstSrcSelected_one_of_fields ..
  | mov32Reg => exact (movForm32_of_fields ..).1
  | movsx32x8 => exact (movForm32_of_fields ..).2.1
  | movsx32x16 => exact (movForm32_of_fields ..).2.2
  | mov64Reg => exact (movForm64_of_fields ..).1
  | movsx64x8 => exact (movForm64_of_fields ..).2.1
  | movsx64x16 => exact (movForm64_of_fields ..).2.2.1
  | movsx64x32 => exact (movForm64_of_fields ..).2.2.2
  | neg32 | neg64 | le16 | le32 | le64 | be16 | be32 | be64 | bswap16 | bswap32 | bswap64 =>
    exact dstForm_of_fields ..
  | imm64Hi => rfl
  | ldAbsW | ldAbsH | ldAbsB => exact immForm_of_fields ..
  | ldIndW | ldIndH | ldIndB => exact srcImmForm_of_fields ..
  | callHelper => exact (callForm_of_fields ..).1
  | callBtf => exact (callForm_of_fields ..).2.2
  | lddw | ldMapFd | ldVarAddr | ldCodeAddr | ldMapIdx =>
    rw [hs rfl]
    exact wideForm_of_fields ..
  | ldMapValFd | ldMapValIdx =>
    rw [hs rfl]
    exact (wideForm_of_fields ..).trans (if_pos hw)
  | ldxw | ldxh | ldxb | ldxdw | ldxsw | ldxsh | ldxsb | stw | sth | stb | stdw | stxw | stxh | stxb | stxdw
  | atomicAdd32 | atomicFetchAdd32 | atomicOr32 | atomicFetchOr32 | atomicAnd32 | atomicFetchAnd32 | atomicXor32
  | atomicFetchXor32 | atomicXchg32 | atomicCmpxchg32 | atomicAdd64 | atomicFetchAdd64 | atomicOr64 | atomicFetchOr64
  | atomicAnd64 | atomicFetchAnd64 | atomicXor64 | atomicFetchXor64 | atomicXchg64 | atomicCmpxchg64 =>
    exact decodeFields_fields_of_access rfl second
  | _ => exact decodeFields_fields_of_setsPc rfl second

theorem encode_ne_nil (e : Endian) (i : Instr) : encode e i ≠ [] := by
  rw [encode]
  split <;> exact List.cons_ne_nil _ _

/-- The slots of a well-formed instruction decode to it, whatever follows them. -/
theorem decode_encode_append (e : Endian) {i : Instr} (hw : i.wellFormed = true) (rest : List Slot) :
    decode e (encode e i ++ rest) = .ok i := by
  rw [encode]
  split
  · rename_i hwide
    simp only [List.cons_append, decode, List.head?_cons, Option.map_some, Fields.ofSlot_toSlot]
    exact decodeFields_fields hw fun _ => rfl
  · rename_i hbasic
    simp only [List.cons_append, List.nil_append, decode, Fields.ofSlot_toSlot]
    exact decodeFields_fields hw fun hwide => absurd hwide hbasic

end Sys2Proof
end

