-- ==== Sys2Proof/Proofs/Step.lean ====
section
/-! PROOFS. What a step does (spec/70_reset_and_hazards.md R552): the ways a next state comes about, said once, and what
follows from them and from the ways of exec for every instruction: which fields a step can change and how a run ends. -/

namespace Sys2Proof

open Machine

/-! ## Fetch and permission -/

namespace Machine

/-- All fetch answers: the slots from the pc on, where the pc is a slot of the program and no second slot. -/
theorem State.fetch_eq_some_iff {s : State} {slots : List Slot} :
    s.fetch = some slots ↔ 0 ≤ s.pc ∧ s.pc.toNat < s.params.program.length ∧
      secondSlotFrom false s.params.program s.pc.toNat = false ∧ slots = s.params.program.drop s.pc.toNat := by
  rw [State.fetch]
  split
  · simp only [reduceCtorEq, false_iff]
    omega
  · split
    · simp only [reduceCtorEq, false_iff]
      omega
    · split
      · rename_i hsecond
        simp [hsecond]
      · rename_i hneg hlen hsecond
        simp only [Option.some.injEq, Bool.not_eq_true] at hsecond ⊢
        exact ⟨fun h => ⟨by omega, by omega, hsecond, h.symm⟩, fun ⟨_, _, _, h⟩ => h.symm⟩

/-- Slots that stand in the program at the pc, no second slot, are fetched with all that follows. -/
theorem State.fetch_eq_some_of_append {s : State} {before here : List Slot}
    (hprog : s.params.program = before ++ here) (hpc : s.pc = before.length) (hne : here ≠ [])
    (hfirst : secondSlotFrom false s.params.program before.length = false) : s.fetch = some here := by
  have hhere : 0 < here.length := List.length_pos_iff.2 hne
  rw [State.fetch_eq_some_iff, hpc, Int.toNat_natCast]
  refine ⟨by omega, ?_, hfirst, ?_⟩
  · rw [hprog, List.length_append]
    omega
  · rw [hprog, List.drop_left]

/-- The environment has no part in what is fetched. -/
@[simp] theorem State.fetch_agentStep (s : State) : s.agentStep.fetch = s.fetch := by
  simp [State.fetch]

end Machine

theorem Instr.permitted_iff {p : Params} {i : Instr} :
    i.permitted p = true ↔ i.group ∈ p.supportedGroups ∧ ∀ r ∈ i.writes, r ∉ p.readonlyRegs := by
  simp [Instr.permitted]

/-! ## The step -/

namespace Machine

/-- The ways a step of a running state gives its next state, the faults before execution among them. -/
inductive StepEffect (s : State) : State → Prop where
  /-- BadPC(pc), where fetch finds no instruction. -/
  | badPC (hf : s.fetch = none) : StepEffect s (s.agentStep.faultedWith (.badPC s.pc))
  /-- IllegalInstruction(pc), where the slots decode to none. -/
  | undecodable (slots : List Slot) (r : Reject) (hf : s.fetch = some slots)
      (hd : decode s.params.hostEndian slots = .error r) :
      StepEffect s (s.agentStep.faultedWith (.illegalInstruction s.pc))
  /-- IllegalInstruction(pc), where the group is not supported or a read-only register would be written. -/
  | forbidden (slots : List Slot) (i : Instr) (hf : s.fetch = some slots)
      (hd : decode s.params.hostEndian slots = .ok i) (hp : i.permitted s.params = false) :
      StepEffect s (s.agentStep.faultedWith (.illegalInstruction s.pc))
  /-- The instruction is executed on what the environment has left. -/
  | runs (slots : List Slot) (i : Instr) (t : State) (hf : s.fetch = some slots)
      (hd : decode s.params.hostEndian slots = .ok i) (hp : i.permitted s.params = true)
      (hx : exec i s.agentStep = .next t) : StepEffect s t

theorem step_of_running {s : State} (hr : s.out = .running) : step s = stepRunning s.agentStep := by
  rw [step, hr]

theorem step_of_exited {s : State} {v : W64} (h : s.out = .exited v) : step s = .refused .runEnded := by
  rw [step, h]

theorem step_of_faulted {s : State} {f : Fault} (h : s.out = .faulted f) : step s = .fault f := by
  rw [step, h]

theorem step_of_fetch_none {s : State} (hr : s.out = .running) (hf : s.fetch = none) :
    step s = .next (s.agentStep.faultedWith (.badPC s.pc)) := by
  simp [step_of_running hr, stepRunning, hf]

theorem step_of_undecodable {s : State} {slots : List Slot} {r : Reject} (hr : s.out = .running)
    (hf : s.fetch = some slots) (hd : decode s.params.hostEndian slots = .error r) :
    step s = .next (s.agentStep.faultedWith (.illegalInstruction s.pc)) := by
  simp [step_of_running hr, stepRunning, hf, hd]

theorem step_of_forbidden {s : State} {slots : List Slot} {i : Instr} (hr : s.out = .running)
    (hf : s.fetch = some slots) (hd : decode s.params.hostEndian slots = .ok i) (hp : i.permitted s.params = false) :
    step s = .next (s.agentStep.faultedWith (.illegalInstruction s.pc)) := by
  simp [step_of_running hr, stepRunning, hf, hd, hp]

theorem step_of_permitted {s : State} {slots : List Slot} {i : Instr} (hr : s.out = .running)
    (hf : s.fetch = some slots) (hd : decode s.params.hostEndian slots = .ok i) (hp : i.permitted s.params = true) :
    step s = exec i s.agentStep := by
  simp [step_of_running hr, stepRunning, hf, hd, hp]

/-- A state that has a next state is running. -/
theorem running_of_step {s t : State} (h : step s = .next t) : s.out = .running := by
  cases ho : s.out with
  | running => rfl
  | exited v => rw [step_of_exited ho] at h; cases h
  | faulted f => rw [step_of_faulted ho] at h; cases h

/-- Every next state of step comes about in one of the ways of StepEffect. -/
theorem step_effect {s t : State} (h : step s = .next t) : StepEffect s t := by
  have hr := running_of_step h
  cases hf : s.fetch with
  | none =>
    rw [step_of_fetch_none hr hf, Host.Outcome.next.injEq] at h
    exact h ▸ .badPC hf
  | some slots =>
    cases hd : decode s.params.hostEndian slots with
    | error r =>
      rw [step_of_undecodable hr hf hd, Host.Outcome.next.injEq] at h
      exact h ▸ .undecodable slots r hf hd
    | ok i =>
      cases hp : i.permitted s.params with
      | false =>
        rw [step_of_forbidden hr hf hd hp, Host.Outcome.next.injEq] at h
        exact h ▸ .forbidden slots i hf hd hp
      | true =>
        rw [step_of_permitted hr hf hd hp] at h
        exact .runs slots i t hf hd hp h

end Machine

/-! ## What exec can change -/

namespace Machine

variable {i : Instr} {s t : State}

theorem Effect.params_eq (h : Effect i s t) : t.params = s.params := by
  cases h <;> rfl

/-- Only EXIT with an empty call stack ends a run without a fault. -/
theorem Effect.of_out_exited {v : W64} (h : Effect i s t) (hr : s.out = .running) (ho : t.out = .exited v) :
    i = .exit ∧ s.cs = [] ∧ s.reg 0 = some v ∧ t = { s with out := .exited v } := by
  cases h with
  | exits w hi hcs hreg =>
    cases ho
    exact ⟨hi, hcs, hreg, rfl⟩
  | illegal | unset | misaligned | memFault | depth | helperFault => cases ho
  | writes | jumps | stores | atomic | atomicFetch | calls | returns | helperUnknown | helperEffect =>
    cases hr.symm.trans ho

/-- An instruction that sets the pc in no other way and does not end the run goes on after itself. -/
theorem Effect.pc_eq (h : Effect i s t) (hp : i.setsPc = false) (ho : t.out = .running) : t.pc = s.pc + i.length := by
  cases h with
  | writes => rfl
  | stores _ _ _ _ _ _ _ hl | atomic _ _ _ _ _ _ _ hl | atomicFetch _ _ _ _ _ _ _ _ _ _ hl | helperUnknown _ hl
  | helperEffect _ hl => rw [hl]; rfl
  | illegal | unset | misaligned | memFault | depth | helperFault | exits => cases ho
  | jumps _ hj => cases hp.symm.trans hj
  | calls _ hi | returns _ _ hi => subst hi; cases hp

theorem Effect.cs_eq (h : Effect i s t) (hcall : ∀ imm, i ≠ .callLocal imm) (hexit : i ≠ .exit) : t.cs = s.cs := by
  cases h with
  | calls imm hi => exact absurd hi (hcall imm)
  | returns _ _ hi => exact absurd hi hexit
  | illegal | unset | misaligned | memFault | depth | helperFault | writes | jumps | stores | atomic | atomicFetch
  | exits | helperUnknown | helperEffect => rfl

/-- Registers the instruction's rule does not write are changed by a helper, a local call or a return alone. -/
theorem Effect.reg_eq (h : Effect i s t) (hhelper : i.isHelperCall = false) (hcall : ∀ imm, i ≠ .callLocal imm)
    (hexit : i ≠ .exit) {r : Reg} (hw : r ∉ i.writes) : t.reg r = s.reg r := by
  cases h with
  | writes dst v hdst =>
    have hne : r ≠ dst := fun e => hw (e ▸ hdst)
    rw [State.reg_setPc, State.reg_setReg_ne s hne]
  | atomicFetch _ _ n a v dst w _ _ hdst =>
    have hne : r ≠ dst := fun e => hw (e ▸ hdst)
    rw [State.reg_setPc, State.reg_setReg_ne _ hne, State.reg_store]
  | calls imm hi => exact absurd hi (hcall imm)
  | returns _ _ hi => exact absurd hi hexit
  | helperUnknown hi | helperEffect hi => cases hhelper.symm.trans hi
  | illegal | unset | misaligned | memFault | depth | helperFault | jumps | stores | atomic | exits => rfl

end Machine

/-! ## The obligations -/

/-- Settles O5: with the instruction in the program by its encoding, fetch gives slots that decode to it. -/
theorem stepRunsDecodedInstruction : Obligations.StepRunsDecodedInstruction := by
  refine ⟨fun s slots i hr hf hd hp => step_of_permitted hr hf hd hp,
    fun s before after i hr hw hprog hpc hfirst hp => ?_⟩
  have hne := List.append_ne_nil_of_left_ne_nil (encode_ne_nil s.params.hostEndian i) after
  rw [List.append_assoc] at hprog
  have hf : s.fetch = some (encode s.params.hostEndian i ++ after) := State.fetch_eq_some_of_append hprog hpc hne hfirst
  exact step_of_permitted hr hf (decode_encode_append _ hw after) hp

/-- Settles O9: each status of an ended run has its own answer. -/
theorem endedRunHasNoNextState : Obligations.EndedRunHasNoNextState :=
  fun _ => ⟨fun _ h => step_of_faulted h, fun _ h => step_of_exited h⟩

/-- Settles O12: the faults before execution leave a faulted status, so an instruction ran, and it was EXIT. -/
theorem onlyExitEndsARun : Obligations.OnlyExitEndsARun := by
  intro s t v hr hstep ho
  cases step_effect hstep with
  | badPC | undecodable | forbidden => cases ho
  | runs slots i _ hf hd _ hx =>
    obtain ⟨rfl, hcs, hreg, rfl⟩ := (exec_effect hx).of_out_exited (by simpa using hr) ho
    exact ⟨by simpa using hcs, by simpa using hreg, rfl, slots, hf, hd⟩

/-- Settles O13: neither the environment nor exec changes them. -/
theorem parametersNeverChange : Obligations.ParametersNeverChange := by
  intro s t hstep
  cases step_effect hstep with
  | badPC | undecodable | forbidden => simp
  | runs _ i _ _ _ _ hx => rw [(exec_effect hx).params_eq, State.agentStep_params]

/-- Settles O15: of the ways of exec those that leave a running state go past the instruction or are of one that sets
the pc. -/
theorem pcAdvancesByLength : Obligations.PcAdvancesByLength :=
  fun _ _ _ hp _ hx ho => (exec_effect hx).pc_eq hp ho

/-- Settles O16: the ways of exec that push or pop a frame are of those two instructions. -/
theorem callStackChangesOnlyByCallAndExit : Obligations.CallStackChangesOnlyByCallAndExit :=
  fun _ _ _ hcall hexit hx => (exec_effect hx).cs_eq hcall hexit

/-- Settles O17: an instruction that would write a read-only register is not executed. -/
theorem readonlyRegistersAreKept : Obligations.ReadonlyRegistersAreKept := by
  intro s t slots i r hr hf hd hhelper hcall hexit hro hstep
  cases hp : i.permitted s.params with
  | false =>
    rw [step_of_forbidden hr hf hd hp, Host.Outcome.next.injEq] at hstep
    subst hstep
    simp
  | true =>
    rw [step_of_permitted hr hf hd hp] at hstep
    have hw : r ∉ i.writes := fun hmem => (Instr.permitted_iff.1 hp).2 r hmem hro
    rw [(exec_effect hstep).reg_eq hhelper hcall hexit hw, State.reg_agentStep]

end Sys2Proof
end

