-- ==== Sys2Proof/Proofs/MemoryInvariant.lean ====
section
/-! PROOFS. The memory invariant (spec/10_state.md R45, spec/20_memory.md R69): a byte that a store, a helper or the
environment may write lies in a region, and every way of writing keeps the canonical form. -/

namespace Sys2Proof

open Machine

/-! ## Where bytes may be written -/

namespace Machine

/-- The address lies below 2^64 and in a region: what MemoryInv asks of every written byte. -/
def Params.InRegions (p : Params) (a : Nat) : Prop :=
  a < 2 ^ 64 ∧ ∃ r ∈ p.regions, r.base ≤ a ∧ a < r.base + r.len

end Machine

theorem memoryInv_iff {s : State} : MemoryInv s ↔ s.mem.wf = true ∧ ∀ c ∈ s.mem, s.params.InRegions c.1 := Iff.rfl

namespace Machine

variable {p : Params} {a n x : Nat}

theorem Region.holds_iff {r : Region} : r.holds a n = true ↔ r.base ≤ a ∧ a + n ≤ r.base + r.len := by
  simp [Region.holds]

/-- Every byte of a valid access lies in a region, whatever the kind of access. -/
theorem Params.inRegions_of_allows {k : Access} (h : p.allows k a n = true) (hlo : a ≤ x) (hhi : x < a + n) :
    p.InRegions x := by
  simp only [Params.allows, Bool.and_eq_true, decide_eq_true_eq, List.any_eq_true, Region.holds_iff] at h
  obtain ⟨htop, r, hr, _, hbase, hend⟩ := h
  exact ⟨by omega, r, hr, by omega, by omega⟩

theorem Params.inRegions_of_writableByte (h : p.writableByte a = true) : p.InRegions a :=
  Params.inRegions_of_allows h (Nat.le_refl a) (Nat.lt_succ_self a)

theorem Params.inRegions_of_sharedByte (h : p.sharedByte a = true) : p.InRegions a := by
  simp only [Params.sharedByte, Bool.and_eq_true, decide_eq_true_eq, List.any_eq_true, Region.holds_iff] at h
  obtain ⟨htop, r, hr, _, hbase, hend⟩ := h
  exact ⟨htop, r, hr, hbase, by omega⟩

end Machine

/-! ## The operations on memory -/

section

variable {s t : State}

/-- The invariant speaks of the written bytes and the regions alone. -/
theorem MemoryInv.congr (h : MemoryInv s) (hm : t.mem = s.mem) (hp : t.params = s.params) : MemoryInv t := by
  rw [memoryInv_iff, hm, hp]
  exact h

theorem MemoryInv.writeBytes (h : MemoryInv s) {a : Nat} {bs : List Byte}
    (ha : ∀ x, a ≤ x → x < a + bs.length → s.params.InRegions x) (hm : t.mem = s.mem.writeBytes a bs)
    (hp : t.params = s.params) : MemoryInv t := by
  obtain ⟨hwf, hin⟩ := h
  rw [memoryInv_iff, hm, hp]
  refine ⟨Memory.wf_writeBytes hwf a bs, fun c hc => ?_⟩
  rcases Memory.mem_writeBytes hc with ⟨hlo, hhi⟩ | hc
  · exact ha c.1 hlo hhi
  · exact hin c hc

theorem MemoryInv.writeCells (h : MemoryInv s) {cells : List Host.Cell} (hc : ∀ c ∈ cells, s.params.InRegions c.1)
    (hm : t.mem = s.mem.writeCells cells) (hp : t.params = s.params) : MemoryInv t := by
  obtain ⟨hwf, hin⟩ := h
  rw [memoryInv_iff, hm, hp]
  refine ⟨Memory.wf_writeCells hwf cells, fun c hmem => ?_⟩
  rcases Memory.mem_writeCells hmem with hmem | hmem
  · exact hc c hmem
  · exact hin c hmem

theorem MemoryInv.filter (h : MemoryInv s) {q : Host.Cell → Bool} (hm : t.mem = s.mem.filter q)
    (hp : t.params = s.params) : MemoryInv t := by
  obtain ⟨hwf, hin⟩ := h
  rw [memoryInv_iff, hm, hp]
  exact ⟨Memory.wf_filter hwf q, fun c hc => hin c (List.mem_filter.1 hc).1⟩

/-- A store of an access that is valid, for whatever kind of access. -/
theorem MemoryInv.store (h : MemoryInv s) {k : Access} {a n : Nat} {v : W64} (ha : s.params.allows k a n = true) :
    MemoryInv (s.store a n v) := by
  refine h.writeBytes (fun x hlo hhi => ?_) (s.store_mem a n v) rfl
  rw [dataBytes_length] at hhi
  exact Params.inRegions_of_allows ha hlo hhi

theorem MemoryInv.weakestHelper (h : MemoryInv s) : MemoryInv s.weakestHelper :=
  h.filter s.weakestHelper_mem rfl

/-- A helper writes bytes of writable regions alone. -/
theorem MemoryInv.applyHelper (h : MemoryInv s) (e : HelperEffect) : MemoryInv (s.applyHelper e) :=
  h.writeCells (fun _ hc => Params.inRegions_of_writableByte (List.mem_filter.1 hc).2) (s.applyHelper_mem e) rfl

/-- The environment writes bytes of shared regions alone. -/
theorem MemoryInv.agentStep (h : MemoryInv s) : MemoryInv s.agentStep := by
  rcases s.agentStep_cases with hs | ⟨ws, rest, time, hs⟩
  · rwa [hs]
  · rw [hs]
    exact h.writeCells (fun _ hc => Params.inRegions_of_sharedByte (List.mem_filter.1 hc).2) rfl rfl

/-- Every instruction keeps the invariant: it writes by a store into a region or by a helper, or not at all. -/
theorem MemoryInv.of_effect {i : Instr} (h : MemoryInv s) (he : Effect i s t) : MemoryInv t := by
  cases he with
  | stores _ _ _ _ _ _ hr | atomic _ _ _ _ _ _ hr | atomicFetch _ _ _ _ _ _ _ _ hr => exact (h.store hr).congr rfl rfl
  | helperUnknown => exact h.weakestHelper.congr rfl rfl
  | helperEffect _ _ e => exact (h.applyHelper e).congr rfl rfl
  | illegal | unset | misaligned | memFault | depth | helperFault | writes | jumps | calls | returns | exits =>
    exact h.congr rfl rfl

end

/-! ## The obligations -/

/-- Settles O18: first the environment's change keeps the invariant, then a fault or the instruction does. -/
theorem stepKeepsMemoryInvariant : Obligations.StepKeepsMemoryInvariant := by
  intro s t h hstep
  cases step_effect hstep with
  | badPC | undecodable | forbidden => exact h.agentStep.congr rfl rfl
  | runs _ i _ _ _ _ hx => exact h.agentStep.of_effect (exec_effect hx)

/-- Settles O19: at reset no byte has been written. -/
theorem resetMemoryInvariant : Obligations.ResetMemoryInvariant :=
  ⟨rfl, fun _ hc => absurd hc List.not_mem_nil⟩

end Sys2Proof
end

