-- ==== Sys2Proof/Proofs/FetchEncoding.lean ====
section
/-! PROOFS. Fetch in a program made of encodings (spec/10_state.md R34, R36, spec/30_encoding.md R122): the scan for
second slots passes over one instruction at a time. -/

namespace Sys2Proof

open Machine

/-! ## The slots of one instruction -/

/-- Opcode 0x18 is the opcode of the wide instructions and of no other. -/
theorem Instr.opcode_eq_wide_iff (i : Instr) : i.fields.opcode = 0x18 ↔ i.isWide = true := by
  cases i <;> simp [Instr.fields, Instr.isWide]

theorem startsWide_toSlot (e : Endian) (i : Instr) : startsWide (i.fields.toSlot e) = i.isWide := by
  have hop : (i.fields.toSlot e).b0 = i.fields.opcode := by cases e <;> rfl
  rw [startsWide, hop, Bool.eq_iff_iff, beq_iff_eq, Instr.opcode_eq_wide_iff]

@[simp] theorem encode_length (e : Endian) (i : Instr) : (encode e i).length = i.length := by
  rw [encode, Instr.length]
  split <;> rfl

/-- The slots of instructions one after the other are as many as their lengths together. -/
theorem length_flatMap_encode (e : Endian) (is : List Instr) :
    (is.flatMap (encode e)).length = (is.map Instr.length).sum := by
  rw [List.length_flatMap]
  exact congrArg List.sum (List.map_congr_left fun i _ => encode_length e i)

/-! ## The scan for second slots -/

/-- The scan goes past an instruction and begins again at the next first slot. -/
theorem secondSlotFrom_encode_append (e : Endian) (i : Instr) (rest : List Slot) (k : Nat) :
    secondSlotFrom false (encode e i ++ rest) (i.length + k) = secondSlotFrom false rest k := by
  cases hw : i.isWide <;> simp [encode, Instr.length, hw, Nat.add_comm _ k, secondSlotFrom, startsWide_toSlot]

/-- Within an instruction only the first slot is no second slot. -/
theorem eq_zero_of_secondSlotFrom_encode_append {e : Endian} {i : Instr} {rest : List Slot} {n : Nat}
    (hn : n < i.length) (h : secondSlotFrom false (encode e i ++ rest) n = false) : n = 0 := by
  cases hw : i.isWide with
  | true =>
    have h2 : n < 2 := by simpa [Instr.length, hw] using hn
    interval_cases n
    · rfl
    · simp [encode, hw, secondSlotFrom, startsWide_toSlot] at h
  | false => simpa [Instr.length, hw] using hn

theorem secondSlotFrom_false_zero (slots : List Slot) : secondSlotFrom false slots 0 = false := by
  cases slots <;> rfl

/-- The slot after whole instructions is no second slot. -/
theorem secondSlotFrom_flatMap_encode_append (e : Endian) (before : List Instr) (rest : List Slot) :
    secondSlotFrom false (before.flatMap (encode e) ++ rest) (before.map Instr.length).sum = false := by
  induction before with
  | nil => exact secondSlotFrom_false_zero rest
  | cons i before ih =>
    rw [List.flatMap_cons, List.append_assoc, List.map_cons, List.sum_cons, secondSlotFrom_encode_append, ih]

/-- A slot of the encodings that is no second slot is the first slot of one of the instructions. -/
theorem exists_start_of_secondSlotFrom {e : Endian} {is : List Instr} {n : Nat}
    (hn : n < (is.flatMap (encode e)).length) (h : secondSlotFrom false (is.flatMap (encode e)) n = false) :
    ∃ before i after, is = before ++ i :: after ∧ n = (before.map Instr.length).sum := by
  induction is generalizing n with
  | nil => cases hn
  | cons j is ih =>
    rw [List.flatMap_cons] at hn h
    rw [List.length_append, encode_length] at hn
    by_cases hj : n < j.length
    · exact ⟨[], j, is, rfl, eq_zero_of_secondSlotFrom_encode_append hj h⟩
    · obtain ⟨k, rfl⟩ := Nat.exists_eq_add_of_le (Nat.le_of_not_lt hj)
      rw [secondSlotFrom_encode_append] at h
      obtain ⟨before, i, after, rfl, rfl⟩ := ih (by omega) h
      exact ⟨j :: before, i, after, rfl, by simp⟩

/-! ## The obligation -/

/-- Settles O8: at the first slot of an instruction its encoding is fetched, and a slot where fetch finds something is
the first of one. -/
theorem fetchFindsInstructionStarts : Obligations.FetchFindsInstructionStarts := by
  intro s is hwf hprog
  refine ⟨fun before after i his hpc => ?_, fun hno => ?_⟩
  · subst his
    have hi : i.wellFormed = true := hwf i (by simp)
    rw [List.flatMap_append, List.flatMap_cons] at hprog
    have hlen := length_flatMap_encode s.params.hostEndian before
    have hne := List.append_ne_nil_of_left_ne_nil (encode_ne_nil s.params.hostEndian i)
      (after.flatMap (encode s.params.hostEndian))
    have hfirst := secondSlotFrom_flatMap_encode_append s.params.hostEndian before
      (encode s.params.hostEndian i ++ after.flatMap (encode s.params.hostEndian))
    rw [← hprog, ← hlen] at hfirst
    exact ⟨_, State.fetch_eq_some_of_append hprog (by rw [hpc, hlen]) hne hfirst, decode_encode_append _ hi _⟩
  · by_contra hsome
    obtain ⟨slots, hf⟩ := Option.ne_none_iff_exists'.1 hsome
    obtain ⟨hpc, hlt, hfirst, -⟩ := State.fetch_eq_some_iff.1 hf
    rw [hprog] at hlt hfirst
    obtain ⟨before, i, after, his, hstart⟩ := exists_start_of_secondSlotFrom hlt hfirst
    exact hno before after i his (by omega)

end Sys2Proof
end

