-- ==== Sys2Proof/Proofs/Jump.lean ====
section
/-! PROOFS. Jumps (spec/44_jump_a.md R330 to R334, spec/45_jump_b.md): what a comparison of the model decides, what a
branch on it leaves, and for each table of conditional jumps the comparison every instruction of it branches on. -/

namespace Sys2Proof

open Machine

/-! ## Comparisons -/

namespace Machine

section

variable {n : Nat} (a b : BitVec n)

theorem cmpEq_iff : cmpEq a b = true ↔ a = b := decide_eq_true_iff

theorem cmpNe_iff : cmpNe a b = true ↔ a ≠ b := decide_eq_true_iff

/-- JSET compares bits; as numbers the conjunction is the same. -/
theorem cmpSet_iff : cmpSet a b = true ↔ a.toNat &&& b.toNat ≠ 0 := by
  rw [cmpSet, decide_eq_true_iff, ← BitVec.toNat_and, ne_eq, ne_eq, ← BitVec.toNat_inj]
  rfl

theorem cmpGt_iff : cmpGt a b = true ↔ a.toNat > b.toNat := decide_eq_true_iff

theorem cmpGe_iff : cmpGe a b = true ↔ a.toNat ≥ b.toNat := decide_eq_true_iff

theorem cmpLt_iff : cmpLt a b = true ↔ a.toNat < b.toNat := decide_eq_true_iff

theorem cmpLe_iff : cmpLe a b = true ↔ a.toNat ≤ b.toNat := decide_eq_true_iff

theorem cmpSgt_iff : cmpSgt a b = true ↔ a.toInt > b.toInt := decide_eq_true_iff

theorem cmpSge_iff : cmpSge a b = true ↔ a.toInt ≥ b.toInt := decide_eq_true_iff

theorem cmpSlt_iff : cmpSlt a b = true ↔ a.toInt < b.toInt := decide_eq_true_iff

theorem cmpSle_iff : cmpSle a b = true ↔ a.toInt ≤ b.toInt := decide_eq_true_iff

end

/-- The comparisons of the conditional jumps, each with what it decides, in the order of the tables of conditions. -/
def comparisons (n : Nat) : List ((BitVec n → BitVec n → Bool) × (BitVec n → BitVec n → Prop)) :=
  [(cmpEq, fun a b => a = b),
   (cmpNe, fun a b => a ≠ b),
   (cmpSet, fun a b => a.toNat &&& b.toNat ≠ 0),
   (cmpGt, fun a b => a.toNat > b.toNat),
   (cmpGe, fun a b => a.toNat ≥ b.toNat),
   (cmpLt, fun a b => a.toNat < b.toNat),
   (cmpLe, fun a b => a.toNat ≤ b.toNat),
   (cmpSgt, fun a b => a.toInt > b.toInt),
   (cmpSge, fun a b => a.toInt ≥ b.toInt),
   (cmpSlt, fun a b => a.toInt < b.toInt),
   (cmpSle, fun a b => a.toInt ≤ b.toInt)]

theorem comparisons_iff {n : Nat} : ∀ x ∈ comparisons n, ∀ a b, x.1 a b = true ↔ x.2 a b := by
  simp [comparisons, cmpEq_iff, cmpNe_iff, cmpSet_iff, cmpGt_iff, cmpGe_iff, cmpLt_iff, cmpLe_iff, cmpSgt_iff,
    cmpSge_iff, cmpSlt_iff, cmpSle_iff]

end Machine

/-- In a table whose rows run `form` of the comparisons, every row runs `form` of a comparison that decides its
condition. -/
theorem exists_comparison_of_mem {n : Nat} {C R : Type} {table : List (C × (BitVec n → BitVec n → Prop))} {run : C → R}
    {form : (BitVec n → BitVec n → Bool) → R}
    (htable : table.map (Prod.map run id) = (comparisons n).map (Prod.map form id)) {c : C}
    {P : BitVec n → BitVec n → Prop} (hc : (c, P) ∈ table) :
    ∃ cmp, (∀ a b, cmp a b = true ↔ P a b) ∧ run c = form cmp := by
  have hmem : (run c, P) ∈ table.map (Prod.map run id) := List.mem_map_of_mem hc
  rw [htable, List.mem_map] at hmem
  obtain ⟨⟨cmp, Q⟩, hx, he⟩ := hmem
  obtain ⟨hrun, rfl⟩ := Prod.mk.inj he
  exact ⟨cmp, comparisons_iff _ hx, hrun.symm⟩

/-! ## The tables of conditional jumps -/

theorem jump32ImmConditions_run :
    jump32ImmConditions.map (Prod.map (fun c dst off imm s => exec (c dst off imm) s) id) =
      (comparisons 32).map (Prod.map jump32Imm id) := rfl

theorem jump32RegConditions_run :
    jump32RegConditions.map (Prod.map (fun c dst src off s => exec (c dst src off) s) id) =
      (comparisons 32).map (Prod.map jump32Reg id) := rfl

theorem jump64ImmConditions_run :
    jump64ImmConditions.map (Prod.map (fun c dst off imm s => exec (c dst off imm) s) id) =
      (comparisons 64).map (Prod.map jump64Imm id) := rfl

theorem jump64RegConditions_run :
    jump64RegConditions.map (Prod.map (fun c dst src off s => exec (c dst src off) s) id) =
      (comparisons 64).map (Prod.map jump64Reg id) := rfl

/-! ## Where a jump goes -/

theorem movesPc_setPc (pc : Int) (s : State) : MovesPc pc s (s.setPc pc) :=
  ⟨rfl, fun _ => rfl, fun _ => rfl, rfl, rfl, rfl, rfl, rfl, rfl, rfl⟩

theorem completes_jumpBy {i : Instr} {s : State} {d : Int} (hi : exec i s = jumpBy d s) :
    Completes i s (MovesPc (s.pc + 1 + d) s) :=
  ⟨s.setPc (s.npc + d), hi, movesPc_setPc _ s⟩

theorem completes_advance {i : Instr} {s : State} (hi : exec i s = advance s) : Completes i s (MovesPc (s.pc + 1) s) :=
  ⟨s.setPc s.npc, hi, movesPc_setPc _ s⟩

/-- A branch on a comparison that decides `P` is taken exactly when `P` holds. -/
theorem completes_branch {i : Instr} {s : State} {b : Bool} {off : BitVec 16} {P : Prop} (hi : exec i s = branch b off s)
    (hb : b = true ↔ P) :
    (P → Completes i s (MovesPc (s.pc + 1 + off.toInt) s)) ∧ (¬P → Completes i s (MovesPc (s.pc + 1) s)) := by
  constructor
  · intro hP
    exact completes_jumpBy (hi.trans (if_pos (hb.2 hP)))
  · intro hP
    exact completes_advance (hi.trans (if_neg fun h => hP (hb.1 h)))

/-! ## The obligations -/

/-- Settles O36: both jump by their displacement from the next slot. -/
theorem unconditionalJumps : Obligations.UnconditionalJumps :=
  fun _ _ _ => ⟨completes_jumpBy rfl, completes_jumpBy rfl⟩

/-- Settles O37: the instruction branches on the comparison its row names, of the operands as it reads them. -/
theorem jump32ImmediateTarget : Obligations.Jump32ImmediateTarget := by
  intro c P hc dst off imm s a ha
  obtain ⟨cmp, hcmp, hrun⟩ := exists_comparison_of_mem jump32ImmConditions_run hc
  have hexec : exec (c dst off imm) s = branch (cmp (low32 a) imm) off s :=
    (congrFun (congrFun (congrFun (congrFun hrun dst) off) imm) s).trans (withReg_some ha _)
  exact completes_branch hexec (hcmp _ _)

/-- Settles O38, as O37 with a second register. -/
theorem jump32RegisterTarget : Obligations.Jump32RegisterTarget := by
  intro c P hc dst src off s a b ha hb
  obtain ⟨cmp, hcmp, hrun⟩ := exists_comparison_of_mem jump32RegConditions_run hc
  have hexec : exec (c dst src off) s = branch (cmp (low32 a) (low32 b)) off s :=
    (congrFun (congrFun (congrFun (congrFun hrun dst) src) off) s).trans
      ((withReg_some ha _).trans (withReg_some hb _))
  exact completes_branch hexec (hcmp _ _)

/-- Settles O39, as O37 with the immediate sign-extended. -/
theorem jump64ImmediateTarget : Obligations.Jump64ImmediateTarget := by
  intro c P hc dst off imm s a ha
  obtain ⟨cmp, hcmp, hrun⟩ := exists_comparison_of_mem jump64ImmConditions_run hc
  have hexec : exec (c dst off imm) s = branch (cmp a (immOperand64 imm)) off s :=
    (congrFun (congrFun (congrFun (congrFun hrun dst) off) imm) s).trans (withReg_some ha _)
  exact completes_branch hexec (hcmp _ _)

/-- Settles O40, as O38 with all 64 bits. -/
theorem jump64RegisterTarget : Obligations.Jump64RegisterTarget := by
  intro c P hc dst src off s a b ha hb
  obtain ⟨cmp, hcmp, hrun⟩ := exists_comparison_of_mem jump64RegConditions_run hc
  have hexec : exec (c dst src off) s = branch (cmp a b) off s :=
    (congrFun (congrFun (congrFun (congrFun hrun dst) src) off) s).trans
      ((withReg_some ha _).trans (withReg_some hb _))
  exact completes_branch hexec (hcmp _ _)

end Sys2Proof
end

