-- ==== Sys2Proof/Proofs/CallReturn.lean ====
section
/-! PROOFS. Program-local calls and EXIT (spec/45_jump_b.md R387, R389), and the 64-bit immediate load
(spec/48_imm64.md R472). -/

namespace Sys2Proof

open Machine

/-! ## The call stack and the frame policy -/

namespace Machine

/-- The call stack is full when it holds as many frames as the limit allows; without a limit it never is. -/
theorem State.callStackFull_iff {s : State} :
    s.callStackFull = true ↔ ∃ d, s.params.maxCallDepth = some d ∧ d ≤ s.cs.length := by
  rw [State.callStackFull]
  cases s.params.maxCallDepth <;> simp

@[simp] theorem FramePolicy.onCall_identity (x : Regs) : FramePolicy.identity.onCall x = (x, []) := rfl

@[simp] theorem FramePolicy.onReturn_identity (x : Regs) (saved : Saved) : FramePolicy.identity.onReturn x saved = x := rfl

theorem localCall_of_not_full {s : State} (h : s.callStackFull = false) (d : Int) :
    localCall d s = .next (s.enterCallee (s.npc + d)) := by
  simp [localCall, h]

theorem returnOrEnd_of_nil {s : State} (h : s.cs = []) :
    returnOrEnd s = withReg 0 s fun v => .next { s with out := .exited v } := by
  rw [returnOrEnd, h]

theorem returnOrEnd_of_cons {s : State} {fr : Frame} {rest : List Frame} (h : s.cs = fr :: rest) :
    returnOrEnd s = .next (s.leaveCallee fr rest) := by
  rw [returnOrEnd, h]

/-! ## Joined immediates -/

/-- next_imm above imm, as a number. -/
theorem append_eq_ofNat (hi lo : W32) : (hi ++ lo : W64) = BitVec.ofNat 64 (hi.toNat * 2 ^ 32 + lo.toNat) := by
  rw [← Nat.shiftLeft_eq, Nat.shiftLeft_add_eq_or_of_lt lo.isLt, ← BitVec.toNat_append, BitVec.ofNat_toNat,
    BitVec.setWidth_eq]

end Machine

/-! ## The obligations -/

/-- Settles O41: below the limit the call enters the callee; under the identity policy with the caller's registers. -/
theorem localCallEntersCallee : Obligations.LocalCallEntersCallee := by
  intro imm s hdepth
  have hroom : s.callStackFull = false := by
    rw [← Bool.not_eq_true, State.callStackFull_iff]
    rintro ⟨d, hmax, hd⟩
    exact Nat.not_le_of_lt (hdepth d hmax) hd
  refine ⟨s.enterCallee (s.npc + imm.toInt), localCall_of_not_full hroom imm.toInt, rfl, rfl, rfl, fun hid => ?_,
    fun _ => rfl, rfl, rfl, rfl, rfl, rfl, rfl⟩
  have hregs : (s.enterCallee (s.npc + imm.toInt)).regs = s.regs := by simp [hid]
  exact ⟨s.reg_congr hregs, by simp [hid, State.npc]⟩

/-- Settles O43: with no frame the run ends or R0 is unset, with a frame the newest is popped. -/
theorem exitEndsOrReturns : Obligations.ExitEndsOrReturns := by
  refine fun s => ⟨fun v hcs hv => ?_, fun hcs hv => ?_, fun fr rest hcs => ?_⟩
  · exact (returnOrEnd_of_nil hcs).trans (withReg_some hv _)
  · exact (returnOrEnd_of_nil hcs).trans (withReg_none hv _)
  · refine ⟨s.leaveCallee fr rest, returnOrEnd_of_cons hcs, rfl, rfl, rfl, fun hid => ?_, fun _ => rfl, rfl, rfl, rfl, rfl,
      rfl, rfl⟩
    have hregs : (s.leaveCallee fr rest).regs = s.regs := by simp [hid]
    exact s.reg_congr hregs

/-- Settles O57: one register is written, and the pc goes past the second slot. -/
theorem loadOfConstant : Obligations.LoadOfConstant := by
  intro dst imm nextImm s
  rw [← append_eq_ofNat]
  exact ⟨(s.setReg dst (nextImm ++ imm)).setPc s.wideNpc, rfl, writesReg_setReg_setPc dst _ _ s⟩

end Sys2Proof
end

