-- ==== Sys2Proof/Proofs/MemoryFrame.lean ====
section
/-! PROOFS. Which bytes can change (spec/20_memory.md R69, R76): a store writes inside its access, a helper writable
bytes and the environment shared ones; every other byte reads after each of them as before. -/

namespace Sys2Proof

open Machine

/-! ## One byte after each way of writing -/

namespace Machine

section

variable {s t : State} {x : Nat}

/-- Every byte of a valid access that writes is a writable byte. -/
theorem Params.writableByte_of_allows {p : Params} {k : Access} {a n : Nat} (h : p.allows k a n = true) (hk : k ≠ .read)
    (hlo : a ≤ x) (hhi : x < a + n) : p.writableByte x = true := by
  have hwritable (r : Region) (hr : r.permits k = true) : r.permits .write = true := by
    cases k with
    | read => exact absurd rfl hk
    | write => exact hr
    | rmw => exact (Bool.and_eq_true_iff.1 hr).2
  simp only [Params.writableByte, Params.allows, Bool.and_eq_true, decide_eq_true_eq, List.any_eq_true,
    Region.holds_iff] at h ⊢
  obtain ⟨htop, r, hr, hpermits, hbase, hend⟩ := h
  exact ⟨by omega, r, hr, hwritable r hpermits, by omega, by omega⟩

theorem State.byteAt_store_outside {a n : Nat} (v : W64) (h : x < a ∨ a + n ≤ x) :
    (s.store a n v).byteAt x = s.byteAt x := by
  rw [State.byteAt, State.store_mem, Memory.read_writeBytes_outside _ _ _ (by simpa using h)]
  rfl

theorem State.byteAt_store_inside {a n k : Nat} (v : W64) (h : k < (dataBytes s.params.hostEndian n v).length) :
    (s.store a n v).byteAt (a + k) = (dataBytes s.params.hostEndian n v)[k] := by
  rw [State.byteAt, State.store_mem, Memory.read_writeBytes_inside _ _ _ h]

theorem State.byteAt_store_of_not_writable {k : Access} {a n : Nat} (v : W64) (h : s.params.allows k a n = true)
    (hk : k ≠ .read) (hx : s.params.writableByte x = false) : (s.store a n v).byteAt x = s.byteAt x := by
  refine State.byteAt_store_outside v ?_
  by_contra hinside
  rw [Params.writableByte_of_allows h hk (by omega) (by omega)] at hx
  cases hx

/-- A helper of which nothing is known draws new values for writable bytes alone. -/
theorem State.byteAt_weakestHelper_of_not_writable (hx : s.params.writableByte x = false) :
    s.weakestHelper.byteAt x = s.byteAt x := by
  have hkept : s.weakestHelper.mem.read x = s.mem.read x :=
    Memory.read_filter s.mem (fun c => !s.params.writableByte c.1) fun _ => by simp [hx]
  have hfree : s.weakestHelper.freeByte x = s.freeByte x := by simp [State.freeByte, hx]
  rw [State.byteAt, hkept, hfree, State.byteAt]

/-- A change of the environment writes its cells at shared bytes and nothing else. -/
theorem State.byteAt_agentChange (ws : List Host.Cell) (rest : List (List Host.Cell)) (time a : Nat) :
    State.byteAt { s with mem := s.agentChange ws, agentWrites := rest, agentTime := time } a =
      if s.params.sharedByte a then lastWrite ws a (s.byteAt a) else s.byteAt a := by
  rw [← lastWrite_filter s.params.sharedByte]
  exact byteAt_of_mem_eq_writeCells (s := s) (by rfl) (by rfl) (by rfl) a

theorem State.byteAt_agentStep_of_not_shared (hx : s.params.sharedByte x = false) :
    s.agentStep.byteAt x = s.byteAt x := by
  rcases s.agentStep_cases with h | ⟨ws, rest, time, h⟩
  · rw [h]
  · rw [h, State.byteAt_agentChange, hx]
    rfl

theorem State.byteAt_agentStep_cons {ws : List Host.Cell} {rest : List (List Host.Cell)} {a : Nat}
    (h : s.agentWrites = ws :: rest) (ha : s.params.sharedByte a = true) :
    s.agentStep.byteAt a = lastWrite ws a (s.byteAt a) := by
  rw [State.agentStep_cons s h, State.byteAt_agentChange, if_pos ha]

theorem Params.anyShared_of_sharedByte {p : Params} {a : Nat} (h : p.sharedByte a = true) : p.anyShared = true := by
  simp only [Params.sharedByte, Bool.and_eq_true, List.any_eq_true] at h
  obtain ⟨_, r, hr, hshared, _⟩ := h
  exact List.any_eq_true.2 ⟨r, hr, hshared⟩

/-! ## One byte after an instruction -/

variable {i : Instr}

/-- No instruction changes a byte of no writable region. -/
theorem Effect.byteAt_eq_of_not_writable (h : Effect i s t) (hx : s.params.writableByte x = false) :
    t.byteAt x = s.byteAt x := by
  cases h with
  | stores _ _ n a v _ hr => exact State.byteAt_store_of_not_writable v hr (by simp) hx
  | atomic _ _ n a v _ hr => exact State.byteAt_store_of_not_writable v hr (by simp) hx
  | atomicFetch _ _ n a v _ _ _ hr => exact State.byteAt_store_of_not_writable v hr (by simp) hx
  | helperUnknown => exact State.byteAt_weakestHelper_of_not_writable hx
  | helperEffect _ _ e => rw [State.byteAt_setPc, byteAt_applyHelper, hx]; rfl
  | illegal | unset | misaligned | memFault | depth | helperFault | writes | jumps | calls | returns | exits => rfl

/-- An instruction that makes no writing access and is no helper call changes no byte. -/
theorem Effect.byteAt_eq_of_no_write (h : Effect i s t) (hhelper : i.isHelperCall = false)
    (hread : ∀ b off n k, i.access = some (b, off, n, k) → k = .read) (x : Nat) : t.byteAt x = s.byteAt x := by
  cases h with
  | stores b off n _ _ ha | atomic b off n _ _ ha | atomicFetch b off n _ _ _ _ ha => cases hread b off n _ ha
  | helperUnknown hi | helperEffect hi => cases hhelper.symm.trans hi
  | illegal | unset | misaligned | memFault | depth | helperFault | writes | jumps | calls | returns | exits => rfl

end

end Machine

/-! ## The obligations -/

/-- Settles O20: the environment writes shared bytes, the instruction writable ones. -/
theorem unwritableUnsharedBytesNeverChange : Obligations.UnwritableUnsharedBytesNeverChange := by
  intro s t a hstep hwritable hshared
  have hagent : s.agentStep.byteAt a = s.byteAt a := State.byteAt_agentStep_of_not_shared hshared
  cases step_effect hstep with
  | badPC | undecodable | forbidden => exact hagent
  | runs _ i _ _ _ _ hx =>
    have hinstr : t.byteAt a = s.agentStep.byteAt a := (exec_effect hx).byteAt_eq_of_not_writable (by simpa using hwritable)
    rw [hinstr, hagent]

/-- Settles O21: the environment writes shared bytes, and the instruction, if it is executed at all, none. -/
theorem privateBytesChangeOnlyByWrites : Obligations.PrivateBytesChangeOnlyByWrites := by
  intro s t slots i a hr hf hd hhelper hread hshared hstep
  have hagent : s.agentStep.byteAt a = s.byteAt a := State.byteAt_agentStep_of_not_shared hshared
  cases hp : i.permitted s.params with
  | false =>
    rw [step_of_forbidden hr hf hd hp, Host.Outcome.next.injEq] at hstep
    rw [← hstep, State.faultedWith_byteAt, hagent]
  | true =>
    rw [step_of_permitted hr hf hd hp] at hstep
    rw [(exec_effect hstep).byteAt_eq_of_no_write hhelper hread a, hagent]

/-- Settles O22: what is recorded is written at shared bytes, or else a free change is; the rest of the state stays. -/
theorem environmentChangesSharedBytesOnly : Obligations.EnvironmentChangesSharedBytesOnly := by
  refine fun s => ⟨fun a hx => State.byteAt_agentStep_of_not_shared hx, fun a b rest ha h => ?_, fun ws rest h => ?_,
    fun a h ha => ?_, s.reg_agentStep, s.agentStep_pc, s.agentStep_cs, s.agentStep_out, s.agentStep_params,
    s.agentStep_choices, s.agentStep_draws⟩
  · rw [State.byteAt_agentStep_cons h ha]
    simp [lastWrite]
  · refine ⟨?_, ?_, fun a ha => State.byteAt_agentStep_cons h ha⟩ <;> rw [State.agentStep_cons s h]
  · rw [State.agentStep_nil s h (Params.anyShared_of_sharedByte ha)]
    refine ⟨?_, rfl, h⟩
    rw [State.byteAt_agentChange, if_pos ha]

end Sys2Proof
end

