-- ==== Sys2Proof/Proofs/MemoryValue.lean ====
section
/-! PROOFS. The bytes of memory as numbers (spec/20_memory.md R61, R63, R68, R69): the value a load gives, the bytes a
store leaves, and the address and the conditions of an access as the model checks them. -/

namespace Sys2Proof

open Machine

/-! ## The address and the conditions of an access -/

/-- The model's wrapping addition of 64-bit words is the sum modulo 2^64. -/
theorem effAddr_toNat (base : W64) (off : BitVec 16) : (effAddr base off).toNat = addressNumber base off := by
  rw [effAddr, addressNumber, BitVec.toNat_add, BitVec.signExtend, BitVec.toNat_ofInt]
  omega

theorem ofNat_addressNumber (base : W64) (off : BitVec 16) : BitVec.ofNat 64 (addressNumber base off) = effAddr base off := by
  rw [← effAddr_toNat, BitVec.ofNat_toNat, BitVec.setWidth_eq]

namespace Machine

theorem unaligned_iff {addr : W64} {n : Nat} : unaligned addr n = true ↔ addr.toNat % n ≠ 0 := by
  simp [unaligned]

theorem Params.refusesUnaligned_iff {p : Params} {addr : W64} {n : Nat} :
    p.refusesUnaligned addr n = true ↔ p.misaligned = .fault ∧ addr.toNat % n ≠ 0 := by
  simp [Params.refusesUnaligned, unaligned]

end Machine

theorem AlignedEnough.refusesUnaligned_eq_false {s : State} {addr : W64} {n : Nat} (h : AlignedEnough s addr.toNat n) :
    s.params.refusesUnaligned addr n = false := by
  rw [← Bool.not_eq_true, Params.refusesUnaligned_iff]
  rintro ⟨hfault, hne⟩
  rcases h with hbytewise | haligned
  · cases hfault.symm.trans hbytewise
  · exact hne haligned

theorem inRegion_iff {s : State} {k : Access} {a n : Nat} : InRegion s k a n ↔ s.params.allows k a n = true := by
  have hpermits (r : Region) :
      r.permits k = true ↔ (k ≠ .write → r.readable = true) ∧ (k ≠ .read → r.writable = true) := by
    cases k <;> simp [Region.permits]
  simp only [InRegion, Params.allows, Bool.and_eq_true, decide_eq_true_eq, List.any_eq_true, Region.holds_iff, hpermits]
  refine and_congr_right fun _ => exists_congr fun r => and_congr_right fun _ => ?_
  tauto

/-! ## What memory holds, as a number -/

theorem littleNumber_eq_foldr (s : State) (a n : Nat) :
    littleNumber s a n = (s.bytesAt a n).foldr (fun b m => b.toNat + 256 * m) 0 := by
  induction n generalizing a with
  | zero => rfl
  | succ k ih => rw [littleNumber, State.bytesAt, List.foldr_cons, ih]

theorem ofLowBytes_bytesAt_toNat (s : State) (a : Nat) {n : Nat} (h : n ≤ 8) :
    (ofLowBytes (s.bytesAt a n)).toNat = littleNumber s a n := by
  rw [(ofLowBytes_toNat _ (by simpa using h)).1, littleNumber_eq_foldr]

/-- The lowest address has the highest byte, so it comes last when the bytes are put together. -/
theorem ofLowBytes_bytesAt_reverse_toNat (s : State) (a : Nat) {n : Nat} (h : n ≤ 8) :
    (ofLowBytes (s.bytesAt a n).reverse).toNat = bigNumber s a n := by
  induction n generalizing a with
  | zero => rfl
  | succ k ih =>
    rw [State.bytesAt, List.reverse_cons, ofLowBytes_append_singleton_toNat _ _ (by simpa using h), ih (a + 1) (by omega),
      List.length_reverse, State.bytesAt_length, bigNumber]

theorem load_toNat (s : State) (a : Nat) {n : Nat} (h : n ≤ 8) : (s.load a n).toNat = hostNumber s a n := by
  rw [State.load, hostNumber]
  cases s.params.hostEndian with
  | little => exact ofLowBytes_bytesAt_toNat s a h
  | big => exact ofLowBytes_bytesAt_reverse_toNat s a h

theorem load_eq_ofNat (s : State) (a : Nat) {n : Nat} (h : n ≤ 8) : s.load a n = BitVec.ofNat 64 (hostNumber s a n) := by
  rw [← load_toNat s a h, BitVec.ofNat_toNat, BitVec.setWidth_eq]

theorem hostNumber_lt (s : State) (a : Nat) {n : Nat} (h : n ≤ 8) : hostNumber s a n < 256 ^ n := by
  rw [← load_toNat s a h, State.load]
  cases s.params.hostEndian with
  | little => simpa [dataValue] using (ofLowBytes_toNat (s.bytesAt a n) (by simpa using h)).2
  | big => simpa [dataValue] using (ofLowBytes_toNat (s.bytesAt a n).reverse (by simpa using h)).2

/-! ## The bytes of a value -/

/-- The byte at place `k` of a value depends on its low `n` bytes alone, for `k` below `n`. -/
theorem ofNat_div_pow_congr {n k v w : Nat} (hk : k < n) (h : v % 256 ^ n = w % 256 ^ n) :
    BitVec.ofNat 8 (v / 256 ^ k) = BitVec.ofNat 8 (w / 256 ^ k) := by
  have hlow (u : Nat) : u % 256 ^ n / 256 ^ k % 256 = u / 256 ^ k % 256 := by
    have hdvd : 256 ∣ 256 ^ (n - k) := dvd_pow_self 256 (by omega)
    rw [show 256 ^ n = 256 ^ k * 256 ^ (n - k) by rw [← pow_add]; congr 1; omega, Nat.mod_mul_right_div_self,
      Nat.mod_mod_of_dvd _ hdvd]
  refine BitVec.eq_of_toNat_eq ?_
  rw [BitVec.toNat_ofNat, BitVec.toNat_ofNat, show (2 : Nat) ^ 8 = 256 from rfl, ← hlow v, h, hlow w]

theorem hostByte_congr (e : Endian) {n k v w : Nat} (hk : k < n) (h : v % 256 ^ n = w % 256 ^ n) :
    hostByte e n k v = hostByte e n k w := by
  cases e with
  | little => exact ofNat_div_pow_congr hk h
  | big => exact ofNat_div_pow_congr (by omega) h

theorem lowBytes_getElem_eq (n : Nat) (v : W64) {k : Nat} (h : k < (lowBytes n v).length) :
    (lowBytes n v)[k] = BitVec.ofNat 8 (v.toNat / 256 ^ k) :=
  BitVec.eq_of_toNat_eq (by rw [lowBytes_getElem, BitVec.toNat_ofNat])

theorem dataBytes_getElem (e : Endian) (n : Nat) (v : W64) {k : Nat} (h : k < (dataBytes e n v).length) :
    (dataBytes e n v)[k] = hostByte e n k v.toNat := by
  cases e with
  | little => exact lowBytes_getElem_eq n v _
  | big =>
    simp only [dataBytes, List.getElem_reverse, lowBytes_length]
    exact lowBytes_getElem_eq n v _

/-- Bytes that are those of a value, the least significant first, stand for its low bytes. -/
theorem littleNumber_of_bytes {t : State} {a n v : Nat}
    (h : ∀ k, k < n → t.byteAt (a + k) = BitVec.ofNat 8 (v / 256 ^ k)) : littleNumber t a n = v % 256 ^ n := by
  induction n generalizing a v with
  | zero => simp [littleNumber, Nat.mod_one]
  | succ m ih =>
    have hfirst : t.byteAt a = BitVec.ofNat 8 v := by simpa using h 0 (Nat.succ_pos m)
    have hrest : ∀ k, k < m → t.byteAt (a + 1 + k) = BitVec.ofNat 8 (v / 256 / 256 ^ k) := fun k hk => by
      rw [Nat.div_div_eq_div_mul, ← pow_succ', ← h (k + 1) (by omega), Nat.add_right_comm, Nat.add_assoc]
    rw [littleNumber, hfirst, ih hrest, BitVec.toNat_ofNat, pow_succ' 256 m, Nat.mod_mul]

/-- Bytes that are those of a value, the most significant first, stand for its low bytes. -/
theorem bigNumber_of_bytes {t : State} {a n v : Nat}
    (h : ∀ k, k < n → t.byteAt (a + k) = BitVec.ofNat 8 (v / 256 ^ (n - 1 - k))) : bigNumber t a n = v % 256 ^ n := by
  induction n generalizing a with
  | zero => simp [bigNumber, Nat.mod_one]
  | succ m ih =>
    have hfirst : t.byteAt a = BitVec.ofNat 8 (v / 256 ^ m) := by simpa using h 0 (Nat.succ_pos m)
    have hrest : ∀ k, k < m → t.byteAt (a + 1 + k) = BitVec.ofNat 8 (v / 256 ^ (m - 1 - k)) := fun k hk => by
      rw [Nat.add_assoc, Nat.add_comm 1 k, h (k + 1) (by omega)]
      congr 3
      omega
    rw [bigNumber, hfirst, ih hrest, BitVec.toNat_ofNat, Nat.mod_pow_succ (b := 256)]
    ring

/-! ## What a store leaves -/

section

variable {s t : State} {a n v : Nat}

theorem StoresAt.params_eq (h : StoresAt a n v s t) : t.params = s.params := by
  obtain ⟨_, _, _, _, _, hparams, _⟩ := h
  exact hparams

/-- The value that is in memory after a store is the low bytes of the value stored. -/
theorem StoresAt.hostNumber_eq (h : StoresAt a n v s t) : hostNumber t a n = v % 256 ^ n := by
  obtain ⟨hbytes, _⟩ := id h
  rw [hostNumber, h.params_eq]
  cases he : s.params.hostEndian with
  | little => exact littleNumber_of_bytes fun k hk => by rw [hbytes k hk, he, hostByte]
  | big => exact bigNumber_of_bytes fun k hk => by rw [hbytes k hk, he, hostByte]

/-- StoresAt says nothing of registers. -/
theorem StoresAt.setReg (h : StoresAt a n v s t) (r : Reg) (w : W64) : StoresAt a n v s (t.setReg r w) := h

/-- The model's store of a word with the low bytes of `v`, and then the next slot. -/
theorem storesAt_store_setPc (s : State) (a n : Nat) {w : W64} (h : w.toNat % 256 ^ n = v % 256 ^ n) :
    StoresAt a n v s ((s.store a n w).setPc (s.pc + 1)) := by
  refine ⟨fun k hk => ?_, fun b hb => ?_, rfl, rfl, rfl, rfl, rfl, rfl, rfl, rfl⟩
  · rw [State.byteAt_setPc, State.byteAt_store_inside w (by simpa using hk), dataBytes_getElem]
    exact hostByte_congr _ hk h
  · rw [State.byteAt_setPc, State.byteAt_store_outside w hb]

end

end Sys2Proof
end

