-- ==== Sys2Proof/Proofs/LoadStore.lean ====
section
/-! PROOFS. Loads and stores (spec/46_load_store.md, spec/20_memory.md R61 to R69): what an access that is aligned
enough and in a region does, and for each table the operand form its instructions run. -/

namespace Sys2Proof

open Machine

/-! ## Valid accesses -/

section

variable {i : Instr} {s : State} {n : Nat} {base : W64} {off : BitVec 16}

theorem memRead_of_valid (ha : AlignedEnough s (addressNumber base off) n)
    (hr : InRegion s .read (addressNumber base off) n) (k : W64 → Result) :
    memRead (effAddr base off) n s k = k (s.load (addressNumber base off) n) := by
  rw [← effAddr_toNat] at ha hr ⊢
  simp [memRead, ha.refusesUnaligned_eq_false, inRegion_iff.1 hr]

theorem memWrite_of_valid (ha : AlignedEnough s (addressNumber base off) n)
    (hr : InRegion s .write (addressNumber base off) n) (v : W64) (k : State → Result) :
    memWrite (effAddr base off) n v s k = k (s.store (addressNumber base off) n v) := by
  rw [← effAddr_toNat] at ha hr ⊢
  simp [memWrite, ha.refusesUnaligned_eq_false, inRegion_iff.1 hr]

theorem completes_loadForm {f : W64 → W64} {dst src : Reg} (hi : exec i s = loadForm n f dst src off s)
    (hbase : s.reg src = some base) (ha : AlignedEnough s (addressNumber base off) n)
    (hr : InRegion s .read (addressNumber base off) n) :
    Completes i s (WritesReg dst (f (s.load (addressNumber base off) n)) (s.pc + 1) s) := by
  refine ⟨_, ?_, writesReg_setReg_setPc dst _ _ s⟩
  rw [hi, loadForm, withReg_some hbase, memRead_of_valid ha hr]
  rfl

theorem completes_memWrite {v : W64} (hi : exec i s = memWrite (effAddr base off) n v s advance)
    (ha : AlignedEnough s (addressNumber base off) n) (hr : InRegion s .write (addressNumber base off) n) :
    Completes i s fun t => StoresAt (addressNumber base off) n v.toNat s t ∧ SameRegs s t := by
  refine ⟨_, ?_, storesAt_store_setPc s (addressNumber base off) n rfl, fun _ => rfl⟩
  rw [hi, memWrite_of_valid ha hr]
  rfl

end

/-! ## The tables of loads and stores -/

/-- Every zero-extending load leaves the value as it is read. -/
theorem zeroLoads_run {c : Reg → Reg → BitVec 16 → Instr} {n : Nat} (h : (c, n) ∈ zeroLoads) :
    n ≤ 8 ∧ ∀ dst src off s, exec (c dst src off) s = loadForm n id dst src off s := by
  simp only [zeroLoads, List.mem_cons, Prod.mk.injEq, List.not_mem_nil, or_false] at h
  obtain ⟨rfl, rfl⟩ | ⟨rfl, rfl⟩ | ⟨rfl, rfl⟩ | ⟨rfl, rfl⟩ := h <;> exact ⟨by decide, fun _ _ _ _ => rfl⟩

theorem signLoads_run {c : Reg → Reg → BitVec 16 → Instr} {n : Nat} (h : (c, n) ∈ signLoads) :
    n ≤ 8 ∧ ∀ dst src off s, exec (c dst src off) s = loadForm n (signExtendBytes n) dst src off s := by
  simp only [signLoads, List.mem_cons, Prod.mk.injEq, List.not_mem_nil, or_false] at h
  obtain ⟨rfl, rfl⟩ | ⟨rfl, rfl⟩ | ⟨rfl, rfl⟩ := h <;> exact ⟨by decide, fun _ _ _ _ => rfl⟩

theorem immStores_run {c : Reg → BitVec 16 → W32 → Instr} {n : Nat} (h : (c, n) ∈ immStores) :
    ∀ dst off imm s, exec (c dst off imm) s = storeImmForm n dst off imm s := by
  simp only [immStores, List.mem_cons, Prod.mk.injEq, List.not_mem_nil, or_false] at h
  obtain ⟨rfl, rfl⟩ | ⟨rfl, rfl⟩ | ⟨rfl, rfl⟩ | ⟨rfl, rfl⟩ := h <;> exact fun _ _ _ _ => rfl

theorem regStores_run {c : Reg → Reg → BitVec 16 → Instr} {n : Nat} (h : (c, n) ∈ regStores) :
    ∀ dst src off s, exec (c dst src off) s = storeRegForm n dst src off s := by
  simp only [regStores, List.mem_cons, Prod.mk.injEq, List.not_mem_nil, or_false] at h
  obtain ⟨rfl, rfl⟩ | ⟨rfl, rfl⟩ | ⟨rfl, rfl⟩ | ⟨rfl, rfl⟩ := h <;> exact fun _ _ _ _ => rfl

/-- Sign extension of `n` bytes takes the number they stand for to its signed reading. -/
theorem signExtendBytes_eq_ofInt (n : Nat) (v : W64) :
    signExtendBytes n v = BitVec.ofInt 64 ((v.toNat : Int).bmod (256 ^ n)) := by
  rw [signExtendBytes, BitVec.signExtend, BitVec.toInt_setWidth, pow_mul]
  rfl

theorem immOperand64_toNat (imm : W32) : (immOperand64 imm).toNat = (imm.toInt % 2 ^ 64).toNat := by
  rw [immOperand64, BitVec.signExtend, BitVec.toNat_ofInt]
  rfl

/-! ## The obligations -/

/-- Settles O48: a load puts the number that memory holds, widened by the form's function, into its register. -/
theorem loadsWidenTheValue : Obligations.LoadsWidenTheValue := by
  intro c n dst src off s base hbase ha hr
  refine ⟨fun hc => ?_, fun hc => ?_⟩
  · obtain ⟨hn, hrun⟩ := zeroLoads_run hc
    rw [← load_eq_ofNat s _ hn]
    exact completes_loadForm (hrun dst src off s) hbase ha hr
  · obtain ⟨hn, hrun⟩ := signLoads_run hc
    rw [← load_toNat s _ hn, ← signExtendBytes_eq_ofInt]
    exact completes_loadForm (hrun dst src off s) hbase ha hr

/-- Settles O49: the form writes the sign-extended immediate at the effective address. -/
theorem storeOfImmediate : Obligations.StoreOfImmediate := by
  intro c n hc dst off imm s base hbase ha hr
  rw [← immOperand64_toNat]
  exact completes_memWrite ((immStores_run hc dst off imm s).trans (withReg_some hbase _)) ha hr

/-- Settles O50: the form writes the source register at the effective address. -/
theorem storeOfRegister : Obligations.StoreOfRegister := by
  intro c n hc dst src off s base v hbase hv ha hr
  have hexec : exec (c dst src off) s = memWrite (effAddr base off) n v s advance :=
    (regStores_run hc dst src off s).trans ((withReg_some hbase _).trans (withReg_some hv _))
  exact completes_memWrite hexec ha hr

/-- Settles O51: the store leaves the base register and the regions, so the load finds the low bytes stored (O50, O48). -/
theorem loadAfterStoreGivesTheValue : Obligations.LoadAfterStoreGivesTheValue := by
  intro st ld n hst hld dst src res off s base v hbase hv ha hw hr
  obtain ⟨t, hstore, hstored, hregs⟩ := storeOfRegister st n hst dst src off s base v hbase hv ha hw
  have hat : AlignedEnough t (addressNumber base off) n := by rwa [AlignedEnough, hstored.params_eq]
  have hrt : InRegion t .read (addressNumber base off) n := by rwa [InRegion, hstored.params_eq]
  have hbaset : t.reg dst = some base := (hregs dst).trans hbase
  obtain ⟨u, hload, hu⟩ := (loadsWidenTheValue ld n res dst off t base hbaset hat hrt).1 hld
  have hvalue : u.reg res = some (BitVec.ofNat 64 (v.toNat % 256 ^ n)) := by rw [hu.reg_eq, hstored.hostNumber_eq]
  exact ⟨t, hstore, u, hload, hvalue⟩

end Sys2Proof
end

