-- ==== Sys2Proof/Proofs/Atomic.lean ====
section
/-! PROOFS. Atomic operations (spec/47_atomic.md R431 to R434, spec/20_memory.md R75): the model's functions on words
against the operations on numbers, and what the three operand forms leave. -/

namespace Sys2Proof

open Machine

/-! ## Operations on the low bytes -/

/-- On the low `n` bytes the function `f` on words is the operation `g` on numbers. -/
def Computes (n : Nat) (f : W64 → W64 → W64) (g : Nat → Nat → Nat) : Prop :=
  ∀ old v : W64, (f old v).toNat % 256 ^ n = g old.toNat v.toNat % 256 ^ n

theorem onLow32_toNat (f : W32 → W32 → W32) (old v : W64) : (onLow32 f old v).toNat = (f (low32 old) (low32 v)).toNat := by
  have := (f (low32 old) (low32 v)).isLt
  rw [onLow32, zext64, BitVec.toNat_setWidth, Nat.mod_eq_of_lt (by omega)]

theorem low32_toNat (v : W64) : (low32 v).toNat = v.toNat % 2 ^ 32 := BitVec.toNat_setWidth 32 v

theorem computes_add32 : Computes 4 (onLow32 aluAdd) (fun o v => o + v) := fun old v => by
  rw [onLow32_toNat, aluAdd, BitVec.toNat_add, low32_toNat, low32_toNat, ← Nat.add_mod]
  exact Nat.mod_mod _ _

theorem computes_or32 : Computes 4 (onLow32 aluOr) (fun o v => o ||| v) := fun old v => by
  rw [onLow32_toNat, aluOr, BitVec.toNat_or, low32_toNat, low32_toNat, ← Nat.or_mod_two_pow]
  exact Nat.mod_mod _ _

theorem computes_and32 : Computes 4 (onLow32 aluAnd) (fun o v => o &&& v) := fun old v => by
  rw [onLow32_toNat, aluAnd, BitVec.toNat_and, low32_toNat, low32_toNat, ← Nat.and_mod_two_pow]
  exact Nat.mod_mod _ _

theorem computes_xor32 : Computes 4 (onLow32 aluXor) (fun o v => o ^^^ v) := fun old v => by
  rw [onLow32_toNat, aluXor, BitVec.toNat_xor, low32_toNat, low32_toNat, ← Nat.xor_mod_two_pow]
  exact Nat.mod_mod _ _

theorem computes_add64 : Computes 8 aluAdd (fun o v => o + v) := fun old v => by
  rw [aluAdd, BitVec.toNat_add]
  exact Nat.mod_mod _ _

theorem computes_or64 : Computes 8 aluOr (fun o v => o ||| v) := fun old v => by rw [aluOr, BitVec.toNat_or]

theorem computes_and64 : Computes 8 aluAnd (fun o v => o &&& v) := fun old v => by rw [aluAnd, BitVec.toNat_and]

theorem computes_xor64 : Computes 8 aluXor (fun o v => o ^^^ v) := fun old v => by rw [aluXor, BitVec.toNat_xor]

theorem computes_takeNew (n : Nat) : Computes n takeNew (fun _ v => v) := fun _ _ => rfl

/-- On the low `n` bytes the function `f` of an old value that has no more bytes is compare and exchange on numbers. -/
def Exchanges (n : Nat) (f : W64 → W64 → W64 → W64) : Prop :=
  ∀ old v e : W64, old.toNat < 256 ^ n →
    (f old v e).toNat = if old.toNat = e.toNat % 256 ^ n then v.toNat else old.toNat

theorem exchanges_exchange32 : Exchanges 4 exchange32 := by
  intro old v e hold
  have hmatch : low32 old = low32 e ↔ old.toNat = e.toNat % 256 ^ 4 := by
    rw [← BitVec.toNat_inj, low32_toNat, low32_toNat]
    omega
  rw [exchange32, apply_ite BitVec.toNat]
  exact if_congr hmatch rfl rfl

theorem exchanges_exchange64 : Exchanges 8 exchange64 := by
  intro old v e _
  have hmatch : old = e ↔ old.toNat = e.toNat % 256 ^ 8 := by
    rw [← BitVec.toNat_inj]
    omega
  rw [exchange64, apply_ite BitVec.toNat]
  exact if_congr hmatch rfl rfl

/-! ## The read and write as one -/

section

variable {i : Instr} {s : State} {n x : Nat} {base : W64} {off : BitVec 16} {f : W64 → W64}

theorem atomicRMW_of_valid (ha : addressNumber base off % n = 0) (hr : InRegion s .rmw (addressNumber base off) n)
    (f : W64 → W64) (k : W64 → State → Result) :
    atomicRMW (effAddr base off) n f s k =
      k (s.load (addressNumber base off) n) (s.store (addressNumber base off) n (f (s.load (addressNumber base off) n))) := by
  rw [← effAddr_toNat] at ha hr ⊢
  simp [atomicRMW, unaligned, ha, inRegion_iff.1 hr]

/-- Without FETCH the pc alone goes on. -/
theorem completes_atomicRMW_advance (hi : exec i s = atomicRMW (effAddr base off) n f s fun _ t => advance t)
    (ha : addressNumber base off % n = 0) (hr : InRegion s .rmw (addressNumber base off) n)
    (hf : (f (s.load (addressNumber base off) n)).toNat % 256 ^ n = x % 256 ^ n) :
    Completes i s fun t => StoresAt (addressNumber base off) n x s t ∧ SameRegs s t := by
  refine ⟨_, ?_, storesAt_store_setPc s (addressNumber base off) n hf, fun _ => rfl⟩
  rw [hi, atomicRMW_of_valid ha hr]
  rfl

/-- With FETCH the register `r` receives what memory held before the write. -/
theorem completes_atomicRMW_finish {r : Reg}
    (hi : exec i s = atomicRMW (effAddr base off) n f s fun old t => finish r old t) (hn : n ≤ 8)
    (ha : addressNumber base off % n = 0) (hr : InRegion s .rmw (addressNumber base off) n)
    (hf : (f (s.load (addressNumber base off) n)).toNat % 256 ^ n = x % 256 ^ n) :
    Completes i s fun t =>
      StoresAt (addressNumber base off) n x s t ∧
        t.reg r = some (BitVec.ofNat 64 (hostNumber s (addressNumber base off) n)) ∧ SameRegsBut r s t := by
  rw [← load_eq_ofNat s _ hn]
  refine ⟨_, hi.trans (atomicRMW_of_valid ha hr _ _), (storesAt_store_setPc s _ n hf).setReg r _, ?_, fun q hq => ?_⟩
  · rw [State.reg_setPc, State.reg_setReg_self]
  · rw [State.reg_setPc, State.reg_setReg_ne _ hq, State.reg_store]

end

/-! ## The tables of atomic operations -/

theorem plainAtomics_run {c : Reg → Reg → BitVec 16 → Instr} {n : Nat} {g : Nat → Nat → Nat}
    (h : (c, n, g) ∈ plainAtomics) :
    n ≤ 8 ∧ ∃ f, Computes n f g ∧ ∀ dst src off s, exec (c dst src off) s = atomicForm n f dst src off s := by
  simp only [plainAtomics, List.mem_cons, Prod.mk.injEq, List.not_mem_nil, or_false] at h
  obtain ⟨rfl, rfl, rfl⟩ | ⟨rfl, rfl, rfl⟩ | ⟨rfl, rfl, rfl⟩ | ⟨rfl, rfl, rfl⟩ | ⟨rfl, rfl, rfl⟩ | ⟨rfl, rfl, rfl⟩ |
    ⟨rfl, rfl, rfl⟩ | ⟨rfl, rfl, rfl⟩ := h
  · exact ⟨by decide, _, computes_add32, fun _ _ _ _ => rfl⟩
  · exact ⟨by decide, _, computes_or32, fun _ _ _ _ => rfl⟩
  · exact ⟨by decide, _, computes_and32, fun _ _ _ _ => rfl⟩
  · exact ⟨by decide, _, computes_xor32, fun _ _ _ _ => rfl⟩
  · exact ⟨by decide, _, computes_add64, fun _ _ _ _ => rfl⟩
  · exact ⟨by decide, _, computes_or64, fun _ _ _ _ => rfl⟩
  · exact ⟨by decide, _, computes_and64, fun _ _ _ _ => rfl⟩
  · exact ⟨by decide, _, computes_xor64, fun _ _ _ _ => rfl⟩

theorem fetchAtomics_run {c : Reg → Reg → BitVec 16 → Instr} {n : Nat} {g : Nat → Nat → Nat}
    (h : (c, n, g) ∈ fetchAtomics) :
    n ≤ 8 ∧ ∃ f, Computes n f g ∧ ∀ dst src off s, exec (c dst src off) s = atomicFetchForm n f dst src off s := by
  simp only [fetchAtomics, List.mem_cons, Prod.mk.injEq, List.not_mem_nil, or_false] at h
  obtain ⟨rfl, rfl, rfl⟩ | ⟨rfl, rfl, rfl⟩ | ⟨rfl, rfl, rfl⟩ | ⟨rfl, rfl, rfl⟩ | ⟨rfl, rfl, rfl⟩ | ⟨rfl, rfl, rfl⟩ |
    ⟨rfl, rfl, rfl⟩ | ⟨rfl, rfl, rfl⟩ | ⟨rfl, rfl, rfl⟩ | ⟨rfl, rfl, rfl⟩ := h
  · exact ⟨by decide, _, computes_add32, fun _ _ _ _ => rfl⟩
  · exact ⟨by decide, _, computes_or32, fun _ _ _ _ => rfl⟩
  · exact ⟨by decide, _, computes_and32, fun _ _ _ _ => rfl⟩
  · exact ⟨by decide, _, computes_xor32, fun _ _ _ _ => rfl⟩
  · exact ⟨by decide, _, computes_takeNew 4, fun _ _ _ _ => rfl⟩
  · exact ⟨by decide, _, computes_add64, fun _ _ _ _ => rfl⟩
  · exact ⟨by decide, _, computes_or64, fun _ _ _ _ => rfl⟩
  · exact ⟨by decide, _, computes_and64, fun _ _ _ _ => rfl⟩
  · exact ⟨by decide, _, computes_xor64, fun _ _ _ _ => rfl⟩
  · exact ⟨by decide, _, computes_takeNew 8, fun _ _ _ _ => rfl⟩

theorem exchangeAtomics_run {c : Reg → Reg → BitVec 16 → Instr} {n : Nat} (h : (c, n) ∈ exchangeAtomics) :
    n ≤ 8 ∧ ∃ f, Exchanges n f ∧ ∀ dst src off s, exec (c dst src off) s = cmpxchgForm n f dst src off s := by
  simp only [exchangeAtomics, List.mem_cons, Prod.mk.injEq, List.not_mem_nil, or_false] at h
  obtain ⟨rfl, rfl⟩ | ⟨rfl, rfl⟩ := h
  · exact ⟨by decide, _, exchanges_exchange32, fun _ _ _ _ => rfl⟩
  · exact ⟨by decide, _, exchanges_exchange64, fun _ _ _ _ => rfl⟩

/-! ## The obligations -/

/-- Settles O52: the form writes a word with the low bytes of the operation's result. -/
theorem atomicWithoutFetch : Obligations.AtomicWithoutFetch := by
  intro c n g hc dst src off s base v hbase hv ha hr
  obtain ⟨hn, f, hf, hrun⟩ := plainAtomics_run hc
  have hexec := (hrun dst src off s).trans ((withReg_some hbase _).trans (withReg_some hv _))
  rw [← load_toNat s _ hn]
  exact completes_atomicRMW_advance hexec ha hr (hf _ v)

/-- Settles O53: as O52, and the old value goes to the source register. -/
theorem atomicWithFetch : Obligations.AtomicWithFetch := by
  intro c n g hc dst src off s base v hbase hv ha hr
  obtain ⟨hn, f, hf, hrun⟩ := fetchAtomics_run hc
  have hexec := (hrun dst src off s).trans ((withReg_some hbase _).trans (withReg_some hv _))
  have hnew := hf (s.load (addressNumber base off) n) v
  rw [load_toNat s _ hn] at hnew
  exact completes_atomicRMW_finish hexec hn ha hr hnew

/-- Settles O54: as O53 with R0, the operation an exchange where memory holds the low bytes of R0. -/
theorem compareAndExchange : Obligations.CompareAndExchange := by
  intro c n hc dst src off s base v e hbase hv he ha hr
  obtain ⟨hn, f, hf, hrun⟩ := exchangeAtomics_run hc
  have hexec := (hrun dst src off s).trans
    ((withReg_some hbase _).trans ((withReg_some hv _).trans (withReg_some he _)))
  have hold : (s.load (addressNumber base off) n).toNat < 256 ^ n := by
    rw [load_toNat s _ hn]
    exact hostNumber_lt s _ hn
  have hnew := hf (s.load (addressNumber base off) n) v e hold
  rw [load_toNat s _ hn] at hnew
  exact completes_atomicRMW_finish hexec hn ha hr (congrArg (· % 256 ^ n) hnew)

end Sys2Proof
end

