-- ==== Sys2Proof/Proofs/MemoryFault.lean ====
section
/-! PROOFS. Where a load, store or atomic operation faults (spec/60_exceptions.md R505, R506, R511): every instruction
with an access runs MemRead, MemWrite or AtomicRMW once its registers are read, and these check in one order. -/

namespace Sys2Proof

open Machine

/-! ## The one access of an instruction -/

namespace Machine

/-- The result is that of an access of the kind to `n` bytes at `addr`, whatever is done with what it gives. -/
inductive AccessRun (s : State) (addr : W64) (n : Nat) : Access → Result → Prop where
  | read (k : W64 → Result) : AccessRun s addr n .read (memRead addr n s k)
  | write (v : W64) (k : State → Result) : AccessRun s addr n .write (memWrite addr n v s k)
  | rmw (f : W64 → W64) (k : W64 → State → Result) : AccessRun s addr n .rmw (atomicRMW addr n f s k)

section

variable {s : State} {addr : W64} {n : Nat} {k : Access} {r : Result}

/-- Alignment is tested first: always for an atomic access, under MISALIGNED = fault for the others. -/
theorem AccessRun.eq_misaligned (h : AccessRun s addr n k r) (ha : addr.toNat % n ≠ 0)
    (hk : k = .rmw ∨ s.params.misaligned = .fault) : r = .next (s.faultedWith (.misaligned addr n)) := by
  have hrefused (hne : k ≠ .rmw) : s.params.refusesUnaligned addr n = true :=
    Params.refusesUnaligned_iff.2 ⟨hk.resolve_left hne, ha⟩
  cases h with
  | read => exact if_pos (hrefused (by simp))
  | write => exact if_pos (hrefused (by simp))
  | rmw => exact if_pos (unaligned_iff.2 ha)

/-- Then the regions. -/
theorem AccessRun.eq_memFault (h : AccessRun s addr n k r)
    (ha : addr.toNat % n = 0 ∨ k ≠ .rmw ∧ s.params.misaligned = .bytewise) (hr : s.params.allows k addr.toNat n ≠ true) :
    r = .next (s.faultedWith (.memFault addr n k)) := by
  have haccepted : ¬s.params.refusesUnaligned addr n = true := by
    rw [Params.refusesUnaligned_iff]
    rintro ⟨hfault, hne⟩
    obtain haligned | ⟨_, hbytewise⟩ := ha
    · exact hne haligned
    · cases hfault.symm.trans hbytewise
  cases h with
  | read | write => exact (if_neg haccepted).trans (if_neg hr)
  | rmw =>
    have haligned : addr.toNat % n = 0 := ha.resolve_right fun h => h.1 rfl
    exact (if_neg fun h => unaligned_iff.1 h haligned).trans (if_neg hr)

end

section

variable {s : State} {base : W64} {dst src : Reg} (n : Nat) (off : BitVec 16)

theorem AccessRun.of_loadForm (f : W64 → W64) (dst : Reg) (hbase : s.reg src = some base) :
    AccessRun s (effAddr base off) n .read (loadForm n f dst src off s) := by
  rw [loadForm, withReg_some hbase]
  exact .read _

theorem AccessRun.of_storeImmForm (imm : W32) (hbase : s.reg dst = some base) :
    AccessRun s (effAddr base off) n .write (storeImmForm n dst off imm s) := by
  rw [storeImmForm, withReg_some hbase]
  exact .write _ _

theorem AccessRun.of_storeRegForm (hbase : s.reg dst = some base) (hsrc : s.reg src ≠ none) :
    AccessRun s (effAddr base off) n .write (storeRegForm n dst src off s) := by
  obtain ⟨v, hv⟩ := Option.ne_none_iff_exists'.1 hsrc
  rw [storeRegForm, withReg_some hbase, withReg_some hv]
  exact .write _ _

theorem AccessRun.of_atomicForm (f : W64 → W64 → W64) (hbase : s.reg dst = some base) (hsrc : s.reg src ≠ none) :
    AccessRun s (effAddr base off) n .rmw (atomicForm n f dst src off s) := by
  obtain ⟨v, hv⟩ := Option.ne_none_iff_exists'.1 hsrc
  rw [atomicForm, withReg_some hbase, withReg_some hv]
  exact .rmw _ _

theorem AccessRun.of_atomicFetchForm (f : W64 → W64 → W64) (hbase : s.reg dst = some base) (hsrc : s.reg src ≠ none) :
    AccessRun s (effAddr base off) n .rmw (atomicFetchForm n f dst src off s) := by
  obtain ⟨v, hv⟩ := Option.ne_none_iff_exists'.1 hsrc
  rw [atomicFetchForm, withReg_some hbase, withReg_some hv]
  exact .rmw _ _

theorem AccessRun.of_cmpxchgForm (f : W64 → W64 → W64 → W64) (hbase : s.reg dst = some base) (hsrc : s.reg src ≠ none)
    (hr0 : s.reg 0 ≠ none) : AccessRun s (effAddr base off) n .rmw (cmpxchgForm n f dst src off s) := by
  obtain ⟨v, hv⟩ := Option.ne_none_iff_exists'.1 hsrc
  obtain ⟨e, he⟩ := Option.ne_none_iff_exists'.1 hr0
  rw [cmpxchgForm, withReg_some hbase, withReg_some hv, withReg_some he]
  exact .rmw _ _

end

/-- An instruction with an access runs it on its effective address once the registers it reads hold values. -/
theorem exec_accessRun {i : Instr} {s : State} {b : Reg} {off : BitVec 16} {n : Nat} {k : Access} {base : W64}
    (hi : i.access = some (b, off, n, k)) (hset : ∀ r ∈ i.reads s.cs, s.reg r ≠ none) (hbase : s.reg b = some base) :
    AccessRun s (effAddr base off) n k (exec i s) := by
  cases i with
  | ldxw dst | ldxh dst | ldxb dst | ldxdw dst | ldxsw dst | ldxsh dst | ldxsb dst =>
    cases hi
    exact .of_loadForm _ _ _ dst hbase
  | stw _ _ imm | sth _ _ imm | stb _ _ imm | stdw _ _ imm =>
    cases hi
    exact .of_storeImmForm _ _ imm hbase
  | stxw _ src | stxh _ src | stxb _ src | stxdw _ src =>
    cases hi
    exact .of_storeRegForm _ _ hbase (hset src (by simp [Instr.reads]))
  | atomicAdd32 _ src | atomicOr32 _ src | atomicAnd32 _ src | atomicXor32 _ src | atomicAdd64 _ src | atomicOr64 _ src
  | atomicAnd64 _ src | atomicXor64 _ src =>
    cases hi
    exact .of_atomicForm _ _ _ hbase (hset src (by simp [Instr.reads]))
  | atomicFetchAdd32 _ src | atomicFetchOr32 _ src | atomicFetchAnd32 _ src | atomicFetchXor32 _ src
  | atomicXchg32 _ src | atomicFetchAdd64 _ src | atomicFetchOr64 _ src | atomicFetchAnd64 _ src
  | atomicFetchXor64 _ src | atomicXchg64 _ src =>
    cases hi
    exact .of_atomicFetchForm _ _ _ hbase (hset src (by simp [Instr.reads]))
  | atomicCmpxchg32 _ src | atomicCmpxchg64 _ src =>
    cases hi
    exact .of_cmpxchgForm _ _ _ hbase (hset src (by simp [Instr.reads])) (hset 0 (by simp [Instr.reads]))
  | _ => cases hi

end Machine

/-! ## The obligation -/

/-- Settles O55: the instruction runs its access, whose address is the one computed, and the access checks alignment
before regions. -/
theorem memoryAccessFaults : Obligations.MemoryAccessFaults := by
  intro i s b off n k base hi hset hbase
  have hrun := exec_accessRun hi hset hbase
  rw [ofNat_addressNumber, ← effAddr_toNat]
  exact ⟨fun ha hk => hrun.eq_misaligned ha hk, fun ha hr => hrun.eq_memFault ha (mt inRegion_iff.2 hr)⟩

end Sys2Proof
end

