-- ==== Sys2Proof/Proofs/ObtainedRegions.lean ====
section
/-! PROOFS. Addresses obtained of the environment (spec/20_memory.md R70, R71, spec/48_imm64.md R474, R475, R478): an
instruction that is fetched is one of those whose regions an allowed launch covers. -/

namespace Sys2Proof

open Machine

namespace Machine

/-! ## Regions of a launch -/

theorem Params.mapRegionAt_iff {p : Params} {a : W64} :
    p.mapRegionAt a = true ↔ ∃ r ∈ p.regions, r.shared = true ∧
      (r.base = a.toNat ∨ r.base ≤ a.toNat ∧ a.toNat < r.base + r.len) := by
  simp [Params.mapRegionAt, Region.holds_iff]

theorem Params.varRegionAt_iff {p : Params} {a : W64} :
    p.varRegionAt a = true ↔ ∃ r ∈ p.regions, r.base = a.toNat := by
  simp [Params.varRegionAt]

/-- In an allowed launch the address a fetched instruction obtains is that of a region. -/
theorem obtainsRegion_of_fetch {s : State} {slots : List Slot} {i : Instr} (hvalid : s.params.valid = true)
    (hf : s.fetch = some slots) (hd : decode s.params.hostEndian slots = .ok i) : i.obtainsRegion s.params = true := by
  simp only [Params.valid, Bool.and_eq_true] at hvalid
  obtain ⟨_, hcover⟩ := hvalid
  exact List.all_eq_true.1 hcover i (mem_instructionsIn_of_fetch hf hd)

/-! ## Lookups that go on -/

/-- A lookup after which the run goes on has found an address, and the register holds it. -/
theorem finishLookup_running {dst : Reg} {v : Option W64} {s t : State} (h : finishLookup dst v s = .next t)
    (ho : t.out = .running) : ∃ a, v = some a ∧ t.reg dst = some a := by
  rcases finishLookup_cases h with ⟨a, hv, rfl⟩ | ⟨_, rfl⟩
  · exact ⟨a, hv, by simp⟩
  · cases ho

/-- A step after which the run goes on has executed the instruction fetched. -/
theorem exec_of_step_running {s t : State} {slots : List Slot} {i : Instr} (hr : s.out = .running)
    (hf : s.fetch = some slots) (hd : decode s.params.hostEndian slots = .ok i) (hstep : step s = .next t)
    (ho : t.out = .running) : exec i s.agentStep = .next t := by
  cases hp : i.permitted s.params with
  | false =>
    rw [step_of_forbidden hr hf hd hp, Host.Outcome.next.injEq] at hstep
    subst hstep
    cases ho
  | true => rwa [step_of_permitted hr hf hd hp] at hstep

/-- The load of an address `next` above a map's first value, where the launch has a region for each such address. -/
theorem mapValue_has_region {s t : State} {dst : Reg} {v : Option W64} {next : W32}
    (h : finishLookup dst (v.map (· + zext64 next)) s = .next t) (ho : t.out = .running)
    (hcover : v.all s.params.mapRegionAt = true) :
    ∃ (a : W64) (r : Region), t.reg dst = some (a + BitVec.ofNat 64 next.toNat) ∧ r ∈ s.params.regions ∧
      r.shared = true ∧ (r.base = a.toNat ∨ r.base ≤ a.toNat ∧ a.toNat < r.base + r.len) := by
  obtain ⟨w, hv, hreg⟩ := finishLookup_running h ho
  obtain ⟨a, rfl, rfl⟩ := Option.map_eq_some_iff.1 hv
  obtain ⟨r, hr, hshared, hin⟩ := Params.mapRegionAt_iff.1 hcover
  have hzext : zext64 next = BitVec.ofNat 64 next.toNat := BitVec.eq_of_toNat_eq (by simp [zext64])
  exact ⟨a, r, hzext ▸ hreg, hr, hshared, hin⟩

end Machine

/-! ## The obligation -/

/-- Settles O59: the instruction has run, its lookup gave the address in the register, and the launch covers it. -/
theorem obtainedAddressesHaveRegions : Obligations.ObtainedAddressesHaveRegions := by
  intro s t slots i dst imm next hvalid hr hf hd hstep ho
  have hexec := exec_of_step_running hr hf hd hstep ho
  have hcover := obtainsRegion_of_fetch hvalid hf hd
  rw [← s.agentStep_params] at hcover ⊢
  refine ⟨?_, ?_⟩
  · rintro (rfl | rfl)
    · exact mapValue_has_region hexec ho hcover
    · exact mapValue_has_region hexec ho hcover
  · rintro rfl
    obtain ⟨a, ha, hreg⟩ := finishLookup_running hexec ho
    rw [Instr.obtainsRegion, ha] at hcover
    obtain ⟨r, hr, hbase⟩ := Params.varRegionAt_iff.1 hcover
    exact ⟨a, r, hreg, hr, hbase⟩

end Sys2Proof
end

