-- ==== Sys2Proof/Proofs/DecodeSound.lean ====
section
/-! PROOFS. What the decoder reads is what was written (spec/30_encoding.md R108, R116 to R121): each operand form
checks every field it does not hand on, so an instruction read from fields has just those fields, and the slots it was
decoded from begin with its encoding. -/

namespace Sys2Proof

/-! ## Answers that ignore no field -/

/-- The decoder's answer on `f` is a refusal or an instruction whose fields are `f`: no field has been ignored. -/
def Faithful (f : Fields) (answer : Except Reject Instr) : Prop := ∀ i, answer = .ok i → f = i.fields

theorem Fields.opcode_eq_ofNat {f : Fields} {n : Nat} (h : f.opcode.toNat = n) : f.opcode = BitVec.ofNat 8 n := by
  rw [← h, BitVec.ofNat_toNat, BitVec.setWidth_eq]

/-- All the form of a destination alone can do. -/
theorem dstForm_ok {f : Fields} {c : Reg → Instr} {i : Instr} (h : dstForm f c = .ok i) :
    ∃ d, f = ⟨f.opcode, regField d, 0, 0, 0⟩ ∧ c d = i := by
  obtain ⟨op, dst, src, offset, imm⟩ := f
  rw [dstForm] at h
  split_ifs at h with hunused
  simp only [not_or, not_not] at hunused
  obtain ⟨rfl, rfl, rfl⟩ := hunused
  obtain ⟨d, rfl, hi⟩ := withRegField_ok h
  exact ⟨d, rfl, Except.ok.inj hi⟩

/-- All the form of two registers and an offset can do. -/
theorem dstSrcOffForm_ok {f : Fields} {c : Reg → Reg → BitVec 16 → Instr} {i : Instr}
    (h : dstSrcOffForm f c = .ok i) :
    ∃ d r, f = ⟨f.opcode, regField d, regField r, f.offset, 0⟩ ∧ c d r f.offset = i := by
  obtain ⟨op, dst, src, offset, imm⟩ := f
  rw [dstSrcOffForm] at h
  split_ifs at h with himm
  obtain rfl := not_not.1 himm
  obtain ⟨d, rfl, h⟩ := withRegField_ok h
  obtain ⟨r, rfl, h⟩ := withRegField_ok h
  exact ⟨d, r, rfl, Except.ok.inj h⟩

namespace Faithful

variable {f : Fields} {n : Nat}

theorem of_error (r : Reject) : Faithful f (.error r) := nofun

theorem of_ok {i : Instr} (h : f = i.fields) : Faithful f (.ok i) := by
  rintro _ ⟨⟩
  exact h

theorem of_withRegField {x : BitVec 4} {k : Reg → Except Reject Instr}
    (hk : ∀ r, x = regField r → Faithful f (k r)) : Faithful f (withRegField x k) := by
  intro i h
  obtain ⟨r, hr, hi⟩ := withRegField_ok h
  exact hk r hr.symm i hi

/-! ## The operand forms

Each form reads the operands of instructions `c` whose fields, with opcode `n`, have the shape the form checks. -/

theorem of_dstImmForm {off : BitVec 16} {c : Reg → W32 → Instr} (hop : f.opcode.toNat = n)
    (hc : ∀ d imm, ⟨BitVec.ofNat 8 n, regField d, 0, off, imm⟩ = (c d imm).fields) :
    Faithful f (dstImmForm f off c) := by
  obtain ⟨op, dst, src, offset, imm⟩ := f
  obtain rfl : op = _ := Fields.opcode_eq_ofNat hop
  rw [dstImmForm]
  split_ifs with hoff hsrc
  · exact of_error _
  · exact of_error _
  · obtain rfl := not_not.1 hoff
    obtain rfl := not_not.1 hsrc
    refine of_withRegField fun d hd => ?_
    subst hd
    exact of_ok (hc d imm)

theorem of_dstSrcForm {off : BitVec 16} {c : Reg → Reg → Instr} (hop : f.opcode.toNat = n)
    (hc : ∀ d r, ⟨BitVec.ofNat 8 n, regField d, regField r, off, 0⟩ = (c d r).fields) :
    Faithful f (dstSrcForm f off c) := by
  obtain ⟨op, dst, src, offset, imm⟩ := f
  obtain rfl : op = _ := Fields.opcode_eq_ofNat hop
  rw [dstSrcForm]
  split_ifs with hoff himm
  · exact of_error _
  · exact of_error _
  · obtain rfl := not_not.1 hoff
    obtain rfl := not_not.1 himm
    refine of_withRegField fun d hd => of_withRegField fun r hr => ?_
    subst hd hr
    exact of_ok (hc d r)

theorem of_dstImmSelected {c0 c1 : Reg → W32 → Instr} (hop : f.opcode.toNat = n)
    (h0 : ∀ d imm, ⟨BitVec.ofNat 8 n, regField d, 0, 0, imm⟩ = (c0 d imm).fields)
    (h1 : ∀ d imm, ⟨BitVec.ofNat 8 n, regField d, 0, 1, imm⟩ = (c1 d imm).fields) :
    Faithful f (dstImmSelected f c0 c1) := by
  rw [dstImmSelected]
  split_ifs
  · exact of_dstImmForm hop h1
  · exact of_dstImmForm hop h0

theorem of_dstSrcSelected {c0 c1 : Reg → Reg → Instr} (hop : f.opcode.toNat = n)
    (h0 : ∀ d r, ⟨BitVec.ofNat 8 n, regField d, regField r, 0, 0⟩ = (c0 d r).fields)
    (h1 : ∀ d r, ⟨BitVec.ofNat 8 n, regField d, regField r, 1, 0⟩ = (c1 d r).fields) :
    Faithful f (dstSrcSelected f c0 c1) := by
  rw [dstSrcSelected]
  split_ifs
  · exact of_dstSrcForm hop h1
  · exact of_dstSrcForm hop h0

theorem of_movForm32 {c c8 c16 : Reg → Reg → Instr} (hop : f.opcode.toNat = n)
    (h0 : ∀ d r, ⟨BitVec.ofNat 8 n, regField d, regField r, 0, 0⟩ = (c d r).fields)
    (h8 : ∀ d r, ⟨BitVec.ofNat 8 n, regField d, regField r, 8, 0⟩ = (c8 d r).fields)
    (h16 : ∀ d r, ⟨BitVec.ofNat 8 n, regField d, regField r, 16, 0⟩ = (c16 d r).fields) :
    Faithful f (movForm32 f c c8 c16) := by
  rw [movForm32]
  split_ifs
  · exact of_dstSrcForm hop h8
  · exact of_dstSrcForm hop h16
  · exact of_dstSrcForm hop h0

theorem of_movForm64 {c c8 c16 c32 : Reg → Reg → Instr} (hop : f.opcode.toNat = n)
    (h0 : ∀ d r, ⟨BitVec.ofNat 8 n, regField d, regField r, 0, 0⟩ = (c d r).fields)
    (h8 : ∀ d r, ⟨BitVec.ofNat 8 n, regField d, regField r, 8, 0⟩ = (c8 d r).fields)
    (h16 : ∀ d r, ⟨BitVec.ofNat 8 n, regField d, regField r, 16, 0⟩ = (c16 d r).fields)
    (h32 : ∀ d r, ⟨BitVec.ofNat 8 n, regField d, regField r, 32, 0⟩ = (c32 d r).fields) :
    Faithful f (movForm64 f c c8 c16 c32) := by
  rw [movForm64]
  split_ifs
  · exact of_dstSrcForm hop h32
  · exact of_movForm32 hop h0 h8 h16

theorem of_dstForm {c : Reg → Instr} (hop : f.opcode.toNat = n)
    (hc : ∀ d, ⟨BitVec.ofNat 8 n, regField d, 0, 0, 0⟩ = (c d).fields) :
    Faithful f (dstForm f c) := by
  intro i h
  obtain ⟨d, hf, rfl⟩ := dstForm_ok h
  rw [hf, Fields.opcode_eq_ofNat hop]
  exact hc d

/-- The same form for a byte swap, whose width `v` has been read from imm. -/
theorem of_dstForm_width {v : W32} {c : Reg → Instr} (hop : f.opcode.toNat = n) (hv : f.imm = v)
    (hc : ∀ d, ⟨BitVec.ofNat 8 n, regField d, 0, 0, v⟩ = (c d).fields) :
    Faithful f (dstForm { f with imm := 0 } c) := by
  intro i h
  obtain ⟨d, hf, rfl⟩ := dstForm_ok h
  obtain ⟨-, hdst, hsrc, hoff, -⟩ := Fields.mk.inj hf
  have hfields : f = ⟨f.opcode, regField d, 0, 0, v⟩ := by rw [← hdst, ← hsrc, ← hoff, ← hv]
  rw [hfields, Fields.opcode_eq_ofNat hop]
  exact hc d

theorem of_swapForm {c16 c32 c64 : Reg → Instr} (hop : f.opcode.toNat = n)
    (h16 : ∀ d, ⟨BitVec.ofNat 8 n, regField d, 0, 0, 16⟩ = (c16 d).fields)
    (h32 : ∀ d, ⟨BitVec.ofNat 8 n, regField d, 0, 0, 32⟩ = (c32 d).fields)
    (h64 : ∀ d, ⟨BitVec.ofNat 8 n, regField d, 0, 0, 64⟩ = (c64 d).fields) :
    Faithful f (swapForm f c16 c32 c64) := by
  rw [swapForm]
  split_ifs with hv16 hv32 hv64
  · exact of_dstForm_width hop hv16 h16
  · exact of_dstForm_width hop hv32 h32
  · exact of_dstForm_width hop hv64 h64
  · exact of_error _

theorem of_offForm {c : BitVec 16 → Instr} (hop : f.opcode.toNat = n)
    (hc : ∀ off, ⟨BitVec.ofNat 8 n, 0, 0, off, 0⟩ = (c off).fields) : Faithful f (offForm f c) := by
  obtain ⟨op, dst, src, offset, imm⟩ := f
  obtain rfl : op = _ := Fields.opcode_eq_ofNat hop
  rw [offForm]
  split_ifs with hunused
  · exact of_error _
  · simp only [not_or, not_not] at hunused
    obtain ⟨rfl, rfl, rfl⟩ := hunused
    exact of_ok (hc offset)

theorem of_immForm {sub : BitVec 4} {c : W32 → Instr} (hop : f.opcode.toNat = n)
    (hc : ∀ imm, ⟨BitVec.ofNat 8 n, 0, sub, 0, imm⟩ = (c imm).fields) :
    Faithful f (immForm f sub c) := by
  obtain ⟨op, dst, src, offset, imm⟩ := f
  obtain rfl : op = _ := Fields.opcode_eq_ofNat hop
  rw [immForm]
  split_ifs with hunused
  · exact of_error _
  · simp only [not_or, not_not] at hunused
    obtain ⟨rfl, rfl, rfl⟩ := hunused
    exact of_ok (hc imm)

theorem of_callForm {c0 c1 c2 : W32 → Instr} (hop : f.opcode.toNat = n)
    (h0 : ∀ imm, ⟨BitVec.ofNat 8 n, 0, 0, 0, imm⟩ = (c0 imm).fields)
    (h1 : ∀ imm, ⟨BitVec.ofNat 8 n, 0, 1, 0, imm⟩ = (c1 imm).fields)
    (h2 : ∀ imm, ⟨BitVec.ofNat 8 n, 0, 2, 0, imm⟩ = (c2 imm).fields) :
    Faithful f (callForm f c0 c1 c2) := by
  rw [callForm]
  split_ifs
  · exact of_immForm hop h0
  · exact of_immForm hop h1
  · exact of_immForm hop h2
  · exact of_error _

theorem of_bareForm {i : Instr} (hop : f.opcode.toNat = n) (hi : ⟨BitVec.ofNat 8 n, 0, 0, 0, 0⟩ = i.fields) :
    Faithful f (bareForm f i) := by
  obtain ⟨op, dst, src, offset, imm⟩ := f
  obtain rfl : op = _ := Fields.opcode_eq_ofNat hop
  rw [bareForm]
  split_ifs with hunused
  · exact of_error _
  · simp only [not_or, not_not] at hunused
    obtain ⟨rfl, rfl, rfl, rfl⟩ := hunused
    exact of_ok hi

theorem of_dstOffImmForm {c : Reg → BitVec 16 → W32 → Instr} (hop : f.opcode.toNat = n)
    (hc : ∀ d off imm, ⟨BitVec.ofNat 8 n, regField d, 0, off, imm⟩ = (c d off imm).fields) :
    Faithful f (dstOffImmForm f c) := by
  obtain ⟨op, dst, src, offset, imm⟩ := f
  obtain rfl : op = _ := Fields.opcode_eq_ofNat hop
  rw [dstOffImmForm]
  split_ifs with hsrc
  · exact of_error _
  · obtain rfl := not_not.1 hsrc
    refine of_withRegField fun d hd => ?_
    subst hd
    exact of_ok (hc d offset imm)

theorem of_dstSrcOffForm {c : Reg → Reg → BitVec 16 → Instr} (hop : f.opcode.toNat = n)
    (hc : ∀ d r off, ⟨BitVec.ofNat 8 n, regField d, regField r, off, 0⟩ = (c d r off).fields) :
    Faithful f (dstSrcOffForm f c) := by
  intro i h
  obtain ⟨d, r, hf, rfl⟩ := dstSrcOffForm_ok h
  rw [hf, Fields.opcode_eq_ofNat hop]
  exact hc d r f.offset

/-- The same form for an atomic instruction, whose selector `v` has been read from imm. -/
theorem of_dstSrcOffForm_selector {v : W32} {c : Reg → Reg → BitVec 16 → Instr} (hop : f.opcode.toNat = n)
    (hv : f.imm = v) (hc : ∀ d r off, ⟨BitVec.ofNat 8 n, regField d, regField r, off, v⟩ = (c d r off).fields) :
    Faithful f (dstSrcOffForm { f with imm := 0 } c) := by
  intro i h
  obtain ⟨d, r, hf, rfl⟩ := dstSrcOffForm_ok h
  obtain ⟨-, hdst, hsrc, -, -⟩ := Fields.mk.inj hf
  have hfields : f = ⟨f.opcode, regField d, regField r, f.offset, v⟩ := by rw [← hdst, ← hsrc, ← hv]
  rw [hfields, Fields.opcode_eq_ofNat hop]
  exact hc d r f.offset

theorem of_atomicSelect {table : List (W32 × (Reg → Reg → BitVec 16 → Instr))} (hop : f.opcode.toNat = n)
    (hc : ∀ e ∈ table, ∀ d r off, ⟨BitVec.ofNat 8 n, regField d, regField r, off, e.1⟩ = (e.2 d r off).fields) :
    Faithful f (atomicSelect table f) := by
  induction table with
  | nil => exact of_error _
  | cons e rest ih =>
    rw [List.forall_mem_cons] at hc
    obtain ⟨he, hrest⟩ := hc
    rw [atomicSelect]
    split_ifs with hv
    · exact of_dstSrcOffForm_selector hop hv he
    · exact ih hrest

theorem of_srcImmForm {c : Reg → W32 → Instr} (hop : f.opcode.toNat = n)
    (hc : ∀ r imm, ⟨BitVec.ofNat 8 n, 0, regField r, 0, imm⟩ = (c r imm).fields) :
    Faithful f (srcImmForm f c) := by
  obtain ⟨op, dst, src, offset, imm⟩ := f
  obtain rfl : op = _ := Fields.opcode_eq_ofNat hop
  rw [srcImmForm]
  split_ifs with hunused
  · exact of_error _
  · simp only [not_or, not_not] at hunused
    obtain ⟨rfl, rfl⟩ := hunused
    refine of_withRegField fun r hr => ?_
    subst hr
    exact of_ok (hc r imm)

end Faithful

/-! ## Second slots and wide instructions -/

theorem Fields.eq_of_reservedZero {f : Fields} (h : f.reservedZero = true) : f = ⟨0, 0, 0, 0, f.imm⟩ := by
  obtain ⟨op, dst, src, offset, imm⟩ := f
  simp only [Fields.reservedZero, Bool.and_eq_true, beq_iff_eq] at h
  obtain ⟨⟨⟨rfl, rfl⟩, rfl⟩, rfl⟩ := h
  rfl

namespace Faithful

variable {f : Fields} {second : Option Fields}

/-- A second slot read by itself: with no reserved bit set the opcode is 0. -/
theorem of_secondSlotForm : Faithful f (secondSlotForm f .imm64Hi) := by
  rw [secondSlotForm]
  split_ifs with hz
  · exact of_ok (Fields.eq_of_reservedZero hz)
  · exact of_error _

/-- The src_reg selects the load. -/
theorem of_wideSubtype (sub : BitVec 4) (d : Reg) (imm nextImm : W32) :
    Faithful ⟨0x18, regField d, sub, 0, imm⟩ (wideSubtype ⟨0x18, regField d, sub, 0, imm⟩ d nextImm) := by
  rw [wideSubtype]
  dsimp only
  split_ifs with h0 h2 hfd h6 hidx hnext h1 h3 h4 h5
  · exact of_ok (h0 ▸ rfl)
  · exact of_ok (h2 ▸ rfl)
  · exact of_error _
  · exact of_ok (h6 ▸ rfl)
  · exact of_error _
  · exact of_error _
  · exact of_ok (h1 ▸ rfl)
  · exact of_ok (h3 ▸ rfl)
  · exact of_ok (h4 ▸ rfl)
  · exact of_ok (h5 ▸ rfl)
  · exact of_error _

theorem of_wideForm (hop : f.opcode.toNat = 0x18) (second : Option Fields) : Faithful f (wideForm f second) := by
  obtain ⟨op, dst, src, offset, imm⟩ := f
  obtain rfl : op = _ := Fields.opcode_eq_ofNat hop
  cases second with
  | none => exact of_error _
  | some g =>
    rw [wideForm]
    split_ifs with hz hoff
    · exact of_error _
    · obtain rfl := not_not.1 hoff
      refine of_withRegField fun d hd => ?_
      subst hd
      exact of_wideSubtype src d imm g.imm
    · exact of_error _

end Faithful

/-! ## The decoder -/

/-- Each opcode has the operand form of its instructions. A line below takes all the opcodes of one form, which it alone
finds without unfolding (`with_reducible`), and reads off their rows that the fields have the form's shape; the last
five are the opcodes 0x00, 0x05, 0x18 and 0x95, each alone in its form, and the opcodes with no row. -/
theorem decodeFields_faithful (f : Fields) (second : Option Fields) : Faithful f (decodeFields f second) := by
  rw [decodeFields]
  split
  any_goals (with_reducible refine .of_dstImmForm ‹_› ?_) <;> exact fun _ _ => rfl
  any_goals (with_reducible refine .of_dstSrcForm ‹_› ?_) <;> exact fun _ _ => rfl
  any_goals (with_reducible refine .of_dstOffImmForm ‹_› ?_) <;> exact fun _ _ _ => rfl
  any_goals (with_reducible refine .of_dstSrcOffForm ‹_› ?_) <;> exact fun _ _ _ => rfl
  any_goals (with_reducible refine .of_dstImmSelected ‹_› ?_ ?_) <;> exact fun _ _ => rfl
  any_goals (with_reducible refine .of_dstSrcSelected ‹_› ?_ ?_) <;> exact fun _ _ => rfl
  any_goals (with_reducible refine .of_movForm32 ‹_› ?_ ?_ ?_) <;> exact fun _ _ => rfl
  any_goals (with_reducible refine .of_movForm64 ‹_› ?_ ?_ ?_ ?_) <;> exact fun _ _ => rfl
  any_goals (with_reducible refine .of_dstForm ‹_› ?_) <;> exact fun _ => rfl
  any_goals (with_reducible refine .of_swapForm ‹_› ?_ ?_ ?_) <;> exact fun _ => rfl
  any_goals (with_reducible refine .of_immForm ‹_› ?_) <;> exact fun _ => rfl
  any_goals (with_reducible refine .of_srcImmForm ‹_› ?_) <;> exact fun _ _ => rfl
  any_goals (with_reducible refine .of_callForm ‹_› ?_ ?_ ?_) <;> exact fun _ => rfl
  any_goals (with_reducible refine .of_atomicSelect ‹_› ?_) <;>
    exact fun e he => by fin_cases he <;> exact fun _ _ _ => rfl
  · exact .of_secondSlotForm
  · exact .of_offForm ‹_› fun _ => rfl
  · exact .of_wideForm ‹_› second
  · exact .of_bareForm ‹_› rfl
  · exact .of_error _

/-- What a wide instruction takes from its second slot. -/
theorem wideSubtype_ok {f : Fields} {d : Reg} {nextImm : W32} {i : Instr} (h : wideSubtype f d nextImm = .ok i) :
    i.wellFormed = true ∧ i.secondImm = nextImm := by
  rw [wideSubtype] at h
  split_ifs at h with _ _ hfd _ hidx hnext <;> cases h
  · exact ⟨rfl, rfl⟩
  · exact ⟨hfd, rfl⟩
  · exact ⟨hidx, rfl⟩
  all_goals exact ⟨rfl, (not_not.1 hnext).symm⟩

theorem wideForm_ok {f : Fields} {second : Option Fields} {i : Instr} (h : wideForm f second = .ok i) :
    i.wellFormed = true ∧ second = some ⟨0, 0, 0, 0, i.secondImm⟩ := by
  cases second with
  | none => cases h
  | some g =>
    rw [wideForm] at h
    split_ifs at h with hz
    obtain ⟨d, -, hd⟩ := withRegField_ok h
    obtain ⟨hw, hnext⟩ := wideSubtype_ok hd
    exact ⟨hw, by rw [hnext, ← Fields.eq_of_reservedZero hz]⟩

theorem decodeFields_of_wide {f : Fields} (hop : f.opcode = 0x18) (second : Option Fields) :
    decodeFields f second = wideForm f second := by
  rw [decodeFields, hop]
  rfl

/-- Only a wide instruction can fail to have an encoding. -/
theorem Instr.wellFormed_of_basic {i : Instr} (h : i.isWide = false) : i.wellFormed = true := by
  cases i with
  | ldMapValFd | ldMapValIdx => cases h
  | _ => rfl

/-- All the decoder's answer can be: the first slot's fields are those of the instruction, and so are the second's where
it has one. -/
theorem decodeFields_ok {f : Fields} {second : Option Fields} {i : Instr} (h : decodeFields f second = .ok i) :
    i.wellFormed = true ∧ f = i.fields ∧ (i.isWide = true → second = some ⟨0, 0, 0, 0, i.secondImm⟩) := by
  have hf : f = i.fields := decodeFields_faithful f second i h
  cases hw : i.isWide with
  | false => exact ⟨Instr.wellFormed_of_basic hw, hf, nofun⟩
  | true =>
    have hop : f.opcode = 0x18 := hf ▸ i.opcode_eq_wide_iff.2 hw
    rw [decodeFields_of_wide hop] at h
    obtain ⟨hwf, hsecond⟩ := wideForm_ok h
    exact ⟨hwf, hf, fun _ => hsecond⟩

/-- The slots an instruction was decoded from begin with its encoding. -/
theorem decode_ok {e : Endian} {slots : List Slot} {i : Instr} (h : decode e slots = .ok i) :
    i.wellFormed = true ∧ ∃ rest, slots = encode e i ++ rest := by
  cases slots with
  | nil => cases h
  | cons a rest =>
    obtain ⟨hwf, hfields, hsecond⟩ := decodeFields_ok h
    have ha : i.fields.toSlot e = a := by rw [← hfields, Fields.toSlot_ofSlot]
    refine ⟨hwf, ?_⟩
    cases hw : i.isWide with
    | false => exact ⟨rest, by simp [encode, hw, ha]⟩
    | true =>
      obtain ⟨b, hb, hfb⟩ := Option.map_eq_some_iff.1 (hsecond hw)
      have hrest : rest = b :: rest.tail := List.eq_cons_of_mem_head? hb
      refine ⟨rest.tail, ?_⟩
      rw [encode, if_pos hw, ha, ← hfb, Fields.toSlot_ofSlot]
      exact congrArg (a :: ·) hrest

/-! ## The two round trips -/

/-- Settles O1: an instruction's slots decode to it, whatever follows them. -/
theorem decodeOfEncodeIsInstruction : Obligations.DecodeOfEncodeIsInstruction :=
  fun e _ rest hw => decode_encode_append e hw rest

/-- Settles O2: slots that decode are an encoding with more behind it, which are as many as the instruction takes. -/
theorem encodeOfDecodeIsSlots : Obligations.EncodeOfDecodeIsSlots := by
  intro e slots i h
  obtain ⟨hwf, rest, rfl⟩ := decode_ok h
  exact ⟨hwf, by rw [← encode_length e i, List.take_left]⟩

/-! ## Assigned opcodes -/

/-- The decoder's table has a row for 0x00 and the assigned opcodes alone. -/
theorem decodeFields_of_unassigned {f : Fields} (hn : f.opcode.toNat ∉ assignedOpcodes) (h0 : f.opcode ≠ 0)
    (second : Option Fields) : decodeFields f second = .error .unassignedOpcode := by
  rw [decodeFields]
  split
  case h_1 hop => exact absurd (BitVec.eq_of_toNat_eq hop) h0
  case h_127 => rfl
  all_goals exact absurd (‹f.opcode.toNat = _› ▸ by decide) hn

/-- Fields with the opcode `op` that decode where any do: imm is a width for the byte swaps, the rest is 0. -/
def sampleFields (op : BitVec 8) : Fields := ⟨op, 0, 0, 0, if op ∈ [0xd4#8, 0xd7#8, 0xdc#8] then 16 else 0⟩

theorem decodeFields_sampleFields_isOk : ∀ n ∈ assignedOpcodes,
    (decodeFields (sampleFields (BitVec.ofNat 8 n)) (some ⟨0, 0, 0, 0, 0⟩)).isOk = true := by
  simp only [assignedOpcodes, List.forall_mem_append]
  and_intros <;> decide

theorem exists_decodeFields_of_assigned {op : BitVec 8} (h : op.toNat ∈ assignedOpcodes) :
    ∃ f second i, f.opcode = op ∧ decodeFields f second = .ok i := by
  have hok := decodeFields_sampleFields_isOk op.toNat h
  rw [BitVec.ofNat_toNat, BitVec.setWidth_eq] at hok
  cases hd : decodeFields (sampleFields op) (some ⟨0, 0, 0, 0, 0⟩) with
  | ok i => exact ⟨_, _, i, rfl, hd⟩
  | error r =>
    rw [hd] at hok
    cases hok

/-- Settles O3: an opcode outside the list is refused, one of the list has sample fields, and 0x00 reads IMM64_HI. -/
theorem assignedOpcodesExactly : Obligations.AssignedOpcodesExactly := by
  refine ⟨fun op => ⟨?_, ?_⟩, fun f second hn h0 => decodeFields_of_unassigned hn h0 second⟩
  · rintro ⟨f, second, i, rfl, hd⟩
    by_contra hnot
    obtain ⟨hn, h0⟩ := not_or.1 hnot
    rw [decodeFields_of_unassigned hn h0] at hd
    cases hd
  · rintro (h | rfl)
    · exact exists_decodeFields_of_assigned h
    · exact ⟨⟨0, 0, 0, 0, 0⟩, none, .imm64Hi 0, rfl, rfl⟩

/-! ## Words of the spec -/

/-- Settles O4: the decoder evaluated on the six words. -/
theorem specWordsDecode : Obligations.SpecWordsDecode := ⟨rfl, rfl, rfl, rfl, rfl, rfl⟩

end Sys2Proof
end

