-- ==== Sys2Proof/Proofs/WellFormedProgram.lean ====
section
/-! PROOFS. Well-formed programs (spec/30_encoding.md R123): the scan finds a legal instruction at every slot that is no
second slot, which is where fetch finds one, and a legal instruction takes no IllegalInstruction (R502). -/

namespace Sys2Proof

open Machine

theorem Instr.length_pos (i : Instr) : 0 < i.length := by
  rw [Instr.length]
  split <;> decide

namespace Machine

/-- The instruction `i` at slot `pc` raises no IllegalInstruction under the parameters. -/
structure LegalAt (p : Params) (pc : Int) (i : Instr) : Prop where
  permitted : i.permitted p = true
  hasExecution : i.neverLegal = false
  lookups : i.lookupsDefined p pc = true

/-- A well-formed list of slots begins with a legal instruction and goes on well formed after it. -/
theorem wellFormedFrom_uncons {p : Params} {pc : Nat} {slots : List Slot} (hne : slots ≠ [])
    (h : wellFormedFrom p pc slots = true) :
    ∃ i rest, decode p.hostEndian slots = .ok i ∧ LegalAt p pc i ∧ slots = encode p.hostEndian i ++ rest ∧
      wellFormedFrom p (pc + i.length) rest = true := by
  cases slots with
  | nil => exact absurd rfl hne
  | cons a tail =>
    rw [wellFormedFrom.eq_def] at h
    dsimp only at h
    cases hd : decode p.hostEndian (a :: tail) with
    | error r =>
      rw [hd] at h
      cases h
    | ok i =>
      obtain ⟨-, rest, hslots⟩ := decode_ok hd
      simp only [hd, Bool.and_eq_true, Bool.not_eq_true'] at h
      obtain ⟨⟨⟨hpermitted, hexec⟩, hlookups⟩, hnext⟩ := h
      refine ⟨i, rest, rfl, ⟨hpermitted, hexec, hlookups⟩, hslots, ?_⟩
      rw [Instr.length]
      cases hw : i.isWide with
      | false =>
        have htail : tail = rest := by simpa [encode, hw] using congrArg List.tail hslots
        simpa [hw, htail] using hnext
      | true =>
        have htail : tail = Fields.toSlot p.hostEndian ⟨0, 0, 0, 0, i.secondImm⟩ :: rest := by
          simpa [encode, hw] using congrArg List.tail hslots
        simpa [hw, htail] using hnext

/-- At every slot of a well-formed list that is no second slot stands a legal instruction. -/
theorem legalAt_of_wellFormedFrom {p : Params} (n : Nat) {pc : Nat} {slots : List Slot}
    (h : wellFormedFrom p pc slots = true) (hn : n < slots.length) (hfirst : secondSlotFrom false slots n = false) :
    ∃ i, decode p.hostEndian (slots.drop n) = .ok i ∧ LegalAt p ((pc + n : Nat) : Int) i := by
  induction n using Nat.strong_induction_on generalizing pc slots with
  | _ n ih =>
    obtain ⟨i, rest, hd, hlegal, hslots, hrest⟩ := wellFormedFrom_uncons (List.ne_nil_of_length_pos (by omega)) h
    by_cases hi : n < i.length
    · rw [hslots] at hfirst
      obtain rfl := eq_zero_of_secondSlotFrom_encode_append hi hfirst
      exact ⟨i, hd, hlegal⟩
    · obtain ⟨k, rfl⟩ := Nat.exists_eq_add_of_le (Nat.le_of_not_lt hi)
      have hpos := i.length_pos
      subst hslots
      rw [List.length_append, encode_length] at hn
      rw [secondSlotFrom_encode_append] at hfirst
      obtain ⟨j, hj, hlegalj⟩ := ih k (by omega) hrest (by omega) hfirst
      refine ⟨j, ?_, ?_⟩
      · rw [← encode_length p.hostEndian i, List.drop_length_add_append]
        exact hj
      · rwa [← Nat.add_assoc]

/-- In a well-formed program whatever is fetched is a legal instruction. -/
theorem legalAt_of_fetch {s : State} {slots : List Slot} (h : s.params.programWellFormed = true)
    (hf : s.fetch = some slots) : ∃ i, decode s.params.hostEndian slots = .ok i ∧ LegalAt s.params s.pc i := by
  obtain ⟨hpc, hn, hfirst, rfl⟩ := State.fetch_eq_some_iff.1 hf
  have hlegal := legalAt_of_wellFormedFrom s.pc.toNat h hn hfirst
  rwa [Nat.zero_add, Int.toNat_of_nonneg hpc] at hlegal

/-- A legal instruction takes no IllegalInstruction. -/
theorem Effect.out_ne_illegal {i : Instr} {s t : State} (h : Effect i s t) (hl : LegalAt s.params s.pc i)
    (hr : s.out = .running) (p : Int) : t.out ≠ .faulted (.illegalInstruction p) := by
  cases h with
  | illegal hno =>
    rcases hno with hno | hno
    · exact absurd (hl.hasExecution.symm.trans hno) Bool.false_ne_true
    · exact absurd (hno.symm.trans hl.lookups) Bool.false_ne_true
  | unset | misaligned | memFault | depth | helperFault | exits => exact nofun
  | writes | jumps | stores | atomic | atomicFetch | calls | returns | helperUnknown | helperEffect =>
    exact fun ho => nomatch hr.symm.trans ho

end Machine

/-! ## The obligation -/

/-- Settles O14: what is fetched is legal, so it decodes, is permitted and takes no IllegalInstruction when executed. -/
theorem wellFormedProgramIsNeverIllegal : Obligations.WellFormedProgramIsNeverIllegal := by
  intro s t p hwf hr hstep
  cases step_effect hstep with
  | badPC => exact nofun
  | undecodable slots r hf hd =>
    obtain ⟨i, hi, -⟩ := legalAt_of_fetch hwf hf
    cases hi.symm.trans hd
  | forbidden slots i hf hd hp =>
    obtain ⟨j, hj, hlegal⟩ := legalAt_of_fetch hwf hf
    obtain rfl := Except.ok.inj (hj.symm.trans hd)
    exact absurd (hp.symm.trans hlegal.permitted) Bool.false_ne_true
  | runs slots i _ hf hd hp hx =>
    obtain ⟨j, hj, hlegal⟩ := legalAt_of_fetch hwf hf
    obtain rfl := Except.ok.inj (hj.symm.trans hd)
    exact (exec_effect hx).out_ne_illegal (by simpa using hlegal) (by simpa using hr) p

end Sys2Proof
end

