-- ==== Sys2Proof/Proofs/Arithmetic.lean ====
section
/-! PROOFS. Arithmetic and moves (spec/40_arithmetic_a.md, 41, 42): the result of every two-operand function in numbers,
for every width or every width that is a power of 2, the function each row of the tables of results runs, and the
instructions over both. -/

namespace Sys2Proof

open Machine

/-! ## Values -/

namespace Machine

section

variable {n : Nat} (a b : BitVec n)

theorem aluAdd_eq_ofNat : aluAdd a b = BitVec.ofNat n (a.toNat + b.toNat) := BitVec.add_def ..

theorem aluSub_eq_ofInt : aluSub a b = BitVec.ofInt n (a.toNat - b.toNat : Int) := by
  rw [aluSub, ← BitVec.toInt_inj, BitVec.toInt_sub, BitVec.toInt_ofInt, BitVec.toInt_eq_toNat_bmod,
    BitVec.toInt_eq_toNat_bmod]
  simp

theorem aluMul_eq_ofNat : aluMul a b = BitVec.ofNat n (a.toNat * b.toNat) := BitVec.mul_def ..

theorem eq_zero_iff_toNat : b = 0 ↔ b.toNat = 0 := by simp [BitVec.toNat_eq]

theorem eq_zero_iff_toInt : b = 0 ↔ b.toInt = 0 := by rw [← BitVec.toInt_inj]; simp

theorem aluDiv_eq_ofNat : aluDiv a b = BitVec.ofNat n (if b.toNat = 0 then 0 else a.toNat / b.toNat) := by
  simp only [aluDiv, eq_zero_iff_toNat, apply_ite (BitVec.ofNat n)]
  rfl

theorem aluMod_eq_ofNat : aluMod a b = BitVec.ofNat n (if b.toNat = 0 then a.toNat else a.toNat % b.toNat) := by
  simp only [aluMod, eq_zero_iff_toNat, apply_ite (BitVec.ofNat n), BitVec.ofNat_toNat, BitVec.setWidth_eq]

theorem aluSdiv_eq_ofInt : aluSdiv a b = BitVec.ofInt n (if b.toInt = 0 then 0 else a.toInt.tdiv b.toInt) := by
  simp only [aluSdiv, eq_zero_iff_toInt, apply_ite (BitVec.ofInt n)]
  rfl

theorem aluSmod_eq_ofInt : aluSmod a b = BitVec.ofInt n (if b.toInt = 0 then a.toInt else a.toInt.tmod b.toInt) := by
  simp only [aluSmod, eq_zero_iff_toInt, apply_ite (BitVec.ofInt n), BitVec.ofInt_toInt, Int.tmod_def]

theorem aluOr_eq_ofNat : aluOr a b = BitVec.ofNat n (a.toNat ||| b.toNat) := by
  rw [aluOr, ← BitVec.toNat_or, BitVec.ofNat_toNat, BitVec.setWidth_eq]

theorem aluAnd_eq_ofNat : aluAnd a b = BitVec.ofNat n (a.toNat &&& b.toNat) := by
  rw [aluAnd, ← BitVec.toNat_and, BitVec.ofNat_toNat, BitVec.setWidth_eq]

theorem aluXor_eq_ofNat : aluXor a b = BitVec.ofNat n (a.toNat ^^^ b.toNat) := by
  rw [aluXor, ← BitVec.toNat_xor, BitVec.ofNat_toNat, BitVec.setWidth_eq]

/-- In a width that is a power of 2 the mask of a shift count takes the remainder by the width. -/
theorem shiftCount_eq_mod {k : Nat} (hn : n = 2 ^ k) : shiftCount b = b.toNat % n := by
  subst hn
  have hmask : 2 ^ k - 1 < 2 ^ 2 ^ k := (Nat.sub_le _ _).trans_lt Nat.lt_two_pow_self
  rw [shiftCount, BitVec.toNat_and, BitVec.toNat_ofNat, Nat.mod_eq_of_lt hmask, Nat.and_two_pow_sub_one_eq_mod]

theorem aluLsh_eq_ofNat {k : Nat} (hn : n = 2 ^ k) : aluLsh a b = BitVec.ofNat n (a.toNat * 2 ^ (b.toNat % n)) := by
  rw [aluLsh, shiftCount_eq_mod b hn, ← BitVec.toNat_inj, BitVec.toNat_shiftLeft, Nat.shiftLeft_eq, BitVec.toNat_ofNat]

theorem aluRsh_eq_ofNat {k : Nat} (hn : n = 2 ^ k) : aluRsh a b = BitVec.ofNat n (a.toNat / 2 ^ (b.toNat % n)) := by
  rw [aluRsh, shiftCount_eq_mod b hn, ← Nat.shiftRight_eq_div_pow, ← BitVec.toNat_ushiftRight, BitVec.ofNat_toNat,
    BitVec.setWidth_eq]

theorem aluArsh_eq_ofInt {k : Nat} (hn : n = 2 ^ k) :
    aluArsh a b = BitVec.ofInt n (a.toInt.fdiv (2 ^ (b.toNat % n))) := by
  rw [aluArsh, shiftCount_eq_mod b hn, BitVec.sshiftRight_eq, Int.shiftRight_eq_div_pow,
    Int.fdiv_eq_ediv_of_nonneg _ (by positivity)]
  push_cast
  rfl

end

/-- The two-operand functions of classes ALU and ALU64, each with its result in numbers, in the order of the tables of
results. -/
def arithmetic (n : Nat) : List ((BitVec n → BitVec n → BitVec n) × (BitVec n → BitVec n → BitVec n)) :=
  [(aluAdd, fun a b => BitVec.ofNat n (a.toNat + b.toNat)),
   (aluSub, fun a b => BitVec.ofInt n (a.toNat - b.toNat : Int)),
   (aluMul, fun a b => BitVec.ofNat n (a.toNat * b.toNat)),
   (aluDiv, fun a b => BitVec.ofNat n (if b.toNat = 0 then 0 else a.toNat / b.toNat)),
   (aluSdiv, fun a b => BitVec.ofInt n (if b.toInt = 0 then 0 else Int.tdiv a.toInt b.toInt)),
   (aluOr, fun a b => BitVec.ofNat n (a.toNat ||| b.toNat)),
   (aluAnd, fun a b => BitVec.ofNat n (a.toNat &&& b.toNat)),
   (aluLsh, fun a b => BitVec.ofNat n (a.toNat * 2 ^ (b.toNat % n))),
   (aluRsh, fun a b => BitVec.ofNat n (a.toNat / 2 ^ (b.toNat % n))),
   (aluMod, fun a b => BitVec.ofNat n (if b.toNat = 0 then a.toNat else a.toNat % b.toNat)),
   (aluSmod, fun a b => BitVec.ofInt n (if b.toInt = 0 then a.toInt else Int.tmod a.toInt b.toInt)),
   (aluXor, fun a b => BitVec.ofNat n (a.toNat ^^^ b.toNat)),
   (aluArsh, fun a b => BitVec.ofInt n (Int.fdiv a.toInt (2 ^ (b.toNat % n))))]

theorem arithmetic_eq {n k : Nat} (hn : n = 2 ^ k) : ∀ x ∈ arithmetic n, ∀ a b, x.1 a b = x.2 a b := by
  simp only [arithmetic, List.forall_mem_cons]
  exact ⟨aluAdd_eq_ofNat, aluSub_eq_ofInt, aluMul_eq_ofNat, aluDiv_eq_ofNat, aluSdiv_eq_ofInt, aluOr_eq_ofNat,
    aluAnd_eq_ofNat, fun a b => aluLsh_eq_ofNat a b hn, fun a b => aluRsh_eq_ofNat a b hn, aluMod_eq_ofNat,
    aluSmod_eq_ofInt, aluXor_eq_ofNat, fun a b => aluArsh_eq_ofInt a b hn, nofun⟩

theorem zext64_eq_ofNat (v : W32) : zext64 v = BitVec.ofNat 64 v.toNat := (BitVec.ofNat_toNat 64 v).symm

/-- The low `k` bits sign-extended are their signed reading. -/
theorem aluMovsx_eq_ofInt (k : Nat) {n : Nat} (b : BitVec n) :
    aluMovsx k b = BitVec.ofInt n ((b.toNat : Int).bmod (2 ^ k)) := by
  rw [aluMovsx, BitVec.signExtend, BitVec.toInt_setWidth]

/-- The same of bits that are taken from the low half. -/
theorem aluMovsx_low32_eq_ofInt {k : Nat} (hk : k ≤ 32) (b : W64) :
    aluMovsx k (low32 b) = BitVec.ofInt 32 ((b.toNat : Int).bmod (2 ^ k)) := by
  rw [aluMovsx, low32, BitVec.setWidth_setWidth_of_le _ hk, BitVec.signExtend, BitVec.toInt_setWidth]

end Machine

/-- In a table whose rows run `form` of the arithmetic functions, every row runs `form` of its result. -/
theorem run_eq_of_mem_results {n k : Nat} (hn : n = 2 ^ k) {C R : Type}
    {table : List (C × (BitVec n → BitVec n → BitVec n))} {run : C → R} {form : (BitVec n → BitVec n → BitVec n) → R}
    (htable : table.map (Prod.map run id) = (arithmetic n).map (Prod.map form id)) {c : C}
    {f : BitVec n → BitVec n → BitVec n} (hc : (c, f) ∈ table) : run c = form f := by
  have hmem : (run c, f) ∈ table.map (Prod.map run id) := List.mem_map_of_mem hc
  rw [htable, List.mem_map] at hmem
  obtain ⟨⟨g, result⟩, hx, he⟩ := hmem
  obtain ⟨hrun, rfl⟩ := Prod.mk.inj he
  have hg : g = result := funext₂ (arithmetic_eq hn _ hx)
  exact hrun.symm.trans (congrArg form hg)

/-! ## The tables of results -/

theorem alu32ImmResults_run :
    alu32ImmResults.map (Prod.map (fun c dst imm s => exec (c dst imm) s) id) =
      (arithmetic 32).map (Prod.map alu32Imm id) := rfl

theorem alu64ImmResults_run :
    alu64ImmResults.map (Prod.map (fun c dst imm s => exec (c dst imm) s) id) =
      (arithmetic 64).map (Prod.map alu64Imm id) := rfl

/-! ## Instructions that write one register -/

theorem completes_finish {i : Instr} {dst : Reg} {v : W64} {s : State} (hi : exec i s = finish dst v s) :
    Completes i s (WritesReg dst v (s.pc + 1) s) :=
  ⟨(s.setReg dst v).setPc s.npc, hi, writesReg_setReg_setPc dst v _ s⟩

theorem completes_move32Reg {i : Instr} {f : W32 → W32} {dst src : Reg} {s : State} {b : W64}
    (hi : exec i s = move32Reg f dst src s) (hb : s.reg src = some b) :
    Completes i s (WritesReg dst (zext64 (f (low32 b))) (s.pc + 1) s) :=
  completes_finish (hi.trans (withReg_some hb _))

theorem completes_move64Reg {i : Instr} {f : W64 → W64} {dst src : Reg} {s : State} {b : W64}
    (hi : exec i s = move64Reg f dst src s) (hb : s.reg src = some b) :
    Completes i s (WritesReg dst (f b) (s.pc + 1) s) :=
  completes_finish (hi.trans (withReg_some hb _))

/-! ## The obligations -/

/-- Settles O25: the row's instruction is the immediate form of class ALU over the row's result. -/
theorem alu32ImmediateResult : Obligations.Alu32ImmediateResult := by
  intro c f hc dst imm s a ha
  have hrun := run_eq_of_mem_results (k := 5) rfl alu32ImmResults_run hc
  have hexec : exec (c dst imm) s = alu32Imm f dst imm s := congrFun (congrFun (congrFun hrun dst) imm) s
  exact completes_finish (hexec.trans (withReg_some ha _))

/-- Settles O27, as O25 in class ALU64, where the immediate is sign-extended. -/
theorem alu64ImmediateResult : Obligations.Alu64ImmediateResult := by
  intro c f hc dst imm s a ha
  have hrun := run_eq_of_mem_results (k := 6) rfl alu64ImmResults_run hc
  have hexec : exec (c dst imm) s = alu64Imm f dst imm s := congrFun (congrFun (congrFun hrun dst) imm) s
  exact completes_finish (hexec.trans (withReg_some ha _))

/-- Settles O34: MOV hands its operand on, MOVSX the signed reading of its low bits. -/
theorem moveResult : Obligations.MoveResult := by
  refine ⟨fun dst src imm s => ⟨?_, completes_finish rfl, fun b hb => ⟨?_, completes_move64Reg (f := aluMov) rfl hb⟩⟩,
    fun dst src s b hb => ?_⟩
  · rw [← zext64_eq_ofNat]
    exact completes_finish rfl
  · rw [← BitVec.toNat_setWidth, ← zext64_eq_ofNat]
    exact completes_move32Reg (f := aluMov) rfl hb
  · simp only [← aluMovsx_eq_ofInt]
    rw [← aluMovsx_low32_eq_ofInt (by decide), ← aluMovsx_low32_eq_ofInt (by decide)]
    exact ⟨completes_move32Reg rfl hb, completes_move32Reg rfl hb, completes_move64Reg rfl hb,
      completes_move64Reg rfl hb, completes_move64Reg rfl hb⟩

end Sys2Proof
end

section
/-! PROOFS. Arithmetic with registers (spec/40_arithmetic_a.md, 41): the register forms of both classes, division by
zero, the signed quotient and NEG. -/

namespace Sys2Proof

open Machine

/-! ## Values -/

namespace Machine

section

variable {n : Nat} {a b : BitVec n}

theorem aluDiv_zero (a : BitVec n) : aluDiv a 0 = 0 := if_pos rfl

theorem aluSdiv_zero (a : BitVec n) : aluSdiv a 0 = 0 := if_pos rfl

/-- For a divisor other than zero SDIV is the truncated quotient, wrapped. -/
theorem aluSdiv_of_ne_zero (hb : b ≠ 0) : aluSdiv a b = BitVec.ofInt n (a.toInt.tdiv b.toInt) := if_neg hb

/-- A truncated quotient is no larger in absolute value than its dividend, so only the upper bound can fail. -/
theorem le_tdiv_toInt (a b : BitVec n) : -2 ^ (n - 1) ≤ a.toInt.tdiv b.toInt := by
  have hle := Int.natAbs_tdiv_le_natAbs a.toInt b.toInt
  have hlo := a.le_toInt
  have hhi := a.toInt_lt
  omega

theorem width_pos_of_ne_zero (hb : b ≠ 0) : 0 < n :=
  Nat.pos_of_ne_zero fun h => hb (by subst h; exact BitVec.eq_nil b)

/-- A quotient that fits is not wrapped. -/
theorem aluSdiv_toInt (hb : b ≠ 0) (hfits : a.toInt.tdiv b.toInt < 2 ^ (n - 1)) :
    (aluSdiv a b).toInt = a.toInt.tdiv b.toInt := by
  rw [aluSdiv_of_ne_zero hb, BitVec.toInt_ofInt_eq_self (width_pos_of_ne_zero hb) (le_tdiv_toInt a b) hfits]

/-- The most negative value is its own negative. -/
theorem neg_eq_self_of_toInt (hn : 0 < n) (ha : a.toInt = -2 ^ (n - 1)) : -a = a := by
  have hmin : a = BitVec.intMin n := by
    rw [← BitVec.toInt_inj, ha, BitVec.toInt_intMin, Nat.mod_eq_of_lt (Nat.pow_lt_pow_right (by decide) (by omega))]
    push_cast
    rfl
  rw [hmin, BitVec.neg_intMin]

theorem aluSdiv_neg_one (hb : b.toInt = -1) : aluSdiv a b = -a := by
  rw [aluSdiv_eq_ofInt, hb, if_neg (by decide), Int.tdiv_neg, Int.tdiv_one, BitVec.ofInt_neg, BitVec.ofInt_toInt]

theorem isSignedQuotient_aluSdiv (hb : b ≠ 0) : IsSignedQuotient a b (aluSdiv a b) := by
  refine ⟨aluSdiv_of_ne_zero hb, fun hfits => ⟨aluSdiv_toInt hb hfits, ?_⟩, fun ha hneg => ?_⟩
  · rw [aluSdiv_toInt hb hfits, Int.mul_tdiv_add_tmod]
  · rw [aluSdiv_neg_one hneg, neg_eq_self_of_toInt (width_pos_of_ne_zero hb) ha]

theorem aluNeg_eq_ofNat (a : BitVec n) : aluNeg a = BitVec.ofNat n (2 ^ n - a.toNat) := by
  rw [aluNeg, BitVec.ofNat_eq_ofNat, BitVec.zero_sub, ← BitVec.toNat_inj, BitVec.toNat_neg, BitVec.toNat_ofNat]

end

theorem low32_eq_zero {b : W64} (h : b.toNat % 2 ^ 32 = 0) : low32 b = 0 := by
  rw [eq_zero_iff_toNat, low32_toNat, h]

theorem immOperand64_zero : immOperand64 0 = 0 := rfl

theorem immOperand64_ne_zero {imm : W32} (h : imm ≠ 0) : immOperand64 imm ≠ 0 := by
  rw [ne_eq, eq_zero_iff_toInt, immOperand64, BitVec.toInt_signExtend_of_le (by decide), ← eq_zero_iff_toInt]
  exact h

end Machine

/-! ## The tables of results -/

theorem alu32RegResults_run :
    alu32RegResults.map (Prod.map (fun c dst src s => exec (c dst src) s) id) =
      (arithmetic 32).map (Prod.map alu32Reg id) := rfl

theorem alu64RegResults_run :
    alu64RegResults.map (Prod.map (fun c dst src s => exec (c dst src) s) id) =
      (arithmetic 64).map (Prod.map alu64Reg id) := rfl

/-! ## The operand forms, with the value they write -/

section

variable {i : Instr} {s : State} {dst src : Reg} {imm : W32} {a b v : W64}

theorem completes_alu32Imm {f : W32 → W32 → W32} (hi : exec i s = alu32Imm f dst imm s) (ha : s.reg dst = some a)
    (hv : zext64 (f (low32 a) imm) = v) : Completes i s (WritesReg dst v (s.pc + 1) s) := by
  subst hv
  exact completes_finish (hi.trans (withReg_some ha _))

theorem completes_alu32Reg {f : W32 → W32 → W32} (hi : exec i s = alu32Reg f dst src s) (ha : s.reg dst = some a)
    (hb : s.reg src = some b) (hv : zext64 (f (low32 a) (low32 b)) = v) :
    Completes i s (WritesReg dst v (s.pc + 1) s) := by
  subst hv
  exact completes_finish (hi.trans ((withReg_some ha _).trans (withReg_some hb _)))

theorem completes_alu64Imm {f : W64 → W64 → W64} (hi : exec i s = alu64Imm f dst imm s) (ha : s.reg dst = some a)
    (hv : f a (immOperand64 imm) = v) : Completes i s (WritesReg dst v (s.pc + 1) s) := by
  subst hv
  exact completes_finish (hi.trans (withReg_some ha _))

theorem completes_alu64Reg {f : W64 → W64 → W64} (hi : exec i s = alu64Reg f dst src s) (ha : s.reg dst = some a)
    (hb : s.reg src = some b) (hv : f a b = v) : Completes i s (WritesReg dst v (s.pc + 1) s) := by
  subst hv
  exact completes_finish (hi.trans ((withReg_some ha _).trans (withReg_some hb _)))

theorem completes_alu32Dst {f : W32 → W32} (hi : exec i s = alu32Dst f dst s) (ha : s.reg dst = some a) :
    Completes i s (WritesReg dst (zext64 (f (low32 a))) (s.pc + 1) s) :=
  completes_finish (hi.trans (withReg_some ha _))

end

/-! ## The obligations -/

/-- Settles O26: the row's instruction is the register form of class ALU over the row's result. -/
theorem alu32RegisterResult : Obligations.Alu32RegisterResult := by
  intro c f hc dst src s a b ha hb
  have hrun := run_eq_of_mem_results (k := 5) rfl alu32RegResults_run hc
  exact completes_alu32Reg (congrFun (congrFun (congrFun hrun dst) src) s) ha hb rfl

/-- Settles O28, as O26 in class ALU64. -/
theorem alu64RegisterResult : Obligations.Alu64RegisterResult := by
  intro c f hc dst src s a b ha hb
  have hrun := run_eq_of_mem_results (k := 6) rfl alu64RegResults_run hc
  exact completes_alu64Reg (congrFun (congrFun (congrFun hrun dst) src) s) ha hb rfl

/-- Settles O29: both functions answer 0 for the divisor 0, and the operand tested is the divisor. -/
theorem divisionByZeroGivesZero : Obligations.DivisionByZeroGivesZero := by
  intro dst src imm s a b ha hb
  simp only [List.forall_mem_cons]
  refine ⟨?_, ?_, ?_⟩
  · rintro rfl
    exact ⟨completes_alu32Imm rfl ha (congrArg zext64 (aluDiv_zero _)), completes_alu64Imm rfl ha (aluDiv_zero _),
      completes_alu32Imm rfl ha (congrArg zext64 (aluSdiv_zero _)), completes_alu64Imm rfl ha (aluSdiv_zero _), nofun⟩
  · intro hlow
    have hzero := low32_eq_zero hlow
    exact ⟨completes_alu32Reg rfl ha hb (by rw [hzero, aluDiv_zero]; rfl),
      completes_alu32Reg rfl ha hb (by rw [hzero, aluSdiv_zero]; rfl), nofun⟩
  · rintro rfl
    exact ⟨completes_alu64Reg rfl ha hb (aluDiv_zero a), completes_alu64Reg rfl ha hb (aluSdiv_zero a), nofun⟩

/-- Settles O31: each form writes SDIV's value of its operands, which is their signed quotient. -/
theorem signedDivisionRoundsTowardZero : Obligations.SignedDivisionRoundsTowardZero := by
  intro dst src imm s a b ha hb
  exact ⟨fun h => ⟨_, completes_alu64Reg rfl ha hb rfl, isSignedQuotient_aluSdiv h⟩,
    fun h => ⟨_, completes_alu64Imm rfl ha rfl, isSignedQuotient_aluSdiv (immOperand64_ne_zero h)⟩,
    fun h => ⟨_, completes_alu32Reg rfl ha hb rfl, isSignedQuotient_aluSdiv h⟩,
    fun h => ⟨_, completes_alu32Imm rfl ha rfl, isSignedQuotient_aluSdiv h⟩⟩

/-- Settles O33: NEG is 0 minus its operand in either width, as a number the power of 2 minus it. -/
theorem negateResult : Obligations.NegateResult := by
  intro dst s a ha
  constructor
  · rw [← low32_toNat, ← BitVec.toNat_ofNat, ← aluNeg_eq_ofNat, ← zext64_eq_ofNat]
    exact completes_alu32Dst rfl ha
  · rw [← aluNeg_eq_ofNat]
    exact completes_alu64Dst rfl ha

end Sys2Proof
end

section
/-! PROOFS. Registers without a value (spec/60_exceptions.md R504, R511): every instruction reads the registers of its
list one after the other, and a read of an unset one ends it. -/

namespace Sys2Proof

open Machine

namespace Machine

/-- The result is UninitRegister of the first register of the list that holds no value, where there is one. -/
def ReportsUnset (s : State) (rs : List Reg) (result : Result) : Prop :=
  ∀ r, rs.find? (fun q => s.reg q == none) = some r → result = .next (s.faultedWith (.uninitRegister r))

namespace ReportsUnset

variable {s : State} {result : Result}

/-- Nothing is read. -/
theorem of_nil : ReportsUnset s [] result := nofun

/-- A register is read first, and the rest only when it holds a value. -/
theorem of_withReg {q : Reg} {rs : List Reg} {k : W64 → Result} (hk : ∀ v, ReportsUnset s rs (k v)) :
    ReportsUnset s (q :: rs) (withReg q s k) := by
  intro r hr
  cases hq : s.reg q with
  | some v =>
    rw [withReg_some hq]
    rw [List.find?_cons_of_neg (by simp [hq])] at hr
    exact hk v r hr
  | none =>
    rw [List.find?_cons_of_pos (by simp [hq])] at hr
    obtain rfl := Option.some.inj hr
    exact withReg_none hq k

/-- EXIT reads R0 only where it ends the run. -/
theorem of_returnOrEnd : ReportsUnset s (Instr.exit.reads s.cs) (returnOrEnd s) := by
  rw [Instr.reads]
  cases hcs : s.cs with
  | nil =>
    rw [if_pos rfl, returnOrEnd_of_nil hcs]
    exact of_withReg fun _ => of_nil
  | cons fr rest =>
    rw [if_neg (List.cons_ne_nil fr rest)]
    exact of_nil

end ReportsUnset

/-- Every instruction reads its list in order before it does anything else. The cases are by the number of registers
read: none, three, two, and one for all the rest. -/
theorem exec_reportsUnset (i : Instr) (s : State) : ReportsUnset s (i.reads s.cs) (exec i s) := by
  cases i with
  | exit => exact .of_returnOrEnd
  | mov32Imm | mov64Imm | ja | ja32 | callHelper | callLocal | callBtf | lddw | ldMapFd | ldMapValFd | ldVarAddr
  | ldCodeAddr | ldMapIdx | ldMapValIdx | ldAbsW | ldAbsH | ldAbsB | ldIndW | ldIndH | ldIndB | imm64Hi =>
    exact .of_nil
  | atomicCmpxchg32 | atomicCmpxchg64 =>
    exact .of_withReg fun _ => .of_withReg fun _ => .of_withReg fun _ => .of_nil
  | add32Reg | add64Reg | sub32Reg | sub64Reg | mul32Reg | mul64Reg | div32Reg | div64Reg | sdiv32Reg | sdiv64Reg
  | or32Reg | or64Reg | and32Reg | and64Reg | lsh32Reg | lsh64Reg | rsh32Reg | rsh64Reg | mod32Reg | mod64Reg
  | smod32Reg | smod64Reg | xor32Reg | xor64Reg | arsh32Reg | arsh64Reg | jeq64Reg | jeq32Reg | jgt64Reg | jgt32Reg
  | jge64Reg | jge32Reg | jset64Reg | jset32Reg | jne64Reg | jne32Reg | jsgt64Reg | jsgt32Reg | jsge64Reg
  | jsge32Reg | jlt64Reg | jlt32Reg | jle64Reg | jle32Reg | jslt64Reg | jslt32Reg | jsle64Reg | jsle32Reg | stxw
  | stxh | stxb | stxdw | atomicAdd32 | atomicFetchAdd32 | atomicOr32 | atomicFetchOr32 | atomicAnd32
  | atomicFetchAnd32 | atomicXor32 | atomicFetchXor32 | atomicXchg32 | atomicAdd64 | atomicFetchAdd64 | atomicOr64
  | atomicFetchOr64 | atomicAnd64 | atomicFetchAnd64 | atomicXor64 | atomicFetchXor64 | atomicXchg64 =>
    exact .of_withReg fun _ => .of_withReg fun _ => .of_nil
  | _ => exact .of_withReg fun _ => .of_nil

end Machine

/-! ## The obligation -/

/-- Settles O56: what every instruction answers is what its list of reads reports. -/
theorem firstUnsetRegisterIsReported : Obligations.FirstUnsetRegisterIsReported := exec_reportsUnset

end Sys2Proof
end

section
/-! PROOFS. Remainders (spec/41_arithmetic_b.md R262, R263): modulo by zero, and SMOD as the remainder of truncated
division. -/

namespace Sys2Proof

open Machine

/-! ## Values -/

namespace Machine

section

variable {n : Nat} {a b : BitVec n}

theorem aluMod_zero (a : BitVec n) : aluMod a 0 = a := if_pos rfl

theorem aluSmod_zero (a : BitVec n) : aluSmod a 0 = a := if_pos rfl

/-- SMOD is the remainder operation of bit vectors, also for the divisor 0, where both give the dividend. -/
theorem aluSmod_eq_srem (a b : BitVec n) : aluSmod a b = a.srem b := by
  by_cases hb : b = 0
  · rw [hb, aluSmod_zero]
    exact BitVec.srem_zero.symm
  · rw [aluSmod_eq_ofInt, if_neg (mt (eq_zero_iff_toInt b).2 hb), ← BitVec.toInt_srem, BitVec.ofInt_toInt]

/-- A truncated remainder always fits: it is never wrapped. -/
theorem aluSmod_toInt (a b : BitVec n) : (aluSmod a b).toInt = a.toInt.tmod b.toInt := by
  rw [aluSmod_eq_srem, BitVec.toInt_srem]

theorem aluSmod_neg_one (hb : b.toInt = -1) : aluSmod a b = 0 := by
  rw [eq_zero_iff_toInt, aluSmod_toInt, hb, Int.tmod_neg, Int.tmod_one]

theorem aluSmod_natAbs_lt (hb : b ≠ 0) : (aluSmod a b).toInt.natAbs < b.toInt.natAbs := by
  rw [aluSmod_toInt, Int.natAbs_tmod]
  exact Nat.mod_lt _ (Int.natAbs_pos.2 (mt (eq_zero_iff_toInt b).2 hb))

theorem aluSmod_eq_zero_or_sign (a b : BitVec n) :
    (aluSmod a b).toInt = 0 ∨ (aluSmod a b).toInt.sign = a.toInt.sign := by
  rw [aluSmod_toInt]
  by_cases hdvd : b.toInt ∣ a.toInt
  · exact .inl (Int.tmod_eq_zero_of_dvd hdvd)
  · exact .inr (by rw [Int.sign_tmod, if_neg hdvd])

theorem isSignedRemainder_aluSmod (hb : b ≠ 0) : IsSignedRemainder a b (aluSmod a b) :=
  ⟨(aluSmod_toInt a b).trans (Int.tmod_def ..), aluSmod_natAbs_lt hb, aluSmod_eq_zero_or_sign a b,
    fun _ hneg => aluSmod_neg_one hneg⟩

end

/-- The low half zero-extended is the remainder by `2 ^ 32`. -/
theorem zext64_low32 (a : W64) : zext64 (low32 a) = BitVec.ofNat 64 (a.toNat % 2 ^ 32) := by
  rw [zext64_eq_ofNat, low32_toNat]

end Machine

/-! ## The obligations -/

/-- Settles O30: both functions answer the dividend for the divisor 0, and class ALU takes and writes its low half. -/
theorem moduloByZeroKeepsDestination : Obligations.ModuloByZeroKeepsDestination := by
  intro dst src imm s a b ha hb
  simp only [List.forall_mem_cons, ← zext64_low32]
  refine ⟨?_, ?_, ?_, ?_⟩
  · rintro rfl
    exact ⟨completes_alu64Imm rfl ha (aluMod_zero a), completes_alu64Imm rfl ha (aluSmod_zero a), nofun⟩
  · rintro rfl
    exact ⟨completes_alu32Imm rfl ha (congrArg zext64 (aluMod_zero _)),
      completes_alu32Imm rfl ha (congrArg zext64 (aluSmod_zero _)), nofun⟩
  · rintro rfl
    exact ⟨completes_alu64Reg rfl ha hb (aluMod_zero a), completes_alu64Reg rfl ha hb (aluSmod_zero a), nofun⟩
  · intro hlow
    have hzero := low32_eq_zero hlow
    exact ⟨completes_alu32Reg rfl ha hb (by rw [hzero, aluMod_zero]),
      completes_alu32Reg rfl ha hb (by rw [hzero, aluSmod_zero]), nofun⟩

/-- Settles O32: each form writes SMOD's value of its operands, which is their signed remainder. -/
theorem signedModuloTruncates : Obligations.SignedModuloTruncates := by
  intro dst src imm s a b ha hb
  exact ⟨fun h => ⟨_, completes_alu64Reg rfl ha hb rfl, isSignedRemainder_aluSmod h⟩,
    fun h => ⟨_, completes_alu64Imm rfl ha rfl, isSignedRemainder_aluSmod (immOperand64_ne_zero h)⟩,
    fun h => ⟨_, completes_alu32Reg rfl ha hb rfl, isSignedRemainder_aluSmod h⟩,
    fun h => ⟨_, completes_alu32Imm rfl ha rfl, isSignedRemainder_aluSmod h⟩⟩

end Sys2Proof
end

section
/-! PROOFS. Where calls fault and what they leave (spec/45_jump_b.md R386 to R389): the depth limit, the return behind a
program-local call, a helper of which nothing is known, and the faults of a helper call. -/

namespace Sys2Proof

open Machine

namespace Machine

/-! ## Program-local calls -/

section

variable {i : Instr} {s t : State}

theorem localCall_of_full (h : s.callStackFull = true) (d : Int) :
    localCall d s = .next (s.faultedWith (.callDepthExceeded s.pc)) := by
  rw [localCall, if_pos h, raise_eq]

/-- A program-local call that does not end the run has entered the callee. -/
theorem eq_enterCallee_of_running {d : Int} (h : localCall d s = .next t) (hrun : t.out = .running) :
    t = s.enterCallee (s.npc + d) := by
  rcases localCall_cases h with ⟨_, rfl⟩ | ⟨_, rfl⟩
  · cases hrun
  · rfl

/-- CallDepthExceeded comes from a program-local call with a full call stack, and from nothing else. -/
theorem Effect.of_callDepthExceeded {p : Int} (h : Effect i s t) (hrun : s.out = .running)
    (hout : t.out = .faulted (.callDepthExceeded p)) :
    p = s.pc ∧ (∃ imm, i = .callLocal imm) ∧ s.callStackFull = true := by
  cases h with
  | depth imm hi hfull =>
    cases hout
    exact ⟨rfl, ⟨imm, hi⟩, hfull⟩
  | illegal | unset | misaligned | memFault | helperFault | exits => cases hout
  | writes | jumps | stores | atomic | atomicFetch | calls | returns | helperUnknown | helperEffect =>
    cases hrun.symm.trans hout

end

/-! ## The frame policy -/

/-- Registers restored from what was saved of `x` hold their content in `x`, the others keep theirs. -/
theorem restoreRegs_saved (x : Regs) (saved : List Reg) (y : Regs) (q : Reg) :
    (restoreRegs (saved.map fun r => (r, x[r.val])) y)[q.val] = if q ∈ saved then x[q.val] else y[q.val] := by
  induction saved generalizing y with
  | nil => rfl
  | cons r rest ih =>
    rw [List.map_cons, restoreRegs, ih]
    by_cases hq : q = r
    · subst hq
      simp
    · have hval : r.val ≠ q.val := fun h => hq (Fin.ext h.symm)
      simp [hq, hval]

/-- Under a convention a saved register has at the return the content it had at the call, whatever the callee did. -/
theorem FramePolicy.onReturn_onCall_convention {saved cleared : List Reg} {callee : List (Reg × CalleeValue)} {r : Reg}
    (hr : r ∈ saved) (x y : Regs) :
    ((convention saved callee cleared).onReturn y ((convention saved callee cleared).onCall x).2)[r.val] =
      x[r.val] := by
  rw [onReturn, onCall, restoreRegs_saved, if_pos hr]

/-! ## A helper of which nothing is known -/

/-- A cell that is dropped at its address is not read there. -/
theorem Memory.read_filter_eq_none (m : Memory) (p : Host.Cell → Bool) {x : Nat} (h : ∀ b, p (x, b) = false) :
    Memory.read (m.filter p) x = none := by
  induction m with
  | nil => rfl
  | cons c rest ih =>
    obtain ⟨k, b⟩ := c
    rw [List.filter_cons]
    split
    next hkept =>
      have hk : k ≠ x := by
        rintro rfl
        cases (h b).symm.trans hkept
      rw [Memory.read, if_neg hk, ih]
    next => exact ih

/-- A writable byte is free, at the new draw number. -/
theorem State.byteAt_weakestHelper_of_writable {s : State} {x : Nat} (hx : s.params.writableByte x = true) :
    s.weakestHelper.byteAt x = Config.uninitByte (s.draws + 1) x := by
  have hdropped : s.weakestHelper.mem.read x = none :=
    Memory.read_filter_eq_none s.mem (fun c => !s.params.writableByte c.1) fun _ => by simp [hx]
  have hfree : s.weakestHelper.freeByte x = Config.uninitByte (s.draws + 1) x := by simp [State.freeByte, hx]
  rw [State.byteAt, hdropped, hfree]

theorem State.byteAt_weakestHelper (s : State) (x : Nat) :
    s.weakestHelper.byteAt x =
      if s.params.writableByte x then Config.uninitByte (s.draws + 1) x else s.byteAt x := by
  split
  next hx => exact State.byteAt_weakestHelper_of_writable hx
  next hx => exact State.byteAt_weakestHelper_of_not_writable (Bool.eq_false_iff.2 hx)

/-! ## The faults of a helper call -/

/-- The first register without a value, as a search through the list. -/
theorem firstNoValue_eq_find? (s : State) (rs : List Reg) :
    firstNoValue s.regs rs = rs.find? fun q => s.reg q == none := by
  induction rs with
  | nil => rfl
  | cons r rest ih =>
    have hhead : s.regs[r.val] = s.reg r := rfl
    cases hr : s.reg r <;> simp [firstNoValue, hhead, hr, ih]

theorem helperCall_none (id : Int) (s : State) :
    helperCall none id s = .next (s.faultedWith (.illegalInstruction s.pc)) := rfl

theorem helperCall_unknown (id : Int) (s : State) :
    helperCall (some .unknown) id s = .next (s.weakestHelper.setPc (s.pc + 1)) := rfl

section

variable {h : Helper} {s : State} {a : HelperAnswer}

theorem helperCall_of_unset (ha : h.answer s = some a) {r : Reg} (hr : firstNoValue s.regs a.reads = some r)
    (id : Int) :
    helperCall (some h) id s = .next (s.faultedWith (.uninitRegister r)) := by
  simp only [helperCall, ha, hr, raise_eq]

theorem helperCall_of_no_effect (ha : h.answer s = some a) (hr : firstNoValue s.regs a.reads = none)
    (he : a.effect = none) (id : Int) : helperCall (some h) id s = .next (s.faultedWith (.helperFault id)) := by
  simp only [helperCall, ha, hr, he, raise_eq]

end

end Machine

/-! ## The obligations -/

/-- Settles O42: a full call stack faults, and of the ways an instruction can go only that one records this fault. -/
theorem callDepthLimit : Obligations.CallDepthLimit := by
  refine ⟨fun imm s d hmax hd => ?_, fun i s t p hrun hexec hout => ?_⟩
  · exact localCall_of_full (State.callStackFull_iff.2 ⟨d, hmax, hd⟩) imm.toInt
  · obtain ⟨hp, hi, hfull⟩ := (exec_effect hexec).of_callDepthExceeded hrun hout
    exact ⟨hp, hi, State.callStackFull_iff.1 hfull⟩

/-- Settles O44: EXIT pops the frame the call pushed, and the policy takes back what it saved there. -/
theorem exitReturnsAfterTheCall : Obligations.ExitReturnsAfterTheCall := by
  intro imm s t u _ hcall hrun hcs hparams
  obtain rfl := eq_enterCallee_of_running hcall hrun
  rw [State.enterCallee_cs] at hcs
  rw [State.enterCallee_params] at hparams
  refine ⟨u.leaveCallee _ s.cs, returnOrEnd_of_cons hcs, rfl, rfl, fun hid => ?_,
    fun saved callee cleared r hconv hr => ?_⟩
  · exact u.reg_congr (by simp [hparams, hid])
  · rw [State.reg, State.leaveCallee_regs, hparams, hconv]
    exact FramePolicy.onReturn_onCall_convention hr s.regs u.regs

/-- Settles O46: the call leaves the state of the weakest contract at the next slot. -/
theorem unknownHelperWeakestContract : Obligations.UnknownHelperWeakestContract := by
  intro i s id hc
  refine ⟨_, hc.exec_eq.trans (helperCall_unknown id s), fun r => ?_, rfl, rfl, rfl, rfl, rfl, rfl, rfl, rfl,
    fun x => ?_⟩
  · rw [State.reg_setPc, State.reg_weakestHelper]
  · rw [State.byteAt_setPc, State.byteAt_weakestHelper]

/-- Settles O47: no entry, a register of the reads without a value, no result. -/
theorem helperCallFaults : Obligations.HelperCallFaults := by
  refine ⟨fun imm s => ⟨fun hnone => ?_, fun hnone => ?_⟩, fun i s id h a hc ha => ⟨fun r hr => ?_, fun hset he => ?_⟩⟩
  · have hexec : exec (.callHelper imm) s = helperCall none imm.toInt s := by rw [← hnone]; rfl
    exact hexec.trans (helperCall_none imm.toInt s)
  · have hexec : exec (.callBtf imm) s = helperCall none imm.toInt s := by rw [← hnone]; rfl
    exact hexec.trans (helperCall_none imm.toInt s)
  · exact hc.exec_eq.trans (helperCall_of_unset ha ((firstNoValue_eq_find? s a.reads).trans hr) id)
  · exact hc.exec_eq.trans (helperCall_of_no_effect ha ((firstNoValue_none_iff s.regs a.reads).2 hset) he id)

end Sys2Proof
end

