-- ==== Sys2Proof/Proofs/Imm64.lean ====
section
/-! PROOFS. The 64-bit immediate loads that consult the environment (spec/48_imm64.md R470, R471), as one lookup the
spec and the model agree on, and the rows that have no execution (R479, spec/49_packet.md R490). -/

namespace Sys2Proof

open Machine

namespace Machine

/-! ## The lookups -/

theorem finishLookup_some (dst : Reg) (a : W64) (s : State) :
    finishLookup dst (some a) s = .next ((s.setReg dst a).setPc s.wideNpc) := rfl

theorem finishLookup_none (dst : Reg) (s : State) :
    finishLookup dst none s = .next (s.faultedWith (.illegalInstruction s.pc)) := rfl

/-- A map's handle and then its address, as the rows write the two lookups. -/
theorem bind_bind_some_eq_map {α : Type} (m : Option α) (table : α → Option W64) (dst : Reg) (f : W64 → W64) :
    (m.bind fun h => (table h).bind fun a => some (dst, f a)) = ((m.bind table).map f).map (dst, ·) := by
  simp only [Option.map_eq_bind, Option.bind_assoc, Function.comp_apply, Option.bind_some]

/-- Each of the six loads is one lookup, and what it looks up is the value the row names. -/
theorem exec_of_isLookup {i : Instr} (h : i.isLookup = true) (s : State) :
    ∃ dst v, exec i s = finishLookup dst v s ∧ lookupValue s.params s.pc i = v.map (dst, ·) := by
  cases i with
  | ldMapFd dst imm =>
    refine ⟨dst, s.params.mapAddrByFd imm, rfl, ?_⟩
    rw [← Option.map_id_apply (x := s.params.mapAddrByFd imm)]
    exact bind_bind_some_eq_map _ _ dst id
  | ldMapIdx dst imm =>
    refine ⟨dst, s.params.mapAddrByIdx imm, rfl, ?_⟩
    rw [← Option.map_id_apply (x := s.params.mapAddrByIdx imm)]
    exact bind_bind_some_eq_map _ _ dst id
  | ldMapValFd dst imm nextImm =>
    refine ⟨dst, (s.params.mapValByFd imm).map (· + zext64 nextImm), rfl, ?_⟩
    rw [zext64_eq_ofNat]
    exact bind_bind_some_eq_map _ _ dst _
  | ldMapValIdx dst imm nextImm =>
    refine ⟨dst, (s.params.mapValByIdx imm).map (· + zext64 nextImm), rfl, ?_⟩
    rw [zext64_eq_ofNat]
    exact bind_bind_some_eq_map _ _ dst _
  | ldVarAddr dst imm => exact ⟨dst, s.params.varAddrOf imm, rfl, Option.map_eq_bind.symm⟩
  | ldCodeAddr dst imm => exact ⟨dst, s.params.codeAddrOf s.pc imm, rfl, Option.map_eq_bind.symm⟩
  | _ => cases h

/-! ## Rows without an execution -/

theorem exec_of_neverLegal {i : Instr} (h : i.neverLegal = true) (s : State) :
    exec i s = raise (.illegalInstruction s.pc) s := by
  cases i with
  | ldAbsW | ldAbsH | ldAbsB | ldIndW | ldIndH | ldIndB | imm64Hi => rfl
  | _ => cases h

end Machine

/-! ## The obligations -/

/-- Settles O58: the load is one lookup, which either has a value to write or has none. -/
theorem environmentLookups : Obligations.EnvironmentLookups := by
  intro i s hi
  obtain ⟨dst, v, hexec, hvalue⟩ := exec_of_isLookup hi s
  simp only [hvalue, Completes, Faults, hexec]
  cases v with
  | some a =>
    refine ⟨fun dst' v' heq => ?_, nofun⟩
    obtain ⟨rfl, rfl⟩ := Prod.mk.inj (Option.some.inj heq)
    exact ⟨_, finishLookup_some dst a s, writesReg_setReg_setPc dst a _ s⟩
  | none => exact ⟨nofun, fun _ => finishLookup_none dst s⟩

/-- Settles O60: none of the seven has an execution, so each raises the fault. -/
theorem packetLoadsAreIllegal : Obligations.PacketLoadsAreIllegal := by
  intro src imm s i hi
  have hnever : i.neverLegal = true := List.all_eq_true.1 (by rfl) i hi
  exact (exec_of_neverLegal hnever s).trans (raise_eq _ s)

end Sys2Proof
end

