-- ==== Sys2Proof/Proofs/Exceptions.lean ====
section
/-! PROOFS. Exceptions (spec/60_exceptions.md R501 to R503, R511, R513): what step raises before anything is executed,
that a fault changes nothing but the status of the run, and that a running state always has a next state. -/

namespace Sys2Proof

open Machine

theorem Instr.permitted_eq_false_iff {p : Params} {i : Instr} :
    i.permitted p = false ↔ i.group ∉ p.supportedGroups ∨ ∃ r ∈ i.writes, r ∈ p.readonlyRegs := by
  rw [← Bool.not_eq_true, Instr.permitted_iff, not_and_or]
  simp only [not_forall, not_not, exists_prop]

namespace Machine

/-! ## Faults are precise -/

section

variable {i : Instr} {s t : State} {f : Fault}

/-- Of the ways of exec those that fault set the status alone, and no other leaves a faulted status. -/
theorem Effect.eq_faultedWith (h : Effect i s t) (hr : s.out = .running) (ho : t.out = .faulted f) :
    t = s.faultedWith f := by
  cases h with
  | illegal | unset | misaligned | memFault | depth | helperFault =>
    cases ho
    rfl
  | exits => cases ho
  | writes | jumps | stores | atomic | atomicFetch | calls | returns | helperUnknown | helperEffect =>
    cases hr.symm.trans ho

theorem StepEffect.eq_faultedWith (h : StepEffect s t) (hr : s.out = .running) (ho : t.out = .faulted f) :
    t = s.agentStep.faultedWith f := by
  cases h with
  | badPC | undecodable | forbidden =>
    cases ho
    rfl
  | runs _ _ _ _ _ _ hx => exact (exec_effect hx).eq_faultedWith (by simpa using hr) ho

end

/-! ## No instruction is stuck -/

/-- The call of a helper that reads set registers and has a result. -/
theorem helperCall_of_effect {h : Helper} {s : State} {a : HelperAnswer} {e : HelperEffect} (ha : h.answer s = some a)
    (hr : firstNoValue s.regs a.reads = none) (he : a.effect = some e) (id : Int) :
    helperCall (some h) id s = .next ((s.applyHelper e).setPc (s.pc + 1)) := by
  simp only [helperCall, ha, hr, he]
  rfl

/-- The result is a next state: no stop and no refusal. -/
def HasNext (result : Result) : Prop := ∃ t, result = .next t

namespace HasNext

variable {s : State}

theorem of_next {t : State} : HasNext (.next t) := ⟨t, rfl⟩

theorem of_withReg {r : Reg} {k : W64 → Result} (hk : ∀ v, HasNext (k v)) : HasNext (withReg r s k) := by
  cases hr : s.reg r with
  | some v => exact withReg_some hr k ▸ hk v
  | none => exact ⟨_, withReg_none hr k⟩

/-- The two checks before every access, of alignment and of the regions, fault or go on. -/
theorem of_checks {misaligned allowed : Bool} {f g : Fault} {result : Result} (h : HasNext result) :
    HasNext (if misaligned then raise f s else if allowed then result else raise g s) := by
  split_ifs
  · exact of_next
  · exact h
  · exact of_next

theorem of_branch {taken : Bool} {off : BitVec 16} : HasNext (branch taken off s) := by
  cases taken with
  | true => exact of_next
  | false => exact of_next

theorem of_localCall {d : Int} : HasNext (localCall d s) := by
  cases hfull : s.callStackFull with
  | true => exact ⟨_, localCall_of_full hfull d⟩
  | false => exact ⟨_, localCall_of_not_full hfull d⟩

theorem of_returnOrEnd : HasNext (returnOrEnd s) := by
  cases hcs : s.cs with
  | nil => exact returnOrEnd_of_nil hcs ▸ of_withReg fun _ => of_next
  | cons fr rest => exact ⟨_, returnOrEnd_of_cons hcs⟩

theorem of_finishLookup {dst : Reg} {v : Option W64} : HasNext (finishLookup dst v s) := by
  cases v with
  | some a => exact ⟨_, finishLookup_some dst a s⟩
  | none => exact ⟨_, finishLookup_none dst s⟩

/-- A call of which the relation has no outcome takes HelperFault (R508), so it has a next state as well. -/
theorem of_helperCall {h? : Option Helper} {id : Int} : HasNext (helperCall h? id s) := by
  cases h? with
  | none => exact ⟨_, helperCall_none id s⟩
  | some h =>
    cases ha : h.answer s with
    | none =>
      obtain rfl := Helper.answer_eq_none_iff.1 ha
      exact ⟨_, helperCall_unknown id s⟩
    | some a =>
      cases hr : firstNoValue s.regs a.reads with
      | some r => exact ⟨_, helperCall_of_unset ha hr id⟩
      | none =>
        cases he : a.effect with
        | none => exact ⟨_, helperCall_of_no_effect ha hr he id⟩
        | some e => exact ⟨_, helperCall_of_effect ha hr he id⟩

end HasNext

/-- Every instruction gives a next state. The cases are by what follows the registers that are read, and how many these
are; the last one is of those that read one register and write one. -/
theorem exec_hasNext (i : Instr) (s : State) : HasNext (exec i s) := by
  cases i with
  | callHelper | callBtf => exact .of_helperCall
  | callLocal => exact .of_localCall
  | exit => exact .of_returnOrEnd
  | ldMapFd | ldMapValFd | ldVarAddr | ldCodeAddr | ldMapIdx | ldMapValIdx => exact .of_finishLookup
  | mov32Imm | mov64Imm | ja | ja32 | lddw | ldAbsW | ldAbsH | ldAbsB | ldIndW | ldIndH | ldIndB | imm64Hi =>
    exact .of_next
  | add32Reg | add64Reg | sub32Reg | sub64Reg | mul32Reg | mul64Reg | div32Reg | div64Reg | sdiv32Reg | sdiv64Reg
  | or32Reg | or64Reg | and32Reg | and64Reg | lsh32Reg | lsh64Reg | rsh32Reg | rsh64Reg | mod32Reg | mod64Reg
  | smod32Reg | smod64Reg | xor32Reg | xor64Reg | arsh32Reg | arsh64Reg =>
    exact .of_withReg fun _ => .of_withReg fun _ => .of_next
  | jeq64Imm | jeq32Imm | jgt64Imm | jgt32Imm | jge64Imm | jge32Imm | jset64Imm | jset32Imm | jne64Imm | jne32Imm
  | jsgt64Imm | jsgt32Imm | jsge64Imm | jsge32Imm | jlt64Imm | jlt32Imm | jle64Imm | jle32Imm | jslt64Imm
  | jslt32Imm | jsle64Imm | jsle32Imm =>
    exact .of_withReg fun _ => .of_branch
  | jeq64Reg | jeq32Reg | jgt64Reg | jgt32Reg | jge64Reg | jge32Reg | jset64Reg | jset32Reg | jne64Reg | jne32Reg
  | jsgt64Reg | jsgt32Reg | jsge64Reg | jsge32Reg | jlt64Reg | jlt32Reg | jle64Reg | jle32Reg | jslt64Reg
  | jslt32Reg | jsle64Reg | jsle32Reg =>
    exact .of_withReg fun _ => .of_withReg fun _ => .of_branch
  | ldxw | ldxh | ldxb | ldxdw | ldxsw | ldxsh | ldxsb | stw | sth | stb | stdw =>
    exact .of_withReg fun _ => .of_checks .of_next
  | stxw | stxh | stxb | stxdw | atomicAdd32 | atomicFetchAdd32 | atomicOr32 | atomicFetchOr32 | atomicAnd32
  | atomicFetchAnd32 | atomicXor32 | atomicFetchXor32 | atomicXchg32 | atomicAdd64 | atomicFetchAdd64 | atomicOr64
  | atomicFetchOr64 | atomicAnd64 | atomicFetchAnd64 | atomicXor64 | atomicFetchXor64 | atomicXchg64 =>
    exact .of_withReg fun _ => .of_withReg fun _ => .of_checks .of_next
  | atomicCmpxchg32 | atomicCmpxchg64 =>
    exact .of_withReg fun _ => .of_withReg fun _ => .of_withReg fun _ => .of_checks .of_next
  | _ => exact .of_withReg fun _ => .of_next

/-- A running state steps: to a fault before execution, or as its instruction does. -/
theorem step_hasNext {s : State} (hr : s.out = .running) : HasNext (step s) := by
  cases hf : s.fetch with
  | none => exact ⟨_, step_of_fetch_none hr hf⟩
  | some slots =>
    cases hd : decode s.params.hostEndian slots with
    | error r => exact ⟨_, step_of_undecodable hr hf hd⟩
    | ok i =>
      cases hp : i.permitted s.params with
      | false => exact ⟨_, step_of_forbidden hr hf hd hp⟩
      | true => exact step_of_permitted hr hf hd hp ▸ exec_hasNext i s.agentStep

end Machine

/-! ## The obligations -/

/-- Settles O6: the three ways a step can end before execution. -/
theorem stepFaultsBeforeExecution : Obligations.StepFaultsBeforeExecution :=
  fun _ hr => ⟨step_of_fetch_none hr, fun _ _ hf hd => step_of_undecodable hr hf hd,
    fun _ _ hf hd hno => step_of_forbidden hr hf hd (Instr.permitted_eq_false_iff.2 hno)⟩

/-- Settles O10: every path through fetch, decoding, permission and execution ends in a next state. -/
theorem runningStateIsNeverStuck : Obligations.RunningStateIsNeverStuck := fun _ hr => step_hasNext hr

/-- Settles O11: of the ways a step can go, those that leave a faulted status set nothing else. -/
theorem faultsArePrecise : Obligations.FaultsArePrecise :=
  fun _ _ _ hr hstep ho => (step_effect hstep).eq_faultedWith hr ho

end Sys2Proof
end
